-- ==== Sys2Proof/Word.lean ====
section
/-! DEFINITION. The fixed-width words of the block: bytes, binary64 patterns, channel numbers (spec 00 R9, R10). -/

namespace Sys2Proof

/-- `u8` of spec 00 R10: a register address or a register value on the bus. -/
abbrev Byte := BitVec 8

/-- An `f64` of spec 00 R10, kept as its 64-bit IEEE 754 binary64 pattern. -/
abbrev F64 := BitVec 64

/-- A channel id 0..15 (`NCH` = 16, spec 00 R6). -/
abbrev Chan := Fin 16

end Sys2Proof
end

