-- ==== Sys2Proof/Syntax.lean ====
section
/-! DEFINITION. The twelve operations of the block (spec 30 R91) and the operation record that spells one (spec 30 R90). -/

namespace Sys2Proof

/-- The closed enumeration of commands (spec 30 R93). -/
inductive Command where
  | forward
  | backward
  | brake
  | release
  deriving DecidableEq, Repr

/-- The closed enumeration of step styles (spec 30 R94). -/
inductive StepStyle where
  | single
  | double
  | interleave
  | microstep
  deriving DecidableEq, Repr

/-- One operation with its operands BEFORE validation (spec 30 R90, R92): integers are unbounded, `cmd` and `style` are
codes, `freq` and `rt` are binary64 patterns. One constructor per row of the opcode table. -/
inductive Instr where
  | init
  | setch (ch on off : Int)
  | setall (on off : Int)
  | setfreq (freq : F64)
  | setpin (pin val : Int)
  | dcrun (m cmd : Int)
  | dcspeed (m speed : Int)
  | rundc (m cmd speed : Int) (rt : Option F64)
  | stspeed (s rpm : Int)
  | onestep (s cmd style : Int)
  | step (s : Int) (n : Nat) (cmd style : Int)
  | runst (s : Int) (n : Nat) (cmd speed style : Int)
  deriving DecidableEq, Repr

/-- One typed operand field of an operation record (spec 30 R90): "typed values, not packed bits". `absent` is the `None`
that the runtime field of RUNDC may hold. -/
inductive Operand where
  | int (v : Int)
  | nat (v : Nat)
  | f64 (b : F64)
  | absent
  deriving DecidableEq, Repr

/-- An operation record as the host sends it (spec 30 R90): an 8-bit selector followed by a tuple of typed operands. -/
structure Record where
  sel : Byte
  args : List Operand
  deriving DecidableEq, Repr

end Sys2Proof
end

