-- ==== Sys2Proof/Config.lean ====
section
/-! DEFINITION. The configuration of the block (spec 00 R7), fixed at construction, and the free values the spec leaves
open. The default values and the constants of spec 00 R6 are in Machine/Params.lean. -/

namespace Sys2Proof

/-- One H-bridge: its duty channel and its two direction channels (spec 41 R160). A channel is 0..15 by its type. -/
structure Triple where
  pwm : Chan
  in1 : Chan
  in2 : Chan
  deriving DecidableEq, Repr

/-- The two bridges of a stepper (spec 42 R200). -/
structure StepperWiring where
  a : Triple
  b : Triple
  deriving DecidableEq, Repr

/-- The four direction pins of a stepper, the values of `COIL_PIN_ORDER` (spec 42 R215). -/
inductive BridgePin where
  | ain1
  | ain2
  | bin1
  | bin2
  deriving DecidableEq, Repr

/-- How the Single and Double half-step correction combines with the full step (spec 42 R213). -/
inductive CorrectionMode where
  | addBoth
  | correctionOnly
  deriving DecidableEq, Repr

/-- Whether the zero duty of a Backward microstep reaches the outputs (spec 42 R217). -/
inductive MicroBackZero where
  | overwritten
  | visible
  deriving DecidableEq, Repr

/-- What happens to a stepper command issued while a sequence is in flight (spec 42 R240). -/
inductive InflightPolicy where
  | reject
  | supersede
  deriving DecidableEq, Repr, Inhabited

/-- Whether the bus handle could be opened at construction (spec 10 R45). -/
inductive BusHandle where
  | open
  | failed
  deriving DecidableEq, Repr, Inhabited

/-- One draw of the bus oracle (spec 20 R66): the transaction succeeds, a read with the byte given (a write ignores it),
or it fails. -/
inductive Answer where
  | ok (b : Byte)
  | busError
  deriving DecidableEq, Repr, Inhabited

/-- The configuration fields of spec 00 R7. DESIGN CHOICE (log entry 16): the prescale bounds are bytes, since PRESCALE is
an 8-bit register. -/
structure Config where
  chipAddr : BitVec 7
  wiringDc : Vector Triple 4
  wiringSt : Vector StepperWiring 2
  /-- Patterns `[c0, c1, c2, c3]` as the nibble `c0 + 2*c1 + 4*c2 + 8*c3` (spec 30 R106). -/
  coilFull : Vector (BitVec 4) 8
  coilMicro : Vector (BitVec 4) 4
  coilPinOrder : Vector BridgePin 4
  stepsPerRev : Vector Nat 2
  spsInit : Rat
  prescaleMin : Byte
  prescaleMax : Byte
  initAllOff : Int × Int
  correctionMode : CorrectionMode
  microBackZero : MicroBackZero
  freqMaskRestart : Bool
  inflightPolicy : InflightPolicy
  deriving DecidableEq, Repr

/-- What spec 00 R7 asks of a configuration beyond the types: positive steps per revolution, a positive initial delay. -/
def Config.wellFormed (c : Config) : Bool :=
  decide (0 < c.stepsPerRev[0]) && decide (0 < c.stepsPerRev[1]) && decide (0 < c.spsInit)

/-- FREE VALUE (log entry 3): the oracle's answer to the transaction numbered `k`, when State lists none (spec 20 R66). -/
opaque Config.freeAnswer : Nat → Answer

/-- FREE VALUE (log entry 4): which of the agents that can move goes at choice `k`, when State lists no choice (spec 60 R269). -/
opaque Config.freeTurn : Nat → Nat

/-- FREE VALUE (log entry 6): the draw of `st.bus` at construction (spec 10 R45, R50). -/
opaque Config.busAtConstruction : BusHandle

/-- FREE VALUE (log entry 2): `INFLIGHT_POLICY`, which the spec leaves OPEN (spec 00 R7, 42 R240). -/
opaque Config.inflightPolicyOpen : InflightPolicy

end Sys2Proof
end

