-- ==== Sys2Proof/Machine/Binary64.lean ====
section
/-! DEFINITION. IEEE 754 binary64 as spec 00 R10 asks for it: the value of a pattern, and rounding to nearest, ties to
even, of an exact result. An operation is computed exactly on rationals and then rounded. -/

namespace Sys2Proof.Machine

/-- The result of a binary64 operation on operands that make no NaN: a finite value or an infinity. The sign of a zero is
not kept (log entry 15). -/
inductive Real64 where
  | finite (q : Rat)
  | posInf
  | negInf
  deriving DecidableEq, Repr

/-- The sign bit of a pattern. -/
def F64.negative (b : F64) : Bool := decide (2 ^ 63 ≤ b.toNat)

/-- The biased exponent field of a pattern. -/
def F64.expField (b : F64) : Nat := b.toNat / 2 ^ 52 % 2048

/-- The fraction field of a pattern. -/
def F64.fracField (b : F64) : Nat := b.toNat % 2 ^ 52

/-- The exact value of a finite pattern: subnormal when the exponent field is 0, normal otherwise. -/
def F64.magnitude (b : F64) : Rat :=
  let e := F64.expField b
  if e = 0 then (F64.fracField b : Rat) / ((2 ^ 1074 : Nat) : Rat)
  else if 1075 ≤ e then (((2 ^ 52 + F64.fracField b) * 2 ^ (e - 1075) : Nat) : Rat)
  else ((2 ^ 52 + F64.fracField b : Nat) : Rat) / ((2 ^ (1075 - e) : Nat) : Rat)

/-- The value of a pattern; none for an infinity or a NaN. -/
def F64.value (b : F64) : Option Rat :=
  if F64.expField b = 2047 then none
  else some (if F64.negative b then -F64.magnitude b else F64.magnitude b)

/-- The integer nearest to `n / d`, a tie to the even one. -/
def nearestEven (n d : Nat) : Nat :=
  let k := n / d
  let r := n % d
  if 2 * r < d then k
  else if d < 2 * r then k + 1
  else if k % 2 = 0 then k else k + 1

/-- The exponent `e` of the unit in the last place for a positive `n / d`: `2^52 ≤ (n/d) / 2^e < 2^53`, but never below
the subnormal unit -1074. -/
def ulpExponent (n d : Nat) : Int :=
  let e : Int := (Nat.log2 n : Int) - (Nat.log2 d : Int) - 52
  let small : Bool :=
    if 0 ≤ e then decide (n < 2 ^ 52 * d * 2 ^ e.toNat) else decide (n * 2 ^ (-e).toNat < 2 ^ 52 * d)
  max (if small then e - 1 else e) (-1074)

/-- A positive `n / d` rounded to binary64, to nearest, ties to even; none when it overflows. -/
def roundPositive (n d : Nat) : Option Rat :=
  let e := ulpExponent n d
  let v : Rat :=
    if 0 ≤ e then ((nearestEven n (d * 2 ^ e.toNat) * 2 ^ e.toNat : Nat) : Rat)
    else ((nearestEven (n * 2 ^ (-e).toNat) d : Nat) : Rat) / ((2 ^ (-e).toNat : Nat) : Rat)
  if ((2 ^ 1024 : Nat) : Rat) ≤ v then none else some v

/-- An exact result rounded to binary64 (spec 00 R10). -/
def round64 (q : Rat) : Real64 :=
  if q = 0 then .finite 0
  else match roundPositive q.num.natAbs q.den with
    | some v => .finite (if q < 0 then -v else v)
    | none => if q < 0 then .negInf else .posInf

/-- `f64_div` by a finite nonzero divisor. -/
def div64 (x : Real64) (y : Rat) : Real64 :=
  match x with
  | .finite q => round64 (q / y)
  | .posInf => if y < 0 then .negInf else .posInf
  | .negInf => if y < 0 then .posInf else .negInf

/-- `f64_add` of a finite value (`f64_sub` is the addition of its negative). -/
def add64 (x : Real64) (y : Rat) : Real64 :=
  match x with
  | .finite q => round64 (q + y)
  | .posInf => .posInf
  | .negInf => .negInf

end Sys2Proof.Machine
end

