-- ==== Sys2Proof/WellFormed.lean ====
section
/-! DEFINITION. The legal operands of each operation (spec 30 R92, R93, R94), as one Boolean check on the syntax.
An operation that fails it is decoded and run like any other: it ends with a ConfigurationError (spec 30 R107, R108). -/

namespace Sys2Proof

/-- A closed range of integers. -/
def inRange (lo hi v : Int) : Bool := decide (lo ≤ v) && decide (v ≤ hi)

/-- A command code: 1..4 (spec 30 R93). -/
def Command.codeOk (c : Int) : Bool := inRange 1 4 c

/-- A stepper takes Forward (1) and Backward (2) only (spec 42 R210). -/
def Command.stepCodeOk (c : Int) : Bool := inRange 1 2 c

/-- A style code: 1..4 (spec 30 R94). -/
def StepStyle.codeOk (c : Int) : Bool := inRange 1 4 c

/-- The exponent field is not all ones: the pattern is a finite number. -/
def F64.finiteBits (b : F64) : Bool := decide (b.toNat / 2 ^ 52 % 2048 ≠ 2047)

/-- A legal frequency: finite and greater than 0 (spec 30 R92), read off the pattern. -/
def F64.freqOk (b : F64) : Bool :=
  F64.finiteBits b && decide (0 < b.toNat) && decide (b.toNat < 2 ^ 63)

/-- A legal runtime: absent, or finite and at least 0 (spec 30 R92); minus zero is at least 0. -/
def F64.runtimeOk : Option F64 → Bool
  | none => true
  | some b => F64.finiteBits b && decide (b.toNat ≤ 2 ^ 63)

/-- Every operand is in its legal domain (spec 30 R92). Ticks and DC speeds are clamped, so every value of theirs is legal. -/
def Instr.wellFormed : Instr → Bool
  | .init => true
  | .setch ch _ _ => inRange 0 15 ch
  | .setall _ _ => true
  | .setfreq f => F64.freqOk f
  | .setpin pin val => inRange 0 15 pin && inRange 0 1 val
  | .dcrun m cmd => inRange 0 3 m && Command.codeOk cmd
  | .dcspeed m _ => inRange 0 3 m
  | .rundc m cmd _ rt => inRange 0 3 m && Command.codeOk cmd && F64.runtimeOk rt
  | .stspeed s rpm => inRange 0 1 s && decide (1 ≤ rpm)
  | .onestep s cmd style => inRange 0 1 s && Command.stepCodeOk cmd && StepStyle.codeOk style
  | .step s _ cmd style => inRange 0 1 s && Command.stepCodeOk cmd && StepStyle.codeOk style
  | .runst s _ cmd speed style =>
      inRange 0 1 s && Command.stepCodeOk cmd && StepStyle.codeOk style && decide (1 ≤ speed)

end Sys2Proof
end

