-- ==== Sys2Proof/Decode.lean ====
section
/-! DEFINITION. The decoder of operation records (spec 30 R91, R92, R107), and after it the encoder written from the same
table. Every record is answered: with the operation it spells, or with the reason it spells none. -/

namespace Sys2Proof

/-- Why a record spells no operation. -/
inductive DecodeError where
  /-- The selector is not in spec 30 R91 (spec 30 R107). -/
  | reservedSelector (sel : Byte)
  /-- The operand tuple has not the fields that spec 30 R91 gives the selector. -/
  | malformedOperands (sel : Byte)
  deriving DecidableEq, Repr

/-- The selectors that spec 30 R91 assigns. -/
def assignedSelectors : List Byte :=
  [0x01, 0x02, 0x03, 0x04, 0x05, 0x10, 0x11, 0x12, 0x20, 0x21, 0x22, 0x23]

/-- The kinds of operand field in spec 30 R91. -/
inductive FieldKind where
  | int
  | nat
  | f64
  | optF64
  deriving DecidableEq, Repr

/-- The operand fields that spec 30 R91 gives a selector; none for a reserved one. -/
def signature (sel : Byte) : Option (List FieldKind) :=
  match sel with
  | 0x01#8 => some []
  | 0x02#8 => some [.int, .int, .int]
  | 0x03#8 => some [.int, .int]
  | 0x04#8 => some [.f64]
  | 0x05#8 => some [.int, .int]
  | 0x10#8 => some [.int, .int]
  | 0x11#8 => some [.int, .int]
  | 0x12#8 => some [.int, .int, .int, .optF64]
  | 0x20#8 => some [.int, .int]
  | 0x21#8 => some [.int, .int, .int]
  | 0x22#8 => some [.int, .nat, .int, .int]
  | 0x23#8 => some [.int, .nat, .int, .int, .int]
  | _ => none

/-- The operand of all-zero bits of a kind; a runtime field of zeros is `None` (log entry 1). -/
def FieldKind.zero : FieldKind → Operand
  | .int => .int 0
  | .nat => .nat 0
  | .f64 => .f64 0
  | .optF64 => .absent

/-- A runtime field (spec 30 R92): `None` or an f64; anything else is no runtime. -/
def runtimeOperand : Operand → Option (Option F64)
  | .absent => some none
  | .f64 b => some (some b)
  | _ => none

/-- The decoder (spec 30 R91, R92): total on every selector byte and every operand tuple. -/
def decode (r : Record) : Except DecodeError Instr :=
  match r.sel, r.args with
  | 0x01#8, [] => .ok .init
  | 0x02#8, [.int ch, .int on, .int off] => .ok (.setch ch on off)
  | 0x03#8, [.int on, .int off] => .ok (.setall on off)
  | 0x04#8, [.f64 f] => .ok (.setfreq f)
  | 0x05#8, [.int pin, .int val] => .ok (.setpin pin val)
  | 0x10#8, [.int m, .int cmd] => .ok (.dcrun m cmd)
  | 0x11#8, [.int m, .int speed] => .ok (.dcspeed m speed)
  | 0x12#8, [.int m, .int cmd, .int speed, rt] =>
      match runtimeOperand rt with
      | some t => .ok (.rundc m cmd speed t)
      | none => .error (.malformedOperands r.sel)
  | 0x20#8, [.int s, .int rpm] => .ok (.stspeed s rpm)
  | 0x21#8, [.int s, .int cmd, .int style] => .ok (.onestep s cmd style)
  | 0x22#8, [.int s, .nat n, .int cmd, .int style] => .ok (.step s n cmd style)
  | 0x23#8, [.int s, .nat n, .int cmd, .int speed, .int style] => .ok (.runst s n cmd speed style)
  | sel, _ => if sel ∈ assignedSelectors then .error (.malformedOperands sel) else .error (.reservedSelector sel)

/-- The runtime of RUNDC as an operand field. -/
def runtimeField : Option F64 → Operand
  | none => .absent
  | some b => .f64 b

/-- The encoder (spec 30 R91): the record that spells an operation. -/
def encode : Instr → Record
  | .init => ⟨0x01, []⟩
  | .setch ch on off => ⟨0x02, [.int ch, .int on, .int off]⟩
  | .setall on off => ⟨0x03, [.int on, .int off]⟩
  | .setfreq f => ⟨0x04, [.f64 f]⟩
  | .setpin pin val => ⟨0x05, [.int pin, .int val]⟩
  | .dcrun m cmd => ⟨0x10, [.int m, .int cmd]⟩
  | .dcspeed m speed => ⟨0x11, [.int m, .int speed]⟩
  | .rundc m cmd speed rt => ⟨0x12, [.int m, .int cmd, .int speed, runtimeField rt]⟩
  | .stspeed s rpm => ⟨0x20, [.int s, .int rpm]⟩
  | .onestep s cmd style => ⟨0x21, [.int s, .int cmd, .int style]⟩
  | .step s n cmd style => ⟨0x22, [.int s, .nat n, .int cmd, .int style]⟩
  | .runst s n cmd speed style => ⟨0x23, [.int s, .nat n, .int cmd, .int speed, .int style]⟩

/-- The pseudo-operations of spec 30 R110, each exactly the operation it expands to. -/
def Instr.pinlo (p : Int) : Instr := .setpin p 0

/-- PINHI p (spec 30 R110). -/
def Instr.pinhi (p : Int) : Instr := .setpin p 1

/-- DUTY c, t (spec 30 R110). -/
def Instr.duty (c t : Int) : Instr := .setch c 0 t

/-- DCSTOP m (spec 30 R110): RELEASE has code 4 (spec 30 R93). -/
def Instr.dcstop (m : Int) : Instr := .dcrun m 4

/-- The record whose selector byte is the table's word `w` and whose operand fields are zeros (log entry 1). The one word
of a row is its selector; bits above it are no word of the record. -/
def tableRecord (w : Nat) : Record :=
  ⟨BitVec.ofNat 8 w, ((signature (BitVec.ofNat 8 w)).getD []).map FieldKind.zero⟩

/-- What the decoder reads from an instruction whose table bits are `w`. -/
def decodeTableWord (nbits w : Nat) : Option Instr :=
  match decode (tableRecord (w % 2 ^ nbits)) with
  | .ok i => some i
  | .error _ => none

end Sys2Proof
end

