-- ==== Sys2Proof/Machine/Params.lean ====
section
/-! DEFINITION. The constants the document fixes (spec 00 R6) and the default configuration (spec 00 R7, decisions D5, D6,
D8, D9, D22 to D27). -/

namespace Sys2Proof.Machine

/-- MODE1, address 0x00 (spec 10 R28). -/
def regMode1 : Byte := 0x00
/-- MODE2, address 0x01 (spec 10 R29). -/
def regMode2 : Byte := 0x01
/-- PRESCALE, address 0xFE (spec 10 R30). -/
def regPrescale : Byte := 0xFE
/-- LED0_ON_L, address 0x06 (spec 10 R31). -/
def regLed0 : Byte := 0x06
/-- ALL_LED_ON_L, address 0xFA (spec 10 R32). -/
def regAllLed : Byte := 0xFA

/-- MODE1 bit 4 (spec 10 R28). -/
def bitSleep : Byte := 0x10
/-- MODE1 bit 0 (spec 10 R28). -/
def bitAllcall : Byte := 0x01
/-- MODE2 bit 2 (spec 10 R29). -/
def bitOutdrv : Byte := 0x04
/-- MODE1 bit 7 (spec 10 R28). -/
def bitRestart : Byte := 0x80

/-- TICK_MAX = FULL = 4096 (spec 00 R6): the upper clamp of a tick, and the full-on or full-off sentinel. -/
def tickMax : Nat := 4096
/-- SPEED_MAX = 255 (spec 00 R6). -/
def speedMax : Nat := 255
/-- DUTY_SCALE = 16 (spec 00 R6). -/
def dutyScale : Nat := 16
/-- FULL_DUTY = 255 (spec 00 R6). -/
def fullDuty : Nat := 255
/-- MICROSTEPS = 8 (spec 00 R6). -/
def microsteps : Nat := 8
/-- HALF = 4 position ticks (spec 00 R6). -/
def halfStep : Nat := 4
/-- FULLSTEP = 8 position ticks (spec 00 R6). -/
def fullStep : Nat := 8
/-- OSC_HZ = 25,000,000.0 (spec 00 R6). -/
def oscHz : Rat := 25000000
/-- TICKS = 4096, the divisor of the prescale formula (spec 00 R6, 40 R140). -/
def ticks : Rat := 4096
/-- SETTLE_MS = 5, in seconds (spec 00 R6, 40 R120, R140). -/
def settleSeconds : Rat := 1 / 200

/-- CURVE (spec 00 R6, 42 R202). -/
def curve : Vector Nat 9 := #v[0, 50, 98, 142, 180, 212, 236, 250, 255]

/-- WIRING_DC, default (spec 41 R160). -/
def defaultWiringDc : Vector Triple 4 := #v[⟨8, 10, 9⟩, ⟨13, 11, 12⟩, ⟨2, 4, 3⟩, ⟨7, 5, 6⟩]

/-- WIRING_ST, default (spec 42 R200). -/
def defaultWiringSt : Vector StepperWiring 2 :=
  #v[⟨⟨8, 10, 9⟩, ⟨13, 11, 12⟩⟩, ⟨⟨2, 4, 3⟩, ⟨7, 5, 6⟩⟩]

/-- COIL_FULL, default (spec 42 R211); a pattern `[c0, c1, c2, c3]` is written with c0 as the last digit. -/
def defaultCoilFull : Vector (BitVec 4) 8 :=
  #v[0b0001, 0b0011, 0b0010, 0b0110, 0b0100, 0b1100, 0b1000, 0b1001]

/-- COIL_MICRO, default (spec 42 R212). -/
def defaultCoilMicro : Vector (BitVec 4) 4 := #v[0b0011, 0b0110, 0b1100, 0b1001]

/-- COIL_PIN_ORDER, default (spec 42 R215). -/
def defaultCoilPinOrder : Vector BridgePin 4 := #v[.ain2, .bin1, .ain1, .bin2]

/-- The default configuration (spec 00 R7). INFLIGHT_POLICY has no default in the spec: it stays a free value. -/
def defaultConfig : Config where
  chipAddr := 0x60
  wiringDc := defaultWiringDc
  wiringSt := defaultWiringSt
  coilFull := defaultCoilFull
  coilMicro := defaultCoilMicro
  coilPinOrder := defaultCoilPinOrder
  stepsPerRev := #v[200, 200]
  spsInit := 1 / 10
  prescaleMin := 3
  prescaleMax := 255
  initAllOff := (0, 0)
  correctionMode := .addBoth
  microBackZero := .overwritten
  freqMaskRestart := false
  inflightPolicy := Config.inflightPolicyOpen

end Sys2Proof.Machine
end

