-- ==== Sys2Proof/Machine/State.lean ====
section
/-! DEFINITION. The state of the block (spec 10), as plain data, and its value after reset (spec 10 R50, 70 R290). -/

namespace Sys2Proof.Machine

open Sys2Proof

/-- Why the machine stops with a fault. -/
inductive Fault where
  /-- Raised by the reader `readStyle` when stepper `s` has no style yet (spec 10 R36: "a read of `None` faults").
  No operation reads the style, so no step raises it. SAFE. -/
  | styleUnset (s : Fin 2)
  deriving DecidableEq, Repr

/-- Why a step is refused. -/
inductive Refusal where
  /-- An instruction without a meaning yet; raised by `exec` alone. SAFE. No arm raises it in this model. -/
  | notModelled (mnemonic : String)
  /-- Raised by `step` when the host's record has a selector outside spec 30 R91 (spec 30 R107). SAFE. -/
  | reservedSelector (sel : Byte)
  /-- Raised by `step` when the operand tuple of the host's record is not the one spec 30 R91 gives its selector (log entry 1). SAFE. -/
  | malformedOperands (sel : Byte)
  deriving DecidableEq, Repr

/-- The agents that run operations (spec 60 R274). -/
inductive Actuator where
  | controller
  | dc (m : Fin 4)
  | stepper (s : Fin 2)
  deriving DecidableEq, Repr

/-- All agents (spec 60 R274). -/
inductive Agent where
  | host
  | actuator (a : Actuator)
  | release (m : Fin 4)
  deriving DecidableEq, Repr

/-- The directions a stepper takes (spec 42 R210). -/
inductive Direction where
  | forward
  | backward
  deriving DecidableEq, Repr

/-- The phase of a step sequence (spec 10 R40). -/
inductive Phase where
  | main
  | correct
  deriving DecidableEq, Repr

/-- Where a step sequence is (spec 10 R40). -/
inductive SeqAt where
  | inStep
  | atWait
  deriving DecidableEq, Repr

/-- The contents of a running sequence (spec 10 R40). -/
structure Running where
  cmd : Direction
  style : StepStyle
  main : Nat
  phase : Phase
  spsEff : Rat
  first : Bool
  place : SeqAt
  deriving DecidableEq, Repr

/-- `st.seq[s]` (spec 10 R40): the in-flight token is present exactly when it is not `idle`. -/
inductive Seq where
  | idle
  | running (r : Running)
  deriving DecidableEq, Repr

/-- The causes of a ConfigurationError, one per row of the table in spec 60 R260. -/
inductive Cause where
  | dcIndex
  | stepperIndex
  | channel
  | pin
  | pinValue
  | commandCode
  | styleCode
  | stepperCommand
  | rpm
  | zeroSpeed
  | frequency
  | runtime
  deriving DecidableEq, Repr

/-- One bus transaction as an error reports it (spec 60 R262): its register, and the value of a write; none for a read. -/
structure Txn where
  reg : Byte
  value : Option Byte
  deriving DecidableEq, Repr

/-- The oneSteps completed and the position reached, which a BusError in a step sequence carries (spec 60 R262). -/
structure Progress where
  steps : Nat
  pos : Nat
  deriving DecidableEq, Repr

/-- The result of an operation (spec 00 R12, 60 R260 to R265). Every error carries the operation record (spec 60 R262). -/
inductive Result where
  /-- Ok; ONESTEP returns the new position (spec 42 R214). -/
  | ok (pos : Option Nat)
  | configurationError (op : Instr) (cause : Cause)
  /-- The failing transaction is absent when the bus handle is Failed and none was issued (spec 10 R45). -/
  | busError (op : Instr) (txn : Option Txn) (progress : Option Progress)
  | busy (op : Instr)
  | cancelled (op : Instr)
  deriving DecidableEq, Repr

/-- The events of `st.hist` (spec 10 R43). -/
inductive Event where
  /-- A write transaction; `ok` is false when its outcome is BusError. -/
  | write (by_ : Actuator) (reg value : Byte) (ok : Bool)
  /-- A read transaction with its outcome: the byte, or BusError. -/
  | read (by_ : Actuator) (reg : Byte) (outcome : Answer)
  | wait (by_ : Actuator) (seconds : Rat)
  /-- An issue by the host; its agent is the one the operation is issued to (log entries 10, 32). -/
  | issue (to_ : Agent) (op : Instr)
  | done (by_ : Agent) (op : Instr) (result : Result)
  | cancel (s : Fin 2)
  | fire (m : Fin 4)
  deriving DecidableEq, Repr

/-- What SETFREQ and INIT write to MODE1, as a function of the byte they read (spec 30 R104). -/
inductive Mode1Write where
  /-- `m & ~SLEEP`, in INIT. -/
  | clearSleep
  /-- `old | SLEEP`, with RESTART cleared first when FREQ_MASK_RESTART. -/
  | sleep
  /-- `old`. -/
  | restore
  /-- `old | RESTART`. -/
  | restart
  deriving DecidableEq, Repr

/-- One action of an operation in progress. An operation's program is a list of them, written from its pseudocode. -/
inductive Act where
  /-- `if st.bus = Failed: return BusError(op)`. -/
  | checkBus
  | acquire
  | release
  | write (reg value : Byte)
  /-- `MemRead(0x00, 1)`; the byte is kept in the task. -/
  | readMode1
  /-- `MemWrite(0x00, 1, ..)` of a value computed from the byte kept. -/
  | writeMode1 (what : Mode1Write)
  /-- `wait(t)` inside INIT and SETFREQ. -/
  | wait (seconds : Rat)
  /-- `st.pending[m] <- Armed{t}`. -/
  | arm (m : Fin 4) (t : F64)
  /-- ONESTEP_BODY up to its output, which it puts in front of the rest. -/
  | oneStep (s : Fin 2) (cmd : Direction) (style : StepStyle)
  /-- The tests of STEP's two loops. -/
  | seqTest (s : Fin 2)
  /-- The end of a WAITPOINT. -/
  | seqWait (s : Fin 2)
  /-- The end of an invocation: `main <- main - 1` in the main loop. -/
  | seqCount (s : Fin 2)
  deriving DecidableEq, Repr

/-- An operation in progress (MODEL'S OWN, log entry 5). -/
structure Task where
  op : Instr
  /-- The agent the result is recorded for: the actuator, or the release agent of a firing (spec 41 R180). -/
  by_ : Agent
  todo : List Act
  /-- The byte of the latest `readMode1`; 0 before one. -/
  latch : Byte
  /-- Invocations completed, for the report of spec 60 R262. -/
  steps : Nat
  deriving DecidableEq, Repr

/-- The FIFO of an actuator agent (spec 10 R44) and its operation in progress. -/
structure Worker where
  queue : List Instr
  task : Option Task
  deriving DecidableEq, Repr

/-- One DC motor's state: its armed release (spec 10 R41) and its agent. -/
structure DcMotor where
  pending : Option F64
  work : Worker
  deriving DecidableEq, Repr

/-- One stepper's state (spec 10 R34 to R37, R40) and its agent. -/
structure Stepper where
  pos : Nat
  sps : Rat
  style : Option StepStyle
  acc : Nat
  seq : Seq
  work : Worker
  deriving DecidableEq, Repr

/-- `st.lock` (spec 10 R42). -/
inductive Lock where
  | free
  | held (a : Actuator)
  deriving DecidableEq, Repr

/-- The state of the block. `cfg` is configuration that no operation writes (spec 10 R20), carried here so that statements
over all states hold for every configuration (spec 00 R8, log entry 2). -/
structure State where
  cfg : Config
  /-- `st.img` (spec 10 R23): the `Known` bytes by address, strictly rising; an address not listed is `Unknown`. -/
  img : List Host.Cell
  ctrl : Worker
  dc : Vector DcMotor 4
  st : Vector Stepper 2
  lock : Lock
  hist : List Event
  bus : BusHandle
  /-- The host's records still to be issued, first first (log entry 18). -/
  inbox : List Record
  /-- The scheduler's choices still to come (log entry 4). -/
  sched : List Agent
  turn : Nat
  /-- The bus oracle's answers still to come (log entry 3). -/
  answers : List Answer
  drawn : Nat
  deriving DecidableEq, Repr

/-- An agent with nothing queued and nothing running. -/
def Worker.idle : Worker := ⟨[], none⟩

/-- A stepper right after construction (spec 10 R50). -/
def Stepper.reset (spsInit : Rat) : Stepper := ⟨0, spsInit, none, 0, .idle, Worker.idle⟩

/-- The block right after construction with a configuration and a bus handle (spec 10 R50, 70 R290). -/
def State.construct (cfg : Config) (bus : BusHandle) : State where
  cfg := cfg
  img := []
  ctrl := Worker.idle
  dc := Vector.replicate 4 ⟨none, Worker.idle⟩
  st := Vector.replicate 2 (Stepper.reset cfg.spsInit)
  lock := .free
  hist := []
  bus := bus
  inbox := []
  sched := []
  turn := 0
  answers := []
  drawn := 0

/-- The machine right after reset (spec 10 R50): the default configuration, and the bus handle a draw (log entry 6). -/
def State.reset : State := State.construct defaultConfig Config.busAtConstruction

end Sys2Proof.Machine
end

