-- ==== Sys2Proof/Machine/Operands.lean ====
section
/-! DEFINITION. Operand forms: validation (spec 30 R92), clamps (spec 60 R263), ticks and duties (spec 30 R101, R102, R103),
the prescale (spec 40 R140). -/

namespace Sys2Proof.Machine

/-- `clamp(v, lo, hi) = min(max(v, lo), hi)` (spec 00 R10). -/
def clamp (v lo hi : Int) : Int := min (max v lo) hi

/-- A tick operand clamped to 0..4096 (spec 40 R124). -/
def clampTick (v : Int) : Nat := (clamp v 0 (tickMax : Int)).toNat

/-- A speed operand clamped to 0..255 (spec 41 R170, 42 R238). -/
def clampSpeed (v : Int) : Nat := (clamp v 0 (speedMax : Int)).toNat

/-- The low byte of a tick (spec 30 R101). -/
def tickLow (t : Nat) : Byte := BitVec.ofNat 8 (t % 256)

/-- The high byte of a tick (spec 30 R101). -/
def tickHigh (t : Nat) : Byte := BitVec.ofNat 8 (t / 256)

/-- The tick of a duty (spec 30 R102). -/
def dutyTick (d : Nat) : Nat := d * dutyScale

/-- The address of LEDc_ON_L (spec 10 R31). -/
def chanBase (c : Chan) : Byte := regLed0 + BitVec.ofNat 8 (4 * c.val)

/-- A legal index below `n`; an index outside is never wrapped (spec 41 R161, 42 R201). -/
def indexOf? (n : Nat) (v : Int) : Option (Fin n) :=
  if h : 0 ≤ v ∧ v < n then some ⟨v.toNat, by omega⟩ else none

/-- A DC motor index, legal 0..3 (spec 41 R161). -/
def dcIndex? (m : Int) : Option (Fin 4) := indexOf? 4 m

/-- A stepper index, legal 0..1 (spec 42 R201). -/
def stepperIndex? (s : Int) : Option (Fin 2) := indexOf? 2 s

/-- A channel or pin number, legal 0..15 (spec 30 R92). -/
def chan? (c : Int) : Option Chan := indexOf? 16 c

/-- The command of a code (spec 30 R93). -/
def command? (c : Int) : Option Command :=
  if c = 1 then some .forward
  else if c = 2 then some .backward
  else if c = 3 then some .brake
  else if c = 4 then some .release
  else none

/-- The style of a code (spec 30 R94). -/
def style? (c : Int) : Option StepStyle :=
  if c = 1 then some .single
  else if c = 2 then some .double
  else if c = 3 then some .interleave
  else if c = 4 then some .microstep
  else none

/-- An index check that reports its cause. -/
def need {α : Type} (x : Option α) (c : Cause) : Except Cause α :=
  match x with
  | some v => .ok v
  | none => .error c

/-- The command operand of a DC operation (spec 30 R93). -/
def needCommand (c : Int) : Except Cause Command := need (command? c) .commandCode

/-- The style operand of a stepper operation (spec 30 R94). -/
def needStyle (c : Int) : Except Cause StepStyle := need (style? c) .styleCode

/-- The command operand of a stepper operation: Brake and Release are refused (spec 42 R210). -/
def needDirection (c : Int) : Except Cause Direction :=
  match command? c with
  | some .forward => .ok .forward
  | some .backward => .ok .backward
  | some .brake => .error .stepperCommand
  | some .release => .error .stepperCommand
  | none => .error .commandCode

/-- The value operand of SETPIN, exactly 0 or 1 (spec 40 R150). -/
def needPinValue (v : Int) : Except Cause Bool :=
  if v = 0 then .ok false else if v = 1 then .ok true else .error .pinValue

/-- The frequency operand of SETFREQ: finite and greater than 0.0 (spec 40 R140). -/
def needFrequency (f : F64) : Except Cause Rat :=
  match F64.value f with
  | some q => if 0 < q then .ok q else .error .frequency
  | none => .error .frequency

/-- The runtime operand of RUNDC: absent, or finite and at least 0.0 (spec 41 R176). -/
def needRuntime (rt : Option F64) : Except Cause (Option F64) :=
  match rt with
  | none => .ok none
  | some t =>
    match F64.value t with
    | some q => if 0 ≤ q then .ok (some t) else .error .runtime
    | none => .error .runtime

/-- The rpm operand of STSPEED: 1 or more (spec 42 R220). -/
def needRpm (rpm : Int) : Except Cause Nat :=
  if rpm < 1 then .error .rpm else .ok rpm.toNat

/-- The speed operand of RUNST: clamped to 0..255, then required nonzero (spec 42 R238). -/
def needStepperSpeed (speed : Int) : Except Cause Nat :=
  if clampSpeed speed = 0 then .error .zeroSpeed else .ok (clampSpeed speed)

/-- `floor(x + 0.5)` in binary64, clamped to the prescale range (spec 40 R140, R142); an infinite `x` is beyond the range
on its side. -/
def roundAndClamp (cfg : Config) (x : Real64) : Byte :=
  match add64 x (1 / 2) with
  | .finite y => BitVec.ofInt 8 (clamp y.floor cfg.prescaleMin.toNat cfg.prescaleMax.toNat)
  | .posInf => cfg.prescaleMax
  | .negInf => BitVec.ofInt 8 (min (cfg.prescaleMin.toNat : Int) cfg.prescaleMax.toNat)

/-- `x` of the prescale formula: `((25000000.0 / 4096.0) / freq) - 1.0` in binary64, in that order (spec 40 R140). -/
def prescaleX (freq : Rat) : Real64 :=
  add64 (div64 (div64 (.finite oscHz) ticks) freq) (-1)

/-- The PRESCALE byte of a frequency (spec 40 R140). -/
def prescale (cfg : Config) (freq : Rat) : Byte := roundAndClamp cfg (prescaleX freq)

/-- The byte SETFREQ or INIT writes to MODE1 after reading `m` (spec 30 R104). -/
def mode1Value (cfg : Config) (m : Byte) : Mode1Write → Byte
  | .clearSleep => m &&& ~~~bitSleep
  | .sleep => if cfg.freqMaskRestart then (m &&& ~~~bitRestart) ||| bitSleep else m ||| bitSleep
  | .restore => m
  | .restart => m ||| bitRestart

end Sys2Proof.Machine
end

