-- ==== Sys2Proof/Machine/Ops.lean ====
section
/-! DEFINITION. The named operations over the state: the register image (spec 10 R23 to R27), the history, the lock, the
agents' queues and tasks, the bus transactions (spec 20 R66), and the ending of an operation with a result, which is the
block's only form of trap entry (spec 60 R264, R267). -/

namespace Sys2Proof.Machine

/-! ### The register image -/

/-- The image entry of an address: the `Known` byte, or none for `Unknown` (spec 10 R23). -/
def imgGet : List Host.Cell → Nat → Option Byte
  | [], _ => none
  | (b, v) :: rest, a => if a = b then some v else imgGet rest a

/-- Makes an entry `Known`, keeping the addresses strictly rising. -/
def imgPut : List Host.Cell → Nat → Byte → List Host.Cell
  | [], a, v => [(a, v)]
  | (b, w) :: rest, a, v =>
    if a < b then (a, v) :: (b, w) :: rest
    else if a = b then (a, v) :: rest
    else (b, w) :: imgPut rest a v

/-- Makes an entry `Unknown`. -/
def imgForget : List Host.Cell → Nat → List Host.Cell
  | [], _ => []
  | (b, w) :: rest, a => if a = b then rest else (b, w) :: imgForget rest a

/-- The canonical form: addresses strictly rising, each a register address 0x00..0xFF (spec 20 R60). -/
def imgWf (m : List Host.Cell) : Bool :=
  decide (m.Pairwise (fun x y => x.1 < y.1)) && m.all (fun c => decide (c.1 < 256))

/-- The image entries a write to a register reaches: the register (spec 10 R24), and for an all-channel alias
`0xFA + k` the byte `k` of every channel (spec 10 R25). -/
def imgTargets (reg : Byte) : List Nat :=
  if regAllLed.toNat ≤ reg.toNat ∧ reg.toNat ≤ regAllLed.toNat + 3 then
    reg.toNat :: (List.finRange 16).map (fun c => (chanBase c).toNat + (reg.toNat - regAllLed.toNat))
  else [reg.toNat]

/-- The image after a write transaction: `Known` on Ok, `Unknown` on BusError (spec 10 R24, R25). -/
def imgAfterWrite (m : List Host.Cell) (reg value : Byte) (ok : Bool) : List Host.Cell :=
  (imgTargets reg).foldl (fun acc a => if ok then imgPut acc a value else imgForget acc a) m

/-- The image after one event: only a write transaction touches it (spec 10 R24, R25). -/
def imgAfterEvent (m : List Host.Cell) : Event → List Host.Cell
  | .write _ reg value ok => imgAfterWrite m reg value ok
  | _ => m

/-- The image after some events. -/
def imgAfterEvents (m : List Host.Cell) (h : List Event) : List Host.Cell := h.foldl imgAfterEvent m

/-- The image that a history builds from an empty one (spec 10 R43: the history is what `st.img` is built from). -/
def imgOfHist (h : List Event) : List Host.Cell := imgAfterEvents [] h

/-- A logical tick value from two image bytes: defined only when both are `Known` (spec 10 R26). -/
def tickOf (low high : Option Byte) : Option Nat :=
  match low, high with
  | some l, some h => some (h.toNat * 256 + l.toNat)
  | _, _ => none

/-- `on(c)` of spec 10 R26. -/
def State.chanOn (s : State) (c : Chan) : Option Nat :=
  tickOf (imgGet s.img (chanBase c).toNat) (imgGet s.img ((chanBase c).toNat + 1))

/-- `off(c)` of spec 10 R26. -/
def State.chanOff (s : State) (c : Chan) : Option Nat :=
  tickOf (imgGet s.img ((chanBase c).toNat + 2)) (imgGet s.img ((chanBase c).toNat + 3))

/-! ### History and agents -/

/-- Appends one event to `st.hist` (spec 10 R43). -/
def State.log (s : State) (e : Event) : State := { s with hist := s.hist ++ [e] }

/-- The state of stepper `k`. -/
def State.stepper (s : State) (k : Fin 2) : Stepper := s.st[k]

/-- The state of DC motor `m`. -/
def State.motor (s : State) (m : Fin 4) : DcMotor := s.dc[m]

/-- Replaces the state of stepper `k`. -/
def State.setStepper (s : State) (k : Fin 2) (x : Stepper) : State := { s with st := s.st.set k x }

/-- Replaces the state of DC motor `m`. -/
def State.setMotor (s : State) (m : Fin 4) (x : DcMotor) : State := { s with dc := s.dc.set m x }

/-- The queue and task of an agent. -/
def State.worker (s : State) : Actuator → Worker
  | .controller => s.ctrl
  | .dc m => (s.motor m).work
  | .stepper k => (s.stepper k).work

/-- Replaces the queue and task of an agent. -/
def State.setWorker (s : State) (a : Actuator) (w : Worker) : State :=
  match a with
  | .controller => { s with ctrl := w }
  | .dc m => s.setMotor m { s.motor m with work := w }
  | .stepper k => s.setStepper k { s.stepper k with work := w }

/-- Sets the operation in progress of an agent. -/
def State.setTask (s : State) (a : Actuator) (t : Option Task) : State :=
  s.setWorker a { s.worker a with task := t }

/-- Sets the queue of an agent. -/
def State.setQueue (s : State) (a : Actuator) (q : List Instr) : State :=
  s.setWorker a { s.worker a with queue := q }

/-- Puts an operation at the end of an agent's FIFO (spec 10 R44). -/
def State.enqueue (s : State) (a : Actuator) (i : Instr) : State :=
  s.setQueue a ((s.worker a).queue ++ [i])

/-- Sets `st.seq[k]`. -/
def State.setSeq (s : State) (k : Fin 2) (q : Seq) : State := s.setStepper k { s.stepper k with seq := q }

/-- Sets `st.pending[m]`. -/
def State.setPending (s : State) (m : Fin 4) (p : Option F64) : State :=
  s.setMotor m { s.motor m with pending := p }

/-- Sets `st.lock`. -/
def State.setLock (s : State) (l : Lock) : State := { s with lock := l }

/-- The style of the latest oneStep; reading None faults (spec 10 R36). No operation reads it. -/
def readStyle (s : State) (k : Fin 2) : Host.Outcome StepStyle Fault Refusal :=
  match (s.stepper k).style with
  | some y => .next y
  | none => .fault (.styleUnset k)

/-! ### Bus transactions -/

/-- The oracle's next answer (spec 20 R66): the next one State lists, and beyond them a free value (log entry 3). -/
def State.nextAnswer (s : State) : Answer :=
  match s.answers with
  | a :: _ => a
  | [] => Config.freeAnswer s.drawn

/-- One answer is used up. -/
def State.drawAnswer (s : State) : State := { s with answers := s.answers.tail, drawn := s.drawn + 1 }

/-- The outcome of a write: everything but BusError is Ok. -/
def Answer.isOk : Answer → Bool
  | .ok _ => true
  | .busError => false

/-- The state after `MemWrite(reg, 1, v)` (spec 00 R11, 10 R24, R25): one answer drawn, the event recorded, the image
updated by the outcome. -/
def State.busWrite (s : State) (a : Actuator) (reg value : Byte) : State :=
  let ok := Answer.isOk s.nextAnswer
  { s.drawAnswer with
    hist := s.hist ++ [.write a reg value ok]
    img := imgAfterWrite s.img reg value ok }

/-- The state after `MemRead(reg, 1)` (spec 00 R11, 10 R24): one answer drawn, the event recorded, the image unchanged. -/
def State.busRead (s : State) (a : Actuator) (reg : Byte) : State :=
  { s.drawAnswer with hist := s.hist ++ [.read a reg s.nextAnswer] }

/-- A transaction as it stands on the bus (spec 30 R100): the chip's address, the register, and the value of a write. -/
structure BusTxn where
  device : BitVec 7
  reg : Byte
  value : Option Byte
  deriving DecidableEq, Repr

/-- The transaction of an event, if it is one. -/
def busTxn? (cfg : Config) : Event → Option BusTxn
  | .write _ reg value _ => some ⟨cfg.chipAddr, reg, some value⟩
  | .read _ reg _ => some ⟨cfg.chipAddr, reg, none⟩
  | _ => none

/-- The transactions of a history in their one total order (spec 20 R73). -/
def State.busLog (s : State) : List BusTxn := s.hist.filterMap (busTxn? s.cfg)

/-! ### The end of an operation -/

/-- The sequence of a stepper agent ends (spec 42 R235); other agents have none. -/
def State.endSeq (s : State) : Actuator → State
  | .stepper k => s.setSeq k .idle
  | .controller => s
  | .dc _ => s

/-- The lock is released if this agent holds it (spec 20 R72, 60 R264). -/
def State.unlockFor (s : State) (a : Actuator) : State :=
  if s.lock = .held a then s.setLock .free else s

/-- THE END OF AN OPERATION with a result, Ok or an error (spec 60 R264, R267): the result is recorded as returned, the
lock released, the sequence of a stepper ended, the agent idle; what was written before stays. -/
def State.endTask (s : State) (a : Actuator) (t : Task) (r : Result) : State :=
  (((s.log (.done t.by_ t.op r)).unlockFor a).endSeq a).setTask a none

/-- What a BusError in a step sequence reports beside the record (spec 60 R262). -/
def State.progress (s : State) (a : Actuator) (t : Task) : Option Progress :=
  match a with
  | .stepper k => some ⟨t.steps, (s.stepper k).pos⟩
  | .controller => none
  | .dc _ => none

/-- An operation ends with BusError (spec 60 R261, R262); `txn` is the failing transaction, none when the handle is Failed. -/
def State.raiseBusError (s : State) (a : Actuator) (t : Task) (txn : Option Txn) : State :=
  s.endTask a t (.busError t.op txn (s.progress a t))

/-- The task of an agent goes on with the actions left. -/
def State.goOn (s : State) (a : Actuator) (t : Task) (rest : List Act) : State :=
  s.setTask a (some { t with todo := rest })

/-- `try MemWrite(reg, 1, v)`: on Ok the operation goes on, on BusError it ends (spec 00 R11, 60 R264). -/
def State.tryWrite (s : State) (a : Actuator) (t : Task) (reg value : Byte) (rest : List Act) : State :=
  match s.nextAnswer with
  | .ok _ => (s.busWrite a reg value).goOn a t rest
  | .busError => (s.busWrite a reg value).raiseBusError a t (some ⟨reg, some value⟩)

/-- `m <- try MemRead(0x00, 1)`: the byte is kept in the task. -/
def State.tryReadMode1 (s : State) (a : Actuator) (t : Task) (rest : List Act) : State :=
  match s.nextAnswer with
  | .ok b => (s.busRead a regMode1).goOn a { t with latch := b } rest
  | .busError => (s.busRead a regMode1).raiseBusError a t (some ⟨regMode1, none⟩)

end Sys2Proof.Machine
end

