-- ==== Sys2Proof/Machine/Flags.lean ====
section
/-! DEFINITION. The status bits of spec 10 R46, each a predicate over the state, and the final state of spec 60 R276. The
block has no condition codes and no arithmetic flags. -/

namespace Sys2Proof.Machine

/-- The in-flight token of stepper `k` (spec 10 R40, R46). -/
def State.inFlight (s : State) (k : Fin 2) : Bool := decide ((s.stepper k).seq ≠ .idle)

/-- A release is armed for DC motor `m` (spec 10 R41, R46). -/
def State.armed (s : State) (m : Fin 4) : Bool := (s.motor m).pending.isSome

/-- The bus lock is held (spec 10 R42, R46). -/
def State.locked (s : State) : Bool := decide (s.lock ≠ .free)

/-- The bus handle is Failed (spec 10 R45, R46). -/
def State.busFailed (s : State) : Bool := decide (s.bus = .failed)

/-- MODE1 as last written, bit SLEEP (spec 10 R28, R46); none when MODE1 is Unknown. -/
def State.sleepBit (s : State) : Option Bool :=
  (imgGet s.img regMode1.toNat).map (fun m => decide (m &&& bitSleep ≠ 0))

/-- MODE1 as last written, bit RESTART (spec 10 R28, R46); none when MODE1 is Unknown. -/
def State.restartBit (s : State) : Option Bool :=
  (imgGet s.img regMode1.toNat).map (fun m => decide (m &&& bitRestart ≠ 0))

/-- Nothing queued and nothing running. -/
def Worker.isIdle (w : Worker) : Bool := w.queue.isEmpty && w.task.isNone

/-- Every actuator agent, in a fixed order. -/
def Actuator.all : List Actuator :=
  [.controller, .dc 0, .dc 1, .dc 2, .dc 3, .stepper 0, .stepper 1]

/-- The final states of spec 60 R276: agents idle, queues empty, no sequence, no armed release, lock free. -/
def State.isFinal (s : State) : Bool :=
  Actuator.all.all (fun a => (s.worker a).isIdle)
    && (List.finRange 2).all (fun k => !s.inFlight k)
    && (List.finRange 4).all (fun m => !s.armed m)
    && !s.locked

end Sys2Proof.Machine
end

