-- ==== Sys2Proof/Machine/PwmPrograms.lean ====
section
/-! DEFINITION. The checks and the programs of the PwmController operations (spec 40): INIT, SETCH, SETALL, SETFREQ, SETPIN.
A program is the operation's pseudocode as a list of actions. -/

namespace Sys2Proof.Machine

/-- The four writes of a tick pair from a base address: on-low, on-high, off-low, off-high (spec 40 R124, 20 R62). -/
def tickWrites (base : Byte) (on off : Nat) : List Act :=
  [.write base (tickLow on), .write (base + 1) (tickHigh on),
   .write (base + 2) (tickLow off), .write (base + 3) (tickHigh off)]

/-- The program of SETCH on a legal channel with clamped ticks (spec 40 R124). -/
def setchActs (c : Chan) (on off : Nat) : List Act :=
  .checkBus :: .acquire :: (tickWrites (chanBase c) on off ++ [.release])

/-- The program of SETPIN on a legal pin and value (spec 40 R150). -/
def setpinActs (c : Chan) (high : Bool) : List Act :=
  if high then setchActs c tickMax 0 else setchActs c 0 tickMax

/-- The writes of SETALL with clamped ticks (spec 40 R130). -/
def setallWrites (on off : Int) : List Act := tickWrites regAllLed (clampTick on) (clampTick off)

/-- INIT (spec 40 R120): SETALL runs under the lock already held (spec 40 R119). -/
def planInit (cfg : Config) : Except Cause (List Act) :=
  .ok (.checkBus :: .acquire :: (setallWrites cfg.initAllOff.1 cfg.initAllOff.2 ++
    [.write regMode2 bitOutdrv, .write regMode1 bitAllcall, .wait settleSeconds,
     .readMode1, .writeMode1 .clearSleep, .wait settleSeconds, .release]))

/-- SETCH (spec 40 R124). -/
def planSetch (ch on off : Int) : Except Cause (List Act) := do
  let c ← need (chan? ch) .channel
  .ok (setchActs c (clampTick on) (clampTick off))

/-- SETALL (spec 40 R130). -/
def planSetall (on off : Int) : Except Cause (List Act) :=
  .ok (.checkBus :: .acquire :: (setallWrites on off ++ [.release]))

/-- SETFREQ (spec 40 R140). -/
def planSetfreq (cfg : Config) (f : F64) : Except Cause (List Act) := do
  let q ← needFrequency f
  .ok [.checkBus, .acquire, .readMode1, .writeMode1 .sleep, .write regPrescale (prescale cfg q),
    .writeMode1 .restore, .wait settleSeconds, .writeMode1 .restart, .release]

/-- SETPIN (spec 40 R150): the pin is checked before the value. -/
def planSetpin (pin val : Int) : Except Cause (List Act) := do
  let c ← need (chan? pin) .pin
  let high ← needPinValue val
  .ok (setpinActs c high)

end Sys2Proof.Machine
end

