-- ==== Sys2Proof/Machine/DcPrograms.lean ====
section
/-! DEFINITION. The checks and the programs of the DC operations (spec 41): DCRUN, DCSPEED, RUNDC, and of the release firing. -/

namespace Sys2Proof.Machine

/-- The direction writes of a command on one bridge (spec 41 R164): Brake issues none (spec 41 R165). -/
def dcRunActs (t : Triple) : Command → List Act
  | .forward => setpinActs t.in2 false ++ setpinActs t.in1 true
  | .backward => setpinActs t.in1 false ++ setpinActs t.in2 true
  | .release => setpinActs t.in1 false ++ setpinActs t.in2 false
  | .brake => []

/-- The duty write of a speed on one bridge (spec 41 R170). -/
def dcSpeedActs (t : Triple) (speed : Int) : List Act := setchActs t.pwm 0 (dutyTick (clampSpeed speed))

/-- DCRUN (spec 41 R164). -/
def planDcrun (cfg : Config) (m cmd : Int) : Except Cause (List Act) := do
  let k ← need (dcIndex? m) .dcIndex
  let c ← needCommand cmd
  .ok (dcRunActs cfg.wiringDc[k] c)

/-- DCSPEED (spec 41 R170). -/
def planDcspeed (cfg : Config) (m speed : Int) : Except Cause (List Act) := do
  let k ← need (dcIndex? m) .dcIndex
  .ok (dcSpeedActs cfg.wiringDc[k] speed)

/-- The arming of RUNDC: one action when a runtime is given (spec 41 R176). -/
def armActs (m : Fin 4) : Option F64 → List Act
  | none => []
  | some t => [.arm m t]

/-- RUNDC (spec 41 R176): DCRUN, then DCSPEED, then the release is armed. -/
def planRundc (cfg : Config) (m cmd speed : Int) (rt : Option F64) : Except Cause (List Act) := do
  let k ← need (dcIndex? m) .dcIndex
  let c ← needCommand cmd
  let t ← needRuntime rt
  .ok (dcRunActs cfg.wiringDc[k] c ++ (dcSpeedActs cfg.wiringDc[k] speed ++ armActs k t))

/-- The operation a release firing performs: DCRUN(m, Release), code 4 (spec 41 R180, 30 R93). -/
def releaseOp (m : Fin 4) : Instr := .dcrun m.val 4

/-- The program of a release firing (spec 41 R180). -/
def releaseActs (cfg : Config) (m : Fin 4) : List Act := dcRunActs cfg.wiringDc[m] .release

end Sys2Proof.Machine
end

