-- ==== Sys2Proof/Machine/Position.lean ====
section
/-! DEFINITION. The position state machine of oneStep (spec 42 R210 to R218): delta, wrap, duty pair, coil pattern, outputs. -/

namespace Sys2Proof.Machine

/-- `dir` (spec 42 R210). -/
def Direction.sign : Direction → Int
  | .forward => 1
  | .backward => -1

/-- The half-step correction of Single and Double: with the full step, or instead of it (spec 42 R213). -/
def corrected (mode : CorrectionMode) (needed : Bool) : Nat :=
  match mode with
  | .addBoth => (if needed then halfStep else 0) + fullStep
  | .correctionOnly => if needed then halfStep else fullStep

/-- The size of the position change (spec 42 R213), from the half-step index `h = p / 4`. -/
def stepSize (mode : CorrectionMode) (p : Nat) : StepStyle → Nat
  | .single => corrected mode (decide (p / 4 % 2 = 1))
  | .double => corrected mode (decide (p / 4 % 2 = 0))
  | .interleave => halfStep
  | .microstep => 1

/-- `delta(p, style, d)` (spec 42 R213). -/
def delta (mode : CorrectionMode) (p : Nat) (style : StepStyle) (d : Direction) : Int :=
  d.sign * (stepSize mode p style : Int)

/-- The wrap into 0..31, Euclidean (spec 42 R214, R218). -/
def wrapPos (x : Int) : Fin 32 := ⟨(x % 32).toNat, by omega⟩

/-- The position after one step (spec 42 R214). -/
def nextPos (mode : CorrectionMode) (p : Nat) (style : StepStyle) (d : Direction) : Fin 32 :=
  wrapPos ((p : Int) + delta mode p style d)

/-- The curve pair of a position (spec 42 R216): even quadrants `(CURVE[8-o], CURVE[o])`, odd ones the other way round. -/
def curvePair (p : Fin 32) : Nat × Nat :=
  let o := p.val % 8
  let up := curve[o]'(by omega)
  let down := curve[8 - o]'(by omega)
  if p.val / 8 % 2 = 0 then (down, up) else (up, down)

/-- The duty pair (A, B) of the new position (spec 42 R216, R217). -/
def dutyPair (zero : MicroBackZero) (p : Fin 32) (style : StepStyle) (d : Direction) : Nat × Nat :=
  match style with
  | .microstep => if zero = .visible ∧ d = .backward then (0, 0) else curvePair p
  | .single => (fullDuty, fullDuty)
  | .double => (fullDuty, fullDuty)
  | .interleave => (fullDuty, fullDuty)

/-- The coil pattern of the new position (spec 42 R211, R212, R214). -/
def coilPattern (cfg : Config) (p : Fin 32) (style : StepStyle) : BitVec 4 :=
  match style with
  | .microstep => cfg.coilMicro[p.val / 8]'(by omega)
  | .single => cfg.coilFull[p.val / 4]'(by omega)
  | .double => cfg.coilFull[p.val / 4]'(by omega)
  | .interleave => cfg.coilFull[p.val / 4]'(by omega)

/-- The channel of a bridge pin (spec 42 R200). -/
def pinChannel (w : StepperWiring) : BridgePin → Chan
  | .ain1 => w.a.in1
  | .ain2 => w.a.in2
  | .bin1 => w.b.in1
  | .bin2 => w.b.in2

/-- The write of coil bit `c[i]` to its pin (spec 30 R106, 42 R215). -/
def coilActs (cfg : Config) (k : Fin 2) (c : BitVec 4) (i : Fin 4) : List Act :=
  setpinActs (pinChannel cfg.wiringSt[k] cfg.coilPinOrder[i]) (c.getLsb i)

/-- APPLY (spec 42 R215): duty A, duty B, then the four coil bits in order. -/
def applyActs (cfg : Config) (k : Fin 2) (duties : Nat × Nat) (c : BitVec 4) : List Act :=
  setchActs cfg.wiringSt[k].a.pwm 0 (dutyTick duties.1) ++
  (setchActs cfg.wiringSt[k].b.pwm 0 (dutyTick duties.2) ++
  (coilActs cfg k c 0 ++ (coilActs cfg k c 1 ++ (coilActs cfg k c 2 ++ coilActs cfg k c 3))))

/-- The outputs of a oneStep that reaches position `p` (spec 42 R214). -/
def outputActs (cfg : Config) (k : Fin 2) (p : Fin 32) (style : StepStyle) (d : Direction) : List Act :=
  applyActs cfg k (dutyPair cfg.microBackZero p style d) (coilPattern cfg p style)

/-- The state changes of a oneStep before any output: the new position and the style (spec 42 R214). -/
def State.moveStepper (s : State) (k : Fin 2) (d : Direction) (style : StepStyle) : State :=
  s.setStepper k { s.stepper k with
    pos := (nextPos s.cfg.correctionMode (s.stepper k).pos style d).val
    style := some style }

end Sys2Proof.Machine
end

