-- ==== Sys2Proof/Machine/StepperPrograms.lean ====
section
/-! DEFINITION. The checks and the programs of the stepper operations (spec 42): STSPEED's effect, ONESTEP, STEP, RUNST, and
the sequencer's actions (spec 42 R230 to R235, R242). -/

namespace Sys2Proof.Machine

/-- What an operation changes at the moment it starts, before its first action: the start of a step sequence. -/
inductive Setup where
  | nothing
  /-- A direct ONESTEP is a sequence of one invocation (spec 42 R235). -/
  | one (k : Fin 2) (d : Direction) (style : StepStyle)
  /-- STEP (spec 42 R230). -/
  | seq (k : Fin 2) (n : Nat) (d : Direction) (style : StepStyle)
  /-- RUNST: STSPEED, then STEP (spec 42 R238). -/
  | speedSeq (k : Fin 2) (n : Nat) (d : Direction) (style : StepStyle) (rpm : Nat)
  deriving DecidableEq, Repr

/-- An operation that passed its checks: what it changes as it starts, and its program. -/
structure Plan where
  setup : Setup
  todo : List Act
  deriving DecidableEq, Repr

/-- A plan without a start of its own. -/
def Plan.ofActs (todo : List Act) : Plan := ⟨.nothing, todo⟩

/-- `60 / (STEPS_PER_REV[s] * rpm)`, an exact rational (spec 42 R220). -/
def secondsPerStep (cfg : Config) (k : Fin 2) (rpm : Nat) : Rat :=
  60 / ((cfg.stepsPerRev[k] * rpm : Nat) : Rat)

/-- STSPEED's effect on a legal stepper and rpm (spec 42 R220): the position stays. -/
def State.setSpeed (s : State) (k : Fin 2) (rpm : Nat) : State :=
  s.setStepper k { s.stepper k with sps := secondsPerStep s.cfg k rpm, acc := 0 }

/-- The delay of a sequence (spec 42 R231). -/
def effectiveDelay (sps : Rat) : StepStyle → Rat
  | .single => sps
  | .double => sps
  | .interleave => sps / 2
  | .microstep => sps / 8

/-- The main-loop count of a sequence: times 8 for Microstep (spec 42 R230). -/
def mainCount (n : Nat) : StepStyle → Nat
  | .single => n
  | .double => n
  | .interleave => n
  | .microstep => n * microsteps

/-- The sequence record of STEP as it starts (spec 42 R230). -/
def seqStart (sps : Rat) (n : Nat) (d : Direction) (style : StepStyle) : Running :=
  { cmd := d, style := style, main := mainCount n style, phase := .main,
    spsEff := effectiveDelay sps style, first := true, place := .inStep }

/-- The sequence record of a direct ONESTEP (spec 42 R235). DESIGN CHOICE (log entry 14): its delay, which nothing reads,
is the stepper's. -/
def seqOne (sps : Rat) (d : Direction) (style : StepStyle) : Running :=
  { cmd := d, style := style, main := 1, phase := .main, spsEff := sps, first := true, place := .inStep }

/-- ONESTEP (spec 42 R214). -/
def planOnestep (k cmd style : Int) : Except Cause Plan := do
  let j ← need (stepperIndex? k) .stepperIndex
  let d ← needDirection cmd
  let y ← needStyle style
  .ok ⟨.one j d y, [.oneStep j d y]⟩

/-- STEP (spec 42 R230). -/
def planStep (k : Int) (n : Nat) (cmd style : Int) : Except Cause Plan := do
  let j ← need (stepperIndex? k) .stepperIndex
  let d ← needDirection cmd
  let y ← needStyle style
  .ok ⟨.seq j n d y, [.seqTest j]⟩

/-- RUNST (spec 42 R238). -/
def planRunst (k : Int) (n : Nat) (cmd speed style : Int) : Except Cause Plan := do
  let j ← need (stepperIndex? k) .stepperIndex
  let d ← needDirection cmd
  let y ← needStyle style
  let rpm ← needStepperSpeed speed
  .ok ⟨.speedSeq j n d y rpm, [.seqTest j]⟩

/-- STSPEED's checks (spec 42 R220). -/
def checkStspeed (k rpm : Int) : Except Cause (Fin 2 × Nat) := do
  let j ← need (stepperIndex? k) .stepperIndex
  let r ← needRpm rpm
  .ok (j, r)

/-! ### The sequencer -/

/-- One invocation of a sequence and the tests after it. -/
def invocation (k : Fin 2) (r : Running) : List Act :=
  [.oneStep k r.cmd r.style, .seqCount k, .seqTest k]

/-- The next invocation: at once when it is the first, else after a WAITPOINT (spec 42 R230, R232). -/
def State.seqNext (s : State) (k : Fin 2) (r : Running) : State × List Act :=
  if r.first then (s.setSeq k (.running { r with first := false }), invocation k r)
  else (s.setSeq k (.running { r with place := .atWait }), .seqWait k :: invocation k r)

/-- The tests of the main loop and of the correction loop (spec 42 R230, R233). With nothing more to do the program is at
its end. -/
def State.seqTest (s : State) (k : Fin 2) : State × List Act :=
  match (s.stepper k).seq with
  | .idle => (s, [])
  | .running r =>
    match r.phase with
    | .main =>
      if 0 < r.main then s.seqNext k r
      else if r.style = .microstep then (s.setSeq k (.running { r with phase := .correct }), [.seqTest k])
      else (s, [])
    | .correct => if (s.stepper k).pos % 8 ≠ 0 then s.seqNext k r else (s, [])

/-- A command supersedes the sequence at its wait (spec 42 R242), whatever its operands: also one that then ends
ConfigurationError (log entry 33). -/
def State.superseded (s : State) (k : Fin 2) : Bool :=
  decide (s.cfg.inflightPolicy = .supersede) && !(s.stepper k).work.queue.isEmpty

/-- The end of a WAITPOINT: the wait is recorded and the sequence goes on (spec 42 R230), or the sequence is cancelled
(spec 42 R242). -/
def State.seqWait (s : State) (a : Actuator) (k : Fin 2) (t : Task) (rest : List Act) : State :=
  if s.superseded k then
    (s.log (.cancel k)).endTask a t (.cancelled t.op)
  else
    match (s.stepper k).seq with
    | .idle => s.goOn a t rest
    | .running r =>
      ((s.log (.wait a r.spsEff)).setSeq k (.running { r with place := .inStep })).goOn a t rest

/-- The end of an invocation: one fewer to do in the main loop (spec 42 R230). -/
def State.seqCount (s : State) (k : Fin 2) : State :=
  match (s.stepper k).seq with
  | .idle => s
  | .running r =>
    match r.phase with
    | .main => s.setSeq k (.running { r with main := r.main - 1 })
    | .correct => s

end Sys2Proof.Machine
end

