-- ==== Sys2Proof/Machine/Agents.lean ====
section
/-! DEFINITION. The agents (spec 60 R274): how an operation starts, one action of an operation in progress, the release
firing, which agents can move, the scheduler's choice, and the issue of an operation by the host (spec 60 R275). -/

namespace Sys2Proof.Machine

/-! ### Starting an operation -/

/-- The checks and the program of a queued operation. STSPEED is never queued: it is performed at issue (spec 42 R220). -/
def plan (cfg : Config) : Instr → Except Cause Plan
  | .init => (planInit cfg).map Plan.ofActs
  | .setch ch on off => (planSetch ch on off).map Plan.ofActs
  | .setall on off => (planSetall on off).map Plan.ofActs
  | .setfreq f => (planSetfreq cfg f).map Plan.ofActs
  | .setpin pin val => (planSetpin pin val).map Plan.ofActs
  | .dcrun m cmd => (planDcrun cfg m cmd).map Plan.ofActs
  | .dcspeed m speed => (planDcspeed cfg m speed).map Plan.ofActs
  | .rundc m cmd speed rt => (planRundc cfg m cmd speed rt).map Plan.ofActs
  | .stspeed k rpm => (checkStspeed k rpm).map (fun _ => Plan.ofActs [])
  | .onestep k cmd style => planOnestep k cmd style
  | .step k n cmd style => planStep k n cmd style
  | .runst k n cmd speed style => planRunst k n cmd speed style

/-- A fresh task of an operation. -/
def Task.fresh (i : Instr) (by_ : Agent) (todo : List Act) : Task := ⟨i, by_, todo, 0, 0⟩

/-- A planned operation becomes the agent's task, with the changes it makes as it starts. RUNST's inner STSPEED ends the
operation when the bus handle is Failed (spec 10 R45, log entry 7). -/
def State.begin (s : State) (a : Actuator) (i : Instr) (p : Plan) : State :=
  let t := Task.fresh i (.actuator a) p.todo
  match p.setup with
  | .nothing => s.setTask a (some t)
  | .one k d style => (s.setSeq k (.running (seqOne (s.stepper k).sps d style))).setTask a (some t)
  | .seq k n d style => (s.setSeq k (.running (seqStart (s.stepper k).sps n d style))).setTask a (some t)
  | .speedSeq k n d style rpm =>
    if s.bus = .failed then s.raiseBusError a t none
    else
      let s1 := s.setSpeed k rpm
      (s1.setSeq k (.running (seqStart (s1.stepper k).sps n d style))).setTask a (some t)

/-- An idle agent takes the head of its queue: a ConfigurationError ends it at once, before the lock and before any
transaction (spec 40 R119, 60 R260, R266). -/
def State.startNext (s : State) (a : Actuator) : State :=
  match (s.worker a).queue with
  | [] => s
  | i :: rest =>
    let s1 := s.setQueue a rest
    match plan s.cfg i with
    | .error c => s1.log (.done (.actuator a) i (.configurationError i c))
    | .ok p => s1.begin a i p

/-! ### One action -/

/-- The Ok value of an operation: ONESTEP returns the position (spec 42 R214). -/
def State.okValue (s : State) (a : Actuator) (i : Instr) : Option Nat :=
  match a, i with
  | .stepper k, .onestep _ _ _ => some (s.stepper k).pos
  | _, _ => none

/-- An operation that reached its end: Ok, but BusError when the bus handle is Failed, which only an operation that had no
transaction to issue can reach (spec 10 R45, log entry 7). -/
def State.finish (s : State) (a : Actuator) (t : Task) : State :=
  if s.bus = .failed then s.raiseBusError a t none
  else s.endTask a t (.ok (s.okValue a t.op))

/-- One action of an operation in progress; `rest` is what stands after it. -/
def State.runAct (s : State) (a : Actuator) (t : Task) (act : Act) (rest : List Act) : State :=
  match act with
  | .checkBus => if s.bus = .failed then s.raiseBusError a t none else s.goOn a t rest
  | .acquire => if s.lock = .free then (s.setLock (.held a)).goOn a t rest else s
  | .release => (s.unlockFor a).goOn a t rest
  | .write reg value => s.tryWrite a t reg value rest
  | .readMode1 => s.tryReadMode1 a t rest
  | .writeMode1 what => s.tryWrite a t regMode1 (mode1Value s.cfg t.latch what) rest
  | .wait seconds => (s.log (.wait a seconds)).goOn a t rest
  | .arm m d => (s.setPending m (some d)).goOn a t rest
  | .oneStep k d style =>
    let s1 := s.moveStepper k d style
    s1.goOn a t (outputActs s.cfg k (nextPos s.cfg.correctionMode (s.stepper k).pos style d) style d ++ rest)
  | .seqTest k => let r := s.seqTest k; r.1.goOn a t (r.2 ++ rest)
  | .seqWait k => s.seqWait a k t rest
  | .seqCount k => (s.seqCount k).goOn a { t with steps := t.steps + 1 } rest

/-- One move of an actuator agent: the next action of its operation, its end, or the start of the next one. -/
def State.tick (s : State) (a : Actuator) : State :=
  match (s.worker a).task with
  | none => s.startNext a
  | some t =>
    match t.todo with
    | [] => s.finish a t
    | act :: rest => s.runAct a t act rest

/-- An armed release fires: it performs DCRUN(m, Release) as the task of DC agent m (spec 41 R180). -/
def State.fire (s : State) (m : Fin 4) : State :=
  ((s.setPending m none).log (.fire m)).setTask (.dc m)
    (some (Task.fresh (releaseOp m) (.release m) (releaseActs s.cfg m)))

/-! ### Who can move -/

/-- The next action is to take the lock. -/
def Task.wantsLock (t : Task) : Bool :=
  match t.todo with
  | .acquire :: _ => true
  | _ => false

/-- An actuator agent has a step: it is in an operation and does not wait for the lock, or it is idle with an operation
queued (spec 20 R72, 60 R274). -/
def State.canTick (s : State) (a : Actuator) : Bool :=
  match (s.worker a).task with
  | some t => !t.wantsLock || decide (s.lock = .free)
  | none => !(s.worker a).queue.isEmpty

/-- A release may fire: armed, DC agent m idle, its queue empty (spec 41 R180). -/
def State.canFire (s : State) (m : Fin 4) : Bool := s.armed m && (s.motor m).work.isIdle

/-- The host has an operation to issue (spec 60 R275). -/
def State.hostCan (s : State) : Bool := !s.inbox.isEmpty

/-- Every agent that has a step, in a fixed order. -/
def State.movers (s : State) : List Agent :=
  (if s.hostCan then [.host] else []) ++
  (Actuator.all.filter s.canTick).map Agent.actuator ++
  ((List.finRange 4).filter s.canFire).map Agent.release

/-- The scheduler's choice among agents that can move: the next one State lists if it can move, else a free value (spec 60
R269, log entry 4). -/
def State.pick (s : State) (able : List Agent) : Option Agent :=
  match able with
  | [] => none
  | [g] => some g
  | g :: h :: more =>
    match s.sched with
    | x :: _ => if x ∈ g :: h :: more then some x
        else (g :: h :: more)[Config.freeTurn s.turn % (more.length + 2)]?
    | [] => (g :: h :: more)[Config.freeTurn s.turn % (more.length + 2)]?

/-- One choice is used up. -/
def State.takeTurn (s : State) : State := { s with sched := s.sched.tail, turn := s.turn + 1 }

/-! ### Issue -/

/-- The agent that runs an operation (spec 60 R274); none when its index names no actuator. -/
def opTarget : Instr → Option Actuator
  | .init => some .controller
  | .setch _ _ _ => some .controller
  | .setall _ _ => some .controller
  | .setfreq _ => some .controller
  | .setpin _ _ => some .controller
  | .dcrun m _ => (dcIndex? m).map .dc
  | .dcspeed m _ => (dcIndex? m).map .dc
  | .rundc m _ _ _ => (dcIndex? m).map .dc
  | .stspeed k _ => (stepperIndex? k).map .stepper
  | .onestep k _ _ => (stepperIndex? k).map .stepper
  | .step k _ _ _ => (stepperIndex? k).map .stepper
  | .runst k _ _ _ _ => (stepperIndex? k).map .stepper

/-- How many moves an operation may need: 48 for one invocation with its wait and tests, at most 8n + 7 of them. -/
def opFuel : Instr → Nat
  | .init => 64
  | .setch _ _ _ => 64
  | .setall _ _ => 64
  | .setfreq _ => 64
  | .setpin _ _ => 64
  | .dcrun _ _ => 64
  | .dcspeed _ _ => 64
  | .rundc _ _ _ _ => 64
  | .stspeed _ _ => 64
  | .onestep _ _ _ => 64
  | .step _ n _ _ => 64 * (8 * n + 9)
  | .runst _ n _ _ _ => 64 * (8 * n + 9)

/-- AS LONG AS agent `a` is the only one that can move, its moves follow one another (log entry 5): nothing else could come
between them. -/
def State.settle : Nat → Actuator → State → State
  | 0, _, s => s
  | n + 1, a, s => if s.movers = [.actuator a] then State.settle n a (s.tick a) else s

/-- A command for a DC motor cancels its armed release at issue (spec 41 R181); a stepper command cancels none. -/
def State.disarmFor (s : State) : Actuator → State
  | .dc m => s.setPending m none
  | .controller => s
  | .stepper _ => s

/-- A stepper command meets a sequence in flight or a queued command (spec 42 R240). -/
def State.inFlightFor (s : State) : Actuator → Bool
  | .stepper k => s.inFlight k || !(s.stepper k).work.queue.isEmpty
  | .controller => false
  | .dc _ => false

/-- The host issues an operation to an agent (spec 60 R275): the issue is recorded, for that agent (log entry 32), an armed
release of that motor cancelled, and the operation either ended Busy (spec 42 R240, Reject; with a Failed bus handle too, where
spec 10 R45 would have BusError: log entry 31) or queued. When no other agent could move, the
agent's moves follow at once, so a block at rest performs the whole operation; else they come with later steps. -/
def State.submit (s : State) (a : Actuator) (i : Instr) : State :=
  let s1 := (s.log (.issue (.actuator a) i)).disarmFor a
  if s1.inFlightFor a ∧ s1.cfg.inflightPolicy = .reject then
    s1.log (.done (.actuator a) i (.busy i))
  else if s1.movers = [] then State.settle (opFuel i) a (s1.enqueue a i)
  else s1.enqueue a i

/-- An operation whose index names no actuator ends at issue (spec 41 R161, 42 R201): the error goes back to the host, and
no agent has a part in it (log entry 10). -/
def State.refuseIndex (s : State) (i : Instr) (c : Cause) : State :=
  (s.log (.issue .host i)).log (.done .host i (.configurationError i c))

/-- The issue of a DC operation. -/
def State.submitDc (s : State) (m : Int) (i : Instr) : State :=
  match dcIndex? m with
  | some k => s.submit (.dc k) i
  | none => s.refuseIndex i .dcIndex

/-- The issue of a stepper command. -/
def State.submitStepper (s : State) (k : Int) (i : Instr) : State :=
  match stepperIndex? k with
  | some j => s.submit (.stepper j) i
  | none => s.refuseIndex i .stepperIndex

/-- STSPEED is performed at once, whatever stepper `j` is doing (spec 42 R220), its issue recorded for the stepper's agent (log
entry 32); with a Failed bus handle it ends BusError
(spec 10 R45, log entry 7). -/
def State.speedNow (s : State) (j : Fin 2) (i : Instr) (check : Except Cause (Fin 2 × Nat)) : State :=
  let a : Agent := .actuator (.stepper j)
  let s1 := s.log (.issue a i)
  match check with
  | .error c => s1.log (.done a i (.configurationError i c))
  | .ok v =>
    if s1.bus = .failed then s1.log (.done a i (.busError i none none))
    else (s1.setSpeed v.1 v.2).log (.done a i (.ok none))

end Sys2Proof.Machine
end

