-- ==== Sys2Proof/Machine/Dc.lean ====
section
/-! DEFINITION. The meanings of the DC operations (spec 41). -/

namespace Sys2Proof.Machine

/-- DCRUN (spec 41 R164, R165): checks and program `planDcrun`. -/
def execDcrun (m cmd : Int) (s : State) : Host.Outcome State Fault Refusal :=
  .next (s.submitDc m (.dcrun m cmd))

/-- DCSPEED (spec 41 R170): checks and program `planDcspeed`. -/
def execDcspeed (m speed : Int) (s : State) : Host.Outcome State Fault Refusal :=
  .next (s.submitDc m (.dcspeed m speed))

/-- RUNDC (spec 41 R176): checks and program `planRundc`. -/
def execRundc (m cmd speed : Int) (rt : Option F64) (s : State) : Host.Outcome State Fault Refusal :=
  .next (s.submitDc m (.rundc m cmd speed rt))

end Sys2Proof.Machine
end

