-- ==== Sys2Proof/Machine/Pwm.lean ====
section
/-! DEFINITION. The meanings of the PwmController operations (spec 40). -/

namespace Sys2Proof.Machine

/-- INIT (spec 40 R120): program `planInit`. -/
def execInit (s : State) : Host.Outcome State Fault Refusal := .next (s.submit .controller .init)

/-- SETCH (spec 40 R124): checks and program `planSetch`. -/
def execSetch (ch on off : Int) (s : State) : Host.Outcome State Fault Refusal :=
  .next (s.submit .controller (.setch ch on off))

/-- SETALL (spec 40 R130): program `planSetall`. -/
def execSetall (on off : Int) (s : State) : Host.Outcome State Fault Refusal :=
  .next (s.submit .controller (.setall on off))

/-- SETFREQ (spec 40 R140): checks and program `planSetfreq`. -/
def execSetfreq (freq : F64) (s : State) : Host.Outcome State Fault Refusal :=
  .next (s.submit .controller (.setfreq freq))

/-- SETPIN (spec 40 R150): checks and program `planSetpin`. -/
def execSetpin (pin val : Int) (s : State) : Host.Outcome State Fault Refusal :=
  .next (s.submit .controller (.setpin pin val))

end Sys2Proof.Machine
end

