-- ==== Sys2Proof/Machine/Stepper.lean ====
section
/-! DEFINITION. The meanings of the stepper operations (spec 42). -/

namespace Sys2Proof.Machine

/-- STSPEED (spec 42 R220): performed at issue, checks `checkStspeed`, effect `State.setSpeed`. -/
def execStspeed (k rpm : Int) (s : State) : Host.Outcome State Fault Refusal :=
  .next (match stepperIndex? k with
    | some j => s.speedNow j (.stspeed k rpm) (checkStspeed k rpm)
    | none => s.refuseIndex (.stspeed k rpm) .stepperIndex)

/-- ONESTEP (spec 42 R214): checks and program `planOnestep`. -/
def execOnestep (k cmd style : Int) (s : State) : Host.Outcome State Fault Refusal :=
  .next (s.submitStepper k (.onestep k cmd style))

/-- STEP (spec 42 R230): checks and program `planStep`. -/
def execStep (k : Int) (n : Nat) (cmd style : Int) (s : State) : Host.Outcome State Fault Refusal :=
  .next (s.submitStepper k (.step k n cmd style))

/-- RUNST (spec 42 R238): checks and program `planRunst`. -/
def execRunst (k : Int) (n : Nat) (cmd speed style : Int) (s : State) : Host.Outcome State Fault Refusal :=
  .next (s.submitStepper k (.runst k n cmd speed style))

end Sys2Proof.Machine
end

