-- ==== Sys2Proof/Machine/Dispatch.lean ====
section
/-! DEFINITION. One arm per operation of the opcode table. -/

namespace Sys2Proof.Machine

def exec (i : Instr) (s : State) : Host.Outcome State Fault Refusal :=
  match i with
  | .init => Sys2Proof.Machine.execInit s
  | .setch ch on off => Sys2Proof.Machine.execSetch ch on off s
  | .setall on off => Sys2Proof.Machine.execSetall on off s
  | .setfreq freq => Sys2Proof.Machine.execSetfreq freq s
  | .setpin pin val => Sys2Proof.Machine.execSetpin pin val s
  | .dcrun m cmd => Sys2Proof.Machine.execDcrun m cmd s
  | .dcspeed m speed => Sys2Proof.Machine.execDcspeed m speed s
  | .rundc m cmd speed rt => Sys2Proof.Machine.execRundc m cmd speed rt s
  | .stspeed k rpm => Sys2Proof.Machine.execStspeed k rpm s
  | .onestep k cmd style => Sys2Proof.Machine.execOnestep k cmd style s
  | .step k n cmd style => Sys2Proof.Machine.execStep k n cmd style s
  | .runst k n cmd speed style => Sys2Proof.Machine.execRunst k n cmd speed style s

end Sys2Proof.Machine
end

