-- ==== Sys2Proof/Machine/Scheduler.lean ====
section
/-! DEFINITION. One move of the agent the scheduler chose: the host issues its next record, an agent takes a step, or a
release fires (spec 60 R269, R274, R275). -/

namespace Sys2Proof.Machine

/-- The host's record in front of the rest is read (spec 30 R107): a record that spells no operation is refused by name and
nothing happens. -/
def hostMove (s : State) : Host.Outcome State Fault Refusal :=
  match s.inbox with
  | [] => .next s
  | r :: rest =>
    match decode r with
    | .ok i => exec i { s with inbox := rest }
    | .error (.reservedSelector sel) => .refused (.reservedSelector sel)
    | .error (.malformedOperands sel) => .refused (.malformedOperands sel)

/-- One move of an agent. -/
def move (s : State) : Agent → Host.Outcome State Fault Refusal
  | .host => hostMove s
  | .actuator a => .next (s.tick a)
  | .release m => .next (s.fire m)

/-- One step: the scheduler chooses among the agents that can move, and the chosen one moves. With none the block is idle
and stays as it is (spec 70 R290). -/
def machineStep (s : State) : Host.Outcome State Fault Refusal :=
  match s.pick s.movers with
  | none => .next s
  | some g => move s.takeTurn g

/-- Puts a record in front of what the host has still to issue, and the host's turn in front of the schedule. -/
def placeRecord (s : State) (r : Record) : State :=
  { s with inbox := r :: s.inbox, sched := .host :: s.sched }

end Sys2Proof.Machine
end

