-- ==== Sys2Proof/Machine/Step.lean ====
section
/-! DEFINITION. The step of the machine, and the placing of a table word where the step reads its next operation. -/

namespace Sys2Proof.Machine

/-- One step of the machine. -/
def step (s : State) : Host.Outcome State Fault Refusal := machineStep s

/-- `s` with the operation whose table bits are `w` as the host's next record, and the host the next to move. -/
def State.withFetchWord (s : State) (nbits w : Nat) : State := placeRecord s (tableRecord (w % 2 ^ nbits))

end Sys2Proof.Machine
end

