-- ==== Sys2Proof/Machine/Assembler.lean ====
section
/-! DEFINITION. The assembler syntax (spec 30 R109) and the pseudo-operations (spec 30 R110): one line of text to the record
it spells. The host uses it to write records down; no step of the machine reads text. -/

namespace Sys2Proof.Machine

open Sys2Proof

/-- What a line of assembler text spells. -/
inductive AsmLine where
  /-- Nothing but spaces and a comment. -/
  | blank
  | op (r : Record)
  | error
  deriving DecidableEq, Repr

/-- The fields a mnemonic takes, in the order of spec 30 R91, with how each is spelled (spec 30 R109). -/
inductive AsmField where
  | int
  | nat
  | f64
  | runtime
  | command
  | style
  deriving DecidableEq, Repr

def isSpace (c : Char) : Bool := c = ' ' || c = '\t'

/-- A word without the spaces around it. -/
def trimSpaces (s : List Char) : List Char := ((s.dropWhile isSpace).reverse.dropWhile isSpace).reverse

/-- The fields between commas. -/
def splitCommas : List Char → List (List Char)
  | [] => [[]]
  | c :: rest =>
    match splitCommas rest with
    | [] => [[c]]
    | w :: ws => if c = ',' then [] :: w :: ws else (c :: w) :: ws

/-- The value of a digit in base 16, a letter in either case (log entry 28). -/
def digit? (c : Char) : Option Nat :=
  if '0' ≤ c ∧ c ≤ '9' then some (c.toNat - '0'.toNat)
  else if 'a' ≤ c ∧ c ≤ 'f' then some (c.toNat - 'a'.toNat + 10)
  else if 'A' ≤ c ∧ c ≤ 'F' then some (c.toNat - 'A'.toNat + 10)
  else none

/-- Digits of a base, read after `acc`. -/
def readDigits (base : Nat) : List Char → Nat → Option Nat
  | [], acc => some acc
  | c :: rest, acc =>
    match digit? c with
    | some d => if d < base then readDigits base rest (acc * base + d) else none
    | none => none

/-- A natural number, in decimal or `0x` hexadecimal (spec 30 R109); the prefix is `0x`, not `0X` (log entry 28). -/
def readNat : List Char → Option Nat
  | [] => none
  | ['0', 'x'] => none
  | '0' :: 'x' :: rest => readDigits 16 rest 0
  | s => readDigits 10 s 0

/-- An integer: a natural number, or one behind a minus sign (log entry 28). -/
def readInt : List Char → Option Int
  | '-' :: s => (readNat s).map (fun n => -(n : Int))
  | s => (readNat s).map (fun n => (n : Int))

/-- The binary64 pattern nearest to a nonnegative `n / d`, a tie to the even one; an infinity beyond the largest. -/
def patternNearest (n d : Nat) : Nat :=
  if n = 0 then 0
  else
    let e := ulpExponent n d
    let m := if 0 ≤ e then nearestEven n (d * 2 ^ e.toNat) else nearestEven (n * 2 ^ (-e).toNat) d
    min ((e + 1074).toNat * 2 ^ 52 + m) (2047 * 2 ^ 52)

/-- The digits before and behind the point of a decimal literal (spec 30 R109): at least one before it and, where there is a
point, at least one behind, so '.5' and '5.' are refused (log entry 28). -/
def readDecimal (s : List Char) : Option (Nat × Nat) :=
  let whole := s.takeWhile (· ≠ '.')
  let behind := (s.dropWhile (· ≠ '.')).drop 1
  if whole = [] then none
  else if s.contains '.' ∧ behind = [] then none
  else (readDigits 10 (whole ++ behind) 0).map (fun n => (n, 10 ^ behind.length))

/-- An f64 operand: a decimal literal (spec 30 R109), rounded to nearest, ties to even (spec 00 R10; log entry 28). -/
def readF64 : List Char → Option F64
  | '-' :: s => (readDecimal s).map (fun v => BitVec.ofNat 64 (2 ^ 63 + patternNearest v.1 v.2))
  | s => (readDecimal s).map (fun v => BitVec.ofNat 64 (patternNearest v.1 v.2))

/-- The spelled commands with their codes (spec 30 R93, R109). -/
def commandNames : List (List Char × Int) :=
  [("FORWARD".toList, 1), ("BACKWARD".toList, 2), ("BRAKE".toList, 3), ("RELEASE".toList, 4)]

/-- The spelled styles with their codes (spec 30 R94, R109). -/
def styleNames : List (List Char × Int) :=
  [("SINGLE".toList, 1), ("DOUBLE".toList, 2), ("INTERLEAVE".toList, 3), ("MICROSTEP".toList, 4)]

/-- The value of a name in a table. -/
def lookupName {α : Type} (w : List Char) : List (List Char × α) → Option α
  | [] => none
  | (n, v) :: rest => if n = w then some v else lookupName w rest

/-- One operand as its field spells it. -/
def readField (s : List Char) : AsmField → Option Operand
  | .int => (readInt s).map .int
  | .nat => (readNat s).map .nat
  | .f64 => (readF64 s).map .f64
  | .runtime => if s = "NONE".toList then some .absent else (readF64 s).map .f64
  | .command => (lookupName s commandNames).map .int
  | .style => (lookupName s styleNames).map .int

/-- As many operands as there are fields. -/
def readFields : List AsmField → List (List Char) → Option (List Operand)
  | [], [] => some []
  | f :: fs, s :: ss =>
    match readField s f, readFields fs ss with
    | some v, some vs => some (v :: vs)
    | _, _ => none
  | _, _ => none

/-- The mnemonics, their selectors and fields (spec 30 R91). -/
def mnemonics : List (List Char × (Byte × List AsmField)) :=
  [("INIT".toList, (0x01, [])), ("SETCH".toList, (0x02, [.int, .int, .int])), ("SETALL".toList, (0x03, [.int, .int])),
   ("SETFREQ".toList, (0x04, [.f64])), ("SETPIN".toList, (0x05, [.int, .int])),
   ("DCRUN".toList, (0x10, [.int, .command])), ("DCSPEED".toList, (0x11, [.int, .int])),
   ("RUNDC".toList, (0x12, [.int, .command, .int, .runtime])), ("STSPEED".toList, (0x20, [.int, .int])),
   ("ONESTEP".toList, (0x21, [.int, .command, .style])), ("STEP".toList, (0x22, [.int, .nat, .command, .style])),
   ("RUNST".toList, (0x23, [.int, .nat, .command, .int, .style]))]

/-- A pseudo-operation's line (spec 30 R110). -/
def pseudo (w : List Char) (args : List (List Char)) : Option Record :=
  match args with
  | [x] =>
    if w = "PINLO".toList then (readInt x).map (fun v => encode (.pinlo v))
    else if w = "PINHI".toList then (readInt x).map (fun v => encode (.pinhi v))
    else if w = "DCSTOP".toList then (readInt x).map (fun v => encode (.dcstop v))
    else none
  | [x, y] =>
    if w = "DUTY".toList then
      match readInt x, readInt y with
      | some c, some t => some (encode (.duty c t))
      | _, _ => none
    else none
  | _ => none

/-- The operands of a line: none when nothing stands behind the mnemonic. -/
def operandWords (s : List Char) : List (List Char) :=
  if trimSpaces s = [] then [] else (splitCommas s).map trimSpaces

/-- One line of assembler text (spec 30 R109): `;` starts a comment. -/
def assemble (line : List Char) : AsmLine :=
  let s := trimSpaces (line.takeWhile (· ≠ ';'))
  let w := s.takeWhile (fun c => !isSpace c)
  let args := operandWords (s.dropWhile (fun c => !isSpace c))
  if s = [] then .blank
  else
    match lookupName w mnemonics with
    | some (sel, fields) =>
      match readFields fields args with
      | some vs => .op ⟨sel, vs⟩
      | none => .error
    | none =>
      match pseudo w args with
      | some r => .op r
      | none => .error

end Sys2Proof.Machine
end

