-- ==== Sys2Proof/Machine/Fairness.lean ====
section
/-! DEFINITION. Runs of the block that the outside feeds while it runs, and the fair schedules among them (spec 70 R305). -/

namespace Sys2Proof.Machine

/-- What the outside gives before a step: the records that arrive (spec 60 R275), the scheduler's choices from now on (spec
60 R269) and the bus oracle's answers from now on (spec 20 R66). -/
structure Feed where
  records : List Record
  order : List Agent
  answers : List Answer
  deriving DecidableEq, Repr

/-- `s` with a feed: the records come after those the host has still to issue. -/
def State.fed (s : State) (f : Feed) : State :=
  { s with inbox := s.inbox ++ f.records, sched := f.order, answers := f.answers }

/-- A RUN: `r n` is the state before step `n`, and the step is made on it with the feed `f n`. A run is endless: an idle
block makes steps that leave it as it is, and a record that spells no operation ends what can be continued. -/
def IsRun (f : Nat → Feed) (r : Nat → State) : Prop := ∀ n, step ((r n).fed (f n)) = .next (r (n + 1))

/-- An agent has an enabled step at step `n` of a run. -/
def EnabledAt (f : Nat → Feed) (r : Nat → State) (n : Nat) (g : Agent) : Prop := g ∈ ((r n).fed (f n)).movers

/-- The agent that the scheduler chooses at step `n` of a run; none when no agent has a step. -/
def chosenAt (f : Nat → Feed) (r : Nat → State) (n : Nat) : Option Agent :=
  ((r n).fed (f n)).pick ((r n).fed (f n)).movers

/-- The agent is at a wait: the wait's end is its next action (spec 70 R303). -/
def State.atWait (s : State) (a : Actuator) : Bool :=
  match (s.worker a).task with
  | some t => match t.todo with
    | .wait _ :: _ => true
    | .seqWait _ :: _ => true
    | _ => false
  | none => false

/-- The agent waits to take the lock (spec 20 R72). -/
def State.wantsLock (s : State) (a : Actuator) : Bool :=
  match (s.worker a).task with
  | some t => t.wantsLock
  | none => false

/-- No agent is passed over for ever: one that has a step is chosen, or comes to have none. -/
def AgentsFair (f : Nat → Feed) (r : Nat → State) : Prop :=
  ∀ n g, EnabledAt f r n g → ∃ m, n ≤ m ∧ (chosenAt f r m = some g ∨ ¬EnabledAt f r m g)

/-- Every wait ends. -/
def WaitsEnd (f : Nat → Feed) (r : Nat → State) : Prop :=
  ∀ n a, (r n).atWait a = true → ∃ m, n ≤ m ∧ chosenAt f r m = some (.actuator a)

/-- An agent that waits for the lock gets it when the lock is free infinitely often. -/
def LockFair (f : Nat → Feed) (r : Nat → State) : Prop :=
  ∀ n a, (r n).wantsLock a = true → (∀ i, ∃ m, i ≤ m ∧ (r m).lock = .free) →
    ∃ m, n ≤ m ∧ chosenAt f r m = some (.actuator a)

/-- A FAIR SCHEDULE (spec 70 R305: weak fairness of agents, waits and the lock). -/
def Fair (f : Nat → Feed) (r : Nat → State) : Prop := AgentsFair f r ∧ WaitsEnd f r ∧ LockFair f r

end Sys2Proof.Machine
end

