-- ==== Sys2Proof/Safety.lean ====
section
/-! DEFINITION. The terms in which claims are stated: the launch state (spec 70 R294), the answers of the bus oracle, the
invariants of the machine, the hazards that software must avoid (spec 70 R310, R311). Fair schedules are in
Machine/Fairness.lean. -/

namespace Sys2Proof.Machine

/-! ### Launch -/

/-- The launch state of a claim about a run (spec 70 R294): no operation queued or running, no armed release, the lock
free (spec 60 R276), and nothing more for the host to issue. Whether the bus is Open is said where it matters. -/
def Launch (s : State) : Prop := s.isFinal = true ∧ s.inbox = []

/-- The oracle's answer to the `j`-th transaction from now (spec 20 R66). -/
def State.answerAt (s : State) (j : Nat) : Answer :=
  match s.answers[j]? with
  | some a => a
  | none => Config.freeAnswer (s.drawn + j)

/-- The next `n` transactions have outcome Ok. -/
def AnswersOk (s : State) (n : Nat) : Prop := ∀ j, j < n → Answer.isOk (s.answerAt j) = true

/-- The next `n` answers are used up. -/
def State.dropAnswers (s : State) (n : Nat) : State :=
  { s with answers := s.answers.drop n, drawn := s.drawn + n }

/-! ### Expected traces -/

/-- `s` after a run that left nothing in progress: the events recorded, the image they build, and `n` answers used. -/
def State.afterRun (s : State) (evs : List Event) (n : Nat) : State :=
  { s.dropAnswers n with hist := s.hist ++ evs, img := imgAfterEvents s.img evs }

/-- Write transactions with outcome Ok, in order: register and value. -/
def okWrites (a : Actuator) (ws : List (Byte × Byte)) : List Event := ws.map (fun w => .write a w.1 w.2 true)

/-- The write transactions of which the one numbered `j` fails and is the last (spec 60 R264). -/
def failedWrites (a : Actuator) (ws : List (Byte × Byte)) (j : Nat) : List Event :=
  okWrites a (ws.take j) ++ (ws[j]?.toList.map (fun w => Event.write a w.1 w.2 false))

/-- The transaction of an event, if it is one that failed (spec 60 R261). -/
def failedTxn? : Event → Option Txn
  | .write _ reg value false => some ⟨reg, some value⟩
  | .read _ reg .busError => some ⟨reg, none⟩
  | _ => none

/-- The transaction of an event, whatever its outcome. -/
def txn? : Event → Option Txn
  | .write _ reg value _ => some ⟨reg, some value⟩
  | .read _ reg _ => some ⟨reg, none⟩
  | _ => none

/-- The events of an operation when its transaction numbered `j` is the first that fails: nothing comes after it (spec 60
R264). -/
def failAt : List Event → Nat → List Event
  | [], _ => []
  | .write a reg value _ :: _, 0 => [.write a reg value false]
  | .read a reg _ :: _, 0 => [.read a reg .busError]
  | .write a reg value ok :: rest, j + 1 => .write a reg value ok :: failAt rest j
  | .read a reg outcome :: rest, j + 1 => .read a reg outcome :: failAt rest j
  | e :: rest, j => e :: failAt rest j

/-- The two bytes of a tick, low byte first (spec 30 R101). -/
def tickBytes (t : Nat) : Byte × Byte := (BitVec.ofNat 8 (t % 256), BitVec.ofNat 8 (t / 256))

/-- The four bytes of a tick pair at consecutive registers from `base` (spec 20 R62, 40 R124). -/
def pairBytes (base on off : Nat) : List (Byte × Byte) :=
  [(BitVec.ofNat 8 base, (tickBytes on).1), (BitVec.ofNat 8 (base + 1), (tickBytes on).2),
   (BitVec.ofNat 8 (base + 2), (tickBytes off).1), (BitVec.ofNat 8 (base + 3), (tickBytes off).2)]

/-- The bytes of a channel write: the channel's registers start at `0x06 + 4c` (spec 10 R31). -/
def chanBytes (c : Chan) (on off : Nat) : List (Byte × Byte) := pairBytes (0x06 + 4 * c.val) on off

/-- The bytes of a digital pin: 0 is (0, 4096), 1 is (4096, 0) (spec 30 R103). -/
def pinBytes (c : Chan) (high : Bool) : List (Byte × Byte) :=
  if high then chanBytes c 4096 0 else chanBytes c 0 4096

/-- The writes of a DC command on a bridge (spec 41 R164, R165). -/
def dcBytes (t : Triple) : Command → List (Byte × Byte)
  | .forward => pinBytes t.in2 false ++ pinBytes t.in1 true
  | .backward => pinBytes t.in1 false ++ pinBytes t.in2 true
  | .release => pinBytes t.in1 false ++ pinBytes t.in2 false
  | .brake => []

/-- The 24 writes of a oneStep that reaches position `p` (spec 42 R214, R215). -/
def onestepBytes (cfg : Config) (k : Fin 2) (p : Fin 32) (style : StepStyle) (d : Direction) : List (Byte × Byte) :=
  let w := cfg.wiringSt[k]
  let duties := dutyPair cfg.microBackZero p style d
  let c := coilPattern cfg p style
  chanBytes w.a.pwm 0 (duties.1 * 16) ++ chanBytes w.b.pwm 0 (duties.2 * 16) ++
  pinBytes (pinChannel w cfg.coilPinOrder[0]) (c.getLsb 0) ++ pinBytes (pinChannel w cfg.coilPinOrder[1]) (c.getLsb 1) ++
  pinBytes (pinChannel w cfg.coilPinOrder[2]) (c.getLsb 2) ++ pinBytes (pinChannel w cfg.coilPinOrder[3]) (c.getLsb 3)

/-- A tick operand clamped to 0..4096 (spec 60 R263). -/
def clampedTick (v : Int) : Nat := if v < 0 then 0 else if 4096 < v then 4096 else v.toNat

/-- A speed operand clamped to 0..255 (spec 60 R263). -/
def clampedSpeed (v : Int) : Nat := if v < 0 then 0 else if 255 < v then 255 else v.toNat

/-- The code of a command (spec 30 R93). -/
def commandCode : Command → Int
  | .forward => 1
  | .backward => 2
  | .brake => 3
  | .release => 4

/-- The code of a direction: Forward or Backward (spec 30 R93, 42 R210). -/
def directionCode : Direction → Int
  | .forward => 1
  | .backward => 2

/-- The code of a style (spec 30 R94). -/
def styleCode : StepStyle → Int
  | .single => 1
  | .double => 2
  | .interleave => 3
  | .microstep => 4

/-- The writes of an operation that consists of channel writes alone, with the agent that runs it (spec 40 R124, R130,
R150, 41 R164, R170, R176); none for another operation or an index that names nothing. -/
def plainWrites (cfg : Config) : Instr → Option (Actuator × List (Byte × Byte))
  | .setch ch on off => (chan? ch).map (fun c => (.controller, chanBytes c (clampedTick on) (clampedTick off)))
  | .setall on off => some (.controller, pairBytes 0xFA (clampedTick on) (clampedTick off))
  | .setpin pin val => (chan? pin).map (fun c => (.controller, pinBytes c (decide (val = 1))))
  | .dcrun m cmd =>
    (dcIndex? m).bind (fun k => (command? cmd).map (fun c => (.dc k, dcBytes cfg.wiringDc[k] c)))
  | .dcspeed m speed => (dcIndex? m).map (fun k => (.dc k, chanBytes cfg.wiringDc[k].pwm 0 (clampedSpeed speed * 16)))
  | .rundc m cmd speed _ =>
    (dcIndex? m).bind (fun k => (command? cmd).map (fun c =>
      (.dc k, dcBytes cfg.wiringDc[k] c ++ chanBytes cfg.wiringDc[k].pwm 0 (clampedSpeed speed * 16))))
  | .init => none
  | .setfreq _ => none
  | .stspeed _ _ => none
  | .onestep _ _ _ => none
  | .step _ _ _ _ => none
  | .runst _ _ _ _ _ => none

/-- `s` after an operation that made some Ok writes, and nothing else, and ended Ok. -/
def State.ranOk (s : State) (a : Actuator) (i : Instr) (ws : List (Byte × Byte)) (v : Option Nat) : State :=
  s.afterRun (.issue (.actuator a) i :: (okWrites a ws ++ [.done (.actuator a) i (.ok v)])) ws.length

/-- The events of INIT between its issue and its result when no transaction fails, its MODE1 read answered `b` (spec 40
R120, R121, 30 R104). -/
def initEvents (cfg : Config) (b : Byte) : List Event :=
  okWrites .controller (pairBytes 0xFA (clampedTick cfg.initAllOff.1) (clampedTick cfg.initAllOff.2) ++
    [(0x01, 0x04), (0x00, 0x01)]) ++
  [.wait .controller (5 / 1000), .read .controller 0x00 (.ok b), .write .controller 0x00 (b &&& 0xEF) true,
   .wait .controller (5 / 1000)]

/-- The events of SETFREQ between its issue and its result when no transaction fails, its MODE1 read answered `old` (spec 40
R140, R142, 30 R104). -/
def setfreqEvents (cfg : Config) (freq : Rat) (old : Byte) : List Event :=
  [.read .controller 0x00 (.ok old),
   .write .controller 0x00 (if cfg.freqMaskRestart then (old &&& 0x7F) ||| 0x10 else old ||| 0x10) true,
   .write .controller 0xFE (prescale cfg freq) true, .write .controller 0x00 old true, .wait .controller (5 / 1000),
   .write .controller 0x00 (old ||| 0x80) true]

/-- The first ConfigurationError of an operation in the order of its checks (spec 60 R260, R266): index, command, style,
value, speed, frequency, runtime; none when every operand is legal. -/
def firstCause : Instr → Option Cause
  | .init => none
  | .setch ch _ _ => if inRange 0 15 ch then none else some .channel
  | .setall _ _ => none
  | .setfreq f => if F64.freqOk f then none else some .frequency
  | .setpin pin val => if !inRange 0 15 pin then some .pin else if inRange 0 1 val then none else some .pinValue
  | .dcrun m cmd => if !inRange 0 3 m then some .dcIndex else if Command.codeOk cmd then none else some .commandCode
  | .dcspeed m _ => if inRange 0 3 m then none else some .dcIndex
  | .rundc m cmd _ rt =>
    if !inRange 0 3 m then some .dcIndex
    else if !Command.codeOk cmd then some .commandCode
    else if F64.runtimeOk rt then none else some .runtime
  | .stspeed k rpm => if !inRange 0 1 k then some .stepperIndex else if 1 ≤ rpm then none else some .rpm
  | .onestep k cmd style =>
    if !inRange 0 1 k then some .stepperIndex
    else if !Command.codeOk cmd then some .commandCode
    else if !Command.stepCodeOk cmd then some .stepperCommand
    else if StepStyle.codeOk style then none else some .styleCode
  | .step k _ cmd style =>
    if !inRange 0 1 k then some .stepperIndex
    else if !Command.codeOk cmd then some .commandCode
    else if !Command.stepCodeOk cmd then some .stepperCommand
    else if StepStyle.codeOk style then none else some .styleCode
  | .runst k _ cmd speed style =>
    if !inRange 0 1 k then some .stepperIndex
    else if !Command.codeOk cmd then some .commandCode
    else if !Command.stepCodeOk cmd then some .stepperCommand
    else if !StepStyle.codeOk style then some .styleCode
    else if 1 ≤ speed then none else some .zeroSpeed

/-- The registers of a channel (spec 10 R31). -/
def channelRegs (c : Chan) : List Nat := [6 + 4 * c.val, 7 + 4 * c.val, 8 + 4 * c.val, 9 + 4 * c.val]

/-- The alias registers and the registers of every channel (spec 10 R25, R32). -/
def aliasRegs : List Nat := [0xFA, 0xFB, 0xFC, 0xFD] ++ (List.finRange 16).flatMap channelRegs

/-- The direction registers that a command on a bridge writes: none for Brake (spec 41 R164). -/
def directionRegs (t : Triple) (cmd : Int) : List Nat :=
  if cmd = 3 then [] else channelRegs t.in1 ++ channelRegs t.in2

/-- The registers of the six channels of a stepper (spec 42 R200). -/
def stepperRegs (w : StepperWiring) : List Nat :=
  channelRegs w.a.pwm ++ channelRegs w.a.in1 ++ channelRegs w.a.in2 ++
  channelRegs w.b.pwm ++ channelRegs w.b.in1 ++ channelRegs w.b.in2

/-- The image entries that an operation may write; no others (the State written lines of spec 40, 41, 42). -/
def storedRegs (cfg : Config) : Instr → List Nat
  | .init => [0x00, 0x01] ++ aliasRegs
  | .setch ch _ _ => ((chan? ch).map channelRegs).getD []
  | .setall _ _ => aliasRegs
  | .setfreq _ => [0x00, 0xFE]
  | .setpin pin _ => ((chan? pin).map channelRegs).getD []
  | .dcrun m cmd => ((dcIndex? m).map (fun k => directionRegs cfg.wiringDc[k] cmd)).getD []
  | .dcspeed m _ => ((dcIndex? m).map (fun k => channelRegs cfg.wiringDc[k].pwm)).getD []
  | .rundc m cmd _ _ =>
    ((dcIndex? m).map (fun k => directionRegs cfg.wiringDc[k] cmd ++ channelRegs cfg.wiringDc[k].pwm)).getD []
  | .stspeed _ _ => []
  | .onestep k _ _ => ((stepperIndex? k).map (fun j => stepperRegs cfg.wiringSt[j])).getD []
  | .step k _ _ _ => ((stepperIndex? k).map (fun j => stepperRegs cfg.wiringSt[j])).getD []
  | .runst k _ _ _ _ => ((stepperIndex? k).map (fun j => stepperRegs cfg.wiringSt[j])).getD []

/-- WHAT AN OPERATION LEAVES UNCHANGED in every state in which it gives a next state: the configuration, the bus handle,
what the host and the scheduler have still to give, every other agent with its motor or stepper, every image entry
outside the registers it stores to; and the history only grows. -/
def Frame (i : Instr) : Prop :=
  ∀ s t : State, imgWf s.img = true → exec i s = .next t →
    t.cfg = s.cfg ∧ t.bus = s.bus ∧ t.inbox = s.inbox ∧ t.sched = s.sched ∧ t.turn = s.turn ∧
    (opTarget i ≠ some .controller → t.ctrl = s.ctrl) ∧
    (∀ m, opTarget i ≠ some (.dc m) → t.motor m = s.motor m) ∧
    (∀ k, opTarget i ≠ some (.stepper k) → t.stepper k = s.stepper k) ∧
    (∀ a, a ∉ storedRegs s.cfg i → imgGet t.img a = imgGet s.img a) ∧
    s.hist <+: t.hist

/-- The position after `n` oneSteps in one style and direction (spec 42 R213, R214). -/
def posAfter (mode : CorrectionMode) (style : StepStyle) (d : Direction) : Nat → Nat → Nat
  | 0, p => p
  | n + 1, p => posAfter mode style d n (nextPos mode p style d).val

/-- The events of `n` invocations of a sequence: a wait before each but the first (spec 42 R232). -/
def seqEvents (cfg : Config) (k : Fin 2) (delay : Rat) (style : StepStyle) (d : Direction) : Bool → Nat → Nat → List Event
  | _, 0, _ => []
  | first, n + 1, p =>
    let q := nextPos cfg.correctionMode p style d
    (if first then [] else [.wait (.stepper k) delay]) ++
    (okWrites (.stepper k) (onestepBytes cfg k q style d) ++ seqEvents cfg k delay style d false n q.val)

/-- The invocations of the post-loop correction from a position (spec 42 R233): none but for Microstep. -/
def correctionCount (style : StepStyle) (d : Direction) (p : Nat) : Nat :=
  match style, d with
  | .microstep, .forward => (8 - p % 8) % 8
  | .microstep, .backward => p % 8
  | .single, _ => 0
  | .double, _ => 0
  | .interleave, _ => 0

/-- All invocations of STEP(n) from a position (spec 42 R230, R233): `n` in the main loop, for Microstep `8 * n` and those
of the correction. -/
def invocations (mode : CorrectionMode) (n : Nat) (style : StepStyle) (d : Direction) (p : Nat) : Nat :=
  let main : Nat := match style with
    | .single => n
    | .double => n
    | .interleave => n
    | .microstep => n * 8
  main + correctionCount style d (posAfter mode style d main p)

/-- The delay of each wait of a sequence (spec 42 R231). -/
def sequenceDelay (sps : Rat) : StepStyle → Rat
  | .single => sps
  | .double => sps
  | .interleave => sps / 2
  | .microstep => sps / 8

/-- Stepper `k` after `n` invocations of a sequence. -/
def State.stepped (s : State) (k : Fin 2) (style : StepStyle) (d : Direction) (n : Nat) : State :=
  s.setStepper k { s.stepper k with
    pos := posAfter s.cfg.correctionMode style d n (s.stepper k).pos
    style := if n = 0 then (s.stepper k).style else some style }

/-! ### Invariants -/

/-- Every position is in 0..31 (spec 10 R34). -/
def PositionsInRange (s : State) : Prop := ∀ k : Fin 2, (s.stepper k).pos < 32

/-- The image is canonical and is what the history builds (spec 10 R43, R24, R25). -/
def ImageIsHistory (s : State) : Prop := imgWf s.img = true ∧ s.img = imgOfHist s.hist

/-- A program whose transactions and waits of PwmController operations stand between taking and releasing the lock, and
whose other actions stand outside; `inside` says whether the lock is held before its first action (spec 20 R72, 40 R119). -/
def bracketed : Bool → List Act → Bool
  | inside, [] => !inside
  | inside, act :: rest =>
    match act with
    | .acquire => !inside && bracketed true rest
    | .release => inside && bracketed false rest
    | .write _ _ => inside && bracketed true rest
    | .readMode1 => inside && bracketed true rest
    | .writeMode1 _ => inside && bracketed true rest
    | .wait _ => inside && bracketed true rest
    | .checkBus => !inside && bracketed false rest
    | .arm _ _ => !inside && bracketed false rest
    | .oneStep _ _ _ => !inside && bracketed false rest
    | .seqTest _ => !inside && bracketed false rest
    | .seqWait _ => !inside && bracketed false rest
    | .seqCount _ => !inside && bracketed false rest

/-- An action inside a PwmController operation: a bus transaction or a wait of INIT or SETFREQ (spec 20 R72). -/
def Act.needsLock : Act → Bool
  | .write _ _ => true
  | .readMode1 => true
  | .writeMode1 _ => true
  | .wait _ => true
  | _ => false

/-- Mutual exclusion on the bus (spec 10 R42, 20 R72): an agent holds the lock exactly while it is inside a PwmController
operation, so every transaction it still has to issue is issued with the lock held. -/
def LockDiscipline (s : State) : Prop :=
  ∀ a : Actuator, match (s.worker a).task with
    | some t => bracketed (decide (s.lock = .held a)) t.todo = true
    | none => s.lock ≠ .held a

/-- What the block may write where (spec 10 R28 to R33): any byte to MODE1, only 0x04 to MODE2, a value of the prescale range
to PRESCALE, any low byte and a high byte up to 0x10 to a channel or alias register (spec 30 R101); nothing elsewhere. -/
def legalWrite (cfg : Config) (reg value : Byte) : Bool :=
  let r := reg.toNat
  if r = 0x00 then true
  else if r = 0x01 then decide (value = 0x04)
  else if r = 0xFE then decide (cfg.prescaleMin.toNat ≤ value.toNat) && decide (value.toNat ≤ cfg.prescaleMax.toNat)
  else if (0x06 ≤ r && r ≤ 0x45) || (0xFA ≤ r && r ≤ 0xFD) then
    -- low bytes stand at even addresses, high bytes at odd ones
    decide (r % 2 = 0) || decide (value.toNat ≤ 0x10)
  else false

/-- A write still to be issued is legal. -/
def Act.legal (cfg : Config) : Act → Bool
  | .write reg value => legalWrite cfg reg value
  | _ => true

/-- A write already issued is legal. -/
def Event.legal (cfg : Config) : Event → Bool
  | .write _ reg value _ => legalWrite cfg reg value
  | _ => true

/-- Every write of the history and every write still to be issued is legal. -/
def WritesLegal (s : State) : Prop :=
  s.cfg.prescaleMin.toNat ≤ s.cfg.prescaleMax.toNat ∧
  (∀ e ∈ s.hist, Event.legal s.cfg e = true) ∧
  (∀ a t, (s.worker a).task = some t → ∀ act ∈ t.todo, Act.legal s.cfg act = true)

/-- The actions of stepper `k`'s sequencer belong to stepper agent `k`. -/
def Act.ownedBy (a : Actuator) : Act → Bool
  | .oneStep k _ _ => decide (a = .stepper k)
  | .seqTest k => decide (a = .stepper k)
  | .seqWait k => decide (a = .stepper k)
  | .seqCount k => decide (a = .stepper k)
  | _ => true

/-- An operation that is queued on its agent; STSPEED never is (spec 42 R220). -/
def queueable : Instr → Bool
  | .stspeed _ _ => false
  | _ => true

/-- The action at which stepper `k` is suspended. -/
def atWaitAct (k : Fin 2) (todo : List Act) : Bool := decide (todo.head? = some (.seqWait k))

/-- The in-flight token (spec 10 R40): `st.seq[k]` is Running exactly while stepper agent `k` has an operation in progress,
and it is at a wait exactly when the wait's end is the agent's next action (spec 42 R235). -/
def TokenOf (s : State) (k : Fin 2) : Prop :=
  match (s.stepper k).seq, (s.stepper k).work.task with
  | .idle, none => True
  | .running r, some t =>
      decide (r.place = .atWait) = atWaitAct k t.todo ∧ Act.seqWait k ∉ t.todo.tail
  | .idle, some _ => False
  | .running _, none => False

/-- Actions and queued operations are their agent's own: a queue of agent `a` holds operations of `a` only (spec 10 R44, 60
R274), and a sequencer's action stands in its stepper's program only. -/
def TasksOwned (s : State) : Prop :=
  (∀ a t, (s.worker a).task = some t → ∀ act ∈ t.todo, Act.ownedBy a act = true) ∧
  (∀ a, ∀ i ∈ (s.worker a).queue, opTarget i = some a ∧ queueable i = true)

/-- The correction loop runs for Microstep only (spec 42 R233). -/
def CorrectionIsMicrostep (s : State) : Prop :=
  ∀ (k : Fin 2) (r : Running), (s.stepper k).seq = .running r → r.phase = .correct → r.style = .microstep

/-- The test of a sequence's loop is the last action of its program. -/
def TestIsLast (s : State) : Prop :=
  ∀ (k : Fin 2) (t : Task), (s.stepper k).work.task = some t → Act.seqTest k ∉ t.todo.dropLast

/-- The sequencer's invariant: the tokens (spec 10 R40), what they rest on, which sequences have a correction loop, and
where a loop's test stands. -/
def SequencerInv (s : State) : Prop := (∀ k, TokenOf s k) ∧ TasksOwned s ∧ CorrectionIsMicrostep s ∧ TestIsLast s

/-- Every tick value of the channel view is in 0..4096 or Unknown (spec 10 R26). -/
def TicksInRange (s : State) : Prop :=
  ∀ (c : Chan) (v : Nat), s.chanOn c = some v ∨ s.chanOff c = some v → v ≤ 4096

/-- Delays are positive (spec 10 R35). -/
def DelaysPositive (s : State) : Prop :=
  s.cfg.wellFormed = true ∧ ∀ k : Fin 2, 0 < (s.stepper k).sps

/-! ### Hazards that software must avoid -/

/-- Under a configuration, DC motor `m` and stepper `k` drive the same bridge (spec 41 R162). -/
def sharesBridge (cfg : Config) (m : Fin 4) (k : Fin 2) : Bool :=
  decide (cfg.wiringDc[m] = cfg.wiringSt[k].a) || decide (cfg.wiringDc[m] = cfg.wiringSt[k].b)

/-- The shared-triple hazard (spec 70 R310): DC motor `m` has an operation queued, running or armed while a stepper of the
same bridge is in flight. -/
def tripleHazard (s : State) (m : Fin 4) : Bool :=
  (!(s.motor m).work.isIdle || s.armed m) && (List.finRange 2).any (fun k => sharesBridge s.cfg m k && s.inFlight k)

/-- The frequency-change hazard (spec 70 R311): SETFREQ is safe to issue only when no stepper sequence is in flight and no DC
command is running. -/
def frequencyHazard (s : State) : Bool :=
  (List.finRange 2).any s.inFlight || (List.finRange 4).any (fun m => (s.motor m).work.task.isSome)

end Sys2Proof.Machine
end

