-- ==== Sys2Proof/Certificates/Slice0/Obligations.lean ====
section
/-! DEFINITION. The statements for the provers, each from a numbered rule of the spec. -/

open Sys2Proof Sys2Proof.Machine

/-! ### Encoding -/

/-- The decoder and the encoder agree on every record and every operation (spec 30 R91, R92). -/
def Obligations.DecodeIffEncode : Prop := ∀ (r : Record) (i : Instr), decode r = .ok i ↔ encode i = r

/-- The records of some operations, written from spec 30 R91, and the table words of some rows, whose operands are zeros by
log entry 1 (the model's choice). -/
def Obligations.WordsDecode : Prop :=
  decode ⟨0x01, []⟩ = .ok .init ∧
  decode ⟨0x02, [.int 8, .int 0, .int 2048]⟩ = .ok (.setch 8 0 2048) ∧
  decode ⟨0x12, [.int 0, .int 1, .int 128, .absent]⟩ = .ok (.rundc 0 1 128 none) ∧
  decode ⟨0x23, [.int 0, .nat 4, .int 1, .int 60, .int 1]⟩ = .ok (.runst 0 4 1 60 1) ∧
  decodeTableWord 8 0x10 = some (.dcrun 0 0) ∧ decodeTableWord 8 0x21 = some (.onestep 0 0 0) ∧
  decodeTableWord 8 0x24 = none

/-- A reserved selector spells no operation: the decoder refuses it whatever the operands, a step that would issue it is
refused by name (the refusal is log entry 27), and no assigned selector is refused so (spec 30 R107). -/
def Obligations.ReservedSelectorsRefused : Prop :=
  (∀ (sel : Byte) (args : List Operand), sel ∉ assignedSelectors → decode ⟨sel, args⟩ = .error (.reservedSelector sel)) ∧
  (∀ (sel : Byte) (args : List Operand) (e : Byte), sel ∈ assignedSelectors → decode ⟨sel, args⟩ ≠ .error (.reservedSelector e)) ∧
  (∀ (s : State) (sel : Byte) (args : List Operand) (rest : List Record), sel ∉ assignedSelectors →
    s.inbox = ⟨sel, args⟩ :: rest → s.pick s.movers = some .host → step s = .refused (.reservedSelector sel)) ∧
  (∀ sel : Byte, sel ∈ assignedSelectors ↔
    ¬(sel = 0x00 ∨ (0x06 ≤ sel.toNat ∧ sel.toNat ≤ 0x0F) ∨ (0x13 ≤ sel.toNat ∧ sel.toNat ≤ 0x1F) ∨ 0x24 ≤ sel.toNat))

/-! ### The step -/

/-- When the scheduler chooses the host and its next record decodes to an operation, the step is exec of it, on the state
with the record taken off and the choice used up; and a table word placed by `withFetchWord` is so run at once. The host's
list of records and the schedule are the model's own (log entries 4, 18). -/
def Obligations.StepRunsDecoded : Prop :=
  (∀ (s : State) (r : Record) (rest : List Record) (i : Instr), s.inbox = r :: rest → decode r = .ok i →
    s.pick s.movers = some .host → step s = exec i { s.takeTurn with inbox := rest }) ∧
  (∀ (s : State) (nbits w : Nat) (i : Instr), decodeTableWord nbits w = some i →
    step (s.withFetchWord nbits w) = exec i { s with turn := s.turn + 1 })

/-- The other moves of a step: the chosen agent's next action, the chosen firing, or nothing in an idle block (spec 60 R274,
41 R180, 70 R290); that an idle block stays as it is, is log entry 19. -/
def Obligations.StepMovesChosenAgent : Prop :=
  (∀ (s : State) (a : Actuator), s.pick s.movers = some (.actuator a) → step s = .next (s.takeTurn.tick a)) ∧
  (∀ (s : State) (m : Fin 4), s.pick s.movers = some (.release m) → step s = .next (s.takeTurn.fire m)) ∧
  (∀ s : State, s.movers = [] → step s = .next s)

/-- Every agent that has a step may be the one that moves (spec 60 R269, R274: their relative order is free), and only
such an agent is chosen. How the choice is named is the model's own (log entry 4). -/
def Obligations.EveryMoverMayGo : Prop :=
  (∀ (s : State) (g : Agent) (rest : List Agent), g ∈ s.movers → ({ s with sched := g :: rest } : State).pick s.movers = some g) ∧
  (∀ (s : State) (g : Agent), s.pick s.movers = some g → g ∈ s.movers) ∧
  (∀ s : State, s.movers ≠ [] → ∃ g, s.pick s.movers = some g)

/-- Every operation is available at all times: none stops the machine (spec 60 R271). -/
def Obligations.OperationsAlwaysAvailable : Prop := ∀ (i : Instr) (s : State), ∃ t, exec i s = .next t

/-! ### Reset -/

/-- Reset with any configuration and either bus handle (spec 10 R50, several of whose values the spec marks as its own
decisions D26, D28, D38: log entry 24); that State.reset is such a construction, with the default configuration (log entry
2) and some bus handle (log entry 6), is the model's choice; the default initial delay is 0.1 s. -/
def Obligations.ResetValues : Prop :=
  (∀ (cfg : Config) (b : BusHandle), let s := State.construct cfg b
    (∀ a, imgGet s.img a = none) ∧
    (∀ k, (s.stepper k).pos = 0 ∧ (s.stepper k).sps = cfg.spsInit ∧ (s.stepper k).style = none ∧
      (s.stepper k).acc = 0 ∧ (s.stepper k).seq = .idle) ∧
    (∀ m, (s.motor m).pending = none) ∧ s.lock = .free ∧ s.hist = [] ∧ (∀ a, (s.worker a).queue = []) ∧ s.bus = b) ∧
  (∃ b, State.reset = State.construct defaultConfig b) ∧ defaultConfig.spsInit = 1 / 10

/-- The invariants hold after reset. Those on writes and delays rest on the default configuration (log entry 2: the
prescale range, the steps per revolution, the initial delay), all of them on the reset values of log entry 24. -/
def Obligations.ResetInvariants : Prop :=
  PositionsInRange State.reset ∧ ImageIsHistory State.reset ∧ LockDiscipline State.reset ∧ SequencerInv State.reset ∧
  WritesLegal State.reset ∧ DelaysPositive State.reset

/-! ### Invariants of every step -/

/-- Positions stay in 0..31 (spec 10 R34). -/
def Obligations.StepKeepsPositions : Prop :=
  ∀ s t : State, PositionsInRange s → step s = .next t → PositionsInRange t

/-- The image stays canonical and stays what the history builds (spec 10 R24, R25, R43). -/
def Obligations.StepKeepsImage : Prop := ∀ s t : State, ImageIsHistory s → step s = .next t → ImageIsHistory t

/-- The lock is held exactly inside a PwmController operation (spec 10 R42, 20 R72). -/
def Obligations.StepKeepsLockDiscipline : Prop :=
  ∀ s t : State, TasksOwned s → LockDiscipline s → step s = .next t → TasksOwned t ∧ LockDiscipline t

/-- The in-flight token is present exactly while the stepper's agent has an operation, and at a wait exactly when the
wait's end is its next action (spec 10 R40, 42 R235); the correction loop is a Microstep sequence's alone (spec 42 R233). -/
def Obligations.StepKeepsSequencer : Prop := ∀ s t : State, SequencerInv s → step s = .next t → SequencerInv t

/-- No register but those of the address map is ever written, MODE2 only with 0x04, PRESCALE only within its range, high
bytes of ticks only up to 0x10 (spec 10 R29, R30, R33, 20 R69, 30 R101). -/
def Obligations.StepKeepsLegalWrites : Prop :=
  ∀ s t : State, TasksOwned s → WritesLegal s → step s = .next t → WritesLegal t

/-- Delays stay positive (spec 10 R35). -/
def Obligations.StepKeepsDelays : Prop := ∀ s t : State, DelaysPositive s → step s = .next t → DelaysPositive t

/-- No step changes the configuration or the bus handle, and the history is append-only (spec 10 R20, R43). -/
def Obligations.StepKeepsConfigAndHistory : Prop :=
  ∀ s t : State, step s = .next t → t.cfg = s.cfg ∧ t.bus = s.bus ∧ s.hist <+: t.hist

/-- Mutual exclusion: an agent whose next action is a bus transaction or a wait of a PwmController operation holds the
lock, and then no other agent's next action is one (spec 20 R72, R73). -/
def Obligations.MutualExclusion : Prop :=
  ∀ (s : State) (a : Actuator) (t : Task) (x : Act) (xs : List Act), LockDiscipline s →
    (s.worker a).task = some t → t.todo = x :: xs → x.needsLock = true →
    s.lock = .held a ∧ ∀ (b : Actuator) (u : Task) (y : Act) (ys : List Act), b ≠ a →
      (s.worker b).task = some u → u.todo = y :: ys → y.needsLock = false

/-- A position changes only in a oneStep, to the position of spec 42 R214 (spec 10 R34): a move of an agent changes one in no
other way; a firing changes none; an issue changes none by itself: where exec gives another position, the operation is a
stepper command for that stepper on a block where nobody could move, and exec is its queueing followed by moves of that
stepper's agent (log entry 5). The agent of an Issue event is the agent issued to: log entry 32. -/
def Obligations.OnlyOneStepMovesPosition : Prop :=
  (∀ (s : State) (a : Actuator) (k : Fin 2), ((s.tick a).stepper k).pos = (s.stepper k).pos ∨
    ∃ t d y rest, (s.worker a).task = some t ∧ t.todo = .oneStep k d y :: rest ∧
      ((s.tick a).stepper k).pos = (nextPos s.cfg.correctionMode (s.stepper k).pos y d).val) ∧
  (∀ (s : State) (m : Fin 4) (k : Fin 2), (s.fire m).stepper k = s.stepper k) ∧
  (∀ (s t : State) (i : Instr) (k : Fin 2), exec i s = .next t → (t.stepper k).pos ≠ (s.stepper k).pos →
    opTarget i = some (.stepper k) ∧ queueable i = true ∧ s.movers = [] ∧
    t = State.settle (opFuel i) (.stepper k) ((s.log (.issue (.actuator (.stepper k)) i)).enqueue (.stepper k) i))

/-! ### Memory: the register image -/

/-- A write with outcome Ok makes its register Known, a failed one Unknown; an alias write acts so on every channel; no
other entry changes; a read changes none (spec 10 R24, R25). -/
def Obligations.ImageAfterTransactions : Prop :=
  ∀ (s : State) (by_ : Actuator) (reg v : Byte), imgWf s.img = true →
    let after : Option Byte := if Answer.isOk s.nextAnswer then some v else none
    imgGet (s.busWrite by_ reg v).img reg.toNat = after ∧
    (∀ (k : Nat) (c : Chan), k ≤ 3 → reg.toNat = 0xFA + k → imgGet (s.busWrite by_ reg v).img (6 + 4 * c.val + k) = after) ∧
    (∀ a : Nat, a ≠ reg.toNat → (∀ (k : Nat) (c : Chan), k ≤ 3 → reg.toNat = 0xFA + k → a ≠ 6 + 4 * c.val + k) →
      imgGet (s.busWrite by_ reg v).img a = imgGet s.img a) ∧
    (s.busRead by_ reg).img = s.img

/-- The channel view is the two tick values of four image bytes, Unknown where a byte is (spec 10 R26): after SETCH and
SETALL on a block at rest they are the clamped ticks, and no operation on a block at rest, whatever the bus answers, leaves
one that is neither in 0..4096 nor Unknown.
The status bits of spec 10 R46: the chip's SLEEP and RESTART as last written are bits 4 and 7 of the image of MODE1; INIT
clears SLEEP and keeps the RESTART it read, SETFREQ restores the SLEEP it read and sets RESTART (spec 30 R104), and no other
operation changes either. The block's own bits are the tests of its fields. -/
def Obligations.ChipView : Prop :=
  (∀ (s : State) (c : Chan),
    s.chanOn c = (match imgGet s.img (6 + 4 * c.val), imgGet s.img (7 + 4 * c.val) with
      | some low, some high => some (high.toNat * 256 + low.toNat)
      | _, _ => none) ∧
    s.chanOff c = (match imgGet s.img (8 + 4 * c.val), imgGet s.img (9 + 4 * c.val) with
      | some low, some high => some (high.toNat * 256 + low.toNat)
      | _, _ => none)) ∧
  (∀ (s : State) (c : Chan) (on off : Int), Launch s → s.bus = .open → imgWf s.img = true → AnswersOk s 4 →
    ∃ t, exec (.setch c.val on off) s = .next t ∧ t.chanOn c = some (clampedTick on) ∧ t.chanOff c = some (clampedTick off) ∧
      ∀ e : Chan, e ≠ c → t.chanOn e = s.chanOn e ∧ t.chanOff e = s.chanOff e) ∧
  (∀ (s : State) (on off : Int), Launch s → s.bus = .open → imgWf s.img = true → AnswersOk s 4 →
    ∃ t, exec (.setall on off) s = .next t ∧
      ∀ c : Chan, t.chanOn c = some (clampedTick on) ∧ t.chanOff c = some (clampedTick off)) ∧
  (∀ (s t : State) (i : Instr), Launch s → imgWf s.img = true → TicksInRange s → exec i s = .next t → TicksInRange t) ∧
  (∀ s : State, s.sleepBit = (imgGet s.img 0).map (fun m => m.getLsbD 4) ∧
    s.restartBit = (imgGet s.img 0).map (fun m => m.getLsbD 7) ∧
    (∀ k, s.inFlight k = true ↔ (s.stepper k).seq ≠ .idle) ∧ (∀ m, s.armed m = true ↔ (s.motor m).pending ≠ none) ∧
    (s.locked = true ↔ s.lock ≠ .free) ∧ (s.busFailed = true ↔ s.bus = .failed)) ∧
  (∀ (s : State) (b : Byte), Launch s → s.bus = .open → imgWf s.img = true → AnswersOk s 8 → s.answerAt 6 = .ok b →
    ∃ t, exec .init s = .next t ∧ t.sleepBit = some false ∧ t.restartBit = some (b.getLsbD 7)) ∧
  (∀ (s : State) (f : F64) (old : Byte), Launch s → s.bus = .open → imgWf s.img = true → F64.freqOk f = true →
    AnswersOk s 5 → s.answerAt 0 = .ok old →
    ∃ t, exec (.setfreq f) s = .next t ∧ t.sleepBit = some (old.getLsbD 4) ∧ t.restartBit = some true) ∧
  (∀ (s t : State) (i : Instr), imgWf s.img = true → i ≠ .init → (∀ f, i ≠ .setfreq f) → exec i s = .next t →
    t.sleepBit = s.sleepBit ∧ t.restartBit = s.restartBit)

/-! ### PwmController operations -/

/-- INIT on a block at rest (spec 40 R120, R121): the all-channel write, MODE2, MODE1, a wait, the MODE1 read with answer
`b`, MODE1 without SLEEP, a wait; 8 transactions and 2 waits; Ok; nothing else changes. -/
def Obligations.InitResult : Prop :=
  ∀ (s : State) (b : Byte), Launch s → s.bus = .open → AnswersOk s 8 → s.answerAt 6 = .ok b →
    (∃ g, exec .init s = .next (s.afterRun (.issue g .init ::
      (initEvents s.cfg b ++ [.done (.actuator .controller) .init (.ok none)])) 8)) ∧
    ((initEvents s.cfg b).filterMap (busTxn? s.cfg)).length = 8 ∧
    ((initEvents s.cfg b).filter (fun e => decide (e = .wait .controller (5 / 1000)))).length = 2

/-- SETCH on a block at rest (spec 40 R124): the four bytes of the clamped ticks, in order; nothing else changes. The agent
of an Issue event is the agent issued to: log entry 32. -/
def Obligations.SetchResult : Prop :=
  ∀ (s : State) (c : Chan) (on off : Int), Launch s → s.bus = .open → AnswersOk s 4 →
    exec (.setch c.val on off) s = .next (s.ranOk .controller (.setch c.val on off)
      (chanBytes c (clampedTick on) (clampedTick off)) none)

/-- SETALL on a block at rest (spec 40 R130): the same bytes to the alias registers. The agent of an Issue event is the agent
issued to: log entry 32. -/
def Obligations.SetallResult : Prop :=
  ∀ (s : State) (on off : Int), Launch s → s.bus = .open → AnswersOk s 4 →
    exec (.setall on off) s = .next (s.ranOk .controller (.setall on off)
      (pairBytes 0xFA (clampedTick on) (clampedTick off)) none)

/-- SETFREQ on a block at rest (spec 40 R140, 30 R104): MODE1 read as `old`, SLEEP set (RESTART cleared first under
FREQ_MASK_RESTART), PRESCALE, MODE1 back, a wait, RESTART set; nothing else changes. The agent of an Issue event is the agent
issued to: log entry 32. -/
def Obligations.SetfreqResult : Prop :=
  ∀ (s : State) (f : F64) (q : Rat) (old : Byte), Launch s → s.bus = .open → F64.value f = some q → 0 < q →
    AnswersOk s 5 → s.answerAt 0 = .ok old →
    exec (.setfreq f) s = .next (s.afterRun (.issue (.actuator .controller) (.setfreq f) ::
      (setfreqEvents s.cfg q old ++ [.done (.actuator .controller) (.setfreq f) (.ok none)])) 5)

/-- The prescale byte is within its range whatever the frequency (spec 40 R140), and has the values of spec 95 2.5: one
clamped at the top, one rounded, one at an exact quarter, one clamped at the bottom, one below 1 Hz. -/
def Obligations.PrescaleByte : Prop :=
  (∀ (cfg : Config) (q : Rat), cfg.prescaleMin.toNat ≤ cfg.prescaleMax.toNat →
    cfg.prescaleMin.toNat ≤ (prescale cfg q).toNat ∧ (prescale cfg q).toNat ≤ cfg.prescaleMax.toNat) ∧
  prescale defaultConfig 23 = 255 ∧ prescale defaultConfig 60 = 101 ∧ prescale defaultConfig 40 = 152 ∧
  prescale defaultConfig 2000 = 3 ∧ prescale defaultConfig (1 / 2) = 255

/-- SETPIN on a block at rest (spec 40 R150, 30 R103): the full-duty bytes of the pin value. The agent of an Issue event is
the agent issued to: log entry 32. -/
def Obligations.SetpinResult : Prop :=
  ∀ (s : State) (c : Chan) (v : Bool), Launch s → s.bus = .open → AnswersOk s 4 →
    exec (.setpin c.val (if v then 1 else 0)) s = .next (s.ranOk .controller (.setpin c.val (if v then 1 else 0))
      (pinBytes c v) none)

/-- The bytes of a digital pin (spec 30 R103). -/
def Obligations.PinBytes : Prop :=
  ∀ c : Chan,
    setpinActs c false = [.checkBus, .acquire, .write (chanBase c) 0x00, .write (chanBase c + 1) 0x00,
      .write (chanBase c + 2) 0x00, .write (chanBase c + 3) 0x10, .release] ∧
    setpinActs c true = [.checkBus, .acquire, .write (chanBase c) 0x00, .write (chanBase c + 1) 0x10,
      .write (chanBase c + 2) 0x00, .write (chanBase c + 3) 0x00, .release] ∧
    setpinActs c false = setchActs c 0 4096 ∧ setpinActs c true = setchActs c 4096 0

/-- The tick of a duty and its bytes (spec 30 R102). -/
def Obligations.DutyTicks : Prop :=
  (∀ d : Fin 256, dutyTick d.val = d.val * 16 ∧ dutyTick d.val ≤ 4080 ∧ dutyTick d.val % 16 = 0 ∧
    (tickLow (dutyTick d.val)).toNat = (d.val % 16) * 16 ∧ (tickHigh (dutyTick d.val)).toNat = d.val / 16) ∧
  (dutyTick 128 = 2048 ∧ tickLow 2048 = 0x00 ∧ tickHigh 2048 = 0x08) ∧
  (dutyTick 255 = 4080 ∧ tickLow 4080 = 0xF0 ∧ tickHigh 4080 = 0x0F)

/-! ### DC operations -/

/-- DCRUN on a block at rest (spec 41 R164): the direction pins of the command, in its order, and nothing else. The agent of
an Issue event is the agent issued to: log entry 32. -/
def Obligations.DcrunResult : Prop :=
  ∀ (s : State) (m : Fin 4) (c : Command), Launch s → s.bus = .open →
    AnswersOk s (dcBytes s.cfg.wiringDc[m] c).length →
    exec (.dcrun m.val (commandCode c)) s = .next (s.ranOk (.dc m) (.dcrun m.val (commandCode c))
      (dcBytes s.cfg.wiringDc[m] c) none)

/-- Brake (spec 41 R165), also while a release of that motor is armed: no transaction, Ok, and no state change but the two
events and the cancellation of the release. -/
def Obligations.BrakeHolds : Prop :=
  ∀ (s : State) (m : Fin 4), Launch (s.setPending m none) → s.bus = .open →
    ∃ g, exec (.dcrun m.val 3) s = .next (((s.setPending m none).log (.issue g (.dcrun m.val 3))).log
      (.done (.actuator (.dc m)) (.dcrun m.val 3) (.ok none)))

/-- DCSPEED on a block at rest (spec 41 R170): the duty of the clamped speed on the pwm channel, and nothing else. The agent
of an Issue event is the agent issued to: log entry 32. -/
def Obligations.DcspeedResult : Prop :=
  ∀ (s : State) (m : Fin 4) (speed : Int), Launch s → s.bus = .open → AnswersOk s 4 →
    exec (.dcspeed m.val speed) s = .next (s.ranOk (.dc m) (.dcspeed m.val speed)
      (chanBytes s.cfg.wiringDc[m].pwm 0 (clampedSpeed speed * 16)) none)

/-- RUNDC on a block at rest (spec 41 R176): DCRUN's writes, DCSPEED's writes, and the release armed exactly when a runtime
is given. The agent of an Issue event is the agent issued to: log entry 32. -/
def Obligations.RundcResult : Prop :=
  ∀ (s : State) (m : Fin 4) (c : Command) (speed : Int) (rt : Option F64), Launch s → s.bus = .open →
    F64.runtimeOk rt = true → AnswersOk s ((dcBytes s.cfg.wiringDc[m] c).length + 4) →
    exec (.rundc m.val (commandCode c) speed rt) s =
      .next ((s.setPending m rt).ranOk (.dc m) (.rundc m.val (commandCode c) speed rt)
        (dcBytes s.cfg.wiringDc[m] c ++ chanBytes s.cfg.wiringDc[m].pwm 0 (clampedSpeed speed * 16)) none)

/-- A command for a DC motor cancels its armed release at its issue, in every state (spec 41 R181); that it does so also
when an operand is illegal, where spec 60 R260 lets such an operation change no state, is log entry 11; a command for another
agent never does; only a RUNDC with a runtime leaves one armed. -/
def Obligations.ReleaseCancelledAtIssue : Prop :=
  (∀ (s : State) (m : Fin 4) (i : Instr), opTarget i = some (.dc m) → exec i s = exec i (s.setPending m none)) ∧
  (∀ (s t : State) (m : Fin 4) (i : Instr), opTarget i = some (.dc m) → exec i s = .next t →
    (t.motor m).pending ≠ none → ∃ cmd speed x, i = .rundc m.val cmd speed (some x) ∧ (t.motor m).pending = some x) ∧
  (∀ (s t : State) (m : Fin 4) (i : Instr), opTarget i ≠ some (.dc m) → exec i s = .next t →
    (t.motor m).pending = (s.motor m).pending)

/-- An armed release on a block otherwise at rest fires at the next step and performs DCRUN Release as its motor's task: 16
steps later (the size of a step is the model's own: log entry 5; so are the schedule's entries it uses up: log entry 4) the
release is gone, the firing, the eight writes and the result of the release agent are recorded (spec 41 R180; that the writes
are recorded for the DC agent and the result for the release agent is log entry 13). -/
def Obligations.FireResult : Prop :=
  ∀ (s : State) (m : Fin 4), Launch (s.setPending m none) → s.armed m = true → s.bus = .open → AnswersOk s 8 →
    Host.Core.run Sys2Proof.core 16 s = .next
      { (s.setPending m none).afterRun (.fire m :: (okWrites (.dc m) (dcBytes s.cfg.wiringDc[m] .release) ++
          [.done (.release m) (.dcrun m.val 4) (.ok none)])) 8 with
        sched := s.sched.drop 16, turn := s.turn + 16 }

/-- A release may fire exactly when it is armed, its DC agent is idle and its queue empty (spec 41 R180); firing disarms it
and records it, and starts DCRUN Release of the release agent. -/
def Obligations.FireEnabled : Prop :=
  ∀ (s : State) (m : Fin 4),
    (Agent.release m ∈ s.movers ↔ ((s.motor m).pending ≠ none ∧ (s.motor m).work.task = none ∧ (s.motor m).work.queue = [])) ∧
    ((s.fire m).motor m).pending = none ∧ (s.fire m).hist = s.hist ++ [.fire m] ∧
    ∃ t, ((s.fire m).motor m).work.task = some t ∧ t.op = .dcrun m.val 4 ∧ t.by_ = .release m ∧
      t.todo = dcRunActs s.cfg.wiringDc[m] .release

/-! ### Stepper operations -/

/-- STSPEED in every state with an open bus, also during a sequence (spec 42 R220): the delay and the accumulator, and
nothing else; an rpm below 1 or an index that names no stepper changes nothing but the history (log entries 8, 10). The agent
of an Issue event is the agent issued to: log entry 32. -/
def Obligations.StspeedResult : Prop :=
  (∀ (s : State) (k : Fin 2) (rpm : Nat), 1 ≤ rpm → s.bus = .open →
    exec (.stspeed k.val rpm) s = .next (((s.log (.issue (.actuator (.stepper k)) (.stspeed k.val rpm))).setStepper k
      { s.stepper k with sps := 60 / ((s.cfg.stepsPerRev[k] : Rat) * (rpm : Rat)), acc := 0 }).log
      (.done (.actuator (.stepper k)) (.stspeed k.val rpm) (.ok none)))) ∧
  (∀ (s : State) (k : Fin 2) (rpm : Int), rpm < 1 →
    exec (.stspeed k.val rpm) s = .next ((s.log (.issue (.actuator (.stepper k)) (.stspeed k.val rpm))).log
      (.done (.actuator (.stepper k)) (.stspeed k.val rpm) (.configurationError (.stspeed k.val rpm) .rpm)))) ∧
  (∀ (s : State) (k rpm : Int), ¬(0 ≤ k ∧ k ≤ 1) → ∃ g,
    exec (.stspeed k rpm) s = .next ((s.log (.issue g (.stspeed k rpm))).log
      (.done g (.stspeed k rpm) (.configurationError (.stspeed k rpm) .stepperIndex))))

/-- ONESTEP on a block at rest (spec 42 R214, R215): the new position and style, the 24 writes, Ok with the position. The
agent of an Issue event is the agent issued to: log entry 32. -/
def Obligations.OnestepResult : Prop :=
  ∀ (s : State) (k : Fin 2) (d : Direction) (y : StepStyle), Launch s → s.bus = .open → AnswersOk s 24 →
    let i : Instr := .onestep k.val (directionCode d) (styleCode y)
    let p := nextPos s.cfg.correctionMode (s.stepper k).pos y d
    exec i s = .next ((s.ranOk (.stepper k) i (onestepBytes s.cfg k p y d) (some p.val)).setStepper k
      { s.stepper k with pos := p.val, style := some y })

/-- STEP on a block at rest (spec 42 R230 to R233): all its invocations, `n` of them, for Microstep `8 * n` and the post-loop
correction, with a wait before each but the first, of the stepper's delay, half of it for Interleave, an eighth of it for
Microstep; the delay of the stepper stays; Ok. The agent of an Issue event is the agent issued to: log entry 32. -/
def Obligations.StepResult : Prop :=
  ∀ (s : State) (k : Fin 2) (n : Nat) (d : Direction) (y : StepStyle), Launch s → s.bus = .open →
    let i : Instr := .step k.val n (directionCode d) (styleCode y)
    let p := (s.stepper k).pos
    let count := invocations s.cfg.correctionMode n y d p
    AnswersOk s (24 * count) →
    exec i s = .next ((s.afterRun (.issue (.actuator (.stepper k)) i ::
      (seqEvents s.cfg k (sequenceDelay (s.stepper k).sps y) y d true count p ++
        [.done (.actuator (.stepper k)) i (.ok none)])) (24 * count)).stepped k y d count)

/-- RUNST on a block at rest (spec 42 R238): STSPEED of the clamped speed, then STEP. The agent of an Issue event is the
agent issued to: log entry 32. -/
def Obligations.RunstResult : Prop :=
  ∀ (s : State) (k : Fin 2) (n : Nat) (d : Direction) (speed : Int) (y : StepStyle), Launch s → s.bus = .open → 1 ≤ speed →
    let i : Instr := .runst k.val n (directionCode d) speed (styleCode y)
    let sps : Rat := 60 / ((s.cfg.stepsPerRev[k] : Rat) * (clampedSpeed speed : Rat))
    let p := (s.stepper k).pos
    let count := invocations s.cfg.correctionMode n y d p
    AnswersOk s (24 * count) →
    exec i s = .next (((s.setStepper k { s.stepper k with sps := sps, acc := 0 }).afterRun
      (.issue (.actuator (.stepper k)) i :: (seqEvents s.cfg k (sequenceDelay sps y) y d true count p ++
        [.done (.actuator (.stepper k)) i (.ok none)])) (24 * count)).stepped k y d count)

/-- The correction of Microstep ends on a full-step boundary after at most 7 invocations, and stops at none before it; from
a boundary there is no correction (spec 42 R233, R234). -/
def Obligations.MicrostepEndsOnFullStep : Prop :=
  ∀ (mode : CorrectionMode) (n : Nat) (d : Direction) (p : Nat), p < 32 →
    let q := posAfter mode .microstep d (8 * n) p
    let count := invocations mode n .microstep d p
    posAfter mode .microstep d count p % 8 = 0 ∧ 8 * n ≤ count ∧ count ≤ 8 * n + 7 ∧
    (∀ j, 8 * n ≤ j → j < count → posAfter mode .microstep d j p % 8 ≠ 0) ∧
    count = 8 * n + (match d with | .forward => (8 - q % 8) % 8 | .backward => q % 8) ∧
    (p % 8 = 0 → count = 8 * n)

/-- The delta of every position, style, direction and mode, and the parity of the half-step index after a Single and after
a Double step (spec 42 R213); the next position is the position plus the delta, modulo 32 (spec 42 R214). -/
def Obligations.DeltaAndParity : Prop :=
  ∀ (p : Fin 32) (d : Direction),
    delta .addBoth p.val .single d = d.sign * ((if p.val / 4 % 2 = 1 then 4 else 0) + 8) ∧
    delta .correctionOnly p.val .single d = d.sign * (if p.val / 4 % 2 = 1 then 4 else 8) ∧
    delta .addBoth p.val .double d = d.sign * ((if p.val / 4 % 2 = 0 then 4 else 0) + 8) ∧
    delta .correctionOnly p.val .double d = d.sign * (if p.val / 4 % 2 = 0 then 4 else 8) ∧
    (∀ mode, delta mode p.val .interleave d = d.sign * 4) ∧ (∀ mode, delta mode p.val .microstep d = d.sign * 1) ∧
    (∀ mode, (nextPos mode p.val .single d).val / 4 % 2 = 0) ∧ (∀ mode, (nextPos mode p.val .double d).val / 4 % 2 = 1) ∧
    (∀ mode y, ((nextPos mode p.val y d).val : Int) = ((p.val : Int) + delta mode p.val y d) % 32)

/-- Positions stay in 0..31 under any sequence of oneSteps, and full cycles return to the start (spec 42 R250). -/
def Obligations.FullCycles : Prop :=
  (∀ (mode : CorrectionMode) (steps : List (StepStyle × Direction)) (p : Nat), p < 32 →
    steps.foldl (fun q yd => (nextPos mode q yd.1 yd.2).val) p < 32) ∧
  (∀ (mode : CorrectionMode) (d : Direction) (p : Nat), p < 32 →
    posAfter mode .microstep d 32 p = p ∧ posAfter mode .interleave d 8 p = p ∧
    (p / 4 % 2 = 0 → posAfter mode .single d 4 p = p))

/-- The curve pair of every position has one entry of the offset and one of its complement; at full-step boundaries one
bridge is at 255 and the other at 0, at half steps both are at 180; in quadrant 0, and at the boundary 8, the pair is
`(curve[8-p], curve[p])` (spec 42 R251). What a oneStep puts out from it: the duty pair of every style, direction and
MICRO_BACK_ZERO, and the curve pair of every quadrant (spec 42 R216, R217); the coil pattern, from COIL_MICRO by the quadrant
for Microstep and from COIL_FULL by the half-step index for the others (spec 42 R211, R212, R214); the channel of each pin (spec
42 R200). -/
def Obligations.CurveSymmetry : Prop :=
  (∀ p : Fin 32, ∃ u v, curve[p.val % 8]? = some u ∧ curve[8 - p.val % 8]? = some v ∧
    (curvePair p = (u, v) ∨ curvePair p = (v, u))) ∧
  (∀ p : Fin 32, p.val % 8 = 0 → curvePair p = (255, 0) ∨ curvePair p = (0, 255)) ∧
  (∀ p : Fin 32, p.val % 8 = 4 → curvePair p = (180, 180)) ∧
  (∀ p : Fin 32, p.val ≤ 8 → ∃ u v, curve[8 - p.val]? = some u ∧ curve[p.val]? = some v ∧ curvePair p = (u, v)) ∧
  curvePair 0 = (255, 0) ∧ curvePair 8 = (0, 255) ∧
  (∀ p : Fin 32, ∃ u v, curve[p.val % 8]? = some u ∧ curve[8 - p.val % 8]? = some v ∧
    curvePair p = if p.val / 8 % 2 = 0 then (v, u) else (u, v)) ∧
  (∀ (zero : MicroBackZero) (p : Fin 32), dutyPair zero p .microstep .forward = curvePair p) ∧
  (∀ p : Fin 32, dutyPair .overwritten p .microstep .backward = curvePair p ∧
    dutyPair .visible p .microstep .backward = (0, 0)) ∧
  (∀ (zero : MicroBackZero) (p : Fin 32) (y : StepStyle) (d : Direction), y ≠ .microstep →
    dutyPair zero p y d = (255, 255)) ∧
  (∀ (cfg : Config) (p : Fin 32), cfg.coilMicro[p.val / 8]? = some (coilPattern cfg p .microstep) ∧
    ∀ y : StepStyle, y ≠ .microstep → cfg.coilFull[p.val / 4]? = some (coilPattern cfg p y)) ∧
  (∀ w : StepperWiring, pinChannel w .ain1 = w.a.in1 ∧ pinChannel w .ain2 = w.a.in2 ∧ pinChannel w .bin1 = w.b.in1 ∧
    pinChannel w .bin2 = w.b.in2)

/-! ### Errors -/

/-- An operation with an illegal operand ends with the ConfigurationError of the first failing check, before any transaction
and before any state but the history changes: on a block at rest; when its agent starts it from the queue; and, when its
index names no actuator, at its issue in every state (log entry 10 names the agent). An operation with none is well-formed
(spec 60 R260, R266). That the Issue and the Done event have one agent is log entry 32 (the model's choice). -/
def Obligations.ConfigurationErrors : Prop :=
  (∀ (s : State) (i : Instr) (c : Cause), Launch s → firstCause i = some c → ∃ g,
    exec i s = .next ((s.log (.issue g i)).log (.done g i (.configurationError i c)))) ∧
  (∀ (s : State) (a : Actuator) (i : Instr) (rest : List Instr) (c : Cause), (s.worker a).task = none →
    (s.worker a).queue = i :: rest → queueable i = true → opTarget i = some a → firstCause i = some c →
    s.tick a = (s.setQueue a rest).log (.done (.actuator a) i (.configurationError i c))) ∧
  (∀ (s : State) (i : Instr), opTarget i = none → ∃ c, firstCause i = some c ∧
    exec i s = .next ((s.log (.issue .host i)).log (.done .host i (.configurationError i c)))) ∧
  (∀ i : Instr, firstCause i = none ↔ i.wellFormed = true)

/-- With a Failed bus handle every operation with legal operands ends BusError, no transaction issued, the image unchanged
and the block at rest again (spec 10 R45, 60 R261). That this holds of STSPEED and of Brake too is log entry 7. The agent of
an Issue event is the agent issued to: log entry 32. -/
def Obligations.FailedBus : Prop :=
  ∀ (s : State) (i : Instr), Launch s → s.bus = .failed → i.wellFormed = true → ∃ t a p,
    exec i s = .next t ∧ t.hist = s.hist ++ [.issue (.actuator a) i, .done (.actuator a) i (.busError i none p)] ∧
    t.img = s.img ∧ Launch t ∧ t.answers = s.answers ∧ t.drawn = s.drawn

/-- When a write of SETCH, SETALL, SETPIN, DCRUN, DCSPEED or RUNDC fails, the writes before it stand, it is the last
transaction, its register becomes Unknown, the operation ends BusError with that transaction, and no release is armed (spec
60 R261, R262, R264). The agent of an Issue event is the agent issued to: log entry 32. -/
def Obligations.WriteBusError : Prop :=
  ∀ (s : State) (i : Instr) (a : Actuator) (ws : List (Byte × Byte)) (j : Nat) (hj : j < ws.length), Launch s → s.bus = .open →
    i.wellFormed = true → plainWrites s.cfg i = some (a, ws) → AnswersOk s j → s.answerAt j = .busError →
    exec i s = .next (s.afterRun (.issue (.actuator a) i :: (failedWrites a ws j ++
      [.done (.actuator a) i (.busError i (some ⟨ws[j].1, some ws[j].2⟩) none)])) (j + 1))

/-- When a transaction of ONESTEP, STEP or RUNST fails, the writes before it stand, it is the last, the position and the
style of the oneStep it belongs to stay, the sequence is Idle, and the error reports the transaction, the oneSteps completed
before and the position reached (spec 42 R214, R230, 60 R262, R264); RUNST keeps its new delay (spec 42 R238). That a direct
ONESTEP reports progress, with no oneStep completed, is log entry 25. The agent of an Issue event is the agent issued to: log
entry 32. -/
def Obligations.StepperBusErrors : Prop :=
  (∀ (s : State) (k : Fin 2) (d : Direction) (y : StepStyle) (j : Nat), Launch s → s.bus = .open →
      AnswersOk s j → s.answerAt j = .busError →
      let i : Instr := .onestep k.val (directionCode d) (styleCode y)
      let p := nextPos s.cfg.correctionMode (s.stepper k).pos y d
      let ws := onestepBytes s.cfg k p y d
      ∀ hj : j < ws.length,
      exec i s = .next ((s.afterRun (.issue (.actuator (.stepper k)) i :: (failedWrites (.stepper k) ws j ++
        [.done (.actuator (.stepper k)) i (.busError i (some ⟨ws[j].1, some ws[j].2⟩) (some ⟨0, p.val⟩))])) (j + 1)).setStepper k
        { s.stepper k with pos := p.val, style := some y })) ∧
  (∀ (s : State) (k : Fin 2) (n : Nat) (d : Direction) (y : StepStyle) (j : Nat), Launch s → s.bus = .open →
    AnswersOk s j → s.answerAt j = .busError →
    let i : Instr := .step k.val n (directionCode d) (styleCode y)
    let p := (s.stepper k).pos
    let count := invocations s.cfg.correctionMode n y d p
    let evs := seqEvents s.cfg k (sequenceDelay (s.stepper k).sps y) y d true count p
    j < 24 * count →
    exec i s = .next ((s.afterRun (.issue (.actuator (.stepper k)) i :: (failAt evs j ++
      [.done (.actuator (.stepper k)) i (.busError i (evs.filterMap txn?)[j]?
        (some ⟨j / 24, posAfter s.cfg.correctionMode y d (j / 24 + 1) p⟩))])) (j + 1)).stepped k y d (j / 24 + 1))) ∧
  (∀ (s : State) (k : Fin 2) (n : Nat) (d : Direction) (speed : Int) (y : StepStyle) (j : Nat), Launch s → s.bus = .open →
    1 ≤ speed → AnswersOk s j → s.answerAt j = .busError →
    let i : Instr := .runst k.val n (directionCode d) speed (styleCode y)
    let sps : Rat := 60 / ((s.cfg.stepsPerRev[k] : Rat) * (clampedSpeed speed : Rat))
    let p := (s.stepper k).pos
    let count := invocations s.cfg.correctionMode n y d p
    let evs := seqEvents s.cfg k (sequenceDelay sps y) y d true count p
    j < 24 * count →
    exec i s = .next (((s.setStepper k { s.stepper k with sps := sps, acc := 0 }).afterRun
      (.issue (.actuator (.stepper k)) i :: (failAt evs j ++
      [.done (.actuator (.stepper k)) i (.busError i (evs.filterMap txn?)[j]?
        (some ⟨j / 24, posAfter s.cfg.correctionMode y d (j / 24 + 1) p⟩))])) (j + 1)).stepped k y d (j / 24 + 1)))

/-- ERRORS ARE PRECISE on a block at rest: the transaction a BusError reports is the one that failed, and nothing of the
operation comes after it; an operation none of whose transactions failed reports none (spec 60 R264). The form of the trace,
with one agent at both ends, is log entry 32 (the model's choice). -/
def Obligations.ErrorsArePrecise : Prop :=
  ∀ (s t : State) (i : Instr) (g : Agent) (evs : List Event) (r : Result), Launch s → exec i s = .next t →
    t.hist = s.hist ++ (.issue g i :: (evs ++ [.done g i r])) →
    (∀ (pre post : List Event) (e : Event) (x : Txn), evs = pre ++ e :: post → failedTxn? e = some x →
      post = [] ∧ ∃ p, r = .busError i (some x) p) ∧
    (∀ x p, r = .busError i (some x) p → ∃ e ∈ evs, failedTxn? e = some x)

/-- When a transaction of INIT or SETFREQ fails, the read of MODE1 among them, those before it stand, it is the last, and the
operation ends BusError with it, the lock free again and nothing else changed (spec 40 R120, R140, 60 R261, R262, R264; that
a failed write leaves its register Unknown and a failed read none, is spec 10 R24). The agent of an Issue event is the agent
issued to: log entry 32. -/
def Obligations.InitAndSetfreqBusErrors : Prop :=
  (∀ (s : State) (b : Byte) (j : Nat), Launch s → s.bus = .open → j < 8 → AnswersOk s j → s.answerAt j = .busError →
    (6 < j → s.answerAt 6 = .ok b) →
    exec .init s = .next (s.afterRun (.issue (.actuator .controller) .init :: (failAt (initEvents s.cfg b) j ++
      [.done (.actuator .controller) .init (.busError .init ((initEvents s.cfg b).filterMap txn?)[j]? none)])) (j + 1))) ∧
  (∀ (s : State) (f : F64) (q : Rat) (old : Byte) (j : Nat), Launch s → s.bus = .open → F64.value f = some q → 0 < q →
    j < 5 → AnswersOk s j → s.answerAt j = .busError → (0 < j → s.answerAt 0 = .ok old) →
    exec (.setfreq f) s = .next (s.afterRun (.issue (.actuator .controller) (.setfreq f) ::
      (failAt (setfreqEvents s.cfg q old) j ++ [.done (.actuator .controller) (.setfreq f)
        (.busError (.setfreq f) ((setfreqEvents s.cfg q old).filterMap txn?)[j]? none)])) (j + 1)))

/-- EVERY OPERATION ISSUED TO A BLOCK AT REST ENDS, whatever the bus answers: exactly one issue and one result are recorded,
at the two ends of its events, and the block is at rest again but for a release that a RUNDC with a runtime armed (spec 42
R234, 60 R268, R275, R276). That the Issue and the Done event have one agent is log entry 32 (the model's choice). -/
def Obligations.EveryOperationEnds : Prop :=
  ∀ (s : State) (i : Instr), Launch s → ∃ (t : State) (g : Agent) (evs : List Event) (r : Result),
    exec i s = .next t ∧ t.hist = s.hist ++ (.issue g i :: (evs ++ [.done g i r])) ∧
    (∀ e ∈ evs, ∀ h j q, e ≠ .issue h j ∧ e ≠ .done h j q) ∧
    (∀ a, t.worker a = Worker.idle) ∧ t.lock = .free ∧ (∀ k, (t.stepper k).seq = .idle) ∧
    ((∀ m cmd speed x, i ≠ .rundc m cmd speed (some x)) → Launch t)

/-! ### A busy block -/

/-- While other moves are open, the issue of an operation that the in-flight rule does not reject records it, cancels the
release of its motor (also when an operand is illegal: log entry 11) and queues it, and nothing else (spec 60 R275, 10 R44,
42 R242; which moves follow an issue at once is log entry 5). The agent of an Issue event is the agent issued to: log entry
32. -/
def Obligations.BusyBlockQueues : Prop :=
  ∀ (s : State) (i : Instr) (a : Actuator), opTarget i = some a → queueable i = true → (s.disarmFor a).movers ≠ [] →
    (s.inFlightFor a = true → s.cfg.inflightPolicy = .supersede) →
    exec i s = .next (((s.log (.issue (.actuator a) i)).disarmFor a).enqueue a i)

/-- Under Reject, a stepper command, whatever its other operands (log entry 9) and also with a Failed bus handle (log entry
31), issued while a sequence of that stepper is in flight, or a command queued, ends Busy at once: no transaction, no state
but the history changes (spec 42 R240, R241, 60 R265). The agent of an Issue event is the agent issued to: log entry 32. -/
def Obligations.InflightReject : Prop :=
  ∀ (s : State) (i : Instr) (k : Fin 2), opTarget i = some (.stepper k) → queueable i = true →
    ((s.stepper k).seq ≠ .idle ∨ (s.stepper k).work.queue ≠ []) → s.cfg.inflightPolicy = .reject →
    exec i s = .next ((s.log (.issue (.actuator (.stepper k)) i)).log (.done (.actuator (.stepper k)) i (.busy i)))

/-- Under Supersede, a sequence at its wait with a legal command queued is cancelled at its agent's next move: Cancel and the
result Cancelled are recorded (and no wait: log entry 12), the sequence is Idle, the position, the delay, the image and the
bus stay as they are, and the move after that starts the queued command (spec 42 R242). A command with an illegal operand
cancels too, by log entry 33 (the model's choice), of which nothing is stated here. -/
def Obligations.CancelAtWait : Prop :=
  ∀ (s : State) (k : Fin 2) (t : Task) (rest : List Act) (i : Instr) (q : List Instr) (p : Plan),
    (s.worker (.stepper k)).task = some t → t.todo = .seqWait k :: rest → (s.worker (.stepper k)).queue = i :: q →
    s.cfg.inflightPolicy = .supersede → plan s.cfg i = .ok p →
    let u := s.tick (.stepper k)
    u.hist = s.hist ++ [.cancel k, .done t.by_ t.op (.cancelled t.op)] ∧ (u.stepper k).seq = .idle ∧
    u.worker (.stepper k) = ⟨i :: q, none⟩ ∧ (u.stepper k).pos = (s.stepper k).pos ∧ (u.stepper k).sps = (s.stepper k).sps ∧
    (u.stepper k).style = (s.stepper k).style ∧ u.img = s.img ∧ u.answers = s.answers ∧
    u.tick (.stepper k) = (u.setQueue (.stepper k) q).begin (.stepper k) i p

/-- A sequence is cancelled only under Supersede, only with a command queued, and only at a wait, never inside a oneStep
(spec 42 R242); that any command queued cancels, also one with an illegal operand, is log entry 33. -/
def Obligations.CancelOnlyAtWait : Prop :=
  ∀ (s : State) (a : Actuator) (k : Fin 2) (evs : List Event), SequencerInv s → (s.tick a).hist = s.hist ++ evs →
    .cancel k ∈ evs → a = .stepper k ∧ s.cfg.inflightPolicy = .supersede ∧ (s.stepper k).work.queue ≠ [] ∧
    ∃ r, (s.stepper k).seq = .running r ∧ r.place = .atWait

/-! ### Runs -/

/-- In a run with a fair schedule no agent is left waiting: one that has an operation queued or running, waiting for the
lock or for a wait's end among them, is chosen again, and so is the host while it has a record to issue (spec 70 R305, 20
R75). -/
def Obligations.FairRuns : Prop :=
  ∀ (f : Nat → Feed) (r : Nat → State), IsRun f r → TasksOwned (r 0) → LockDiscipline (r 0) → Fair f r →
    (∀ n a, (r n).worker a ≠ Worker.idle → ∃ m, n ≤ m ∧ chosenAt f r m = some (.actuator a)) ∧
    (∀ n, (r n).inbox ≠ [] → ∃ m, n ≤ m ∧ chosenAt f r m = some .host)

/-- EVERY RUN to which only finitely many records come ENDS (spec 70 R305, 60 R276, 42 R234): it reaches a launch state, all
agents idle, no sequence, no armed release, the lock free, nothing to issue. The model needs no fairness for it, since each
move does one of finitely many actions (log entries 4, 5, 20). -/
def Obligations.RunsEnd : Prop :=
  ∀ (f : Nat → Feed) (r : Nat → State) (N : Nat), IsRun f r → LockDiscipline (r 0) → SequencerInv (r 0) →
    (∀ n, N ≤ n → (f n).records = []) → ∃ n, N ≤ n ∧ Launch (r n)

/-! ### Frames -/

/-- What the PwmController operations leave unchanged (spec 40 R120, R124, R130, R140, R150). -/
def Obligations.FramePwm : Prop :=
  Frame .init ∧ (∀ ch on off, Frame (.setch ch on off)) ∧ (∀ on off, Frame (.setall on off)) ∧
  (∀ f, Frame (.setfreq f)) ∧ (∀ pin val, Frame (.setpin pin val))

/-- What the DC operations leave unchanged (spec 41 R164, R170, R176). -/
def Obligations.FrameDc : Prop :=
  (∀ m cmd, Frame (.dcrun m cmd)) ∧ (∀ m speed, Frame (.dcspeed m speed)) ∧
  (∀ m cmd speed rt, Frame (.rundc m cmd speed rt))

/-- What the stepper operations leave unchanged (spec 42 R214, R220, R230, R238); STSPEED leaves the position too, and its
stepper's queue and operation as they are, since it is never queued (log entry 8). ONESTEP and STEP write no delay and no
accumulator, whatever their result (spec 42 R231, 70 R291); RUNST writes those of its stepper, if any, as STSPEED does; and a
move of an agent, in a state where every agent's queue and program are its own, writes them only where it starts a RUNST. -/
def Obligations.FrameStepper : Prop :=
  (∀ k cmd style, Frame (.onestep k cmd style)) ∧ (∀ k n cmd style, Frame (.step k n cmd style)) ∧
  (∀ k n cmd speed style, Frame (.runst k n cmd speed style)) ∧ (∀ k rpm, Frame (.stspeed k rpm)) ∧
  (∀ (s t : State) (k rpm : Int) (j : Fin 2), exec (.stspeed k rpm) s = .next t →
    (t.stepper j).pos = (s.stepper j).pos ∧ (t.stepper j).style = (s.stepper j).style ∧ (t.stepper j).seq = (s.stepper j).seq ∧
    (t.stepper j).work = (s.stepper j).work) ∧
  (∀ (s t : State) (k cmd style : Int) (j : Fin 2), exec (.onestep k cmd style) s = .next t →
    (t.stepper j).sps = (s.stepper j).sps ∧ (t.stepper j).acc = (s.stepper j).acc) ∧
  (∀ (s t : State) (k : Int) (n : Nat) (cmd style : Int) (j : Fin 2), exec (.step k n cmd style) s = .next t →
    (t.stepper j).sps = (s.stepper j).sps ∧ (t.stepper j).acc = (s.stepper j).acc) ∧
  (∀ (s t : State) (k : Int) (n : Nat) (cmd speed style : Int) (j : Fin 2), exec (.runst k n cmd speed style) s = .next t →
    ((t.stepper j).sps = (s.stepper j).sps ∧ (t.stepper j).acc = (s.stepper j).acc) ∨
    (k = j.val ∧ 1 ≤ speed ∧ (t.stepper j).acc = 0 ∧
      (t.stepper j).sps = 60 / ((s.cfg.stepsPerRev[j] : Rat) * (clampedSpeed speed : Rat)))) ∧
  (∀ (s : State) (a : Actuator) (j : Fin 2), TasksOwned s →
    ((s.tick a).stepper j).sps ≠ (s.stepper j).sps ∨ ((s.tick a).stepper j).acc ≠ (s.stepper j).acc →
    a = .stepper j ∧ (s.worker a).task = none ∧
    ∃ k n cmd speed style rest, (s.worker a).queue = .runst k n cmd speed style :: rest)

/-! ### The assembler -/

/-- The example line of spec 30 R109 and the pseudo-operations of spec 30 R110; the reading of a line is log entry 28. -/
def Obligations.AssemblerLines : Prop :=
  assemble "RUNST 0, 4, FORWARD, 60, SINGLE".toList = .op (encode (.runst 0 4 1 60 1)) ∧
  assemble "PINLO 9".toList = .op (encode (.setpin 9 0)) ∧ assemble "PINHI 9".toList = .op (encode (.setpin 9 1)) ∧
  assemble "DUTY 8, 2048".toList = .op (encode (.setch 8 0 2048)) ∧
  assemble "DCSTOP 2".toList = .op (encode (.dcrun 2 4))
end

