-- ==== Sys2Proof/Laws/State.lean ====
section
/-! SUPPORT. What each update of the state does to each field: one lemma per field per update. -/

namespace Sys2Proof.Machine

/-! ### log -/

@[simp] theorem State.log_cfg (s : State) (e : Event) : (s.log e).cfg = s.cfg := rfl
@[simp] theorem State.log_img (s : State) (e : Event) : (s.log e).img = s.img := rfl
@[simp] theorem State.log_ctrl (s : State) (e : Event) : (s.log e).ctrl = s.ctrl := rfl
@[simp] theorem State.log_dc (s : State) (e : Event) : (s.log e).dc = s.dc := rfl
@[simp] theorem State.log_st (s : State) (e : Event) : (s.log e).st = s.st := rfl
@[simp] theorem State.log_lock (s : State) (e : Event) : (s.log e).lock = s.lock := rfl
@[simp] theorem State.log_hist (s : State) (e : Event) : (s.log e).hist = s.hist ++ [e] := rfl
@[simp] theorem State.log_bus (s : State) (e : Event) : (s.log e).bus = s.bus := rfl
@[simp] theorem State.log_inbox (s : State) (e : Event) : (s.log e).inbox = s.inbox := rfl
@[simp] theorem State.log_sched (s : State) (e : Event) : (s.log e).sched = s.sched := rfl
@[simp] theorem State.log_turn (s : State) (e : Event) : (s.log e).turn = s.turn := rfl
@[simp] theorem State.log_answers (s : State) (e : Event) : (s.log e).answers = s.answers := rfl
@[simp] theorem State.log_drawn (s : State) (e : Event) : (s.log e).drawn = s.drawn := rfl

/-! ### setLock -/

@[simp] theorem State.setLock_cfg (s : State) (l : Lock) : (s.setLock l).cfg = s.cfg := rfl
@[simp] theorem State.setLock_img (s : State) (l : Lock) : (s.setLock l).img = s.img := rfl
@[simp] theorem State.setLock_ctrl (s : State) (l : Lock) : (s.setLock l).ctrl = s.ctrl := rfl
@[simp] theorem State.setLock_dc (s : State) (l : Lock) : (s.setLock l).dc = s.dc := rfl
@[simp] theorem State.setLock_st (s : State) (l : Lock) : (s.setLock l).st = s.st := rfl
@[simp] theorem State.setLock_lock (s : State) (l : Lock) : (s.setLock l).lock = l := rfl
@[simp] theorem State.setLock_hist (s : State) (l : Lock) : (s.setLock l).hist = s.hist := rfl
@[simp] theorem State.setLock_bus (s : State) (l : Lock) : (s.setLock l).bus = s.bus := rfl
@[simp] theorem State.setLock_inbox (s : State) (l : Lock) : (s.setLock l).inbox = s.inbox := rfl
@[simp] theorem State.setLock_sched (s : State) (l : Lock) : (s.setLock l).sched = s.sched := rfl
@[simp] theorem State.setLock_turn (s : State) (l : Lock) : (s.setLock l).turn = s.turn := rfl
@[simp] theorem State.setLock_answers (s : State) (l : Lock) : (s.setLock l).answers = s.answers := rfl
@[simp] theorem State.setLock_drawn (s : State) (l : Lock) : (s.setLock l).drawn = s.drawn := rfl

/-! ### setStepper -/

@[simp] theorem State.setStepper_cfg (s : State) (k : Fin 2) (x : Stepper) : (s.setStepper k x).cfg = s.cfg := rfl
@[simp] theorem State.setStepper_img (s : State) (k : Fin 2) (x : Stepper) : (s.setStepper k x).img = s.img := rfl
@[simp] theorem State.setStepper_ctrl (s : State) (k : Fin 2) (x : Stepper) : (s.setStepper k x).ctrl = s.ctrl := rfl
@[simp] theorem State.setStepper_dc (s : State) (k : Fin 2) (x : Stepper) : (s.setStepper k x).dc = s.dc := rfl
@[simp] theorem State.setStepper_st (s : State) (k : Fin 2) (x : Stepper) : (s.setStepper k x).st = s.st.set k x := rfl
@[simp] theorem State.setStepper_lock (s : State) (k : Fin 2) (x : Stepper) : (s.setStepper k x).lock = s.lock := rfl
@[simp] theorem State.setStepper_hist (s : State) (k : Fin 2) (x : Stepper) : (s.setStepper k x).hist = s.hist := rfl
@[simp] theorem State.setStepper_bus (s : State) (k : Fin 2) (x : Stepper) : (s.setStepper k x).bus = s.bus := rfl
@[simp] theorem State.setStepper_inbox (s : State) (k : Fin 2) (x : Stepper) : (s.setStepper k x).inbox = s.inbox := rfl
@[simp] theorem State.setStepper_sched (s : State) (k : Fin 2) (x : Stepper) : (s.setStepper k x).sched = s.sched := rfl
@[simp] theorem State.setStepper_turn (s : State) (k : Fin 2) (x : Stepper) : (s.setStepper k x).turn = s.turn := rfl
@[simp] theorem State.setStepper_answers (s : State) (k : Fin 2) (x : Stepper) : (s.setStepper k x).answers = s.answers := rfl
@[simp] theorem State.setStepper_drawn (s : State) (k : Fin 2) (x : Stepper) : (s.setStepper k x).drawn = s.drawn := rfl

/-! ### setMotor -/

@[simp] theorem State.setMotor_cfg (s : State) (m : Fin 4) (x : DcMotor) : (s.setMotor m x).cfg = s.cfg := rfl
@[simp] theorem State.setMotor_img (s : State) (m : Fin 4) (x : DcMotor) : (s.setMotor m x).img = s.img := rfl
@[simp] theorem State.setMotor_ctrl (s : State) (m : Fin 4) (x : DcMotor) : (s.setMotor m x).ctrl = s.ctrl := rfl
@[simp] theorem State.setMotor_dc (s : State) (m : Fin 4) (x : DcMotor) : (s.setMotor m x).dc = s.dc.set m x := rfl
@[simp] theorem State.setMotor_st (s : State) (m : Fin 4) (x : DcMotor) : (s.setMotor m x).st = s.st := rfl
@[simp] theorem State.setMotor_lock (s : State) (m : Fin 4) (x : DcMotor) : (s.setMotor m x).lock = s.lock := rfl
@[simp] theorem State.setMotor_hist (s : State) (m : Fin 4) (x : DcMotor) : (s.setMotor m x).hist = s.hist := rfl
@[simp] theorem State.setMotor_bus (s : State) (m : Fin 4) (x : DcMotor) : (s.setMotor m x).bus = s.bus := rfl
@[simp] theorem State.setMotor_inbox (s : State) (m : Fin 4) (x : DcMotor) : (s.setMotor m x).inbox = s.inbox := rfl
@[simp] theorem State.setMotor_sched (s : State) (m : Fin 4) (x : DcMotor) : (s.setMotor m x).sched = s.sched := rfl
@[simp] theorem State.setMotor_turn (s : State) (m : Fin 4) (x : DcMotor) : (s.setMotor m x).turn = s.turn := rfl
@[simp] theorem State.setMotor_answers (s : State) (m : Fin 4) (x : DcMotor) : (s.setMotor m x).answers = s.answers := rfl
@[simp] theorem State.setMotor_drawn (s : State) (m : Fin 4) (x : DcMotor) : (s.setMotor m x).drawn = s.drawn := rfl

/-! ### drawAnswer -/

@[simp] theorem State.drawAnswer_cfg (s : State)  : (s.drawAnswer).cfg = s.cfg := rfl
@[simp] theorem State.drawAnswer_img (s : State)  : (s.drawAnswer).img = s.img := rfl
@[simp] theorem State.drawAnswer_ctrl (s : State)  : (s.drawAnswer).ctrl = s.ctrl := rfl
@[simp] theorem State.drawAnswer_dc (s : State)  : (s.drawAnswer).dc = s.dc := rfl
@[simp] theorem State.drawAnswer_st (s : State)  : (s.drawAnswer).st = s.st := rfl
@[simp] theorem State.drawAnswer_lock (s : State)  : (s.drawAnswer).lock = s.lock := rfl
@[simp] theorem State.drawAnswer_hist (s : State)  : (s.drawAnswer).hist = s.hist := rfl
@[simp] theorem State.drawAnswer_bus (s : State)  : (s.drawAnswer).bus = s.bus := rfl
@[simp] theorem State.drawAnswer_inbox (s : State)  : (s.drawAnswer).inbox = s.inbox := rfl
@[simp] theorem State.drawAnswer_sched (s : State)  : (s.drawAnswer).sched = s.sched := rfl
@[simp] theorem State.drawAnswer_turn (s : State)  : (s.drawAnswer).turn = s.turn := rfl
@[simp] theorem State.drawAnswer_answers (s : State)  : (s.drawAnswer).answers = s.answers.tail := rfl
@[simp] theorem State.drawAnswer_drawn (s : State)  : (s.drawAnswer).drawn = s.drawn + 1 := rfl

/-! ### busWrite -/

@[simp] theorem State.busWrite_cfg (s : State) (a : Actuator) (r v : Byte) : (s.busWrite a r v).cfg = s.cfg := rfl
@[simp] theorem State.busWrite_img (s : State) (a : Actuator) (r v : Byte) : (s.busWrite a r v).img = imgAfterWrite s.img r v (Answer.isOk s.nextAnswer) := rfl
@[simp] theorem State.busWrite_ctrl (s : State) (a : Actuator) (r v : Byte) : (s.busWrite a r v).ctrl = s.ctrl := rfl
@[simp] theorem State.busWrite_dc (s : State) (a : Actuator) (r v : Byte) : (s.busWrite a r v).dc = s.dc := rfl
@[simp] theorem State.busWrite_st (s : State) (a : Actuator) (r v : Byte) : (s.busWrite a r v).st = s.st := rfl
@[simp] theorem State.busWrite_lock (s : State) (a : Actuator) (r v : Byte) : (s.busWrite a r v).lock = s.lock := rfl
@[simp] theorem State.busWrite_hist (s : State) (a : Actuator) (r v : Byte) : (s.busWrite a r v).hist = s.hist ++ [.write a r v (Answer.isOk s.nextAnswer)] := rfl
@[simp] theorem State.busWrite_bus (s : State) (a : Actuator) (r v : Byte) : (s.busWrite a r v).bus = s.bus := rfl
@[simp] theorem State.busWrite_inbox (s : State) (a : Actuator) (r v : Byte) : (s.busWrite a r v).inbox = s.inbox := rfl
@[simp] theorem State.busWrite_sched (s : State) (a : Actuator) (r v : Byte) : (s.busWrite a r v).sched = s.sched := rfl
@[simp] theorem State.busWrite_turn (s : State) (a : Actuator) (r v : Byte) : (s.busWrite a r v).turn = s.turn := rfl
@[simp] theorem State.busWrite_answers (s : State) (a : Actuator) (r v : Byte) : (s.busWrite a r v).answers = s.answers.tail := rfl
@[simp] theorem State.busWrite_drawn (s : State) (a : Actuator) (r v : Byte) : (s.busWrite a r v).drawn = s.drawn + 1 := rfl

/-! ### busRead -/

@[simp] theorem State.busRead_cfg (s : State) (a : Actuator) (r : Byte) : (s.busRead a r).cfg = s.cfg := rfl
@[simp] theorem State.busRead_img (s : State) (a : Actuator) (r : Byte) : (s.busRead a r).img = s.img := rfl
@[simp] theorem State.busRead_ctrl (s : State) (a : Actuator) (r : Byte) : (s.busRead a r).ctrl = s.ctrl := rfl
@[simp] theorem State.busRead_dc (s : State) (a : Actuator) (r : Byte) : (s.busRead a r).dc = s.dc := rfl
@[simp] theorem State.busRead_st (s : State) (a : Actuator) (r : Byte) : (s.busRead a r).st = s.st := rfl
@[simp] theorem State.busRead_lock (s : State) (a : Actuator) (r : Byte) : (s.busRead a r).lock = s.lock := rfl
@[simp] theorem State.busRead_hist (s : State) (a : Actuator) (r : Byte) : (s.busRead a r).hist = s.hist ++ [.read a r s.nextAnswer] := rfl
@[simp] theorem State.busRead_bus (s : State) (a : Actuator) (r : Byte) : (s.busRead a r).bus = s.bus := rfl
@[simp] theorem State.busRead_inbox (s : State) (a : Actuator) (r : Byte) : (s.busRead a r).inbox = s.inbox := rfl
@[simp] theorem State.busRead_sched (s : State) (a : Actuator) (r : Byte) : (s.busRead a r).sched = s.sched := rfl
@[simp] theorem State.busRead_turn (s : State) (a : Actuator) (r : Byte) : (s.busRead a r).turn = s.turn := rfl
@[simp] theorem State.busRead_answers (s : State) (a : Actuator) (r : Byte) : (s.busRead a r).answers = s.answers.tail := rfl
@[simp] theorem State.busRead_drawn (s : State) (a : Actuator) (r : Byte) : (s.busRead a r).drawn = s.drawn + 1 := rfl

/-! ### setWorker -/

@[simp] theorem State.setWorker_cfg (s : State) (a : Actuator) (w : Worker) : (s.setWorker a w).cfg = s.cfg := by cases a <;> rfl
@[simp] theorem State.setWorker_img (s : State) (a : Actuator) (w : Worker) : (s.setWorker a w).img = s.img := by cases a <;> rfl
@[simp] theorem State.setWorker_lock (s : State) (a : Actuator) (w : Worker) : (s.setWorker a w).lock = s.lock := by cases a <;> rfl
@[simp] theorem State.setWorker_hist (s : State) (a : Actuator) (w : Worker) : (s.setWorker a w).hist = s.hist := by cases a <;> rfl
@[simp] theorem State.setWorker_bus (s : State) (a : Actuator) (w : Worker) : (s.setWorker a w).bus = s.bus := by cases a <;> rfl
@[simp] theorem State.setWorker_inbox (s : State) (a : Actuator) (w : Worker) : (s.setWorker a w).inbox = s.inbox := by cases a <;> rfl
@[simp] theorem State.setWorker_sched (s : State) (a : Actuator) (w : Worker) : (s.setWorker a w).sched = s.sched := by cases a <;> rfl
@[simp] theorem State.setWorker_turn (s : State) (a : Actuator) (w : Worker) : (s.setWorker a w).turn = s.turn := by cases a <;> rfl
@[simp] theorem State.setWorker_answers (s : State) (a : Actuator) (w : Worker) : (s.setWorker a w).answers = s.answers := by cases a <;> rfl
@[simp] theorem State.setWorker_drawn (s : State) (a : Actuator) (w : Worker) : (s.setWorker a w).drawn = s.drawn := by cases a <;> rfl

/-! ### setTask -/

@[simp] theorem State.setTask_cfg (s : State) (a : Actuator) (t : Option Task) : (s.setTask a t).cfg = s.cfg := by cases a <;> rfl
@[simp] theorem State.setTask_img (s : State) (a : Actuator) (t : Option Task) : (s.setTask a t).img = s.img := by cases a <;> rfl
@[simp] theorem State.setTask_lock (s : State) (a : Actuator) (t : Option Task) : (s.setTask a t).lock = s.lock := by cases a <;> rfl
@[simp] theorem State.setTask_hist (s : State) (a : Actuator) (t : Option Task) : (s.setTask a t).hist = s.hist := by cases a <;> rfl
@[simp] theorem State.setTask_bus (s : State) (a : Actuator) (t : Option Task) : (s.setTask a t).bus = s.bus := by cases a <;> rfl
@[simp] theorem State.setTask_inbox (s : State) (a : Actuator) (t : Option Task) : (s.setTask a t).inbox = s.inbox := by cases a <;> rfl
@[simp] theorem State.setTask_sched (s : State) (a : Actuator) (t : Option Task) : (s.setTask a t).sched = s.sched := by cases a <;> rfl
@[simp] theorem State.setTask_turn (s : State) (a : Actuator) (t : Option Task) : (s.setTask a t).turn = s.turn := by cases a <;> rfl
@[simp] theorem State.setTask_answers (s : State) (a : Actuator) (t : Option Task) : (s.setTask a t).answers = s.answers := by cases a <;> rfl
@[simp] theorem State.setTask_drawn (s : State) (a : Actuator) (t : Option Task) : (s.setTask a t).drawn = s.drawn := by cases a <;> rfl

/-! ### setQueue -/

@[simp] theorem State.setQueue_cfg (s : State) (a : Actuator) (q : List Instr) : (s.setQueue a q).cfg = s.cfg := by cases a <;> rfl
@[simp] theorem State.setQueue_img (s : State) (a : Actuator) (q : List Instr) : (s.setQueue a q).img = s.img := by cases a <;> rfl
@[simp] theorem State.setQueue_lock (s : State) (a : Actuator) (q : List Instr) : (s.setQueue a q).lock = s.lock := by cases a <;> rfl
@[simp] theorem State.setQueue_hist (s : State) (a : Actuator) (q : List Instr) : (s.setQueue a q).hist = s.hist := by cases a <;> rfl
@[simp] theorem State.setQueue_bus (s : State) (a : Actuator) (q : List Instr) : (s.setQueue a q).bus = s.bus := by cases a <;> rfl
@[simp] theorem State.setQueue_inbox (s : State) (a : Actuator) (q : List Instr) : (s.setQueue a q).inbox = s.inbox := by cases a <;> rfl
@[simp] theorem State.setQueue_sched (s : State) (a : Actuator) (q : List Instr) : (s.setQueue a q).sched = s.sched := by cases a <;> rfl
@[simp] theorem State.setQueue_turn (s : State) (a : Actuator) (q : List Instr) : (s.setQueue a q).turn = s.turn := by cases a <;> rfl
@[simp] theorem State.setQueue_answers (s : State) (a : Actuator) (q : List Instr) : (s.setQueue a q).answers = s.answers := by cases a <;> rfl
@[simp] theorem State.setQueue_drawn (s : State) (a : Actuator) (q : List Instr) : (s.setQueue a q).drawn = s.drawn := by cases a <;> rfl

/-! ### enqueue -/

@[simp] theorem State.enqueue_cfg (s : State) (a : Actuator) (i : Instr) : (s.enqueue a i).cfg = s.cfg := by cases a <;> rfl
@[simp] theorem State.enqueue_img (s : State) (a : Actuator) (i : Instr) : (s.enqueue a i).img = s.img := by cases a <;> rfl
@[simp] theorem State.enqueue_lock (s : State) (a : Actuator) (i : Instr) : (s.enqueue a i).lock = s.lock := by cases a <;> rfl
@[simp] theorem State.enqueue_hist (s : State) (a : Actuator) (i : Instr) : (s.enqueue a i).hist = s.hist := by cases a <;> rfl
@[simp] theorem State.enqueue_bus (s : State) (a : Actuator) (i : Instr) : (s.enqueue a i).bus = s.bus := by cases a <;> rfl
@[simp] theorem State.enqueue_inbox (s : State) (a : Actuator) (i : Instr) : (s.enqueue a i).inbox = s.inbox := by cases a <;> rfl
@[simp] theorem State.enqueue_sched (s : State) (a : Actuator) (i : Instr) : (s.enqueue a i).sched = s.sched := by cases a <;> rfl
@[simp] theorem State.enqueue_turn (s : State) (a : Actuator) (i : Instr) : (s.enqueue a i).turn = s.turn := by cases a <;> rfl
@[simp] theorem State.enqueue_answers (s : State) (a : Actuator) (i : Instr) : (s.enqueue a i).answers = s.answers := by cases a <;> rfl
@[simp] theorem State.enqueue_drawn (s : State) (a : Actuator) (i : Instr) : (s.enqueue a i).drawn = s.drawn := by cases a <;> rfl

/-! ### goOn -/

@[simp] theorem State.goOn_cfg (s : State) (a : Actuator) (t : Task) (rest : List Act) : (s.goOn a t rest).cfg = s.cfg := by cases a <;> rfl
@[simp] theorem State.goOn_img (s : State) (a : Actuator) (t : Task) (rest : List Act) : (s.goOn a t rest).img = s.img := by cases a <;> rfl
@[simp] theorem State.goOn_lock (s : State) (a : Actuator) (t : Task) (rest : List Act) : (s.goOn a t rest).lock = s.lock := by cases a <;> rfl
@[simp] theorem State.goOn_hist (s : State) (a : Actuator) (t : Task) (rest : List Act) : (s.goOn a t rest).hist = s.hist := by cases a <;> rfl
@[simp] theorem State.goOn_bus (s : State) (a : Actuator) (t : Task) (rest : List Act) : (s.goOn a t rest).bus = s.bus := by cases a <;> rfl
@[simp] theorem State.goOn_inbox (s : State) (a : Actuator) (t : Task) (rest : List Act) : (s.goOn a t rest).inbox = s.inbox := by cases a <;> rfl
@[simp] theorem State.goOn_sched (s : State) (a : Actuator) (t : Task) (rest : List Act) : (s.goOn a t rest).sched = s.sched := by cases a <;> rfl
@[simp] theorem State.goOn_turn (s : State) (a : Actuator) (t : Task) (rest : List Act) : (s.goOn a t rest).turn = s.turn := by cases a <;> rfl
@[simp] theorem State.goOn_answers (s : State) (a : Actuator) (t : Task) (rest : List Act) : (s.goOn a t rest).answers = s.answers := by cases a <;> rfl
@[simp] theorem State.goOn_drawn (s : State) (a : Actuator) (t : Task) (rest : List Act) : (s.goOn a t rest).drawn = s.drawn := by cases a <;> rfl

/-! ### setSeq -/

@[simp] theorem State.setSeq_cfg (s : State) (k : Fin 2) (q : Seq) : (s.setSeq k q).cfg = s.cfg := rfl
@[simp] theorem State.setSeq_img (s : State) (k : Fin 2) (q : Seq) : (s.setSeq k q).img = s.img := rfl
@[simp] theorem State.setSeq_ctrl (s : State) (k : Fin 2) (q : Seq) : (s.setSeq k q).ctrl = s.ctrl := rfl
@[simp] theorem State.setSeq_dc (s : State) (k : Fin 2) (q : Seq) : (s.setSeq k q).dc = s.dc := rfl
@[simp] theorem State.setSeq_lock (s : State) (k : Fin 2) (q : Seq) : (s.setSeq k q).lock = s.lock := rfl
@[simp] theorem State.setSeq_hist (s : State) (k : Fin 2) (q : Seq) : (s.setSeq k q).hist = s.hist := rfl
@[simp] theorem State.setSeq_bus (s : State) (k : Fin 2) (q : Seq) : (s.setSeq k q).bus = s.bus := rfl
@[simp] theorem State.setSeq_inbox (s : State) (k : Fin 2) (q : Seq) : (s.setSeq k q).inbox = s.inbox := rfl
@[simp] theorem State.setSeq_sched (s : State) (k : Fin 2) (q : Seq) : (s.setSeq k q).sched = s.sched := rfl
@[simp] theorem State.setSeq_turn (s : State) (k : Fin 2) (q : Seq) : (s.setSeq k q).turn = s.turn := rfl
@[simp] theorem State.setSeq_answers (s : State) (k : Fin 2) (q : Seq) : (s.setSeq k q).answers = s.answers := rfl
@[simp] theorem State.setSeq_drawn (s : State) (k : Fin 2) (q : Seq) : (s.setSeq k q).drawn = s.drawn := rfl

/-! ### setPending -/

@[simp] theorem State.setPending_cfg (s : State) (m : Fin 4) (p : Option F64) : (s.setPending m p).cfg = s.cfg := rfl
@[simp] theorem State.setPending_img (s : State) (m : Fin 4) (p : Option F64) : (s.setPending m p).img = s.img := rfl
@[simp] theorem State.setPending_ctrl (s : State) (m : Fin 4) (p : Option F64) : (s.setPending m p).ctrl = s.ctrl := rfl
@[simp] theorem State.setPending_st (s : State) (m : Fin 4) (p : Option F64) : (s.setPending m p).st = s.st := rfl
@[simp] theorem State.setPending_lock (s : State) (m : Fin 4) (p : Option F64) : (s.setPending m p).lock = s.lock := rfl
@[simp] theorem State.setPending_hist (s : State) (m : Fin 4) (p : Option F64) : (s.setPending m p).hist = s.hist := rfl
@[simp] theorem State.setPending_bus (s : State) (m : Fin 4) (p : Option F64) : (s.setPending m p).bus = s.bus := rfl
@[simp] theorem State.setPending_inbox (s : State) (m : Fin 4) (p : Option F64) : (s.setPending m p).inbox = s.inbox := rfl
@[simp] theorem State.setPending_sched (s : State) (m : Fin 4) (p : Option F64) : (s.setPending m p).sched = s.sched := rfl
@[simp] theorem State.setPending_turn (s : State) (m : Fin 4) (p : Option F64) : (s.setPending m p).turn = s.turn := rfl
@[simp] theorem State.setPending_answers (s : State) (m : Fin 4) (p : Option F64) : (s.setPending m p).answers = s.answers := rfl
@[simp] theorem State.setPending_drawn (s : State) (m : Fin 4) (p : Option F64) : (s.setPending m p).drawn = s.drawn := rfl

/-! ### endSeq -/

@[simp] theorem State.endSeq_cfg (s : State) (a : Actuator) : (s.endSeq a).cfg = s.cfg := by cases a <;> rfl
@[simp] theorem State.endSeq_img (s : State) (a : Actuator) : (s.endSeq a).img = s.img := by cases a <;> rfl
@[simp] theorem State.endSeq_ctrl (s : State) (a : Actuator) : (s.endSeq a).ctrl = s.ctrl := by cases a <;> rfl
@[simp] theorem State.endSeq_dc (s : State) (a : Actuator) : (s.endSeq a).dc = s.dc := by cases a <;> rfl
@[simp] theorem State.endSeq_lock (s : State) (a : Actuator) : (s.endSeq a).lock = s.lock := by cases a <;> rfl
@[simp] theorem State.endSeq_hist (s : State) (a : Actuator) : (s.endSeq a).hist = s.hist := by cases a <;> rfl
@[simp] theorem State.endSeq_bus (s : State) (a : Actuator) : (s.endSeq a).bus = s.bus := by cases a <;> rfl
@[simp] theorem State.endSeq_inbox (s : State) (a : Actuator) : (s.endSeq a).inbox = s.inbox := by cases a <;> rfl
@[simp] theorem State.endSeq_sched (s : State) (a : Actuator) : (s.endSeq a).sched = s.sched := by cases a <;> rfl
@[simp] theorem State.endSeq_turn (s : State) (a : Actuator) : (s.endSeq a).turn = s.turn := by cases a <;> rfl
@[simp] theorem State.endSeq_answers (s : State) (a : Actuator) : (s.endSeq a).answers = s.answers := by cases a <;> rfl
@[simp] theorem State.endSeq_drawn (s : State) (a : Actuator) : (s.endSeq a).drawn = s.drawn := by cases a <;> rfl

/-! ### unlockFor -/

@[simp] theorem State.unlockFor_cfg (s : State) (a : Actuator) : (s.unlockFor a).cfg = s.cfg := by unfold State.unlockFor; split <;> simp_all
@[simp] theorem State.unlockFor_img (s : State) (a : Actuator) : (s.unlockFor a).img = s.img := by unfold State.unlockFor; split <;> simp_all
@[simp] theorem State.unlockFor_ctrl (s : State) (a : Actuator) : (s.unlockFor a).ctrl = s.ctrl := by unfold State.unlockFor; split <;> simp_all
@[simp] theorem State.unlockFor_dc (s : State) (a : Actuator) : (s.unlockFor a).dc = s.dc := by unfold State.unlockFor; split <;> simp_all
@[simp] theorem State.unlockFor_st (s : State) (a : Actuator) : (s.unlockFor a).st = s.st := by unfold State.unlockFor; split <;> simp_all
@[simp] theorem State.unlockFor_lock (s : State) (a : Actuator) : (s.unlockFor a).lock = if s.lock = .held a then .free else s.lock := by unfold State.unlockFor; split <;> simp_all
@[simp] theorem State.unlockFor_hist (s : State) (a : Actuator) : (s.unlockFor a).hist = s.hist := by unfold State.unlockFor; split <;> simp_all
@[simp] theorem State.unlockFor_bus (s : State) (a : Actuator) : (s.unlockFor a).bus = s.bus := by unfold State.unlockFor; split <;> simp_all
@[simp] theorem State.unlockFor_inbox (s : State) (a : Actuator) : (s.unlockFor a).inbox = s.inbox := by unfold State.unlockFor; split <;> simp_all
@[simp] theorem State.unlockFor_sched (s : State) (a : Actuator) : (s.unlockFor a).sched = s.sched := by unfold State.unlockFor; split <;> simp_all
@[simp] theorem State.unlockFor_turn (s : State) (a : Actuator) : (s.unlockFor a).turn = s.turn := by unfold State.unlockFor; split <;> simp_all
@[simp] theorem State.unlockFor_answers (s : State) (a : Actuator) : (s.unlockFor a).answers = s.answers := by unfold State.unlockFor; split <;> simp_all
@[simp] theorem State.unlockFor_drawn (s : State) (a : Actuator) : (s.unlockFor a).drawn = s.drawn := by unfold State.unlockFor; split <;> simp_all

/-! ### endTask -/

@[simp] theorem State.endTask_cfg (s : State) (a : Actuator) (t : Task) (r : Result) : (s.endTask a t r).cfg = s.cfg := by simp [State.endTask]
@[simp] theorem State.endTask_img (s : State) (a : Actuator) (t : Task) (r : Result) : (s.endTask a t r).img = s.img := by simp [State.endTask]
@[simp] theorem State.endTask_lock (s : State) (a : Actuator) (t : Task) (r : Result) : (s.endTask a t r).lock = if s.lock = .held a then .free else s.lock := by
  simp [State.endTask]; rfl
@[simp] theorem State.endTask_hist (s : State) (a : Actuator) (t : Task) (r : Result) : (s.endTask a t r).hist = s.hist ++ [.done t.by_ t.op r] := by simp [State.endTask]
@[simp] theorem State.endTask_bus (s : State) (a : Actuator) (t : Task) (r : Result) : (s.endTask a t r).bus = s.bus := by simp [State.endTask]
@[simp] theorem State.endTask_inbox (s : State) (a : Actuator) (t : Task) (r : Result) : (s.endTask a t r).inbox = s.inbox := by simp [State.endTask]
@[simp] theorem State.endTask_sched (s : State) (a : Actuator) (t : Task) (r : Result) : (s.endTask a t r).sched = s.sched := by simp [State.endTask]
@[simp] theorem State.endTask_turn (s : State) (a : Actuator) (t : Task) (r : Result) : (s.endTask a t r).turn = s.turn := by simp [State.endTask]
@[simp] theorem State.endTask_answers (s : State) (a : Actuator) (t : Task) (r : Result) : (s.endTask a t r).answers = s.answers := by simp [State.endTask]
@[simp] theorem State.endTask_drawn (s : State) (a : Actuator) (t : Task) (r : Result) : (s.endTask a t r).drawn = s.drawn := by simp [State.endTask]

/-! ### raiseBusError -/

@[simp] theorem State.raiseBusError_cfg (s : State) (a : Actuator) (t : Task) (x : Option Txn) : (s.raiseBusError a t x).cfg = s.cfg := by simp [State.raiseBusError]
@[simp] theorem State.raiseBusError_img (s : State) (a : Actuator) (t : Task) (x : Option Txn) : (s.raiseBusError a t x).img = s.img := by simp [State.raiseBusError]
@[simp] theorem State.raiseBusError_lock (s : State) (a : Actuator) (t : Task) (x : Option Txn) : (s.raiseBusError a t x).lock = if s.lock = .held a then .free else s.lock := by simp [State.raiseBusError]
@[simp] theorem State.raiseBusError_hist (s : State) (a : Actuator) (t : Task) (x : Option Txn) : (s.raiseBusError a t x).hist = s.hist ++ [.done t.by_ t.op (.busError t.op x (s.progress a t))] := by simp [State.raiseBusError]
@[simp] theorem State.raiseBusError_bus (s : State) (a : Actuator) (t : Task) (x : Option Txn) : (s.raiseBusError a t x).bus = s.bus := by simp [State.raiseBusError]
@[simp] theorem State.raiseBusError_inbox (s : State) (a : Actuator) (t : Task) (x : Option Txn) : (s.raiseBusError a t x).inbox = s.inbox := by simp [State.raiseBusError]
@[simp] theorem State.raiseBusError_sched (s : State) (a : Actuator) (t : Task) (x : Option Txn) : (s.raiseBusError a t x).sched = s.sched := by simp [State.raiseBusError]
@[simp] theorem State.raiseBusError_turn (s : State) (a : Actuator) (t : Task) (x : Option Txn) : (s.raiseBusError a t x).turn = s.turn := by simp [State.raiseBusError]
@[simp] theorem State.raiseBusError_answers (s : State) (a : Actuator) (t : Task) (x : Option Txn) : (s.raiseBusError a t x).answers = s.answers := by simp [State.raiseBusError]
@[simp] theorem State.raiseBusError_drawn (s : State) (a : Actuator) (t : Task) (x : Option Txn) : (s.raiseBusError a t x).drawn = s.drawn := by simp [State.raiseBusError]

/-! ### Steppers, motors and workers by index -/

@[simp] theorem State.stepper_setStepper_same (s : State) (k : Fin 2) (x : Stepper) : (s.setStepper k x).stepper k = x := by
  simp [State.stepper, State.setStepper]

theorem State.stepper_setStepper_ne (s : State) (k j : Fin 2) (x : Stepper) (h : k ≠ j) :
    (s.setStepper k x).stepper j = s.stepper j := by
  have : k.val ≠ j.val := fun e => h (Fin.ext e)
  simp [State.stepper, State.setStepper, this]

theorem State.stepper_setStepper (s : State) (k j : Fin 2) (x : Stepper) :
    (s.setStepper k x).stepper j = if k = j then x else s.stepper j := by
  split
  · next h => subst h; simp
  · next h => exact State.stepper_setStepper_ne s k j x h

@[simp] theorem State.motor_setMotor_same (s : State) (m : Fin 4) (x : DcMotor) : (s.setMotor m x).motor m = x := by
  simp [State.motor, State.setMotor]

theorem State.motor_setMotor_ne (s : State) (m j : Fin 4) (x : DcMotor) (h : m ≠ j) :
    (s.setMotor m x).motor j = s.motor j := by
  have : m.val ≠ j.val := fun e => h (Fin.ext e)
  simp [State.motor, State.setMotor, this]

theorem State.motor_setMotor (s : State) (m j : Fin 4) (x : DcMotor) :
    (s.setMotor m x).motor j = if m = j then x else s.motor j := by
  split
  · next h => subst h; simp
  · next h => exact State.motor_setMotor_ne s m j x h

/-- Two states are equal when every field is, steppers and motors taken by index. -/
theorem State.ext_index {s t : State} (cfg : s.cfg = t.cfg) (img : s.img = t.img) (ctrl : s.ctrl = t.ctrl)
    (dc : ∀ m, s.motor m = t.motor m) (st : ∀ k, s.stepper k = t.stepper k) (lock : s.lock = t.lock)
    (hist : s.hist = t.hist) (bus : s.bus = t.bus) (inbox : s.inbox = t.inbox) (sched : s.sched = t.sched)
    (turn : s.turn = t.turn) (answers : s.answers = t.answers) (drawn : s.drawn = t.drawn) : s = t := by
  have hdc : s.dc = t.dc := by
    apply Vector.ext
    intro i hi
    exact dc ⟨i, hi⟩
  have hst : s.st = t.st := by
    apply Vector.ext
    intro i hi
    exact st ⟨i, hi⟩
  cases s; cases t; simp_all

@[simp] theorem State.stepper_log (s : State) (e : Event) (k : Fin 2) : (s.log e).stepper k = s.stepper k := rfl
@[simp] theorem State.motor_log (s : State) (e : Event) (m : Fin 4) : (s.log e).motor m = s.motor m := rfl
@[simp] theorem State.worker_log (s : State) (e : Event) (b : Actuator) : (s.log e).worker b = s.worker b := by cases b <;> rfl
@[simp] theorem State.stepper_setLock (s : State) (l : Lock) (k : Fin 2) : (s.setLock l).stepper k = s.stepper k := rfl
@[simp] theorem State.motor_setLock (s : State) (l : Lock) (m : Fin 4) : (s.setLock l).motor m = s.motor m := rfl
@[simp] theorem State.worker_setLock (s : State) (l : Lock) (b : Actuator) : (s.setLock l).worker b = s.worker b := by cases b <;> rfl
@[simp] theorem State.stepper_drawAnswer (s : State)  (k : Fin 2) : (s.drawAnswer).stepper k = s.stepper k := rfl
@[simp] theorem State.motor_drawAnswer (s : State)  (m : Fin 4) : (s.drawAnswer).motor m = s.motor m := rfl
@[simp] theorem State.worker_drawAnswer (s : State)  (b : Actuator) : (s.drawAnswer).worker b = s.worker b := by cases b <;> rfl
@[simp] theorem State.stepper_busWrite (s : State) (a : Actuator) (r v : Byte) (k : Fin 2) : (s.busWrite a r v).stepper k = s.stepper k := rfl
@[simp] theorem State.motor_busWrite (s : State) (a : Actuator) (r v : Byte) (m : Fin 4) : (s.busWrite a r v).motor m = s.motor m := rfl
@[simp] theorem State.worker_busWrite (s : State) (a : Actuator) (r v : Byte) (b : Actuator) : (s.busWrite a r v).worker b = s.worker b := by cases b <;> rfl
@[simp] theorem State.stepper_busRead (s : State) (a : Actuator) (r : Byte) (k : Fin 2) : (s.busRead a r).stepper k = s.stepper k := rfl
@[simp] theorem State.motor_busRead (s : State) (a : Actuator) (r : Byte) (m : Fin 4) : (s.busRead a r).motor m = s.motor m := rfl
@[simp] theorem State.worker_busRead (s : State) (a : Actuator) (r : Byte) (b : Actuator) : (s.busRead a r).worker b = s.worker b := by cases b <;> rfl
@[simp] theorem State.stepper_unlockFor (s : State) (a : Actuator) (k : Fin 2) : (s.unlockFor a).stepper k = s.stepper k := by unfold State.unlockFor; split <;> rfl
@[simp] theorem State.motor_unlockFor (s : State) (a : Actuator) (m : Fin 4) : (s.unlockFor a).motor m = s.motor m := by unfold State.unlockFor; split <;> rfl
@[simp] theorem State.worker_unlockFor (s : State) (a : Actuator) (b : Actuator) : (s.unlockFor a).worker b = s.worker b := by unfold State.unlockFor; split <;> simp
@[simp] theorem State.motor_setStepper (s : State) (k : Fin 2) (x : Stepper) (m : Fin 4) : (s.setStepper k x).motor m = s.motor m := rfl
@[simp] theorem State.stepper_setMotor (s : State) (m : Fin 4) (x : DcMotor) (k : Fin 2) : (s.setMotor m x).stepper k = s.stepper k := rfl

@[simp] theorem State.worker_setWorker_same (s : State) (a : Actuator) (w : Worker) : (s.setWorker a w).worker a = w := by
  cases a <;> simp [State.setWorker, State.worker]

theorem State.worker_setWorker_ne (s : State) (a b : Actuator) (w : Worker) (h : a ≠ b) :
    (s.setWorker a w).worker b = s.worker b := by
  cases a with
  | controller => cases b <;> first | exact absurd rfl h | rfl
  | dc m =>
    cases b with
    | controller => rfl
    | stepper k => rfl
    | dc j =>
      have hmj : m ≠ j := fun e => h (by rw [e])
      simp [State.setWorker, State.worker, State.motor_setMotor_ne _ _ _ _ hmj]
  | stepper k =>
    cases b with
    | controller => rfl
    | dc m => rfl
    | stepper j =>
      have hkj : k ≠ j := fun e => h (by rw [e])
      simp [State.setWorker, State.worker, State.stepper_setStepper_ne _ _ _ _ hkj]

theorem State.worker_setWorker (s : State) (a b : Actuator) (w : Worker) :
    (s.setWorker a w).worker b = if a = b then w else s.worker b := by
  split
  · next h => subst h; simp
  · next h => exact State.worker_setWorker_ne s a b w h

/-- A stepper's own fields are no business of the queues and tasks. -/
@[simp] theorem State.stepper_setWorker (s : State) (a : Actuator) (w : Worker) (k : Fin 2) :
    (s.setWorker a w).stepper k = { s.stepper k with work := if a = .stepper k then w else (s.stepper k).work } := by
  cases a with
  | controller => simp [State.setWorker, State.stepper]
  | dc m => simp [State.setWorker]
  | stepper j =>
    by_cases h : j = k
    · subst h; simp [State.setWorker]
    · have : Actuator.stepper j ≠ .stepper k := fun e => h (by injection e)
      simp [State.setWorker, State.stepper_setStepper_ne _ _ _ _ h, this]

/-- A motor's armed release is no business of the queues and tasks. -/
@[simp] theorem State.motor_setWorker (s : State) (a : Actuator) (w : Worker) (m : Fin 4) :
    (s.setWorker a w).motor m = { s.motor m with work := if a = .dc m then w else (s.motor m).work } := by
  cases a with
  | controller => simp [State.setWorker, State.motor]
  | stepper k => simp [State.setWorker]
  | dc j =>
    by_cases h : j = m
    · subst h; simp [State.setWorker]
    · have : Actuator.dc j ≠ .dc m := fun e => h (by injection e)
      simp [State.setWorker, State.motor_setMotor_ne _ _ _ _ h, this]

/-- The controller's record, seen as a worker. -/
theorem State.ctrl_eq_worker (s : State) : s.ctrl = s.worker .controller := rfl

theorem State.ctrl_setWorker (s : State) (a : Actuator) (w : Worker) :
    (s.setWorker a w).ctrl = if a = .controller then w else s.ctrl := by
  cases a <;> simp [State.setWorker]

/-- A worker's update twice is the later one. -/
@[simp] theorem State.setWorker_setWorker (s : State) (a : Actuator) (v w : Worker) :
    (s.setWorker a v).setWorker a w = s.setWorker a w := by
  cases a <;> simp [State.setWorker, State.setMotor, State.setStepper, State.motor, State.stepper]

end Sys2Proof.Machine
end

