-- ==== Sys2Proof/Laws/Image.lean ====
section
/-! SUPPORT. The register image: reading after writing, and the canonical form that every operation keeps. -/

namespace Sys2Proof.Machine

theorem imgGet_imgPut (m : List Host.Cell) (a b : Nat) (v : Byte) :
    imgGet (imgPut m a v) b = if b = a then some v else imgGet m b := by
  induction m with
  | nil => simp [imgPut, imgGet]
  | cons c rest ih =>
    obtain ⟨x, w⟩ := c
    simp only [imgPut]
    split
    · simp [imgGet]
    · split
      · next h => subst h; by_cases hb : b = a <;> simp [imgGet, hb]
      · by_cases hx : b = x
        · have : b ≠ a := by omega
          simp [imgGet, hx]; omega
        · simp [imgGet, hx, ih]

/-- Addresses strictly rising: the part of the canonical form that the reading of an entry rests on. -/
def Rising (m : List Host.Cell) : Prop := m.Pairwise (fun x y => x.1 < y.1)

theorem imgGet_none_of_lt (m : List Host.Cell) (a : Nat) (h : ∀ c ∈ m, a < c.1) : imgGet m a = none := by
  induction m with
  | nil => rfl
  | cons c rest ih =>
    have h1 := h c (by simp)
    simp only [imgGet]
    rw [if_neg (by omega)]
    exact ih (fun c hc => h c (by simp [hc]))

theorem imgGet_imgForget (m : List Host.Cell) (a b : Nat) (hm : Rising m) :
    imgGet (imgForget m a) b = if b = a then none else imgGet m b := by
  induction m with
  | nil => simp [imgForget, imgGet]
  | cons c rest ih =>
    obtain ⟨x, w⟩ := c
    have hr : Rising rest := (List.pairwise_cons.mp hm).2
    have hlt := (List.pairwise_cons.mp hm).1
    simp only [imgForget]
    split
    · next h =>
      subst h
      by_cases hb : b = a
      · subst hb; simp only [if_true]; exact imgGet_none_of_lt rest b hlt
      · simp [imgGet, hb]
    · by_cases hx : b = x
      · have : b ≠ a := by omega
        simp [imgGet, hx]; omega
      · simp [imgGet, hx, ih hr]

theorem mem_imgPut (m : List Host.Cell) (a : Nat) (v : Byte) (c : Host.Cell) (h : c ∈ imgPut m a v) :
    c = (a, v) ∨ c ∈ m := by
  induction m with
  | nil => exact .inl (by simpa [imgPut] using h)
  | cons d rest ih =>
    obtain ⟨x, w⟩ := d
    simp only [imgPut] at h
    split at h
    · exact List.mem_cons.mp h
    · split at h
      · simp at h; rcases h with h | h <;> simp [h]
      · simp at h
        rcases h with h | h
        · simp [h]
        · rcases ih h with h | h <;> simp [h]

theorem mem_imgForget (m : List Host.Cell) (a : Nat) (c : Host.Cell) (h : c ∈ imgForget m a) : c ∈ m := by
  induction m with
  | nil => exact h
  | cons d rest ih =>
    obtain ⟨x, w⟩ := d
    simp only [imgForget] at h
    split at h
    · simp [h]
    · simp at h
      rcases h with h | h
      · simp [h]
      · simp [ih h]

theorem imgPut_rising (m : List Host.Cell) (a : Nat) (v : Byte) (h : Rising m) : Rising (imgPut m a v) := by
  induction m with
  | nil => simp [imgPut, Rising]
  | cons d rest ih =>
    obtain ⟨x, w⟩ := d
    have hr : Rising rest := (List.pairwise_cons.mp h).2
    have hlt := (List.pairwise_cons.mp h).1
    simp only [imgPut]
    split
    · next hax =>
      refine List.pairwise_cons.mpr ⟨?_, h⟩
      intro c hc
      simp at hc
      rcases hc with hc | hc
      · simp [hc, hax]
      · have := hlt c hc
        show a < c.1
        have hx : x < c.1 := this
        omega
    · split
      · next hax => subst hax; exact List.pairwise_cons.mpr ⟨hlt, hr⟩
      · refine List.pairwise_cons.mpr ⟨?_, ih hr⟩
        intro c hc
        rcases mem_imgPut rest a v c hc with hc | hc
        · subst hc; show x < a; omega
        · exact hlt c hc

theorem imgForget_rising (m : List Host.Cell) (a : Nat) (h : Rising m) : Rising (imgForget m a) := by
  induction m with
  | nil => simp [imgForget, Rising]
  | cons d rest ih =>
    obtain ⟨x, w⟩ := d
    have hr : Rising rest := (List.pairwise_cons.mp h).2
    have hlt := (List.pairwise_cons.mp h).1
    simp only [imgForget]
    split
    · exact hr
    · exact List.pairwise_cons.mpr ⟨fun c hc => hlt c (mem_imgForget rest a c hc), ih hr⟩

theorem imgWf_iff (m : List Host.Cell) : imgWf m = true ↔ Rising m ∧ ∀ c ∈ m, c.1 < 256 := by
  simp [imgWf, Rising]

/-- Making an entry `Known` keeps the canonical form. -/
theorem imgPut_wf (m : List Host.Cell) (a : Nat) (v : Byte) (h : imgWf m = true) (ha : a < 256) :
    imgWf (imgPut m a v) = true := by
  rw [imgWf_iff] at *
  refine ⟨imgPut_rising m a v h.1, ?_⟩
  intro c hc
  rcases mem_imgPut m a v c hc with hc | hc
  · subst hc; exact ha
  · exact h.2 c hc

/-- Making an entry `Unknown` keeps the canonical form. -/
theorem imgForget_wf (m : List Host.Cell) (a : Nat) (h : imgWf m = true) : imgWf (imgForget m a) = true := by
  rw [imgWf_iff] at *
  exact ⟨imgForget_rising m a h.1, fun c hc => h.2 c (mem_imgForget m a c hc)⟩

/-- LEDc_ON_L stands at `0x06 + 4c` (spec 10 R31). -/
theorem chanBase_toNat (c : Chan) : (chanBase c).toNat = 6 + 4 * c.val := by
  revert c; decide

/-- Every entry a write reaches is a register address: an alias byte `k` reaches byte `k` of a channel. -/
theorem imgTargets_lt (reg : Byte) (a : Nat) (h : a ∈ imgTargets reg) : a < 256 := by
  have hreg := reg.isLt
  unfold imgTargets at h
  split at h
  · next hr =>
    rcases List.mem_cons.mp h with h | h
    · omega
    · obtain ⟨c, -, hc⟩ := List.mem_map.mp h
      have h1 := chanBase_toNat c
      have h2 : regAllLed.toNat = 0xFA := by decide
      omega
  · simp at h; omega

/-- A write transaction keeps the canonical form, whatever its outcome. -/
theorem imgAfterWrite_wf (m : List Host.Cell) (reg value : Byte) (ok : Bool) (h : imgWf m = true) :
    imgWf (imgAfterWrite m reg value ok) = true := by
  unfold imgAfterWrite
  have key : ∀ (l : List Nat) (m : List Host.Cell), (∀ a ∈ l, a < 256) → imgWf m = true →
      imgWf (l.foldl (fun acc a => if ok then imgPut acc a value else imgForget acc a) m) = true := by
    intro l
    induction l with
    | nil => intro m _ hm; exact hm
    | cons a l ih =>
      intro m hl hm
      refine ih _ (fun b hb => hl b (by simp [hb])) ?_
      cases ok
      · exact imgForget_wf m a hm
      · exact imgPut_wf m a value hm (hl a (by simp))
  exact key _ m (imgTargets_lt reg) h

/-- What an entry reads after a write transaction: the entries it reaches are `Known` or `Unknown` by the outcome, every
other entry reads as before. -/
theorem imgGet_imgAfterWrite (m : List Host.Cell) (reg value : Byte) (ok : Bool) (b : Nat) (h : imgWf m = true) :
    imgGet (imgAfterWrite m reg value ok) b =
      if b ∈ imgTargets reg then (if ok then some value else none) else imgGet m b := by
  unfold imgAfterWrite
  have key : ∀ (l : List Nat) (m : List Host.Cell), Rising m →
      imgGet (l.foldl (fun acc a => if ok then imgPut acc a value else imgForget acc a) m) b =
        if b ∈ l then (if ok then some value else none) else imgGet m b := by
    intro l
    induction l with
    | nil => intro m _; simp
    | cons a l ih =>
      intro m hm
      rw [List.foldl_cons, ih]
      · cases ok
        · simp only [Bool.false_eq_true, if_false, imgGet_imgForget m a b hm, List.mem_cons]
          by_cases h1 : b ∈ l <;> by_cases h2 : b = a <;> simp [h1, h2]
        · simp only [if_true, imgGet_imgPut, List.mem_cons]
          by_cases h1 : b ∈ l <;> by_cases h2 : b = a <;> simp [h1, h2]
      · cases ok
        · exact imgForget_rising m a hm
        · exact imgPut_rising m a value hm
  exact key _ m ((imgWf_iff m).mp h).1

@[simp] theorem imgAfterEvents_nil (m : List Host.Cell) : imgAfterEvents m [] = m := rfl

@[simp] theorem imgAfterEvents_cons (m : List Host.Cell) (e : Event) (h : List Event) :
    imgAfterEvents m (e :: h) = imgAfterEvents (imgAfterEvent m e) h := rfl

@[simp] theorem imgAfterEvents_append (m : List Host.Cell) (g h : List Event) :
    imgAfterEvents m (g ++ h) = imgAfterEvents (imgAfterEvents m g) h := by
  simp [imgAfterEvents]

/-- An event keeps the canonical form. -/
theorem imgAfterEvent_wf (m : List Host.Cell) (e : Event) (h : imgWf m = true) : imgWf (imgAfterEvent m e) = true := by
  cases e <;> first | exact imgAfterWrite_wf m _ _ _ h | exact h

/-- Events keep the canonical form. -/
theorem imgAfterEvents_wf (m : List Host.Cell) (evs : List Event) (h : imgWf m = true) :
    imgWf (imgAfterEvents m evs) = true := by
  induction evs generalizing m with
  | nil => exact h
  | cons e evs ih => exact ih _ (imgAfterEvent_wf m e h)

/-- The image at reset has the canonical form. -/
theorem reset_img_wf : imgWf State.reset.img = true := by decide

end Sys2Proof.Machine
end

