-- ==== Sys2Proof/Laws/Step.lean ====
section
/-! SUPPORT. What exec, submit, settle and step can do, said once; and the one induction over a step: a property that every
issue, move and firing keeps is kept by every step. -/

namespace Sys2Proof.Machine

@[simp] theorem Host_next_inj {σ φ ρ : Type} (a b : σ) : (Host.Outcome.next a : Host.Outcome σ φ ρ) = .next b ↔ a = b :=
  ⟨fun h => by injection h, fun h => by rw [h]⟩

/-- Every meaning is one of: an issue to the operation's agent, an STSPEED performed at once, an index refused. -/
theorem exec_cases {i : Instr} {s t : State} (h : exec i s = .next t) :
    (∃ a, opTarget i = some a ∧ queueable i = true ∧ t = s.submit a i) ∨
    (∃ j k rpm, i = .stspeed k rpm ∧ stepperIndex? k = some j ∧ t = s.speedNow j i (checkStspeed k rpm)) ∨
    (∃ c, opTarget i = none ∧ t = s.refuseIndex i c) := by
  cases i with
  | init => exact .inl ⟨.controller, rfl, rfl, by injection h with h; exact h.symm⟩
  | setch ch on off => exact .inl ⟨.controller, rfl, rfl, by injection h with h; exact h.symm⟩
  | setall on off => exact .inl ⟨.controller, rfl, rfl, by injection h with h; exact h.symm⟩
  | setfreq f => exact .inl ⟨.controller, rfl, rfl, by injection h with h; exact h.symm⟩
  | setpin pin val => exact .inl ⟨.controller, rfl, rfl, by injection h with h; exact h.symm⟩
  | dcrun m cmd =>
    injection h with h; unfold State.submitDc at h
    cases hm : dcIndex? m with
    | none => rw [hm] at h; exact .inr (.inr ⟨_, by simp [opTarget, hm], h.symm⟩)
    | some k => rw [hm] at h; exact .inl ⟨.dc k, by simp [opTarget, hm], rfl, h.symm⟩
  | dcspeed m sp =>
    injection h with h; unfold State.submitDc at h
    cases hm : dcIndex? m with
    | none => rw [hm] at h; exact .inr (.inr ⟨_, by simp [opTarget, hm], h.symm⟩)
    | some k => rw [hm] at h; exact .inl ⟨.dc k, by simp [opTarget, hm], rfl, h.symm⟩
  | rundc m cmd sp rt =>
    injection h with h; unfold State.submitDc at h
    cases hm : dcIndex? m with
    | none => rw [hm] at h; exact .inr (.inr ⟨_, by simp [opTarget, hm], h.symm⟩)
    | some k => rw [hm] at h; exact .inl ⟨.dc k, by simp [opTarget, hm], rfl, h.symm⟩
  | stspeed k rpm =>
    simp only [exec, execStspeed, Host_next_inj] at h
    cases hk : stepperIndex? k with
    | none => rw [hk] at h; exact .inr (.inr ⟨_, by simp [opTarget, hk], h.symm⟩)
    | some j => rw [hk] at h; exact .inr (.inl ⟨j, k, rpm, rfl, hk, h.symm⟩)
  | onestep k cmd y =>
    injection h with h; unfold State.submitStepper at h
    cases hk : stepperIndex? k with
    | none => rw [hk] at h; exact .inr (.inr ⟨_, by simp [opTarget, hk], h.symm⟩)
    | some j => rw [hk] at h; exact .inl ⟨.stepper j, by simp [opTarget, hk], rfl, h.symm⟩
  | step k n cmd y =>
    injection h with h; unfold State.submitStepper at h
    cases hk : stepperIndex? k with
    | none => rw [hk] at h; exact .inr (.inr ⟨_, by simp [opTarget, hk], h.symm⟩)
    | some j => rw [hk] at h; exact .inl ⟨.stepper j, by simp [opTarget, hk], rfl, h.symm⟩
  | runst k n cmd sp y =>
    injection h with h; unfold State.submitStepper at h
    cases hk : stepperIndex? k with
    | none => rw [hk] at h; exact .inr (.inr ⟨_, by simp [opTarget, hk], h.symm⟩)
    | some j => rw [hk] at h; exact .inl ⟨.stepper j, by simp [opTarget, hk], rfl, h.symm⟩

/-- No operation stops the machine (spec 60 R271: every operation is available at all times). -/
theorem exec_next (i : Instr) (s : State) : ∃ t, exec i s = .next t := by cases i <;> exact ⟨_, rfl⟩

/-- An agent that can move is one of those the machine lists. -/
theorem mem_movers (s : State) (g : Agent) : g ∈ s.movers ↔
    match g with
    | .host => s.hostCan = true
    | .actuator a => s.canTick a = true
    | .release m => s.canFire m = true := by
  unfold State.movers
  cases g with
  | host => cases hh : s.hostCan <;> simp
  | actuator a =>
    have : a ∈ Actuator.all := by
      cases a with
      | controller => decide
      | dc m => revert m; decide
      | stepper k => revert k; decide
    cases hh : s.hostCan <;> simp [this]
  | release m => cases hh : s.hostCan <;> simp

/-- Settling keeps what every move of its agent keeps. -/
theorem settle_induct {P : State → Prop} {a : Actuator} (tick : ∀ s, P s → s.canTick a = true → P (s.tick a)) :
    ∀ n s, P s → P (State.settle n a s)
  | 0, _, h => h
  | n + 1, s, h => by
    unfold State.settle
    split
    · next hm =>
      refine settle_induct tick n _ (tick s h ?_)
      exact (mem_movers s (.actuator a)).mp (by simp [hm])
    · exact h

/-- The scheduler chooses an agent that can move. -/
theorem pick_mem {s : State} {able : List Agent} {g : Agent} (h : s.pick able = some g) : g ∈ able := by
  unfold State.pick at h
  split at h
  · exact absurd h (by simp)
  · simpa using h.symm
  · split at h
    · split at h
      · next hx => simp at h; subst h; exact hx
      · exact List.mem_of_getElem? h
    · exact List.mem_of_getElem? h

/-- What a step can do: stay idle, issue the host's record, move an agent, fire a release. -/
theorem step_cases {s t : State} (h : step s = .next t) :
    t = s ∨
    (∃ r rest i, s.inbox = r :: rest ∧ decode r = .ok i ∧ exec i { s.takeTurn with inbox := rest } = .next t) ∨
    (∃ a, s.canTick a = true ∧ t = s.takeTurn.tick a) ∨
    (∃ m, s.canFire m = true ∧ t = s.takeTurn.fire m) := by
  unfold step machineStep at h
  split at h
  · exact .inl (by injection h with h; exact h.symm)
  · next g hg =>
    have hmem := (mem_movers s g).mp (pick_mem hg)
    cases g with
    | host =>
      have hs : s.takeTurn.inbox = s.inbox := rfl
      simp only [move, hostMove, hs] at h
      split at h
      · next hi => simp [State.hostCan, hi] at hmem
      · next r rest hi =>
        split at h
        · next i hd => exact .inr (.inl ⟨r, rest, i, hi, hd, h⟩)
        · exact absurd h (by simp)
        · exact absurd h (by simp)
    | actuator a => exact .inr (.inr (.inl ⟨a, hmem, by injection h with h; exact h.symm⟩))
    | release m => exact .inr (.inr (.inr ⟨m, hmem, by injection h with h; exact h.symm⟩))

/-- What a property must be closed under to be kept by every step. -/
structure StepClosed (P : State → Prop) : Prop where
  /-- Nothing but the schedule and the host's list of records changes. -/
  turn : ∀ s, P s → P s.takeTurn
  inbox : ∀ s rest, P s → P { s with inbox := rest }
  /-- Issue: the record of it, the cancelling of a release, Busy, an index refused, the queueing. -/
  issue : ∀ s g i, P s → P (s.log (.issue g i))
  done : ∀ s g i r, P s → P (s.log (.done g i r))
  disarm : ∀ s m, P s → P (s.setPending m none)
  enqueue : ∀ s a i, P s → opTarget i = some a → queueable i = true → P (s.enqueue a i)
  speed : ∀ s k rpm, P s → 1 ≤ rpm → P (s.setSpeed k rpm)
  /-- One move of an agent that can move, and a firing. -/
  tick : ∀ s a, P s → s.canTick a = true → P (s.tick a)
  fire : ∀ s m, P s → s.canFire m = true → P (s.fire m)

/-- STSPEED's checks pass only a legal stepper and a positive rpm (spec 42 R220). -/
theorem checkStspeed_ok {k rpm : Int} {v : Fin 2 × Nat} (h : checkStspeed k rpm = .ok v) :
    stepperIndex? k = some v.1 ∧ 1 ≤ v.2 ∧ (v.2 : Int) = rpm := by
  unfold checkStspeed at h
  cases hk : stepperIndex? k with
  | none => rw [hk] at h; exact absurd h (by simp [need, bind, Except.bind])
  | some j =>
    rw [hk] at h
    simp only [need, needRpm, bind, Except.bind] at h
    split at h
    · exact absurd h (by simp)
    · next r hr =>
      split at hr
      · exact absurd hr (by simp)
      · simp at hr h
        subst h
        refine ⟨rfl, ?_, ?_⟩ <;> simp only [← hr] <;> omega

/-- An operation keeps such a property. -/
theorem StepClosed.of_exec {P : State → Prop} (c : StepClosed P) {i : Instr} {s t : State} (hs : P s)
    (h : exec i s = .next t) : P t := by
  rcases exec_cases h with ⟨a, ha, hq, rfl⟩ | ⟨j, k, rpm, rfl, -, rfl⟩ | ⟨e, -, rfl⟩
  · have h1 : P ((s.log (.issue (.actuator a) i)).disarmFor a) := by
      cases a with
      | controller => exact c.issue _ _ _ hs
      | stepper k => exact c.issue _ _ _ hs
      | dc m => exact c.disarm _ _ (c.issue _ _ _ hs)
    simp only [State.submit]
    split
    · exact c.done _ _ _ _ h1
    · split
      · exact settle_induct (fun s hs hc => c.tick s a hs hc) _ _ (c.enqueue _ _ _ h1 ha hq)
      · exact c.enqueue _ _ _ h1 ha hq
  · simp only [State.speedNow]
    split
    · exact c.done _ _ _ _ (c.issue _ _ _ hs)
    · next v hv =>
      split
      · exact c.done _ _ _ _ (c.issue _ _ _ hs)
      · exact c.done _ _ _ _ (c.speed _ _ _ (c.issue _ _ _ hs) (checkStspeed_ok hv).2.1)
  · exact c.done _ _ _ _ (c.issue _ _ _ hs)

/-- A step keeps such a property. -/
theorem StepClosed.of_step {P : State → Prop} (c : StepClosed P) {s t : State} (hs : P s) (h : step s = .next t) : P t := by
  rcases step_cases h with rfl | ⟨r, rest, i, -, -, he⟩ | ⟨a, ha, rfl⟩ | ⟨m, hm, rfl⟩
  · exact hs
  · exact c.of_exec (c.inbox _ rest (c.turn s hs)) he
  · exact c.tick _ a (c.turn s hs) ha
  · exact c.fire _ m (c.turn s hs) hm

/-- A property kept by every operation run is kept by a run of any length. -/
theorem StepClosed.of_run {P : State → Prop} (c : StepClosed P) :
    ∀ n (s t : State), P s → Host.Core.run Sys2Proof.core n s = .next t → P t
  | 0, s, t, hs, h => by
    simp only [Host.Core.run] at h
    injection h with h
    exact h ▸ hs
  | n + 1, s, t, hs, h => by
    simp only [Host.Core.run] at h
    split at h
    · next s' hs' => exact StepClosed.of_run c n s' t (c.of_step hs hs') h
    · exact absurd h (by simp)
    · exact absurd h (by simp)

end Sys2Proof.Machine
end

