-- ==== Sys2Proof/Laws/Run.lean ====
section
/-! SUPPORT. Running one operation on a block at rest: when an agent is the only one that can move, and what each of its
actions does then. `s.setTask a (some t)` is a base state `s` with the operation `t` in progress on agent `a`; each lemma
takes one action off the program and moves its effect into the base state. -/

namespace Sys2Proof.Machine

/-- No agent but `a` has or can have a step: the host has nothing to issue, the others are idle, no release of another
motor is armed. -/
def Alone (a : Actuator) (s : State) : Prop :=
  s.inbox = [] ∧ (∀ b, b ≠ a → (s.worker b).isIdle = true) ∧ (∀ m, a ≠ .dc m → s.armed m = false)

/-- `Alone` reads the host's list, the other workers and the armed releases only. -/
theorem Alone.of_eq {a : Actuator} {s t : State} (h : Alone a s) (hi : t.inbox = s.inbox)
    (hw : ∀ b, b ≠ a → t.worker b = s.worker b) (hp : ∀ m, a ≠ .dc m → t.armed m = s.armed m) : Alone a t :=
  ⟨by rw [hi]; exact h.1, fun b hb => by rw [hw b hb]; exact h.2.1 b hb, fun m hm => by rw [hp m hm]; exact h.2.2 m hm⟩

theorem canTick_of_idle {s : State} {b : Actuator} (h : (s.worker b).isIdle = true) : s.canTick b = false := by
  simp only [Worker.isIdle, Bool.and_eq_true, Option.isNone_iff_eq_none] at h
  simp [State.canTick, h.1, h.2]

theorem filter_all_eq (a : Actuator) : Actuator.all.filter (fun b => decide (b = a)) = [a] := by
  cases a with
  | controller => decide
  | dc m => revert m; decide
  | stepper k => revert k; decide

/-- An agent alone that can move is the only mover. -/
theorem movers_alone {a : Actuator} {s : State} (h : Alone a s) (hc : s.canTick a = true) :
    s.movers = [.actuator a] := by
  have h1 : s.hostCan = false := by simp [State.hostCan, h.1]
  have h2 : Actuator.all.filter s.canTick = [a] := by
    rw [← filter_all_eq a]
    apply List.filter_congr
    intro b _
    by_cases hb : b = a
    · subst hb; simp [hc]
    · simp [hb, canTick_of_idle (h.2.1 b hb)]
  have h3 : (List.finRange 4).filter s.canFire = [] := by
    rw [List.filter_eq_nil_iff]
    intro m _
    by_cases hm : a = .dc m
    · subst hm
      have : (s.motor m).work.isIdle = false := by
        cases hi : (s.motor m).work.isIdle with
        | false => rfl
        | true => rw [canTick_of_idle (b := .dc m) hi] at hc; exact absurd hc (by simp)
      simp [State.canFire, this]
    · simp [State.canFire, h.2.2 m hm]
  simp [State.movers, h1, h2, h3]

/-- With every agent idle and no release that may fire, nobody can move. -/
theorem movers_nil {s : State} (hi : s.inbox = []) (hw : ∀ b, (s.worker b).isIdle = true)
    (hp : ∀ m, s.armed m = false) : s.movers = [] := by
  have h2 : Actuator.all.filter s.canTick = [] := by
    rw [List.filter_eq_nil_iff]; intro b _; simp [canTick_of_idle (hw b)]
  have h3 : (List.finRange 4).filter s.canFire = [] := by
    rw [List.filter_eq_nil_iff]; intro m _; simp [State.canFire, hp m]
  simp [State.movers, State.hostCan, hi, h2, h3]

theorem settle_nil {n : Nat} {a : Actuator} {s : State} (h : s.movers ≠ [.actuator a]) : State.settle n a s = s := by
  cases n with
  | zero => rfl
  | succ n => unfold State.settle; rw [if_neg h]

theorem settle_alone {n : Nat} {a : Actuator} {s : State} (h : Alone a s) (hc : s.canTick a = true) :
    State.settle (n + 1) a s = State.settle n a (s.tick a) := by
  conv => lhs; unfold State.settle
  rw [if_pos (movers_alone h hc)]

/-! ### Launch -/

theorem Launch.worker_idle {s : State} (h : Launch s) (a : Actuator) : s.worker a = Worker.idle := by
  have h1 := h.1
  simp only [State.isFinal, Bool.and_eq_true, List.all_eq_true] at h1
  have h2 := h1.1.1.1 a (by
    cases a with
    | controller => decide
    | dc m => revert m; decide
    | stepper k => revert k; decide)
  simp only [Worker.isIdle, Bool.and_eq_true, List.isEmpty_iff, Option.isNone_iff_eq_none] at h2
  cases hw : s.worker a with
  | mk q t => rw [hw] at h2; simp at h2; rw [h2.1, h2.2]; rfl

theorem Launch.seq_idle {s : State} (h : Launch s) (k : Fin 2) : (s.stepper k).seq = .idle := by
  have h1 := h.1
  simp only [State.isFinal, Bool.and_eq_true, List.all_eq_true] at h1
  have h2 := h1.1.1.2 k (by simp)
  simpa [State.inFlight] using h2

theorem Launch.pending_none {s : State} (h : Launch s) (m : Fin 4) : (s.motor m).pending = none := by
  have h1 := h.1
  simp only [State.isFinal, Bool.and_eq_true, List.all_eq_true] at h1
  have h2 := h1.1.2 m (by simp)
  simpa [State.armed] using h2

theorem Launch.lock_free {s : State} (h : Launch s) : s.lock = .free := by
  have h1 := h.1
  simp only [State.isFinal, Bool.and_eq_true, List.all_eq_true] at h1
  simpa [State.locked] using h1.2

theorem Launch.alone {s : State} (h : Launch s) (a : Actuator) : Alone a s :=
  ⟨h.2, fun b _ => by rw [h.worker_idle b]; rfl, fun m _ => by simp [State.armed, h.pending_none m]⟩

theorem Launch.movers {s : State} (h : Launch s) : s.movers = [] :=
  movers_nil h.2 (fun b => by rw [h.worker_idle b]; rfl) (fun m => by simp [State.armed, h.pending_none m])

/-! ### Answers -/

theorem nextAnswer_eq (s : State) : s.nextAnswer = s.answerAt 0 := by
  unfold State.nextAnswer State.answerAt
  cases s.answers <;> simp

theorem answerAt_tail (s t : State) (ha : t.answers = s.answers.tail) (hd : t.drawn = s.drawn + 1) (j : Nat) :
    t.answerAt j = s.answerAt (j + 1) := by
  unfold State.answerAt
  rw [ha, hd]
  cases s.answers with
  | nil => simp; congr 1; omega
  | cons x xs => simp; cases xs[j]? <;> simp; congr 1; omega

/-- The next answer is Ok and so are the ones after it. -/
theorem AnswersOk.head {s : State} {n : Nat} (h : AnswersOk s (n + 1)) : ∃ b, s.nextAnswer = .ok b := by
  have := h 0 (by omega)
  rw [← nextAnswer_eq] at this
  cases hn : s.nextAnswer with
  | ok b => exact ⟨b, rfl⟩
  | busError => rw [hn] at this; exact absurd this (by simp [Answer.isOk])

theorem AnswersOk.tail {s t : State} {n : Nat} (h : AnswersOk s (n + 1)) (ha : t.answers = s.answers.tail)
    (hd : t.drawn = s.drawn + 1) : AnswersOk t n := fun j hj => by
  rw [answerAt_tail s t ha hd j]; exact h (j + 1) (by omega)

theorem AnswersOk.mono {s : State} {m n : Nat} (h : AnswersOk s n) (hmn : m ≤ n) : AnswersOk s m :=
  fun j hj => h j (by omega)

/-- Answers depend on the list of answers and the count of draws only. -/
theorem AnswersOk.of_eq {s t : State} {n : Nat} (h : AnswersOk s n) (ha : t.answers = s.answers) (hd : t.drawn = s.drawn) :
    AnswersOk t n := fun j hj => by
  have : t.answerAt j = s.answerAt j := by unfold State.answerAt; rw [ha, hd]
  rw [this]; exact h j hj

/-! ### The base state with an operation in progress -/

@[simp] theorem State.worker_setTask_same (s : State) (a : Actuator) (t : Option Task) :
    (s.setTask a t).worker a = { s.worker a with task := t } := by simp [State.setTask]

theorem State.worker_setTask_ne (s : State) (a b : Actuator) (t : Option Task) (h : a ≠ b) :
    (s.setTask a t).worker b = s.worker b := by simp [State.setTask, State.worker_setWorker_ne _ _ _ _ h]

@[simp] theorem State.setTask_setTask (s : State) (a : Actuator) (t u : Option Task) :
    (s.setTask a t).setTask a u = s.setTask a u := by simp [State.setTask]

@[simp] theorem State.armed_setTask (s : State) (a : Actuator) (t : Option Task) (m : Fin 4) :
    (s.setTask a t).armed m = s.armed m := by simp [State.armed, State.setTask]

theorem Alone.setTask {a : Actuator} {s : State} (h : Alone a s) (t : Option Task) : Alone a (s.setTask a t) :=
  h.of_eq (by simp) (fun b hb => State.worker_setTask_ne s a b t (Ne.symm hb)) (fun m _ => by simp)

theorem Alone.of_fields {a : Actuator} {s t : State} (h : Alone a s) (hi : t.inbox = s.inbox) (hc : t.ctrl = s.ctrl)
    (hd : t.dc = s.dc) (hs : t.st = s.st) : Alone a t :=
  h.of_eq hi
    (fun b _ => by
      cases b with
      | controller => exact hc
      | dc m => simp [State.worker, State.motor, hd]
      | stepper k => simp [State.worker, State.stepper, hs])
    (fun m _ => by simp [State.armed, State.motor, hd])

theorem Alone.busWrite {a : Actuator} {s : State} (h : Alone a s) (b : Actuator) (r v : Byte) : Alone a (s.busWrite b r v) :=
  h.of_fields rfl rfl rfl rfl

theorem Alone.busRead {a : Actuator} {s : State} (h : Alone a s) (b : Actuator) (r : Byte) : Alone a (s.busRead b r) :=
  h.of_fields rfl rfl rfl rfl

theorem Alone.log {a : Actuator} {s : State} (h : Alone a s) (e : Event) : Alone a (s.log e) :=
  h.of_fields rfl rfl rfl rfl

theorem Alone.setLock {a : Actuator} {s : State} (h : Alone a s) (l : Lock) : Alone a (s.setLock l) :=
  h.of_fields rfl rfl rfl rfl

theorem Alone.setStepper {k : Fin 2} {s : State} (h : Alone (.stepper k) s) (x : Stepper) :
    Alone (.stepper k) (s.setStepper k x) :=
  h.of_eq rfl
    (fun b hb => by
      cases b with
      | controller => rfl
      | dc m => rfl
      | stepper j =>
        have : k ≠ j := fun e => hb (by rw [e])
        simp [State.worker, State.stepper_setStepper_ne _ _ _ _ this])
    (fun m _ => rfl)

theorem log_setTask (s : State) (a : Actuator) (t : Option Task) (e : Event) :
    (s.setTask a t).log e = (s.log e).setTask a t := by cases a <;> rfl

theorem setLock_setTask (s : State) (a : Actuator) (t : Option Task) (l : Lock) :
    (s.setTask a t).setLock l = (s.setLock l).setTask a t := by cases a <;> rfl

theorem busWrite_setTask (s : State) (a b : Actuator) (t : Option Task) (r v : Byte) :
    (s.setTask a t).busWrite b r v = (s.busWrite b r v).setTask a t := by cases a <;> rfl

theorem busRead_setTask (s : State) (a b : Actuator) (t : Option Task) (r : Byte) :
    (s.setTask a t).busRead b r = (s.busRead b r).setTask a t := by cases a <;> rfl

theorem setSeq_setTask (s : State) (k : Fin 2) (t u : Option Task) (q : Seq) :
    ((s.setTask (.stepper k) t).setSeq k q).setTask (.stepper k) u = (s.setSeq k q).setTask (.stepper k) u := by
  simp [State.setTask, State.setWorker, State.setSeq, State.setStepper, State.stepper, State.worker]

theorem setSeq_setTask_none (s : State) (k : Fin 2) (t : Option Task) (q : Seq) :
    (s.setTask (.stepper k) t).setSeq k q = (s.setSeq k q).setTask (.stepper k) t := by
  simp [State.setTask, State.setWorker, State.setSeq, State.setStepper, State.stepper, State.worker]

theorem moveStepper_setTask (s : State) (k : Fin 2) (t : Option Task) (d : Direction) (y : StepStyle) :
    (s.setTask (.stepper k) t).moveStepper k d y = (s.moveStepper k d y).setTask (.stepper k) t := by
  simp [State.setTask, State.setWorker, State.moveStepper, State.setStepper, State.stepper, State.worker]

theorem goOn_setTask (s : State) (a : Actuator) (t : Option Task) (u : Task) (rest : List Act) :
    (s.setTask a t).goOn a u rest = s.setTask a (some { u with todo := rest }) := by
  simp [State.goOn]

/-- The next move of an operation in progress on an agent that is alone. -/
theorem settle_task {n : Nat} {a : Actuator} {s : State} (h : Alone a s) (t : Task)
    (hl : t.wantsLock = true → s.lock = .free) :
    State.settle (n + 1) a (s.setTask a (some t)) =
      State.settle n a (match t.todo with
        | [] => (s.setTask a (some t)).finish a t
        | act :: rest => (s.setTask a (some t)).runAct a t act rest) := by
  rw [settle_alone (h.setTask _)]
  · congr 1
    unfold State.tick
    simp only [State.worker_setTask_same]
    all_goals (cases t.todo <;> rfl)
  · unfold State.canTick
    cases hw : t.wantsLock with
    | false => simp [hw]
    | true => simp [hw, hl hw]

section actions

variable {n : Nat} {a : Actuator} {s : State} {op : Instr} {g : Agent} {rest : List Act} {m : Byte} {c : Nat}

theorem settle_checkBus (h : Alone a s) (hb : s.bus = .open) :
    State.settle (n + 1) a (s.setTask a (some ⟨op, g, .checkBus :: rest, m, c⟩)) =
      State.settle n a (s.setTask a (some ⟨op, g, rest, m, c⟩)) := by
  rw [settle_task h _ (by simp [Task.wantsLock])]
  simp [State.runAct, hb, goOn_setTask]

theorem settle_acquire (h : Alone a s) (hf : s.lock = .free) :
    State.settle (n + 1) a (s.setTask a (some ⟨op, g, .acquire :: rest, m, c⟩)) =
      State.settle n a ((s.setLock (.held a)).setTask a (some ⟨op, g, rest, m, c⟩)) := by
  rw [settle_task h _ (fun _ => hf)]
  simp [State.runAct, hf, setLock_setTask, goOn_setTask]

theorem settle_release (h : Alone a s) (hf : s.lock = .held a) :
    State.settle (n + 1) a (s.setTask a (some ⟨op, g, .release :: rest, m, c⟩)) =
      State.settle n a ((s.setLock .free).setTask a (some ⟨op, g, rest, m, c⟩)) := by
  rw [settle_task h _ (by simp [Task.wantsLock])]
  simp [State.runAct, State.unlockFor, hf, setLock_setTask, goOn_setTask]

theorem settle_write (h : Alone a s) {b r v : Byte} (hok : s.nextAnswer = .ok b) :
    State.settle (n + 1) a (s.setTask a (some ⟨op, g, .write r v :: rest, m, c⟩)) =
      State.settle n a ((s.busWrite a r v).setTask a (some ⟨op, g, rest, m, c⟩)) := by
  rw [settle_task h _ (by simp [Task.wantsLock])]
  have : (s.setTask a (some ⟨op, g, .write r v :: rest, m, c⟩)).nextAnswer = .ok b := by
    rw [← hok]; cases a <;> rfl
  simp [State.runAct, State.tryWrite, this, busWrite_setTask, goOn_setTask]

theorem settle_writeMode1 (h : Alone a s) {b : Byte} {what : Mode1Write} (hok : s.nextAnswer = .ok b) :
    State.settle (n + 1) a (s.setTask a (some ⟨op, g, .writeMode1 what :: rest, m, c⟩)) =
      State.settle n a ((s.busWrite a regMode1 (mode1Value s.cfg m what)).setTask a (some ⟨op, g, rest, m, c⟩)) := by
  rw [settle_task h _ (by simp [Task.wantsLock])]
  have : (s.setTask a (some ⟨op, g, .writeMode1 what :: rest, m, c⟩)).nextAnswer = .ok b := by
    rw [← hok]; cases a <;> rfl
  simp [State.runAct, State.tryWrite, this, busWrite_setTask, goOn_setTask]

theorem settle_readMode1 (h : Alone a s) {b : Byte} (hok : s.nextAnswer = .ok b) :
    State.settle (n + 1) a (s.setTask a (some ⟨op, g, .readMode1 :: rest, m, c⟩)) =
      State.settle n a ((s.busRead a regMode1).setTask a (some ⟨op, g, rest, b, c⟩)) := by
  rw [settle_task h _ (by simp [Task.wantsLock])]
  have : (s.setTask a (some ⟨op, g, .readMode1 :: rest, m, c⟩)).nextAnswer = .ok b := by
    rw [← hok]; cases a <;> rfl
  simp [State.runAct, State.tryReadMode1, this, busRead_setTask, goOn_setTask]

theorem settle_wait (h : Alone a s) {q : Rat} :
    State.settle (n + 1) a (s.setTask a (some ⟨op, g, .wait q :: rest, m, c⟩)) =
      State.settle n a ((s.log (.wait a q)).setTask a (some ⟨op, g, rest, m, c⟩)) := by
  rw [settle_task h _ (by simp [Task.wantsLock])]
  simp [State.runAct, log_setTask, goOn_setTask]

/-- The end of a program with the bus Open: Ok (spec 60 R267). -/
theorem settle_finish (h : Alone a s) (hb : s.bus = .open) :
    State.settle (n + 1) a (s.setTask a (some ⟨op, g, [], m, c⟩)) =
      State.settle n a ((s.setTask a (some ⟨op, g, [], m, c⟩)).endTask a ⟨op, g, [], m, c⟩
        (.ok ((s.setTask a (some ⟨op, g, [], m, c⟩)).okValue a op))) := by
  rw [settle_task h _ (by simp [Task.wantsLock])]
  simp [State.finish, hb]

/-- A write that fails ends the operation (spec 60 R261, R264). -/
theorem settle_writeFail (h : Alone a s) {r v : Byte} (hbad : s.nextAnswer = .busError) :
    State.settle (n + 1) a (s.setTask a (some ⟨op, g, .write r v :: rest, m, c⟩)) =
      State.settle n a (((s.busWrite a r v).setTask a (some ⟨op, g, .write r v :: rest, m, c⟩)).raiseBusError a
        ⟨op, g, .write r v :: rest, m, c⟩ (some ⟨r, some v⟩)) := by
  rw [settle_task h _ (by simp [Task.wantsLock])]
  have : (s.setTask a (some ⟨op, g, .write r v :: rest, m, c⟩)).nextAnswer = .busError := by
    rw [← hbad]; cases a <;> rfl
  simp [State.runAct, State.tryWrite, this, busWrite_setTask]

end actions

end Sys2Proof.Machine
end

