-- ==== Sys2Proof/Laws/Blocks.lean ====
section
/-! SUPPORT. Running the programs that are made of locked groups of writes: SETCH, SETALL, SETPIN, the DC operations, and the
outputs of a oneStep. -/

namespace Sys2Proof.Machine

/-! ### The effect of Ok writes on the base state -/

theorem afterRun_afterRun (s : State) (e f : List Event) (m n : Nat) :
    (s.afterRun e m).afterRun f n = s.afterRun (e ++ f) (m + n) := by
  simp [State.afterRun, State.dropAnswers, List.drop_drop, Nat.add_assoc]

theorem afterRun_zero (s : State) : s.afterRun [] 0 = s := by
  simp [State.afterRun, State.dropAnswers]

theorem log_eq_afterRun (s : State) (e : Event) (he : ∀ m, imgAfterEvent m e = m) : s.log e = s.afterRun [e] 0 := by
  simp [State.afterRun, State.dropAnswers, State.log, he]

theorem busWrite_ok (s : State) (a : Actuator) (r v b : Byte) (hok : s.nextAnswer = .ok b) :
    s.busWrite a r v = s.afterRun (okWrites a [(r, v)]) 1 := by
  simp [State.afterRun, State.dropAnswers, State.busWrite, State.drawAnswer, okWrites, hok, Answer.isOk, imgAfterEvent]

theorem busWrite_fail (s : State) (a : Actuator) (r v : Byte) (hbad : s.nextAnswer = .busError) :
    s.busWrite a r v = s.afterRun [.write a r v false] 1 := by
  simp [State.afterRun, State.dropAnswers, State.busWrite, State.drawAnswer, hbad, Answer.isOk, imgAfterEvent]

theorem answerAt_afterRun (s : State) (evs : List Event) (n j : Nat) : (s.afterRun evs n).answerAt j = s.answerAt (n + j) := by
  simp [State.afterRun, State.dropAnswers, State.answerAt, Nat.add_assoc]

theorem AnswersOk.afterRun {s : State} {m n : Nat} (h : AnswersOk s (m + n)) (evs : List Event) :
    AnswersOk (s.afterRun evs m) n := fun j hj => by
  rw [answerAt_afterRun]; exact h (m + j) (by omega)

theorem Alone.afterRun {a : Actuator} {s : State} (h : Alone a s) (evs : List Event) (n : Nat) : Alone a (s.afterRun evs n) :=
  h.of_fields rfl rfl rfl rfl

theorem afterRun_setLock (s : State) (evs : List Event) (n : Nat) (l : Lock) :
    (s.setLock l).afterRun evs n = (s.afterRun evs n).setLock l := rfl

theorem setLock_self (s : State) (h : s.lock = .free) : s.setLock .free = s := by
  cases s; simp_all [State.setLock]

@[simp] theorem setLock_setLock (s : State) (l l' : Lock) : (s.setLock l).setLock l' = s.setLock l' := rfl

theorem okWrites_append (a : Actuator) (u v : List (Byte × Byte)) : okWrites a (u ++ v) = okWrites a u ++ okWrites a v := by
  simp [okWrites]

/-! ### Programs -/

/-- The actions of some writes. -/
def writeActs (ws : List (Byte × Byte)) : List Act := ws.map (fun w => .write w.1 w.2)

/-- One PwmController operation that writes some bytes under the lock. -/
def lockedActs (ws : List (Byte × Byte)) : List Act := .checkBus :: .acquire :: (writeActs ws ++ [.release])

/-- The channel addresses, byte by byte (spec 10 R31). -/
theorem chanBase_eq (c : Chan) : chanBase c = BitVec.ofNat 8 (6 + 4 * c.val) ∧
    chanBase c + 1 = BitVec.ofNat 8 (6 + 4 * c.val + 1) ∧ chanBase c + 2 = BitVec.ofNat 8 (6 + 4 * c.val + 2) ∧
    chanBase c + 3 = BitVec.ofNat 8 (6 + 4 * c.val + 3) := by
  revert c; decide

theorem setchActs_eq (c : Chan) (on off : Nat) : setchActs c on off = lockedActs (chanBytes c on off) := by
  obtain ⟨h0, h1, h2, h3⟩ := chanBase_eq c
  unfold setchActs tickWrites
  rw [h1, h2, h3, h0]
  rfl

theorem setpinActs_eq (c : Chan) (high : Bool) : setpinActs c high = lockedActs (pinBytes c high) := by
  cases high <;> simp [setpinActs, pinBytes, setchActs_eq, tickMax]

theorem setallWrites_eq (on off : Int) :
    setallWrites on off = writeActs (pairBytes 0xFA (clampTick on) (clampTick off)) := rfl

/-! ### Running them -/

section runs

variable {n : Nat} {a : Actuator} {op : Instr} {g : Agent} {rest : List Act} {m : Byte} {c : Nat}

/-- Ok writes one after another. -/
theorem settle_writes (ws : List (Byte × Byte)) : ∀ {s : State}, Alone a s → AnswersOk s ws.length →
    State.settle (n + ws.length) a (s.setTask a (some ⟨op, g, writeActs ws ++ rest, m, c⟩)) =
      State.settle n a ((s.afterRun (okWrites a ws) ws.length).setTask a (some ⟨op, g, rest, m, c⟩)) := by
  induction ws with
  | nil => intro s _ _; simp [writeActs, okWrites, afterRun_zero]
  | cons w ws ih =>
    intro s hA hok
    obtain ⟨b, hb⟩ := hok.head
    have h1 : AnswersOk (s.busWrite a w.1 w.2) ws.length := hok.tail rfl rfl
    have hlen : n + (w :: ws).length = (n + ws.length) + 1 := by simp; omega
    have hact : writeActs (w :: ws) ++ rest = .write w.1 w.2 :: (writeActs ws ++ rest) := rfl
    rw [hlen, hact, settle_write hA hb, ih (hA.busWrite a _ _) h1, busWrite_ok s a _ _ b hb, afterRun_afterRun]
    congr 3
    simp; omega

/-- One PwmController operation with Ok writes. -/
theorem settle_locked (ws : List (Byte × Byte)) {s : State} (hA : Alone a s) (hb : s.bus = .open) (hf : s.lock = .free)
    (hok : AnswersOk s ws.length) :
    State.settle (n + (ws.length + 3)) a (s.setTask a (some ⟨op, g, lockedActs ws ++ rest, m, c⟩)) =
      State.settle n a ((s.afterRun (okWrites a ws) ws.length).setTask a (some ⟨op, g, rest, m, c⟩)) := by
  have e1 : n + (ws.length + 3) = ((n + 1) + ws.length) + 1 + 1 := by omega
  have e2 : lockedActs ws ++ rest = .checkBus :: .acquire :: (writeActs ws ++ (.release :: rest)) := by simp [lockedActs]
  rw [e1, e2, settle_checkBus hA hb, settle_acquire hA hf, settle_writes ws (s := s.setLock (.held a)) (hA.setLock _) (hok.of_eq rfl rfl),
    settle_release ((hA.setLock _).afterRun _ _) rfl, afterRun_setLock, setLock_setLock, setLock_self]
  exact hf

/-- PwmController operations with Ok writes, one after another. -/
theorem settle_blocks (bs : List (List (Byte × Byte))) : ∀ {s : State}, Alone a s → s.bus = .open → s.lock = .free →
    AnswersOk s bs.flatten.length →
    State.settle (n + (bs.flatten.length + 3 * bs.length)) a
        (s.setTask a (some ⟨op, g, bs.flatMap lockedActs ++ rest, m, c⟩)) =
      State.settle n a ((s.afterRun (okWrites a bs.flatten) bs.flatten.length).setTask a (some ⟨op, g, rest, m, c⟩)) := by
  induction bs with
  | nil => intro s _ _ _ _; simp [okWrites, afterRun_zero]
  | cons b bs ih =>
    intro s hA hb hf hok
    have hlen : (b :: bs).flatten.length = b.length + bs.flatten.length := by simp
    rw [hlen] at hok
    have e1 : n + ((b :: bs).flatten.length + 3 * (b :: bs).length) =
        (n + (bs.flatten.length + 3 * bs.length)) + (b.length + 3) := by rw [hlen, List.length_cons]; omega
    have e2 : (b :: bs).flatMap lockedActs ++ rest = lockedActs b ++ (bs.flatMap lockedActs ++ rest) := by simp
    have h1 : AnswersOk (s.afterRun (okWrites a b) b.length) bs.flatten.length := hok.afterRun _
    rw [e1, e2, settle_locked b hA hb hf (hok.mono (by omega)),
      ih (s := s.afterRun (okWrites a b) b.length) (hA.afterRun _ _) hb hf h1, afterRun_afterRun, hlen, List.flatten_cons, okWrites_append]

/-- A program whose writes fail at the one numbered `j`: the writes before it, the failing one, and the end with BusError
(spec 60 R264). -/
theorem settle_blocks_fail (bs : List (List (Byte × Byte))) : ∀ {s : State} (j : Nat) (hj : j < bs.flatten.length),
    Alone a s → s.bus = .open → s.lock = .free → AnswersOk s j → s.answerAt j = .busError →
    ∃ k todo, ∃ s' : State, k + 1 ≤ bs.flatten.length + 3 * bs.length ∧
      s' = (s.afterRun (failedWrites a bs.flatten j) (j + 1)).setLock (.held a) ∧
      State.settle (n + (bs.flatten.length + 3 * bs.length)) a
          (s.setTask a (some ⟨op, g, bs.flatMap lockedActs ++ rest, m, c⟩)) =
        State.settle (n + (bs.flatten.length + 3 * bs.length) - (k + 1)) a
          ((s'.setTask a (some ⟨op, g, todo, m, c⟩)).raiseBusError a ⟨op, g, todo, m, c⟩
            (some ⟨bs.flatten[j].1, some bs.flatten[j].2⟩)) := by
  induction bs with
  | nil => intro s j hj; simp at hj
  | cons b bs ih =>
    intro s j hj hA hb hf hok hbad
    have e2 : (b :: bs).flatMap lockedActs ++ rest = lockedActs b ++ (bs.flatMap lockedActs ++ rest) := by simp
    have hlen : (b :: bs).flatten.length = b.length + bs.flatten.length := by simp
    by_cases hjb : j < b.length
    · -- the failing write is in the first group
      have e3 : lockedActs b ++ (bs.flatMap lockedActs ++ rest) =
          .checkBus :: .acquire :: (writeActs (b.take j) ++ (.write b[j].1 b[j].2 ::
            (writeActs (b.drop (j + 1)) ++ (.release :: (bs.flatMap lockedActs ++ rest))))) := by
        have : b = b.take j ++ b[j] :: b.drop (j + 1) := by simp
        conv => lhs; rw [this]
        rw [lockedActs, writeActs, List.map_append, List.map_cons]
        simp only [writeActs, List.append_assoc, List.cons_append, List.nil_append]
      have hlt : (b.take j).length = j := by simp; omega
      refine ⟨j + 2, .write b[j].1 b[j].2 :: (writeActs (b.drop (j + 1)) ++ (.release :: (bs.flatMap lockedActs ++ rest))),
        _, ?_, rfl, ?_⟩
      · rw [hlen, List.length_cons]; omega
      · have e1 : n + ((b :: bs).flatten.length + 3 * (b :: bs).length) =
            ((n + ((b :: bs).flatten.length + 3 * (b :: bs).length) - (j + 2 + 1) + 1) + (b.take j).length) + 1 + 1 := by
          rw [hlt, hlen, List.length_cons]; omega
        rw [e2, e3]
        conv => lhs; rw [e1]
        rw [settle_checkBus hA hb, settle_acquire hA hf,
          settle_writes (b.take j) (s := s.setLock (.held a)) (hA.setLock _) (by rw [hlt]; exact hok.of_eq rfl rfl),
          settle_writeFail (s := (s.setLock (.held a)).afterRun (okWrites a (b.take j)) (b.take j).length) ((hA.setLock _).afterRun _ _)
            (by rw [nextAnswer_eq, answerAt_afterRun, hlt]; exact hbad)]
        have hfw : failedWrites a (b :: bs).flatten j = okWrites a (b.take j) ++ [.write a b[j].1 b[j].2 false] := by
          have h1 : (b ++ bs.flatten).take j = b.take j := List.take_append_of_le_length (by omega)
          have h2 : (b ++ bs.flatten)[j]? = some b[j] := by rw [List.getElem?_append_left hjb]; simp
          simp [failedWrites, h1, h2]
        have hel : (b :: bs).flatten[j] = b[j] := by
          simp only [List.flatten_cons]; exact List.getElem_append_left hjb
        rw [busWrite_fail _ _ _ _ (by rw [nextAnswer_eq, answerAt_afterRun, hlt]; exact hbad), afterRun_afterRun, hfw, hel, hlt]
        rfl
    · -- it is in a later one
      have h0 : AnswersOk s b.length := hok.mono (by omega)
      have hj' : j - b.length < bs.flatten.length := by rw [hlen] at hj; omega
      have h1 : AnswersOk (s.afterRun (okWrites a b) b.length) (j - b.length) := by
        apply AnswersOk.afterRun; rw [Nat.add_sub_cancel' (by omega)]; exact hok
      have h2 : (s.afterRun (okWrites a b) b.length).answerAt (j - b.length) = .busError := by
        rw [answerAt_afterRun, Nat.add_sub_cancel' (by omega)]; exact hbad
      obtain ⟨k, todo, s', hk, hs', hset⟩ := ih (s := s.afterRun (okWrites a b) b.length) (j - b.length) hj' (hA.afterRun _ _) hb hf h1 h2
      refine ⟨k + (b.length + 3), todo, s', ?_, ?_, ?_⟩
      · rw [hlen, List.length_cons]; omega
      · rw [hs', afterRun_afterRun]
        have h3 : failedWrites a (b :: bs).flatten j = okWrites a b ++ failedWrites a bs.flatten (j - b.length) := by
          have h4 : (b ++ bs.flatten).take j = b ++ bs.flatten.take (j - b.length) := by
            rw [List.take_append]; rw [List.take_of_length_le (by omega)]
          have h5 : (b ++ bs.flatten)[j]? = bs.flatten[j - b.length]? := List.getElem?_append_right (by omega)
          simp [failedWrites, h4, h5, okWrites]
        rw [h3]; congr 2; omega
      · have e1 : n + ((b :: bs).flatten.length + 3 * (b :: bs).length) =
            (n + (bs.flatten.length + 3 * bs.length)) + (b.length + 3) := by rw [hlen, List.length_cons]; omega
        have hel : (b :: bs).flatten[j] = bs.flatten[j - b.length] := by
          simp only [List.flatten_cons]; exact List.getElem_append_right (by omega)
        rw [e2, hel]
        conv => lhs; rw [e1]
        rw [settle_locked b hA hb hf h0, hset]
        congr 1
        rw [hlen, List.length_cons]; omega

end runs

/-! ### The start and the end of an operation on a block at rest -/

theorem settle_idle {n : Nat} {a : Actuator} {s : State} (h : (s.worker a).isIdle = true) : State.settle n a s = s := by
  apply settle_nil
  intro hm
  have : Agent.actuator a ∈ s.movers := by rw [hm]; simp
  have : s.canTick a = true := (mem_movers s (.actuator a)).mp this
  rw [canTick_of_idle h] at this
  exact absurd this (by simp)

@[simp] theorem State.setWorker_self (s : State) (a : Actuator) : s.setWorker a (s.worker a) = s := by
  have hd : ∀ m : Fin 4, ({ s.motor m with work := (s.motor m).work } : DcMotor) = s.dc[m] := fun m => rfl
  have hk : ∀ k : Fin 2, ({ s.stepper k with work := (s.stepper k).work } : Stepper) = s.st[k] := fun k => rfl
  cases a with
  | controller => rfl
  | dc m => simp only [State.setWorker, State.worker, State.setMotor, hd]; simp
  | stepper k => simp only [State.setWorker, State.worker, State.setStepper, hk]; simp

theorem setTask_none_of_idle {s : State} {a : Actuator} (h : s.worker a = Worker.idle) : s.setTask a none = s := by
  have : ({ s.worker a with task := none } : Worker) = s.worker a := by rw [h]; rfl
  rw [State.setTask, this, State.setWorker_self]

theorem unlockFor_setTask (s : State) (a b : Actuator) (t : Option Task) :
    (s.setTask a t).unlockFor b = (s.unlockFor b).setTask a t := by
  unfold State.unlockFor
  by_cases h : s.lock = .held b <;> simp [h, setLock_setTask]

theorem endSeq_setTask (s : State) (a : Actuator) (t : Option Task) :
    (s.setTask a t).endSeq a = (s.endSeq a).setTask a t := by
  cases a with
  | controller => rfl
  | dc m => rfl
  | stepper k => exact setSeq_setTask_none s k t .idle

/-- The end of an operation, seen on the base state: the result is recorded, the lock released, the sequence ended. -/
theorem endTask_setTask (s : State) (a : Actuator) (t : Option Task) (u : Task) (r : Result) (h : s.worker a = Worker.idle) :
    (s.setTask a t).endTask a u r = ((s.log (.done u.by_ u.op r)).unlockFor a).endSeq a := by
  unfold State.endTask
  rw [log_setTask, unlockFor_setTask, endSeq_setTask, State.setTask_setTask]
  apply setTask_none_of_idle
  cases a with
  | controller => simpa [State.endSeq] using h
  | dc m => simpa [State.endSeq] using h
  | stepper k =>
    have hk : (s.stepper k).work = Worker.idle := h
    simp [State.endSeq, State.setSeq, State.worker, hk]

theorem setPending_none_self {s : State} {m : Fin 4} (h : (s.motor m).pending = none) : s.setPending m none = s := by
  have : ({ s.motor m with pending := none } : DcMotor) = s.motor m := by
    cases hm : s.motor m with
    | mk p w => rw [hm] at h; simp at h; rw [h]
  rw [State.setPending, this]
  simp [State.setMotor, State.motor]

/-- Issue to a block at rest: the operation is recorded, queued, and the agent's moves follow. -/
theorem submit_launch {s : State} (h : Launch s) (a : Actuator) (i : Instr) :
    s.submit a i = State.settle (opFuel i) a ((s.log (.issue (.actuator a) i)).enqueue a i) := by
  have hl : (s.log (.issue (.actuator a) i)).disarmFor a = s.log (.issue (.actuator a) i) := by
    cases a with
    | controller => rfl
    | stepper k => rfl
    | dc m => exact setPending_none_self (h.pending_none m)
  have hfl : (s.log (.issue (.actuator a) i)).inFlightFor a = false := by
    cases a with
    | controller => rfl
    | dc m => rfl
    | stepper k =>
      have : (s.stepper k).work = Worker.idle := h.worker_idle (.stepper k)
      simp [State.inFlightFor, State.inFlight, h.seq_idle k, this, Worker.idle]
  have hmv : (s.log (.issue (.actuator a) i)).movers = [] := h.movers
  simp only [State.submit, hl, hfl, hmv]
  simp

/-- The start of an operation on a block at rest. -/
theorem settle_start {n : Nat} {a : Actuator} {s : State} {i : Instr} (hA : Alone a s) (hw : s.worker a = Worker.idle) :
    State.settle (n + 1) a (s.enqueue a i) =
      State.settle n a (match plan s.cfg i with
        | .error c => s.log (.done (.actuator a) i (.configurationError i c))
        | .ok p => s.begin a i p) := by
  have hq : (s.enqueue a i).setQueue a [] = s := by
    have : ({ s.worker a with queue := [] } : Worker) = s.worker a := by rw [hw]; rfl
    simp [State.enqueue, State.setQueue, this]
  rw [settle_alone (s := s.enqueue a i)]
  · congr 1
    have ht : ((s.enqueue a i).worker a).task = none := by simp [State.enqueue, State.setQueue, hw, Worker.idle]
    have hqq : ((s.enqueue a i).worker a).queue = [i] := by simp [State.enqueue, State.setQueue, hw, Worker.idle]
    unfold State.tick
    rw [ht]
    simp only [State.startNext, hqq, hq, State.enqueue_cfg]
    all_goals (cases plan s.cfg i <;> rfl)
  · refine hA.of_eq (by simp) (fun b hb => ?_) (fun m _ => ?_)
    · simp [State.enqueue, State.setQueue, State.worker_setWorker_ne _ _ _ _ (Ne.symm hb)]
    · simp [State.armed, State.enqueue, State.setQueue]
  · simp [State.canTick, State.enqueue, State.setQueue, hw, Worker.idle]

end Sys2Proof.Machine
end

