-- ==== Sys2Proof/Laws/Operands.lean ====
section
/-! SUPPORT. What each operand check and clamp answers, said once: an index in range names its actuator, a code names its
command, direction or style, and the checks on binary64 patterns agree with the values of the patterns. -/

namespace Sys2Proof.Machine

/-! ### Indices and clamps -/

theorem indexOf?_val {n : Nat} (k : Fin n) : indexOf? n (k.val : Int) = some k := by
  have := k.isLt
  simp [indexOf?]

@[simp] theorem chan?_val (c : Chan) : chan? (c.val : Int) = some c := indexOf?_val c
@[simp] theorem dcIndex?_val (m : Fin 4) : dcIndex? (m.val : Int) = some m := indexOf?_val m
@[simp] theorem stepperIndex?_val (k : Fin 2) : stepperIndex? (k.val : Int) = some k := indexOf?_val k

/-- An index check passes exactly in its range. -/
theorem indexOf?_eq_none {n : Nat} {v : Int} : indexOf? n v = none ↔ ¬(0 ≤ v ∧ v < n) := by
  unfold indexOf?; split <;> simp_all

/-- An index that passes is the number it names. -/
theorem indexOf?_eq_some {n : Nat} {v : Int} {k : Fin n} : indexOf? n v = some k ↔ v = k.val := by
  unfold indexOf?
  constructor
  · intro h; split at h
    · simp at h; subst h; simp; omega
    · simp at h
  · rintro rfl; have := k.isLt; simp

theorem clampedTick_eq (v : Int) : clampedTick v = clampTick v := by
  unfold clampedTick clampTick clamp tickMax; split <;> (try split) <;> omega

theorem clampedSpeed_eq (v : Int) : clampedSpeed v = clampSpeed v := by
  unfold clampedSpeed clampSpeed clamp speedMax; split <;> (try split) <;> omega

/-! ### Codes -/

@[simp] theorem needCommand_code (c : Command) : needCommand (commandCode c) = .ok c := by cases c <;> rfl
@[simp] theorem needDirection_code (d : Direction) : needDirection (directionCode d) = .ok d := by cases d <;> rfl
@[simp] theorem needStyle_code (y : StepStyle) : needStyle (styleCode y) = .ok y := by cases y <;> rfl

/-- The command check passes exactly on the four codes (spec 30 R93). -/
theorem needCommand_cases (c : Int) :
    (Command.codeOk c = true ∧ ∃ x, needCommand c = .ok x ∧ commandCode x = c) ∨
    (Command.codeOk c = false ∧ needCommand c = .error .commandCode) := by
  by_cases h : 1 ≤ c ∧ c ≤ 4
  · left
    obtain rfl | rfl | rfl | rfl : c = 1 ∨ c = 2 ∨ c = 3 ∨ c = 4 := by omega
    · exact ⟨rfl, .forward, rfl, rfl⟩
    · exact ⟨rfl, .backward, rfl, rfl⟩
    · exact ⟨rfl, .brake, rfl, rfl⟩
    · exact ⟨rfl, .release, rfl, rfl⟩
  · right
    refine ⟨by simp [Command.codeOk, inRange]; omega, ?_⟩
    unfold needCommand command?
    rw [if_neg (by omega), if_neg (by omega), if_neg (by omega), if_neg (by omega)]; rfl

/-- The direction check: Forward and Backward pass, Brake and Release are refused, another value is no code (spec 42 R210). -/
theorem needDirection_cases (c : Int) :
    (Command.codeOk c = true ∧ Command.stepCodeOk c = true ∧ ∃ d, needDirection c = .ok d ∧ directionCode d = c) ∨
    (Command.codeOk c = true ∧ Command.stepCodeOk c = false ∧ needDirection c = .error .stepperCommand) ∨
    (Command.codeOk c = false ∧ Command.stepCodeOk c = false ∧ needDirection c = .error .commandCode) := by
  by_cases h : 1 ≤ c ∧ c ≤ 4
  · obtain rfl | rfl | rfl | rfl : c = 1 ∨ c = 2 ∨ c = 3 ∨ c = 4 := by omega
    · exact .inl ⟨rfl, rfl, .forward, rfl, rfl⟩
    · exact .inl ⟨rfl, rfl, .backward, rfl, rfl⟩
    · exact .inr (.inl ⟨rfl, rfl, rfl⟩)
    · exact .inr (.inl ⟨rfl, rfl, rfl⟩)
  · refine .inr (.inr ⟨by simp [Command.codeOk, inRange]; omega, by simp [Command.stepCodeOk, inRange]; omega, ?_⟩)
    unfold needDirection command?
    rw [if_neg (by omega), if_neg (by omega), if_neg (by omega), if_neg (by omega)]

/-- The style check passes exactly on the four codes (spec 30 R94). -/
theorem needStyle_cases (c : Int) :
    (StepStyle.codeOk c = true ∧ ∃ y, needStyle c = .ok y ∧ styleCode y = c) ∨
    (StepStyle.codeOk c = false ∧ needStyle c = .error .styleCode) := by
  by_cases h : 1 ≤ c ∧ c ≤ 4
  · left
    obtain rfl | rfl | rfl | rfl : c = 1 ∨ c = 2 ∨ c = 3 ∨ c = 4 := by omega
    · exact ⟨rfl, .single, rfl, rfl⟩
    · exact ⟨rfl, .double, rfl, rfl⟩
    · exact ⟨rfl, .interleave, rfl, rfl⟩
    · exact ⟨rfl, .microstep, rfl, rfl⟩
  · right
    refine ⟨by simp [StepStyle.codeOk, inRange]; omega, ?_⟩
    unfold needStyle style?
    rw [if_neg (by omega), if_neg (by omega), if_neg (by omega), if_neg (by omega)]; rfl

/-! ### Binary64 operands -/

/-- The magnitude of a pattern is never negative, and is zero exactly when exponent and fraction fields are. -/
theorem magnitude_pos (b : F64) : 0 ≤ F64.magnitude b ∧
    (0 < F64.magnitude b ↔ ¬(F64.expField b = 0 ∧ F64.fracField b = 0)) := by
  unfold F64.magnitude
  simp only
  split
  · next he =>
    have hd : (0 : Rat) < ((2 ^ 1074 : Nat) : Rat) := by
      exact_mod_cast Nat.pow_pos (by decide)
    refine ⟨div_nonneg (by exact_mod_cast Nat.zero_le _) hd.le, ?_⟩
    rw [div_pos_iff_of_pos_right hd]
    simp [he, Nat.pos_iff_ne_zero]
  · next he =>
    have h1 : 0 < 2 ^ 52 + F64.fracField b := by omega
    split
    · have : (0 : Rat) < (((2 ^ 52 + F64.fracField b) * 2 ^ (F64.expField b - 1075) : Nat) : Rat) := by
        exact_mod_cast Nat.mul_pos h1 (Nat.pow_pos (by decide))
      exact ⟨this.le, by simp only [this, he, true_iff]; simp⟩
    · have : (0 : Rat) < ((2 ^ 52 + F64.fracField b : Nat) : Rat) / ((2 ^ (1075 - F64.expField b) : Nat) : Rat) :=
        div_pos (by exact_mod_cast h1) (by exact_mod_cast Nat.pow_pos (by decide))
      exact ⟨this.le, by simp only [this, he, true_iff]; simp⟩

/-- The fields of a pattern as a number. -/
theorem toNat_fields (b : F64) : b.toNat = (if F64.negative b then 2 ^ 63 else 0) + F64.expField b * 2 ^ 52 + F64.fracField b := by
  have h := b.isLt
  simp only [F64.negative, F64.expField, F64.fracField]
  by_cases hs : 2 ^ 63 ≤ b.toNat
  · simp only [hs, decide_true, if_true]; omega
  · simp only [hs, decide_false, Bool.false_eq_true, if_false]; omega

/-- The frequency check on the pattern is the check on its value (spec 40 R140). -/
theorem freqOk_iff (f : F64) : F64.freqOk f = true ↔ ∃ q, F64.value f = some q ∧ 0 < q := by
  have hm := magnitude_pos f
  have hf := toNat_fields f
  have h1 : F64.fracField f < 2 ^ 52 := Nat.mod_lt _ (by decide)
  have h2 : F64.expField f < 2048 := Nat.mod_lt _ (by decide)
  have he : F64.finiteBits f = decide (F64.expField f ≠ 2047) := rfl
  unfold F64.freqOk F64.value
  rw [he]
  by_cases hx : F64.expField f = 2047
  · simp [hx]
  · simp only [hx, ne_eq, not_false_eq_true, decide_true, Bool.true_and, Bool.and_eq_true, decide_eq_true_eq, if_false,
      Option.some.injEq, exists_eq_left']
    cases hs : F64.negative f with
    | true =>
      have : 2 ^ 63 ≤ f.toNat := by simpa [F64.negative] using hs
      simp only [if_true, Left.neg_pos_iff]
      constructor
      · intro h; omega
      · intro h; exact absurd h (not_lt.mpr hm.1)
    | false =>
      have hlt : ¬ 2 ^ 63 ≤ f.toNat := by simpa [F64.negative] using hs
      simp only [Bool.false_eq_true, if_false, hm.2]
      rw [hs] at hf
      simp only [Bool.false_eq_true, if_false] at hf
      omega

/-- The runtime check on the pattern is the check on its value (spec 41 R176). -/
theorem runtimeOk_iff (t : F64) : F64.runtimeOk (some t) = true ↔ ∃ q, F64.value t = some q ∧ 0 ≤ q := by
  have hm := magnitude_pos t
  have hf := toNat_fields t
  have h1 : F64.fracField t < 2 ^ 52 := Nat.mod_lt _ (by decide)
  have he : F64.finiteBits t = decide (F64.expField t ≠ 2047) := rfl
  unfold F64.runtimeOk F64.value
  simp only [he]
  by_cases hx : F64.expField t = 2047
  · simp [hx]
  · simp only [hx, ne_eq, not_false_eq_true, decide_true, Bool.true_and, decide_eq_true_eq, if_false,
      Option.some.injEq, exists_eq_left']
    cases hs : F64.negative t with
    | true =>
      rw [hs] at hf
      simp only [if_true] at hf
      simp only [if_true, Left.nonneg_neg_iff]
      constructor
      · intro h
        have : ¬ 0 < F64.magnitude t := fun hp => (hm.2.mp hp) (by omega)
        exact not_lt.mp this
      · intro h
        have hz : F64.expField t = 0 ∧ F64.fracField t = 0 := by
          by_contra hc; exact absurd (hm.2.mpr hc) (not_lt.mpr h)
        rw [hf, hz.1, hz.2]; decide
    | false =>
      have hlt : ¬ 2 ^ 63 ≤ t.toNat := by simpa [F64.negative] using hs
      simp only [Bool.false_eq_true, if_false]
      exact ⟨fun _ => hm.1, fun _ => by omega⟩

/-- What the frequency check answers. -/
theorem needFrequency_cases (f : F64) :
    (F64.freqOk f = true ∧ ∃ q, F64.value f = some q ∧ 0 < q ∧ needFrequency f = .ok q) ∨
    (F64.freqOk f = false ∧ needFrequency f = .error .frequency) := by
  have h := freqOk_iff f
  unfold needFrequency
  cases hv : F64.value f with
  | none => right; rw [hv] at h; exact ⟨by simpa using h, rfl⟩
  | some q =>
    rw [hv] at h
    by_cases hq : 0 < q
    · left; exact ⟨h.mpr ⟨q, rfl, hq⟩, q, rfl, hq, by simp [hq]⟩
    · right; exact ⟨by simpa [hq] using h, by simp [hq]⟩

/-- What the runtime check answers. -/
theorem needRuntime_cases (rt : Option F64) :
    (F64.runtimeOk rt = true ∧ needRuntime rt = .ok rt) ∨ (F64.runtimeOk rt = false ∧ needRuntime rt = .error .runtime) := by
  cases rt with
  | none => exact .inl ⟨rfl, rfl⟩
  | some t =>
    have h := runtimeOk_iff t
    unfold needRuntime
    simp only
    cases hv : F64.value t with
    | none => right; rw [hv] at h; exact ⟨by simpa using h, rfl⟩
    | some q =>
      rw [hv] at h
      by_cases hq : 0 ≤ q
      · left; exact ⟨h.mpr ⟨q, rfl, hq⟩, by simp [hq]⟩
      · right; exact ⟨by simpa [hq] using h, by simp [hq]⟩

end Sys2Proof.Machine
end

