-- ==== Sys2Proof/Laws/Checks.lean ====
section
/-! SUPPORT. The checks of every operation, said once: the plan of an operation with an illegal operand is the error of its
first failing check; and what the issue of a queued operation is. -/

namespace Sys2Proof.Machine

/-- The issue of an operation that names an actuator is its agent's issue. -/
theorem exec_submit {s : State} {i : Instr} {a : Actuator} (h : opTarget i = some a) (hq : queueable i = true) :
    exec i s = .next (s.submit a i) := by
  obtain ⟨t, ht⟩ := exec_next i s
  rcases exec_cases ht with ⟨b, hb, -, rfl⟩ | ⟨j, k, rpm, rfl, -, -⟩ | ⟨c, hc, -⟩
  · rw [h] at hb; simp at hb; rw [ht, hb]
  · simp [queueable] at hq
  · rw [h] at hc; simp at hc

/-- An index check and the range it stands for. -/
theorem index_cases {n : Nat} (v : Int) :
    (inRange 0 (n : Int) v = true ∧ ∃ k : Fin (n + 1), indexOf? (n + 1) v = some k) ∨
    (inRange 0 (n : Int) v = false ∧ indexOf? (n + 1) v = none) := by
  unfold indexOf? inRange
  by_cases h : 0 ≤ v ∧ v ≤ n
  · exact .inl ⟨by simpa using h, by rw [dif_pos (by omega)]; exact ⟨_, rfl⟩⟩
  · exact .inr ⟨by simpa using h, by rw [dif_neg (by omega)]⟩

/-- What RUNST's speed check answers (spec 42 R238). -/
theorem needStepperSpeed_cases (v : Int) :
    (1 ≤ v ∧ needStepperSpeed v = .ok (clampedSpeed v)) ∨ (¬1 ≤ v ∧ needStepperSpeed v = .error .zeroSpeed) := by
  unfold needStepperSpeed
  rw [clampedSpeed_eq]
  unfold clampSpeed clamp speedMax
  by_cases h : 1 ≤ v
  · exact .inl ⟨h, by rw [if_neg (by omega)]⟩
  · exact .inr ⟨h, by rw [if_pos (by omega)]⟩

/-- The plan of an operation with an illegal operand is the error of its first failing check (spec 60 R260, R266). -/
theorem plan_firstCause (cfg : Config) (i : Instr) (c : Cause) (h : firstCause i = some c) : plan cfg i = .error c := by
  cases i with
  | init => simp [firstCause] at h
  | setall on off => simp [firstCause] at h
  | setch ch on off =>
    rcases index_cases (n := 15) ch with ⟨h1, k, hk⟩ | ⟨h1, hk⟩
    · simp [firstCause] at h; simp_all
    · simp [firstCause] at h; simp_all [plan, planSetch, chan?, need, bind, Except.bind, Except.map]
  | setfreq f =>
    rcases needFrequency_cases f with ⟨h1, q, -, -, hq⟩ | ⟨h1, hq⟩
    · simp_all [firstCause]
    · simp_all [firstCause, plan, planSetfreq, bind, Except.bind, Except.map]
  | setpin p v =>
    rcases index_cases (n := 15) p with ⟨h1, k, hk⟩ | ⟨h1, hk⟩
    · simp at h1 hk
      simp only [firstCause, h1] at h
      by_cases hv : inRange 0 1 v = true
      · simp_all
      · simp at hv; have : v ≠ 0 ∧ v ≠ 1 := by simp [inRange] at hv; omega
        simp_all [plan, planSetpin, chan?, need, needPinValue, bind, Except.bind, Except.map]
    · simp at h1; simp_all [firstCause, plan, planSetpin, chan?, need, bind, Except.bind, Except.map]
  | dcrun m cmd =>
    rcases index_cases (n := 3) m with ⟨h1, k, hk⟩ | ⟨h1, hk⟩ <;>
    rcases needCommand_cases cmd with ⟨h2, x, hx, -⟩ | ⟨h2, hx⟩ <;>
      simp_all [firstCause, plan, planDcrun, dcIndex?, need, bind, Except.bind, Except.map]
  | dcspeed m sp =>
    rcases index_cases (n := 3) m with ⟨h1, k, hk⟩ | ⟨h1, hk⟩ <;>
      simp_all [firstCause, plan, planDcspeed, dcIndex?, need, bind, Except.bind, Except.map]
  | rundc m cmd sp rt =>
    rcases index_cases (n := 3) m with ⟨h1, k, hk⟩ | ⟨h1, hk⟩ <;>
    rcases needCommand_cases cmd with ⟨h2, x, hx, -⟩ | ⟨h2, hx⟩ <;>
    rcases needRuntime_cases rt with ⟨h3, ht⟩ | ⟨h3, ht⟩ <;>
      simp_all [firstCause, plan, planRundc, dcIndex?, need, bind, Except.bind, Except.map]
  | stspeed k rpm =>
    rcases index_cases (n := 1) k with ⟨h1, j, hk⟩ | ⟨h1, hk⟩ <;> by_cases hr : 1 ≤ rpm <;>
      simp_all [firstCause, plan, checkStspeed, stepperIndex?, needRpm, need, bind, Except.bind, Except.map]
  | onestep k cmd y =>
    rcases index_cases (n := 1) k with ⟨h1, j, hk⟩ | ⟨h1, hk⟩ <;>
    rcases needDirection_cases cmd with ⟨h2, h2', x, hx, -⟩ | ⟨h2, h2', hx⟩ | ⟨h2, h2', hx⟩ <;>
    rcases needStyle_cases y with ⟨h3, z, hy, -⟩ | ⟨h3, hy⟩ <;>
      simp_all [firstCause, plan, planOnestep, stepperIndex?, need, bind, Except.bind]
  | step k n cmd y =>
    rcases index_cases (n := 1) k with ⟨h1, j, hk⟩ | ⟨h1, hk⟩ <;>
    rcases needDirection_cases cmd with ⟨h2, h2', x, hx, -⟩ | ⟨h2, h2', hx⟩ | ⟨h2, h2', hx⟩ <;>
    rcases needStyle_cases y with ⟨h3, z, hy, -⟩ | ⟨h3, hy⟩ <;>
      simp_all [firstCause, plan, planStep, stepperIndex?, need, bind, Except.bind]
  | runst k n cmd sp y =>
    rcases index_cases (n := 1) k with ⟨h1, j, hk⟩ | ⟨h1, hk⟩ <;>
    rcases needDirection_cases cmd with ⟨h2, h2', x, hx, -⟩ | ⟨h2, h2', hx⟩ | ⟨h2, h2', hx⟩ <;>
    rcases needStyle_cases y with ⟨h3, z, hy, -⟩ | ⟨h3, hy⟩ <;>
    rcases needStepperSpeed_cases sp with ⟨h4, hr⟩ | ⟨h4, hr⟩ <;>
      simp_all [firstCause, plan, planRunst, stepperIndex?, need, bind, Except.bind]

end Sys2Proof.Machine
end

