-- ==== Sys2Proof/Laws/Flat.lean ====
section
/-! SUPPORT. Whole operations on a block at rest: an operation made of locked groups of writes, its end with a BusError at
one of them, and an operation that fails its checks. -/

namespace Sys2Proof.Machine

theorem Launch.afterRun {s : State} (h : Launch s) (evs : List Event) (n : Nat) : Launch (s.afterRun evs n) := h

@[simp] theorem afterRun_worker (s : State) (evs : List Event) (n : Nat) (a : Actuator) :
    (s.afterRun evs n).worker a = s.worker a := by cases a <;> rfl

/-- Recording an event that is no write adds it to a run. -/
theorem afterRun_log (s : State) (evs : List Event) (n : Nat) (e : Event) (he : ∀ m, imgAfterEvent m e = m) :
    (s.afterRun evs n).log e = s.afterRun (evs ++ [e]) n := by
  rw [log_eq_afterRun _ _ he, afterRun_afterRun]; rfl

/-- The end of an operation on a block otherwise at rest: its result is recorded and nothing else. -/
theorem endTask_launch {s : State} (h : Launch s) (a : Actuator) (t : Option Task) (u : Task) (r : Result) :
    (s.setTask a t).endTask a u r = s.afterRun [.done u.by_ u.op r] 0 := by
  rw [endTask_setTask s a t u r (h.worker_idle a), log_eq_afterRun _ _ (fun _ => rfl)]
  have hl : (s.afterRun [.done u.by_ u.op r] 0).lock = .free := h.lock_free
  have h1 : (s.afterRun [.done u.by_ u.op r] 0).unlockFor a = s.afterRun [.done u.by_ u.op r] 0 := by
    simp [State.unlockFor, hl]
  rw [h1]
  cases a with
  | controller => rfl
  | dc m => rfl
  | stepper k =>
    have hk : ({ (s.afterRun [.done u.by_ u.op r] 0).stepper k with seq := .idle } : Stepper) = s.st[k] := by
      have : (s.stepper k).seq = .idle := h.seq_idle k
      have h2 : s.st[k] = s.stepper k := rfl
      rw [h2, show (s.afterRun [.done u.by_ u.op r] 0).stepper k = s.stepper k from rfl]
      cases hx : s.stepper k with
      | mk p q y c z w => rw [hx] at this; simp at this; simp [this]
    simp only [State.endSeq, State.setSeq, State.setStepper, hk]
    have : (s.afterRun [.done u.by_ u.op r] 0).st = s.st := rfl
    rw [this]; simp [State.afterRun, State.dropAnswers]

/-- The end with BusError while the lock is held. -/
theorem endTask_locked {s : State} (h : Launch s) (a : Actuator) (t : Option Task) (u : Task) (r : Result) :
    ((s.setLock (.held a)).setTask a t).endTask a u r = s.afterRun [.done u.by_ u.op r] 0 := by
  rw [← endTask_launch h a t u r]
  simp only [State.endTask]
  have h1 : (((s.setLock (.held a)).setTask a t).log (.done u.by_ u.op r)).unlockFor a = (s.setTask a t).log (.done u.by_ u.op r) := by
    have hl : (((s.setLock (.held a)).setTask a t).log (.done u.by_ u.op r)).lock = .held a := by cases a <;> rfl
    rw [State.unlockFor, if_pos hl]
    have : (((s.setLock (.held a)).setTask a t).log (.done u.by_ u.op r)).setLock .free =
        ((s.setLock .free).setTask a t).log (.done u.by_ u.op r) := by cases a <;> rfl
    rw [this, setLock_self s h.lock_free]
  have h2 : ((s.setTask a t).log (.done u.by_ u.op r)).unlockFor a = (s.setTask a t).log (.done u.by_ u.op r) := by
    have hl : ((s.setTask a t).log (.done u.by_ u.op r)).lock = .free := by rw [← h.lock_free]; cases a <;> rfl
    rw [State.unlockFor, if_neg (by rw [hl]; simp)]
  rw [h1, h2]

theorem settle_launch {n : Nat} {a : Actuator} {s : State} (h : Launch s) : State.settle n a s = s :=
  settle_idle (by rw [h.worker_idle a]; rfl)

/-- The first moves of an operation without a start of its own. -/
theorem submit_ofActs {s : State} (h : Launch s) (a : Actuator) (i : Instr) {acts : List Act} {n : Nat}
    (hp : plan s.cfg i = .ok (.ofActs acts)) (hf : opFuel i = n + 1) :
    s.submit a i = State.settle n a ((s.afterRun [.issue (.actuator a) i] 0).setTask a
      (some ⟨i, .actuator a, acts ++ [], 0, 0⟩)) := by
  rw [submit_launch h, hf, log_eq_afterRun _ _ (fun _ => rfl), settle_start ((h.alone a).afterRun _ _) (by simp [h.worker_idle a])]
  have : plan (s.afterRun [.issue (.actuator a) i] 0).cfg i = .ok (.ofActs acts) := hp
  rw [this]
  simp [State.begin, Plan.ofActs, Task.fresh]

/-- A whole operation made of locked groups of writes, every transaction Ok. -/
theorem submit_blocks {s : State} (h : Launch s) (hb : s.bus = .open) (a : Actuator) (i : Instr) (bs : List (List (Byte × Byte)))
    (hp : plan s.cfg i = .ok (.ofActs (bs.flatMap lockedActs)))
    (hf : bs.flatten.length + 3 * bs.length + 2 ≤ opFuel i)
    (hv : ∀ t : State, t.okValue a i = none)
    (hok : AnswersOk s bs.flatten.length) :
    s.submit a i = s.afterRun (.issue (.actuator a) i :: (okWrites a bs.flatten ++ [.done (.actuator a) i (.ok none)]))
      bs.flatten.length := by
  obtain ⟨n, hn⟩ : ∃ n, opFuel i = (n + 1 + (bs.flatten.length + 3 * bs.length)) + 1 :=
    ⟨opFuel i - 2 - (bs.flatten.length + 3 * bs.length), by omega⟩
  rw [submit_ofActs h a i hp hn,
    settle_blocks bs ((h.alone a).afterRun _ _) hb h.lock_free (AnswersOk.afterRun (m := 0) (by simpa using hok) _),
    settle_finish (((h.alone a).afterRun _ _).afterRun _ _) hb, endTask_launch ((h.afterRun _ _).afterRun _ _), hv,
    settle_launch (((h.afterRun _ _).afterRun _ _).afterRun _ _), afterRun_afterRun, afterRun_afterRun]
  simp

/-- The same operation when its write numbered `j` fails (spec 60 R264). -/
theorem submit_blocks_fail {s : State} (h : Launch s) (hb : s.bus = .open) (a : Actuator) (i : Instr)
    (bs : List (List (Byte × Byte)))
    (hp : plan s.cfg i = .ok (.ofActs (bs.flatMap lockedActs)))
    (hf : bs.flatten.length + 3 * bs.length + 2 ≤ opFuel i)
    (ha : ∀ k, a ≠ .stepper k) (j : Nat) (hj : j < bs.flatten.length)
    (hok : AnswersOk s j) (hbad : s.answerAt j = .busError) :
    s.submit a i = s.afterRun (.issue (.actuator a) i :: (failedWrites a bs.flatten j ++
      [.done (.actuator a) i (.busError i (some ⟨bs.flatten[j].1, some bs.flatten[j].2⟩) none)])) (j + 1) := by
  obtain ⟨n, hn⟩ : ∃ n, opFuel i = (n + (bs.flatten.length + 3 * bs.length)) + 1 :=
    ⟨opFuel i - 1 - (bs.flatten.length + 3 * bs.length), by omega⟩
  obtain ⟨k, todo, s', hk, hs', hset⟩ := settle_blocks_fail (n := n) (a := a) (op := i) (g := .actuator a) (rest := []) (m := 0) (c := 0)
    bs (s := s.afterRun [.issue (.actuator a) i] 0) j hj ((h.alone a).afterRun _ _) hb h.lock_free
    (AnswersOk.afterRun (m := 0) (by simpa using hok) _) (by rw [answerAt_afterRun]; simpa using hbad)
  have hpr : ∀ (t : State) (u : Task), t.progress a u = none := fun t u => by
    cases a with
    | controller => rfl
    | dc m => rfl
    | stepper k => exact absurd rfl (ha k)
  rw [submit_ofActs h a i hp hn, hset, hs', State.raiseBusError, endTask_locked ((h.afterRun _ _).afterRun _ _),
    settle_launch (((h.afterRun _ _).afterRun _ _).afterRun _ _), afterRun_afterRun, afterRun_afterRun, hpr]
  simp

/-- A command that fails its checks on a block at rest (spec 60 R260): no transaction. -/
theorem submit_error {s : State} (h : Launch s) (a : Actuator) (i : Instr) {e : Cause} (hp : plan s.cfg i = .error e) :
    s.submit a i = s.afterRun [.issue (.actuator a) i, .done (.actuator a) i (.configurationError i e)] 0 := by
  obtain ⟨n, hn⟩ : ∃ n, opFuel i = n + 1 := by cases i <;> exact ⟨_, rfl⟩
  rw [submit_launch h, hn, log_eq_afterRun _ _ (fun _ => rfl), settle_start ((h.alone a).afterRun _ _) (by simp [h.worker_idle a])]
  have : plan (s.afterRun [.issue (.actuator a) i] 0).cfg i = .error e := hp
  rw [this]
  simp only
  rw [afterRun_log _ _ _ _ (fun _ => rfl), settle_launch (h.afterRun _ _)]
  rfl

/-- An operation that passes its checks while the bus handle is Failed ends BusError with no transaction (spec 10 R45). -/
theorem submit_failed {s : State} (h : Launch s) (hb : s.bus = .failed) (a : Actuator) (i : Instr) {acts : List Act}
    (hp : plan s.cfg i = .ok (.ofActs (.checkBus :: acts))) (hf : 2 ≤ opFuel i) (ha : ∀ k, a ≠ .stepper k) :
    s.submit a i = s.afterRun [.issue (.actuator a) i, .done (.actuator a) i (.busError i none none)] 0 := by
  obtain ⟨n, hn⟩ : ∃ n, opFuel i = n + 1 + 1 := ⟨opFuel i - 2, by omega⟩
  have hpr : ∀ (t : State) (u : Task), t.progress a u = none := fun t u => by
    cases a with
    | controller => rfl
    | dc m => rfl
    | stepper k => exact absurd rfl (ha k)
  rw [submit_ofActs h a i hp hn, settle_task ((h.alone a).afterRun _ _) _ (by simp [Task.wantsLock])]
  have hb' : ((s.afterRun [.issue (.actuator a) i] 0).setTask a
      (some ⟨i, .actuator a, .checkBus :: (acts ++ []), 0, 0⟩)).bus = .failed := by rw [← hb]; cases a <;> rfl
  simp only [State.runAct, List.cons_append]
  rw [if_pos hb', State.raiseBusError, endTask_launch (h.afterRun _ _),
    settle_launch ((h.afterRun _ _).afterRun _ _), afterRun_afterRun, hpr]
  rfl

end Sys2Proof.Machine
end

