-- ==== Sys2Proof/Laws/PerInstr.lean ====
section
/-! SUPPORT. A statement about every operation as syntax: its record has the selector and the operand fields that spec 30 R91
gives it. One lemma per constructor. -/

namespace Sys2Proof.Laws.SelectorTable

open Sys2Proof

/-- The operand has the kind of the field. -/
def fits : FieldKind → Operand → Bool
  | .int, .int _ => true
  | .nat, .nat _ => true
  | .f64, .f64 _ => true
  | .optF64, .f64 _ => true
  | .optF64, .absent => true
  | _, _ => false

/-- The operands fit the fields, one by one. -/
def fitsAll : List FieldKind → List Operand → Bool
  | [], [] => true
  | k :: ks, x :: xs => fits k x && fitsAll ks xs
  | _, _ => false

/-- The record of an operation has an assigned selector and the operand fields of that selector (spec 30 R91, R92). -/
def Statement (i : Instr) : Prop :=
  (encode i).sel ∈ assignedSelectors ∧ ∃ ks, signature (encode i).sel = some ks ∧ fitsAll ks (encode i).args = true

theorem init : Statement .init := ⟨by simp [encode, assignedSelectors], _, rfl, rfl⟩

theorem setch (ch on off : Int) : Statement (.setch ch on off) := ⟨by simp [encode, assignedSelectors], _, rfl, rfl⟩

theorem setall (on off : Int) : Statement (.setall on off) := ⟨by simp [encode, assignedSelectors], _, rfl, rfl⟩

theorem setfreq (freq : F64) : Statement (.setfreq freq) := ⟨by simp [encode, assignedSelectors], _, rfl, rfl⟩

theorem setpin (pin val : Int) : Statement (.setpin pin val) := ⟨by simp [encode, assignedSelectors], _, rfl, rfl⟩

theorem dcrun (m cmd : Int) : Statement (.dcrun m cmd) := ⟨by simp [encode, assignedSelectors], _, rfl, rfl⟩

theorem dcspeed (m speed : Int) : Statement (.dcspeed m speed) := ⟨by simp [encode, assignedSelectors], _, rfl, rfl⟩

theorem rundc (m cmd speed : Int) (rt : Option F64) : Statement (.rundc m cmd speed rt) :=
  ⟨by simp [encode, assignedSelectors], _, rfl, by cases rt <;> rfl⟩

theorem stspeed (s rpm : Int) : Statement (.stspeed s rpm) := ⟨by simp [encode, assignedSelectors], _, rfl, rfl⟩

theorem onestep (s cmd style : Int) : Statement (.onestep s cmd style) := ⟨by simp [encode, assignedSelectors], _, rfl, rfl⟩

theorem step (s : Int) (n : Nat) (cmd style : Int) : Statement (.step s n cmd style) := ⟨by simp [encode, assignedSelectors], _, rfl, rfl⟩

theorem runst (s : Int) (n : Nat) (cmd speed style : Int) : Statement (.runst s n cmd speed style) := ⟨by simp [encode, assignedSelectors], _, rfl, rfl⟩

end Sys2Proof.Laws.SelectorTable
end

