-- ==== Sys2Proof/Laws/Tasks.lean ====
section
/-! SUPPORT. What every move does to the agents' queues and tasks and to the lock. -/

namespace Sys2Proof.Machine

/-! ### Updates that leave the agents alone -/

theorem State.worker_setStepper_of {s : State} {k : Fin 2} {x : Stepper} (h : x.work = (s.stepper k).work) (b : Actuator) :
    (s.setStepper k x).worker b = s.worker b := by
  cases b with
  | controller => rfl
  | dc m => rfl
  | stepper j =>
    simp only [State.worker, State.stepper_setStepper]
    split
    · next e => rw [h, e]
    · rfl

@[simp] theorem State.worker_setSeq (s : State) (k : Fin 2) (q : Seq) (b : Actuator) : (s.setSeq k q).worker b = s.worker b :=
  by
  exact State.worker_setStepper_of (by rfl) b

@[simp] theorem State.worker_moveStepper (s : State) (k : Fin 2) (d : Direction) (y : StepStyle) (b : Actuator) :
    (s.moveStepper k d y).worker b = s.worker b := by
  exact State.worker_setStepper_of (by rfl) b

@[simp] theorem State.worker_setSpeed (s : State) (k : Fin 2) (rpm : Nat) (b : Actuator) :
    (s.setSpeed k rpm).worker b = s.worker b := by
  exact State.worker_setStepper_of (by rfl) b

@[simp] theorem State.worker_setPending (s : State) (m : Fin 4) (p : Option F64) (b : Actuator) :
    (s.setPending m p).worker b = s.worker b := by
  cases b with
  | controller => rfl
  | stepper k => rfl
  | dc j =>
    simp only [State.worker, State.setPending, State.motor_setMotor]
    split
    · next e => rw [e]
    · rfl

@[simp] theorem State.worker_endSeq (s : State) (a b : Actuator) : (s.endSeq a).worker b = s.worker b := by
  cases a <;> simp [State.endSeq]

@[simp] theorem State.worker_seqTest (s : State) (k : Fin 2) (b : Actuator) : (s.seqTest k).1.worker b = s.worker b := by
  unfold State.seqTest State.seqNext
  repeat' split
  all_goals simp

@[simp] theorem State.worker_seqCount (s : State) (k : Fin 2) (b : Actuator) : (s.seqCount k).worker b = s.worker b := by
  unfold State.seqCount
  repeat' split
  all_goals simp

@[simp] theorem State.lock_seqTest (s : State) (k : Fin 2) : (s.seqTest k).1.lock = s.lock := by
  unfold State.seqTest State.seqNext
  repeat' split
  all_goals simp

@[simp] theorem State.lock_seqCount (s : State) (k : Fin 2) : (s.seqCount k).lock = s.lock := by
  unfold State.seqCount
  repeat' split
  all_goals simp

@[simp] theorem State.lock_moveStepper (s : State) (k : Fin 2) (d : Direction) (y : StepStyle) :
    (s.moveStepper k d y).lock = s.lock := rfl

@[simp] theorem State.lock_setSpeed (s : State) (k : Fin 2) (rpm : Nat) : (s.setSpeed k rpm).lock = s.lock := rfl

/-! ### Updates of one agent -/

theorem State.worker_setTask (s : State) (a b : Actuator) (t : Option Task) :
    (s.setTask a t).worker b = if a = b then { s.worker a with task := t } else s.worker b := by
  simp only [State.setTask, State.worker_setWorker]

theorem State.worker_setQueue (s : State) (a b : Actuator) (q : List Instr) :
    (s.setQueue a q).worker b = if a = b then { s.worker a with queue := q } else s.worker b := by
  simp only [State.setQueue, State.worker_setWorker]

/-! ### One action -/

/-- The lock after an action that the operation survives. -/
def lockAfter (a : Actuator) (l : Lock) : Act → Lock
  | .acquire => .held a
  | .release => if l = .held a then .free else l
  | _ => l

/-- What stands in front of the program after an action. -/
def unfoldsTo (s : State) : Act → List Act
  | .oneStep k d y => outputActs s.cfg k (nextPos s.cfg.correctionMode (s.stepper k).pos y d) y d
  | .seqTest k => (s.seqTest k).2
  | _ => []

/-- WHAT ONE ACTION DOES to the agents and the lock: it waits for the lock; or ends the operation, with the lock released
if the agent held it; or goes on with the rest of the program. -/
theorem runAct_cases (s : State) (a : Actuator) (t : Task) (act : Act) (rest : List Act) :
    (act = .acquire ∧ s.lock ≠ .free ∧ s.runAct a t act rest = s) ∨
    ((∀ b, (s.runAct a t act rest).worker b = if a = b then { s.worker a with task := none } else s.worker b) ∧
      (s.runAct a t act rest).lock = if s.lock = .held a then .free else s.lock) ∨
    (∃ u : Task, u.todo = unfoldsTo s act ++ rest ∧ u.op = t.op ∧ u.by_ = t.by_ ∧
      (∀ b, (s.runAct a t act rest).worker b = if a = b then { s.worker a with task := some u } else s.worker b) ∧
      (s.runAct a t act rest).lock = lockAfter a s.lock act ∧ (act = .acquire → s.lock = .free)) := by
  have wr : ∀ r v, (∀ w, lockAfter a s.lock act = w → w = s.lock) → unfoldsTo s act = [] → act ≠ .acquire →
      s.runAct a t act rest = s.tryWrite a t r v rest →
      ((∀ b, (s.runAct a t act rest).worker b = if a = b then { s.worker a with task := none } else s.worker b) ∧
        (s.runAct a t act rest).lock = if s.lock = .held a then .free else s.lock) ∨
      (∃ u : Task, u.todo = unfoldsTo s act ++ rest ∧ u.op = t.op ∧ u.by_ = t.by_ ∧
        (∀ b, (s.runAct a t act rest).worker b = if a = b then { s.worker a with task := some u } else s.worker b) ∧
        (s.runAct a t act rest).lock = lockAfter a s.lock act ∧ (act = .acquire → s.lock = .free)) := by
    intro r v hl hu ha he
    rw [he]
    unfold State.tryWrite
    split
    · refine .inr ⟨{ t with todo := rest }, by simp [hu], rfl, rfl, fun b => by simp [State.goOn, State.worker_setTask], ?_,
        fun h => absurd h ha⟩
      rw [hl _ rfl]; simp
    · exact .inl ⟨fun b => by simp [State.raiseBusError, State.endTask, State.worker_setTask], by simp; rfl⟩
  cases act with
  | checkBus =>
    simp only [State.runAct]
    split
    · exact .inr (.inl ⟨fun b => by simp [State.raiseBusError, State.endTask, State.worker_setTask], by simp⟩)
    · exact .inr (.inr ⟨{ t with todo := rest }, rfl, rfl, rfl, fun b => by simp [State.goOn, State.worker_setTask], by simp [lockAfter],
        fun h => absurd h (by simp)⟩)
  | acquire =>
    simp only [State.runAct]
    split
    · next hf => exact .inr (.inr ⟨{ t with todo := rest }, rfl, rfl, rfl, fun b => by simp [State.goOn, State.worker_setTask],
        by simp [lockAfter], fun _ => hf⟩)
    · next hf => exact .inl ⟨trivial, hf, rfl⟩
  | release => exact .inr (.inr ⟨{ t with todo := rest }, rfl, rfl, rfl, fun b => by simp [State.runAct, State.goOn, State.worker_setTask],
      by simp [State.runAct, lockAfter], fun h => absurd h (by simp)⟩)
  | write r v => exact .inr (wr r v (fun w h => by rw [← h]; rfl) rfl (by simp) rfl)
  | writeMode1 w => exact .inr (wr _ _ (fun w h => by rw [← h]; rfl) rfl (by simp) rfl)
  | readMode1 =>
    simp only [State.runAct]
    unfold State.tryReadMode1
    split
    · next b _ => exact .inr (.inr ⟨{ t with latch := b, todo := rest }, rfl, rfl, rfl, fun b => by simp [State.goOn, State.worker_setTask],
        by simp [lockAfter], fun h => absurd h (by simp)⟩)
    · exact .inr (.inl ⟨fun b => by simp [State.raiseBusError, State.endTask, State.worker_setTask], by simp; rfl⟩)
  | wait q => exact .inr (.inr ⟨{ t with todo := rest }, rfl, rfl, rfl, fun b => by simp [State.runAct, State.goOn, State.worker_setTask],
      by simp [State.runAct, lockAfter], fun h => absurd h (by simp)⟩)
  | arm m d => exact .inr (.inr ⟨{ t with todo := rest }, rfl, rfl, rfl, fun b => by simp [State.runAct, State.goOn, State.worker_setTask],
      by simp [State.runAct, lockAfter], fun h => absurd h (by simp)⟩)
  | oneStep k d y => exact .inr (.inr ⟨{ t with todo := unfoldsTo s (.oneStep k d y) ++ rest }, rfl, rfl, rfl,
      fun b => by simp [State.runAct, State.goOn, State.worker_setTask, unfoldsTo],
      by simp [State.runAct, lockAfter], fun h => absurd h (by simp)⟩)
  | seqTest k => exact .inr (.inr ⟨{ t with todo := unfoldsTo s (.seqTest k) ++ rest }, rfl, rfl, rfl,
      fun b => by simp [State.runAct, State.goOn, State.worker_setTask, unfoldsTo],
      by simp [State.runAct, lockAfter], fun h => absurd h (by simp)⟩)
  | seqCount k => exact .inr (.inr ⟨{ t with steps := t.steps + 1, todo := rest }, rfl, rfl, rfl,
      fun b => by simp [State.runAct, State.goOn, State.worker_setTask],
      by simp [State.runAct, lockAfter], fun h => absurd h (by simp)⟩)
  | seqWait k =>
    simp only [State.runAct, State.seqWait]
    split
    · exact .inr (.inl ⟨fun b => by simp [State.endTask, State.worker_setTask], by simp; rfl⟩)
    · split
      · exact .inr (.inr ⟨{ t with todo := rest }, rfl, rfl, rfl, fun b => by simp [State.goOn, State.worker_setTask], by simp [lockAfter],
          fun h => absurd h (by simp)⟩)
      · exact .inr (.inr ⟨{ t with todo := rest }, rfl, rfl, rfl, fun b => by simp [State.goOn, State.worker_setTask], by simp [lockAfter],
          fun h => absurd h (by simp)⟩)

end Sys2Proof.Machine
end

