-- ==== Sys2Proof/Laws/Programs.lean ====
section
/-! SUPPORT. The programs of all operations: their transactions are bracketed by the lock and legal, and their sequencer
actions are their agent's own. -/

namespace Sys2Proof.Machine

/-- What every program of agent `a` has: bracketed by the lock from outside, legal writes (given a prescale range), own actions, and no wait's end
in it (a wait's end comes from a loop's test alone). -/
def GoodProgram (cfg : Config) (a : Actuator) (acts : List Act) : Prop :=
  bracketed false acts = true ∧
    ∀ act ∈ acts, (cfg.prescaleMin.toNat ≤ cfg.prescaleMax.toNat → Act.legal cfg act = true) ∧ Act.ownedBy a act = true ∧ ∀ k, act ≠ .seqWait k

theorem bracketed_append (u v : List Act) : ∀ b, bracketed b u = true → bracketed false v = true → bracketed b (u ++ v) = true := by
  induction u with
  | nil => intro b hu hv; cases b <;> simp_all [bracketed]
  | cons act u ih =>
    intro b hu hv
    cases act <;> cases b <;> simp_all [bracketed]

theorem GoodProgram.nil (cfg : Config) (a : Actuator) : GoodProgram cfg a [] := ⟨rfl, by simp⟩

theorem GoodProgram.append {cfg : Config} {a : Actuator} {u v : List Act} (hu : GoodProgram cfg a u) (hv : GoodProgram cfg a v) :
    GoodProgram cfg a (u ++ v) :=
  ⟨bracketed_append u v _ hu.1 hv.1, fun act h => (List.mem_append.mp h).elim (hu.2 act) (hv.2 act)⟩

theorem clampTick_le (v : Int) : clampTick v ≤ 4096 := by
  unfold clampTick clamp tickMax; omega

theorem clampSpeed_le (v : Int) : clampSpeed v ≤ 255 := by
  unfold clampSpeed clamp speedMax; omega

/-- A channel or alias register takes any low byte and a high byte up to 0x10. -/
theorem legalWrite_channel (cfg : Config) (reg value : Byte)
    (hr : 6 ≤ reg.toNat ∧ reg.toNat ≤ 0x45 ∨ 0xFA ≤ reg.toNat ∧ reg.toNat ≤ 0xFD)
    (hv : reg.toNat % 2 = 0 ∨ value.toNat ≤ 0x10) : legalWrite cfg reg value = true := by
  unfold legalWrite
  simp only
  rw [if_neg (by omega), if_neg (by omega), if_neg (by omega), if_pos (by simp; omega)]
  simpa using hv

/-- The bytes of a tick pair are legal at the channel and alias registers. -/
theorem tickWrites_legal (cfg : Config) (base : Byte) (on off : Nat)
    (hb : (∃ c : Chan, base = chanBase c) ∨ base = regAllLed) (h1 : on ≤ 4096) (h2 : off ≤ 4096) :
    ∀ act ∈ tickWrites base on off, Act.legal cfg act = true := by
  have hi : ∀ t, t ≤ 4096 → (tickHigh t).toNat ≤ 16 := fun t ht => by
    simp [tickHigh]; omega
  have hbn : base.toNat = 0xFA ∨ ∃ c : Chan, base.toNat = 6 + 4 * c.val := by
    rcases hb with ⟨c, rfl⟩ | rfl
    · exact .inr ⟨c, chanBase_toNat c⟩
    · exact .inl rfl
  intro act h
  simp only [tickWrites, List.mem_cons, List.not_mem_nil, or_false] at h
  have e : ∀ j : Nat, j ≤ 3 → (base + BitVec.ofNat 8 j).toNat = base.toNat + j := fun j hj => by
    rw [BitVec.toNat_add, BitVec.toNat_ofNat]
    rcases hbn with hb' | ⟨c, hc⟩
    · rw [hb']; omega
    · rw [hc]; have := c.isLt; omega
  have e1 : (base + 1).toNat = base.toNat + 1 := e 1 (by omega)
  have e2 : (base + 2).toNat = base.toNat + 2 := e 2 (by omega)
  have e3 : (base + 3).toNat = base.toNat + 3 := e 3 (by omega)
  have a1 := hi on h1
  have a2 := hi off h2
  rcases h with rfl | rfl | rfl | rfl
  all_goals
    simp only [Act.legal]
    apply legalWrite_channel <;> rcases hbn with hb' | ⟨c, hc⟩
  all_goals omega

theorem good_setch (cfg : Config) (a : Actuator) (c : Chan) (on off : Nat) (h1 : on ≤ 4096) (h2 : off ≤ 4096) :
    GoodProgram cfg a (setchActs c on off) := by
  refine ⟨rfl, fun act h => ?_⟩
  simp only [setchActs, List.mem_cons, List.mem_append, List.not_mem_nil, or_false] at h
  rcases h with rfl | rfl | h | rfl
  · simp [Act.legal, Act.ownedBy]
  · simp [Act.legal, Act.ownedBy]
  · refine ⟨fun _ => tickWrites_legal cfg _ on off (.inl ⟨c, rfl⟩) h1 h2 act h, ?_⟩
    simp only [tickWrites, List.mem_cons, List.not_mem_nil, or_false] at h
    rcases h with rfl | rfl | rfl | rfl <;> simp [Act.ownedBy]
  · simp [Act.legal, Act.ownedBy]

theorem good_setpin (cfg : Config) (a : Actuator) (c : Chan) (b : Bool) : GoodProgram cfg a (setpinActs c b) := by
  cases b <;> exact good_setch cfg a c _ _ (by decide) (by decide)

theorem good_dcRun (cfg : Config) (a : Actuator) (t : Triple) (c : Command) : GoodProgram cfg a (dcRunActs t c) := by
  cases c with
  | forward => exact (good_setpin _ _ _ _).append (good_setpin _ _ _ _)
  | backward => exact (good_setpin _ _ _ _).append (good_setpin _ _ _ _)
  | release => exact (good_setpin _ _ _ _).append (good_setpin _ _ _ _)
  | brake => exact GoodProgram.nil _ _

theorem good_dcSpeed (cfg : Config) (a : Actuator) (t : Triple) (v : Int) : GoodProgram cfg a (dcSpeedActs t v) :=
  good_setch _ _ _ _ _ (by omega) (by have := clampSpeed_le v; unfold dutyTick dutyScale; omega)

theorem good_arm (cfg : Config) (a : Actuator) (m : Fin 4) (t : Option F64) : GoodProgram cfg a (armActs m t) := by
  cases t with
  | none => exact GoodProgram.nil _ _
  | some t => exact ⟨rfl, by simp [armActs, Act.legal, Act.ownedBy]⟩

/-- The duty pair of a oneStep is in 0..255 (spec 42 R216). -/
theorem dutyPair_le (z : MicroBackZero) (p : Fin 32) (y : StepStyle) (d : Direction) :
    (dutyPair z p y d).1 ≤ 255 ∧ (dutyPair z p y d).2 ≤ 255 := by
  have hc : ∀ q : Fin 32, (curvePair q).1 ≤ 255 ∧ (curvePair q).2 ≤ 255 := by decide
  cases y with
  | single => exact ⟨by simp [dutyPair, fullDuty], by simp [dutyPair, fullDuty]⟩
  | double => exact ⟨by simp [dutyPair, fullDuty], by simp [dutyPair, fullDuty]⟩
  | interleave => exact ⟨by simp [dutyPair, fullDuty], by simp [dutyPair, fullDuty]⟩
  | microstep =>
    unfold dutyPair
    simp only
    split
    · exact ⟨by simp, by simp⟩
    · exact hc p

theorem good_output (cfg : Config) (a : Actuator) (k : Fin 2) (p : Fin 32) (y : StepStyle) (d : Direction) :
    GoodProgram cfg a (outputActs cfg k p y d) := by
  have h := dutyPair_le cfg.microBackZero p y d
  refine (good_setch _ _ _ _ _ (by omega) (by unfold dutyTick dutyScale; omega)).append
    ((good_setch _ _ _ _ _ (by omega) (by unfold dutyTick dutyScale; omega)).append ?_)
  exact (good_setpin _ _ _ _).append ((good_setpin _ _ _ _).append ((good_setpin _ _ _ _).append (good_setpin _ _ _ _)))

/-- The PRESCALE byte is in the range (spec 40 R140). -/
theorem roundAndClamp_range (cfg : Config) (h : cfg.prescaleMin.toNat ≤ cfg.prescaleMax.toNat) (x : Real64) :
    cfg.prescaleMin.toNat ≤ (roundAndClamp cfg x).toNat ∧ (roundAndClamp cfg x).toNat ≤ cfg.prescaleMax.toNat := by
  have hm := cfg.prescaleMax.isLt
  have key : ∀ z : Int, (cfg.prescaleMin.toNat : Int) ≤ z → z ≤ (cfg.prescaleMax.toNat : Int) →
      cfg.prescaleMin.toNat ≤ (BitVec.ofInt 8 z).toNat ∧ (BitVec.ofInt 8 z).toNat ≤ cfg.prescaleMax.toNat := by
    intro z h1 h2
    rw [BitVec.toNat_ofInt]
    omega
  unfold roundAndClamp
  split
  · apply key <;> unfold clamp <;> omega
  · exact ⟨h, Nat.le_refl _⟩
  · apply key <;> omega

theorem legalWrite_mode1 (cfg : Config) (v : Byte) : legalWrite cfg regMode1 v = true := rfl

/-- What a checked operation does as it starts: a stepper command starts its sequence, the others change nothing. -/
def PlanStarts (a : Actuator) (p : Plan) : Prop :=
  match p.setup with
  | .nothing => ∀ k, a ≠ .stepper k
  | .one k d y => a = .stepper k ∧ p.todo = [.oneStep k d y]
  | .seq k _ _ _ => a = .stepper k ∧ p.todo = [.seqTest k]
  | .speedSeq k _ _ _ rpm => a = .stepper k ∧ p.todo = [.seqTest k] ∧ 1 ≤ rpm

theorem need_ok {α : Type} {x : Option α} {c : Cause} {v : α} (h : need x c = .ok v) : x = some v := by
  cases x with
  | none => exact absurd h (by simp [need])
  | some w => simp [need] at h; rw [h]

/-- EVERY OPERATION THAT PASSES ITS CHECKS has a good program and the start of its kind. -/
theorem plan_good {cfg : Config} {i : Instr} {a : Actuator} {p : Plan} (h : plan cfg i = .ok p) (ha : opTarget i = some a)
    (hq : queueable i = true) :
    GoodProgram cfg a p.todo ∧ PlanStarts a p := by
  have ns : ∀ k : Fin 2, Actuator.controller ≠ .stepper k := fun k => by simp
  have nd : ∀ (m : Fin 4) (k : Fin 2), Actuator.dc m ≠ .stepper k := fun m k => by simp
  have mp : ∀ {x : Except Cause (List Act)}, x.map Plan.ofActs = .ok p → ∃ acts, x = .ok acts ∧ p = Plan.ofActs acts := by
    intro x hx
    cases x with
    | error e => exact absurd hx (by simp [Except.map])
    | ok acts => exact ⟨acts, rfl, by simpa [Except.map] using hx.symm⟩
  cases i with
  | init =>
    obtain rfl : Actuator.controller = a := by simpa [opTarget] using ha
    obtain ⟨acts, h1, rfl⟩ := mp (x := planInit cfg) h
    injection h1 with h1
    subst h1
    refine ⟨⟨rfl, fun act hm => ?_⟩, ns⟩
    simp only [Plan.ofActs, List.mem_cons, List.mem_append, List.not_mem_nil, or_false] at hm
    rcases hm with rfl | rfl | hm | rfl | rfl | rfl | rfl | rfl | rfl | rfl
    case inr.inr.inl =>
      refine ⟨fun _ => tickWrites_legal cfg _ _ _ (.inr rfl) (clampTick_le _) (clampTick_le _) act hm, ?_⟩
      simp only [setallWrites, tickWrites, List.mem_cons, List.not_mem_nil, or_false] at hm
      rcases hm with rfl | rfl | rfl | rfl <;> simp [Act.ownedBy]
    all_goals simp [Act.legal, Act.ownedBy, legalWrite, regMode1, regMode2, bitOutdrv, bitAllcall]
  | setch ch on off =>
    obtain rfl : Actuator.controller = a := by simpa [opTarget] using ha
    obtain ⟨acts, h1, rfl⟩ := mp h
    unfold planSetch at h1
    cases hc : need (chan? ch) .channel with
    | error e => rw [hc] at h1; exact absurd h1 (by simp [bind, Except.bind])
    | ok c =>
      rw [hc] at h1
      obtain rfl : _ = acts := by simpa [bind, Except.bind] using h1
      exact ⟨good_setch _ _ _ _ _ (clampTick_le _) (clampTick_le _), ns⟩
  | setall on off =>
    obtain rfl : Actuator.controller = a := by simpa [opTarget] using ha
    obtain ⟨acts, h1, rfl⟩ := mp (x := planSetall on off) h
    injection h1 with h1
    subst h1
    refine ⟨⟨rfl, fun act hm => ?_⟩, ns⟩
    simp only [Plan.ofActs, List.mem_cons, List.mem_append, List.not_mem_nil, or_false] at hm
    rcases hm with rfl | rfl | hm | rfl
    case inr.inr.inl =>
      refine ⟨fun _ => tickWrites_legal cfg _ _ _ (.inr rfl) (clampTick_le _) (clampTick_le _) act hm, ?_⟩
      simp only [setallWrites, tickWrites, List.mem_cons, List.not_mem_nil, or_false] at hm
      rcases hm with rfl | rfl | rfl | rfl <;> simp [Act.ownedBy]
    all_goals simp [Act.legal, Act.ownedBy]
  | setfreq f =>
    obtain rfl : Actuator.controller = a := by simpa [opTarget] using ha
    obtain ⟨acts, h1, rfl⟩ := mp h
    unfold planSetfreq at h1
    cases hc : needFrequency f with
    | error e => rw [hc] at h1; exact absurd h1 (by simp [bind, Except.bind])
    | ok q =>
      rw [hc] at h1
      obtain rfl : _ = acts := by simpa [bind, Except.bind] using h1
      refine ⟨⟨rfl, fun act hm => ?_⟩, ns⟩
      simp only [Plan.ofActs, List.mem_cons, List.not_mem_nil, or_false] at hm
      rcases hm with rfl | rfl | rfl | rfl | rfl | rfl | rfl | rfl | rfl
      case inr.inr.inr.inr.inl =>
        refine ⟨fun hr => ?_, by simp [Act.ownedBy], by simp⟩
        have hp := roundAndClamp_range cfg hr (prescaleX q)
        simp [Act.legal, legalWrite, regPrescale, prescale, hp]
      all_goals simp [Act.legal, Act.ownedBy]
  | setpin pin val =>
    obtain rfl : Actuator.controller = a := by simpa [opTarget] using ha
    obtain ⟨acts, h1, rfl⟩ := mp h
    unfold planSetpin at h1
    cases hc : need (chan? pin) .pin with
    | error e => rw [hc] at h1; exact absurd h1 (by simp [bind, Except.bind])
    | ok c =>
      rw [hc] at h1
      cases hv : needPinValue val with
      | error e => rw [hv] at h1; exact absurd h1 (by simp [bind, Except.bind])
      | ok v =>
        rw [hv] at h1
        obtain rfl : _ = acts := by simpa [bind, Except.bind] using h1
        exact ⟨good_setpin _ _ _ _, ns⟩
  | dcrun m cmd =>
    obtain ⟨acts, h1, rfl⟩ := mp h
    obtain ⟨k, -, rfl⟩ : ∃ k, dcIndex? m = some k ∧ Actuator.dc k = a := by simpa [opTarget] using ha
    unfold planDcrun at h1
    cases hc : need (dcIndex? m) .dcIndex with
    | error e => rw [hc] at h1; exact absurd h1 (by simp [bind, Except.bind])
    | ok c =>
      rw [hc] at h1
      cases hv : needCommand cmd with
      | error e => rw [hv] at h1; exact absurd h1 (by simp [bind, Except.bind])
      | ok v =>
        rw [hv] at h1
        obtain rfl : _ = acts := by simpa [bind, Except.bind] using h1
        exact ⟨good_dcRun _ _ _ _, nd _⟩
  | dcspeed m sp =>
    obtain ⟨acts, h1, rfl⟩ := mp h
    obtain ⟨k, -, rfl⟩ : ∃ k, dcIndex? m = some k ∧ Actuator.dc k = a := by simpa [opTarget] using ha
    unfold planDcspeed at h1
    cases hc : need (dcIndex? m) .dcIndex with
    | error e => rw [hc] at h1; exact absurd h1 (by simp [bind, Except.bind])
    | ok c =>
      rw [hc] at h1
      obtain rfl : _ = acts := by simpa [bind, Except.bind] using h1
      exact ⟨good_dcSpeed _ _ _ _, nd _⟩
  | rundc m cmd sp rt =>
    obtain ⟨acts, h1, rfl⟩ := mp h
    obtain ⟨k, -, rfl⟩ : ∃ k, dcIndex? m = some k ∧ Actuator.dc k = a := by simpa [opTarget] using ha
    unfold planRundc at h1
    cases hc : need (dcIndex? m) .dcIndex with
    | error e => rw [hc] at h1; exact absurd h1 (by simp [bind, Except.bind])
    | ok c =>
      rw [hc] at h1
      cases hv : needCommand cmd with
      | error e => rw [hv] at h1; exact absurd h1 (by simp [bind, Except.bind])
      | ok v =>
        rw [hv] at h1
        cases ht : needRuntime rt with
        | error e => rw [ht] at h1; exact absurd h1 (by simp [bind, Except.bind])
        | ok t =>
          rw [ht] at h1
          obtain rfl : _ = acts := by simpa [bind, Except.bind] using h1
          exact ⟨(good_dcRun _ _ _ _).append ((good_dcSpeed _ _ _ _).append (good_arm _ _ _ _)), nd _⟩
  | stspeed k rpm => exact absurd hq (by simp [queueable])
  | onestep k cmd y =>
    obtain ⟨j, hj, rfl⟩ : ∃ j, stepperIndex? k = some j ∧ Actuator.stepper j = a := by simpa [opTarget] using ha
    simp only [plan, planOnestep, hj, need] at h
    cases hd : needDirection cmd with
    | error e => rw [hd] at h; exact absurd h (by simp [bind, Except.bind])
    | ok d =>
      cases hy : needStyle y with
      | error e => rw [hd, hy] at h; exact absurd h (by simp [bind, Except.bind])
      | ok st =>
        rw [hd, hy] at h
        obtain rfl : _ = p := by simpa [bind, Except.bind] using h
        exact ⟨⟨rfl, by simp [Act.legal, Act.ownedBy]⟩, rfl, rfl⟩
  | step k n cmd y =>
    obtain ⟨j, hj, rfl⟩ : ∃ j, stepperIndex? k = some j ∧ Actuator.stepper j = a := by simpa [opTarget] using ha
    simp only [plan, planStep, hj, need] at h
    cases hd : needDirection cmd with
    | error e => rw [hd] at h; exact absurd h (by simp [bind, Except.bind])
    | ok d =>
      cases hy : needStyle y with
      | error e => rw [hd, hy] at h; exact absurd h (by simp [bind, Except.bind])
      | ok st =>
        rw [hd, hy] at h
        obtain rfl : _ = p := by simpa [bind, Except.bind] using h
        exact ⟨⟨rfl, by simp [Act.legal, Act.ownedBy]⟩, rfl, rfl⟩
  | runst k n cmd sp y =>
    obtain ⟨j, hj, rfl⟩ : ∃ j, stepperIndex? k = some j ∧ Actuator.stepper j = a := by simpa [opTarget] using ha
    simp only [plan, planRunst, hj, need] at h
    cases hd : needDirection cmd with
    | error e => rw [hd] at h; exact absurd h (by simp [bind, Except.bind])
    | ok d =>
      cases hy : needStyle y with
      | error e => rw [hd, hy] at h; exact absurd h (by simp [bind, Except.bind])
      | ok st =>
        cases hs : needStepperSpeed sp with
        | error e => rw [hd, hy, hs] at h; exact absurd h (by simp [bind, Except.bind])
        | ok r =>
          rw [hd, hy, hs] at h
          obtain rfl : _ = p := by simpa [bind, Except.bind] using h
          refine ⟨⟨rfl, by simp [Act.legal, Act.ownedBy]⟩, rfl, rfl, ?_⟩
          unfold needStepperSpeed at hs
          split at hs
          · exact absurd hs (by simp)
          · simp at hs; omega

end Sys2Proof.Machine
end

