-- ==== Sys2Proof/Laws/Ticks.lean ====
section
/-! SUPPORT. What one move of an agent does to all agents and to the lock, said once. -/

namespace Sys2Proof.Machine

/-- What an action puts in front of its program is a good program without a wait's end behind its first action. -/
theorem unfolds_good (s : State) (a act) (h : Act.ownedBy a act = true) : bracketed false (unfoldsTo s act) = true ∧ 
   (∀ x ∈ unfoldsTo s act, (s.cfg.prescaleMin.toNat ≤ s.cfg.prescaleMax.toNat → Act.legal s.cfg x = true) ∧ Act.ownedBy a x = true) ∧
   ((∀ k d y, act ≠ .oneStep k d y) → (∀ k, act ≠ .seqTest k) → unfoldsTo s act = []) ∧ (∀ k, Act.seqWait k ∉ (unfoldsTo s act).tail) := by
  cases act
  case oneStep k d y => 
    have := good_output s.cfg a k (nextPos s.cfg.correctionMode (s.stepper k).pos y d) y d
    exact ⟨this.1, fun x hx => ⟨(this.2 x hx).1, (this.2 x hx).2.1⟩, fun h => absurd rfl (h k d y), fun j hj => (this.2 _ (List.mem_of_mem_tail hj)).2.2 j rfl⟩
  case seqTest k => 
    simp only [Act.ownedBy, decide_eq_true_eq] at h
    subst h
    refine ⟨?_, ?_, fun _ h => absurd rfl (h k), ?_⟩
    all_goals
      simp only [unfoldsTo, State.seqTest, State.seqNext]
      repeat' split
      all_goals simp [invocation, bracketed, Act.legal, Act.ownedBy]
  all_goals exact ⟨rfl, by simp [unfoldsTo], fun _ _ => rfl, by simp [unfoldsTo]⟩

/-- The start of an operation, seen on the agents and the lock. -/
theorem begin_workers (s : State) (a : Actuator) (i : Instr) (p : Plan) :
   (∀ b, b ≠ a → (s.begin a i p).worker b = s.worker b) ∧ ((s.begin a i p).worker a).queue = (s.worker a).queue ∧
   ((((s.begin a i p).worker a).task = none ∧ (s.begin a i p).lock = (if s.lock = .held a then .free else s.lock)) ∨
    (((s.begin a i p).worker a).task = some (Task.fresh i (.actuator a) p.todo) ∧ (s.begin a i p).lock = s.lock)) := by
  unfold State.begin
  split
  · exact ⟨fun b hb => by simp [State.worker_setTask, Ne.symm hb], by simp [State.worker_setTask], .inr ⟨by simp [State.worker_setTask], by simp⟩⟩
  · exact ⟨fun b hb => by simp [State.worker_setTask, Ne.symm hb], by simp [State.worker_setTask], .inr ⟨by simp [State.worker_setTask], by simp⟩⟩
  · exact ⟨fun b hb => by simp [State.worker_setTask, Ne.symm hb], by simp [State.worker_setTask], .inr ⟨by simp [State.worker_setTask], by simp⟩⟩
  · split
    · exact ⟨fun b hb => by simp [State.raiseBusError, State.endTask, State.worker_setTask, Ne.symm hb], by simp [State.raiseBusError, State.endTask, State.worker_setTask], .inl ⟨by simp [State.raiseBusError, State.endTask, State.worker_setTask], by simp⟩⟩
    · exact ⟨fun b hb => by simp [State.worker_setTask, Ne.symm hb], by simp [State.worker_setTask], .inr ⟨by simp [State.worker_setTask], by simp⟩⟩

/-- EVERYTHING ONE MOVE DOES to the agents and the lock. -/
theorem tick_workers (s : State) (a : Actuator) (hq : TasksOwned s) :
  (∀ b, b ≠ a → (s.tick a).worker b = s.worker b) ∧ (∃ l, (s.worker a).queue = l ++ ((s.tick a).worker a).queue) ∧
  ( (((s.tick a).worker a).task = none ∧ ((s.tick a).lock = (if s.lock = .held a then .free else s.lock) ∨ (s.tick a).lock = s.lock ∧ (s.worker a).task = none)) ∨
    ((s.worker a).task = none ∧ (s.tick a).lock = s.lock ∧ ∃ p i, plan s.cfg i = .ok p ∧ GoodProgram s.cfg a p.todo ∧ PlanStarts a p ∧ ((s.tick a).worker a).task = some (Task.fresh i (.actuator a) p.todo)) ∨
    (∃ t act rest, (s.worker a).task = some t ∧ t.todo = act :: rest ∧ act = .acquire ∧ s.lock ≠ .free ∧ s.tick a = s) ∨
    (∃ t act rest u, (s.worker a).task = some t ∧ t.todo = act :: rest ∧ ((s.tick a).worker a).task = some u ∧ u.todo = unfoldsTo s act ++ rest ∧
       (s.tick a).lock = lockAfter a s.lock act ∧ (act = .acquire → s.lock = .free))) := by
  unfold State.tick
  split
  · next ht => 
    unfold State.startNext
    split
    · next hqu => exact ⟨fun _ _ => rfl, ⟨[], rfl⟩, .inl ⟨ht, .inr ⟨rfl, ht⟩⟩⟩
    · next i rest hqu => 
      simp only
      have hi := hq.2 a i (by simp [hqu])
      split
      · refine ⟨fun b hb => by simp [State.worker_setQueue, Ne.symm hb], ⟨[i], by simp [State.worker_setQueue, hqu]⟩, .inl ⟨by simp [State.worker_setQueue, ht], .inr ⟨by simp, ht⟩⟩⟩
      · next p hp =>
        obtain ⟨b1, b2, b3⟩ := begin_workers (s.setQueue a rest) a i p
        have pg := plan_good hp hi.1 hi.2
        refine ⟨fun b hb => by rw [b1 b hb]; simp [State.worker_setQueue, Ne.symm hb], ⟨[i], by rw [b2]; simp [State.worker_setQueue, hqu]⟩, ?_⟩
        rcases b3 with ⟨c1, c2⟩ | ⟨c1, c2⟩
        · refine .inl ⟨c1, .inl (by rw [c2]; simp; try rfl)⟩
        · exact .inr (.inl ⟨ht, by rw [c2]; simp, p, i, hp, pg.1, pg.2, c1⟩)
  · next t ht =>
    split
    · unfold State.finish
      split
      · exact ⟨fun b hb => by simp [State.raiseBusError, State.endTask, State.worker_setTask, Ne.symm hb], ⟨[], by simp [State.raiseBusError, State.endTask, State.worker_setTask]⟩, .inl ⟨by simp [State.raiseBusError, State.endTask, State.worker_setTask], .inl (by simp)⟩⟩
      · exact ⟨fun b hb => by simp [State.endTask, State.worker_setTask, Ne.symm hb], ⟨[], by simp [State.endTask, State.worker_setTask]⟩, .inl ⟨by simp [State.endTask, State.worker_setTask], .inl (by simp)⟩⟩
    · next act rest hto =>
      rcases runAct_cases s a t act rest with ⟨h1, h2, h3⟩ | ⟨h1, h2⟩ | ⟨u, hu, -, -, h1, h2, h3⟩
      · rw [h3]; exact ⟨fun _ _ => rfl, ⟨[], rfl⟩, .inr (.inr (.inl ⟨t, act, rest, ht, hto, h1, h2, rfl⟩))⟩
      · exact ⟨fun b hb => by rw [h1]; simp [Ne.symm hb], ⟨[], by rw [h1]; simp⟩, .inl ⟨by rw [h1]; simp, .inl h2⟩⟩
      · exact ⟨fun b hb => by rw [h1]; simp [Ne.symm hb], ⟨[], by rw [h1]; simp⟩, .inr (.inr (.inr ⟨t, act, rest, u, ht, hto, by rw [h1]; simp, hu, h2, h3⟩))⟩

/-- A release that may fire finds its agent at rest (spec 41 R180). -/
theorem canFire_idle {s : State} {m : Fin 4} (h : s.canFire m = true) : s.worker (.dc m) = Worker.idle := by
  simp only [State.canFire, Bool.and_eq_true, Worker.isIdle, List.isEmpty_iff, Option.isNone_iff_eq_none] at h
  show (s.motor m).work = Worker.idle
  cases hw : (s.motor m).work with
  | mk q t => rw [hw] at h; simp at h; simp [h.2.1, h.2.2, Worker.idle]

/-- A firing, seen on the agents. -/
theorem fire_worker (s : State) (m : Fin 4) (b : Actuator) : (s.fire m).worker b = if Actuator.dc m = b then { s.worker (.dc m) with task := some (Task.fresh (releaseOp m) (.release m) (releaseActs s.cfg m)) } else s.worker b := by
  simp [State.fire, State.worker_setTask]

end Sys2Proof.Machine
end

