-- ==== Sys2Proof/Laws/Steppers.lean ====
section
/-! SUPPORT. A stepper's record belongs to its agent (spec 60 R274): the moves of other agents leave it as it is. -/

namespace Sys2Proof.Machine

theorem State.stepper_setTask_ne (s : State) (a : Actuator) (t : Option Task) (k : Fin 2) (h : a ≠ .stepper k) :
    (s.setTask a t).stepper k = s.stepper k := by
  simp only [State.setTask, State.stepper_setWorker, if_neg h]

theorem State.stepper_setQueue_ne (s : State) (a : Actuator) (q : List Instr) (k : Fin 2) (h : a ≠ .stepper k) :
    (s.setQueue a q).stepper k = s.stepper k := by
  simp only [State.setQueue, State.stepper_setWorker, if_neg h]

theorem State.stepper_setSeq_ne (s : State) (j k : Fin 2) (q : Seq) (h : j ≠ k) :
    (s.setSeq j q).stepper k = s.stepper k := by
  simp [State.setSeq, State.stepper_setStepper, h]

theorem State.stepper_setSpeed_ne (s : State) (j k : Fin 2) (rpm : Nat) (h : j ≠ k) :
    (s.setSpeed j rpm).stepper k = s.stepper k := by
  simp [State.setSpeed, State.stepper_setStepper, h]

theorem State.stepper_endSeq_ne (s : State) (a : Actuator) (k : Fin 2) (h : a ≠ .stepper k) :
    (s.endSeq a).stepper k = s.stepper k := by
  cases a with
  | controller => rfl
  | dc m => rfl
  | stepper j => exact State.stepper_setSeq_ne s j k .idle (fun e => h (by rw [e]))

theorem State.stepper_endTask_ne (s : State) (a : Actuator) (t : Task) (r : Result) (k : Fin 2) (h : a ≠ .stepper k) :
    (s.endTask a t r).stepper k = s.stepper k := by
  simp [State.endTask, State.stepper_setTask_ne _ _ _ _ h, State.stepper_endSeq_ne _ _ _ h]

/-- The start of another agent's operation. -/
theorem begin_stepper_ne {s : State} {a : Actuator} {i : Instr} {p : Plan} {k : Fin 2} (h : a ≠ .stepper k)
    (hp : PlanStarts a p) : (s.begin a i p).stepper k = s.stepper k := by
  have hj : ∀ j, a = .stepper j → j ≠ k := fun j e1 e2 => h (by rw [e1, e2])
  unfold State.begin
  unfold PlanStarts at hp
  split
  · exact State.stepper_setTask_ne _ _ _ _ h
  · next j d y e =>
    rw [e] at hp
    rw [State.stepper_setTask_ne _ _ _ _ h, State.stepper_setSeq_ne _ _ _ _ (hj j hp.1)]
  · next j n d y e =>
    rw [e] at hp
    rw [State.stepper_setTask_ne _ _ _ _ h, State.stepper_setSeq_ne _ _ _ _ (hj j hp.1)]
  · next j n d y rpm e =>
    rw [e] at hp
    simp only
    split
    · exact State.stepper_endTask_ne _ _ _ _ _ h
    · rw [State.stepper_setTask_ne _ _ _ _ h, State.stepper_setSeq_ne _ _ _ _ (hj j hp.1),
        State.stepper_setSpeed_ne _ _ _ _ (hj j hp.1)]

/-- An action of another agent. -/
theorem runAct_stepper_ne {s : State} {a : Actuator} {t : Task} {act : Act} {rest : List Act} {k : Fin 2}
    (h : a ≠ .stepper k) (ho : Act.ownedBy a act = true) : (s.runAct a t act rest).stepper k = s.stepper k := by
  have hj : ∀ j, Act.ownedBy a act = decide (a = .stepper j) → j ≠ k := fun j e1 e2 => by
    rw [ho] at e1; exact h (by rw [of_decide_eq_true e1.symm, e2])
  have hE := fun s r => State.stepper_endTask_ne s a t r k h
  have hG := fun (s : State) o => State.stepper_setTask_ne s a o k h
  cases act with
  | oneStep j d y =>
    simp [State.runAct, State.goOn, hG, State.moveStepper, State.stepper_setStepper, hj j rfl]
  | seqTest j =>
    simp only [State.runAct, State.goOn, hG, State.seqTest, State.seqNext]
    repeat' split
    all_goals first | rfl | exact State.stepper_setSeq_ne _ _ _ _ (hj j rfl)
  | seqCount j =>
    simp only [State.runAct, State.goOn, hG, State.seqCount]
    repeat' split
    all_goals first | rfl | exact State.stepper_setSeq_ne _ _ _ _ (hj j rfl)
  | seqWait j =>
    simp only [State.runAct, State.seqWait, State.goOn]
    repeat' split
    all_goals simp [hE, hG, State.stepper_setSeq_ne _ _ _ _ (hj j rfl)]
  | _ =>
    simp only [State.runAct, State.tryWrite, State.tryReadMode1, State.raiseBusError, State.goOn]
    repeat' split
    all_goals first | rfl | (simp [hE, hG]; done) | (rw [hG]; rfl)

/-- ONE MOVE OF ANOTHER AGENT leaves a stepper's record as it is. -/
theorem tick_stepper_ne {s : State} (hq : TasksOwned s) {a : Actuator} {k : Fin 2} (h : a ≠ .stepper k) :
    (s.tick a).stepper k = s.stepper k := by
  unfold State.tick
  split
  · unfold State.startNext
    split
    · rfl
    · next i rest hqu =>
      simp only
      split
      · exact State.stepper_setQueue_ne _ _ _ _ h
      · next p hp =>
        have hi := hq.2 a i (by simp [hqu])
        rw [begin_stepper_ne h (plan_good hp hi.1 hi.2).2, State.stepper_setQueue_ne _ _ _ _ h]
  · next t ht =>
    split
    · unfold State.finish
      split <;> exact State.stepper_endTask_ne _ _ _ _ _ h
    · next act rest hto => exact runAct_stepper_ne h (hq.1 a t ht act (by simp [hto]))

/-- A firing leaves the steppers as they are. -/
theorem fire_stepper (s : State) (m : Fin 4) (k : Fin 2) : (s.fire m).stepper k = s.stepper k := by
  rw [State.fire, State.stepper_setTask_ne _ _ _ _ (by simp)]
  rfl

end Sys2Proof.Machine
end

