-- ==== Sys2Proof/Laws/Trace.lean ====
section
/-! SUPPORT. What every move does to the configuration, the bus handle, the history and the image: it only adds events to the
history, and the image follows them (spec 10 R20, R24, R25, R43). -/

namespace Sys2Proof.Machine

/-- `t` comes after `s`: the same configuration and bus handle, some events more, and the image they build from that of `s`. -/
def After (s t : State) : Prop :=
  t.cfg = s.cfg ∧ t.bus = s.bus ∧ ∃ evs, t.hist = s.hist ++ evs ∧ t.img = imgAfterEvents s.img evs

theorem After.refl (s : State) : After s s := ⟨rfl, rfl, [], by simp, rfl⟩

theorem After.trans {s t u : State} (h : After s t) (k : After t u) : After s u := by
  obtain ⟨h1, h2, e, h3, h4⟩ := h
  obtain ⟨k1, k2, f, k3, k4⟩ := k
  exact ⟨k1.trans h1, k2.trans h2, e ++ f, by rw [k3, h3]; simp, by rw [k4, h4]; simp⟩

theorem After.same {s t : State} (hc : t.cfg = s.cfg) (hb : t.bus = s.bus) (hh : t.hist = s.hist) (hi : t.img = s.img) :
    After s t := ⟨hc, hb, [], by simp [hh], by simp [hi]⟩

theorem After.log (s : State) (e : Event) (he : imgAfterEvent s.img e = s.img) : After s (s.log e) :=
  ⟨rfl, rfl, [e], rfl, by simp [he]⟩

theorem After.busWrite (s : State) (a : Actuator) (r v : Byte) : After s (s.busWrite a r v) :=
  ⟨rfl, rfl, [.write a r v (Answer.isOk s.nextAnswer)], rfl, by simp [imgAfterEvent]⟩

theorem After.busRead (s : State) (a : Actuator) (r : Byte) : After s (s.busRead a r) :=
  ⟨rfl, rfl, [.read a r s.nextAnswer], rfl, by simp [imgAfterEvent]⟩

theorem After.setTask (s : State) (a : Actuator) (t : Option Task) : After s (s.setTask a t) :=
  .same (by simp) (by simp) (by simp) (by simp)

theorem After.goOn (s : State) (a : Actuator) (t : Task) (rest : List Act) : After s (s.goOn a t rest) := .setTask _ _ _

theorem After.endTask (s : State) (a : Actuator) (t : Task) (r : Result) : After s (s.endTask a t r) :=
  (After.log s (.done t.by_ t.op r) rfl).trans (.same (by simp [State.endTask]) (by simp [State.endTask]) (by simp [State.endTask]) (by simp [State.endTask]))

theorem After.raiseBusError (s : State) (a : Actuator) (t : Task) (x : Option Txn) : After s (s.raiseBusError a t x) :=
  .endTask _ _ _ _

theorem After.setSeq (s : State) (k : Fin 2) (q : Seq) : After s (s.setSeq k q) := .same rfl rfl rfl rfl

theorem After.tryWrite (s : State) (a : Actuator) (t : Task) (r v : Byte) (rest : List Act) :
    After s (s.tryWrite a t r v rest) := by
  unfold State.tryWrite
  split
  · exact (After.busWrite s a r v).trans (.goOn _ _ _ _)
  · exact (After.busWrite s a r v).trans (.raiseBusError _ _ _ _)

theorem After.tryReadMode1 (s : State) (a : Actuator) (t : Task) (rest : List Act) : After s (s.tryReadMode1 a t rest) := by
  unfold State.tryReadMode1
  split
  · exact (After.busRead s a _).trans (.goOn _ _ _ _)
  · exact (After.busRead s a _).trans (.raiseBusError _ _ _ _)

theorem After.seqTest (s : State) (k : Fin 2) : After s (s.seqTest k).1 := by
  unfold State.seqTest State.seqNext
  repeat' split
  all_goals first | exact .setSeq _ _ _ | exact .refl _

theorem After.seqCount (s : State) (k : Fin 2) : After s (s.seqCount k) := by
  unfold State.seqCount
  repeat' split
  all_goals first | exact .setSeq _ _ _ | exact .refl _

theorem After.seqWait (s : State) (a : Actuator) (k : Fin 2) (t : Task) (rest : List Act) : After s (s.seqWait a k t rest) := by
  unfold State.seqWait
  split
  · exact (After.log s _ rfl).trans (.endTask _ _ _ _)
  · split
    · exact .goOn _ _ _ _
    · exact ((After.log s _ rfl).trans (.setSeq _ _ _)).trans (.goOn _ _ _ _)

theorem After.runAct (s : State) (a : Actuator) (t : Task) (act : Act) (rest : List Act) : After s (s.runAct a t act rest) := by
  cases act with
  | checkBus => simp only [State.runAct]; split <;> first | exact .raiseBusError _ _ _ _ | exact .goOn _ _ _ _
  | acquire =>
    simp only [State.runAct]
    split
    · exact (After.same (t := s.setLock (.held a)) rfl rfl rfl rfl).trans (.goOn _ _ _ _)
    · exact .refl s
  | release => exact (After.same (t := s.unlockFor a) (by simp) (by simp) (by simp) (by simp)).trans (.goOn _ _ _ _)
  | write r v => exact .tryWrite _ _ _ _ _ _
  | writeMode1 w => exact .tryWrite _ _ _ _ _ _
  | readMode1 => exact .tryReadMode1 _ _ _ _
  | wait q => exact (After.log s _ rfl).trans (.goOn _ _ _ _)
  | arm m d => exact (After.same (t := s.setPending m (some d)) rfl rfl rfl rfl).trans (.goOn _ _ _ _)
  | oneStep k d y => exact (After.same (t := s.moveStepper k d y) rfl rfl rfl rfl).trans (.goOn _ _ _ _)
  | seqTest k => exact (After.seqTest s k).trans (.goOn _ _ _ _)
  | seqWait k => exact .seqWait _ _ _ _ _
  | seqCount k => exact (After.seqCount s k).trans (.goOn _ _ _ _)

theorem After.begin (s : State) (a : Actuator) (i : Instr) (p : Plan) : After s (s.begin a i p) := by
  unfold State.begin
  split
  · exact .setTask _ _ _
  · exact (After.setSeq s _ _).trans (.setTask _ _ _)
  · exact (After.setSeq s _ _).trans (.setTask _ _ _)
  · split
    · exact .raiseBusError _ _ _ _
    · exact (After.same (t := s.setSpeed _ _) rfl rfl rfl rfl).trans ((After.setSeq _ _ _).trans (.setTask _ _ _))

/-- One move of an agent. -/
theorem After.tick (s : State) (a : Actuator) : After s (s.tick a) := by
  unfold State.tick
  split
  · unfold State.startNext
    split
    · exact .refl s
    · have hq : ∀ q, After s (s.setQueue a q) := fun q => .same (by simp) (by simp) (by simp) (by simp)
      simp only
      split
      · exact (hq _).trans (.log _ _ rfl)
      · exact (hq _).trans (.begin _ _ _ _)
  · split
    · unfold State.finish
      split
      · exact .raiseBusError _ _ _ _
      · exact .endTask _ _ _ _
    · exact .runAct _ _ _ _ _

/-- A firing. -/
theorem After.fire (s : State) (m : Fin 4) : After s (s.fire m) :=
  (After.same (t := s.setPending m none) rfl rfl rfl rfl).trans ((After.log _ _ rfl).trans (.setTask _ _ _))

end Sys2Proof.Machine
end

