-- ==== Sys2Proof/Laws/Runs.lean ====
section
/-! SUPPORT. Runs (spec 70 R305): a step seen from the agent it chose, what the steps of others leave an agent, and that a
feed changes nothing an agent reads. -/

namespace Sys2Proof.Machine

/-! ### Feeds -/

@[simp] theorem State.fed_worker (s : State) (f : Feed) (a : Actuator) : (s.fed f).worker a = s.worker a := by cases a <;> rfl
@[simp] theorem State.fed_lock (s : State) (f : Feed) : (s.fed f).lock = s.lock := rfl
@[simp] theorem State.fed_inbox (s : State) (f : Feed) : (s.fed f).inbox = s.inbox ++ f.records := rfl
@[simp] theorem State.fed_cfg (s : State) (f : Feed) : (s.fed f).cfg = s.cfg := rfl
@[simp] theorem State.fed_stepper (s : State) (f : Feed) (k : Fin 2) : (s.fed f).stepper k = s.stepper k := rfl
@[simp] theorem State.fed_motor (s : State) (f : Feed) (m : Fin 4) : (s.fed f).motor m = s.motor m := rfl
@[simp] theorem State.takeTurn_worker (s : State) (a : Actuator) : s.takeTurn.worker a = s.worker a := by cases a <;> rfl
@[simp] theorem State.takeTurn_lock (s : State) : s.takeTurn.lock = s.lock := rfl
@[simp] theorem State.takeTurn_inbox (s : State) : s.takeTurn.inbox = s.inbox := rfl
@[simp] theorem State.takeTurn_cfg (s : State) : s.takeTurn.cfg = s.cfg := rfl
@[simp] theorem State.takeTurn_stepper (s : State) (k : Fin 2) : s.takeTurn.stepper k = s.stepper k := rfl
@[simp] theorem State.takeTurn_motor (s : State) (m : Fin 4) : s.takeTurn.motor m = s.motor m := rfl

/-- Whether an agent can move depends on its queue and task and on the lock. -/
theorem canTick_of_eq {s t : State} {a : Actuator} (hw : t.worker a = s.worker a) (hl : t.lock = s.lock) :
    t.canTick a = s.canTick a := by
  unfold State.canTick; rw [hw, hl]

@[simp] theorem State.fed_canTick (s : State) (f : Feed) (a : Actuator) : (s.fed f).canTick a = s.canTick a :=
  canTick_of_eq (State.fed_worker s f a) rfl

@[simp] theorem State.fed_wantsLock (s : State) (f : Feed) (a : Actuator) : (s.fed f).wantsLock a = s.wantsLock a := by
  unfold State.wantsLock; rw [State.fed_worker]

/-- What holds of every state, does so along a run, if a feed and a step keep it. -/
theorem IsRun.induct {f : Nat → Feed} {r : Nat → State} {P : State → Prop} (hr : IsRun f r)
    (feed : ∀ s x, P s → P (s.fed x)) (next : ∀ s t, P s → step s = .next t → P t) (h0 : P (r 0)) : ∀ n, P (r n)
  | 0 => h0
  | n + 1 => next _ _ (feed _ _ (IsRun.induct hr feed next h0 n)) (hr n)

/-! ### One step, by the agent chosen -/

/-- What a step does, by the agent it chose. -/
theorem step_chosen {s t : State} (h : step s = .next t) :
    match s.pick s.movers with
    | none => t = s ∧ s.movers = []
    | some .host => ∃ r rest i, s.inbox = r :: rest ∧ decode r = .ok i ∧ exec i { s.takeTurn with inbox := rest } = .next t
    | some (.actuator a) => s.canTick a = true ∧ t = s.takeTurn.tick a
    | some (.release m) => s.canFire m = true ∧ t = s.takeTurn.fire m := by
  have hm : ∀ g, s.pick s.movers = some g → g ∈ s.movers := fun g => pick_mem
  unfold step machineStep at h
  cases hp : s.pick s.movers with
  | none =>
    rw [hp] at h
    refine ⟨by injection h with h; exact h.symm, ?_⟩
    cases hms : s.movers with
    | nil => rfl
    | cons g l =>
      exfalso
      rw [hms] at hp
      cases l with
      | nil => exact absurd hp (by simp [State.pick])
      | cons g' l =>
        have hlt : Config.freeTurn s.turn % (l.length + 2) < (g :: g' :: l).length := by
          simpa using Nat.le_of_lt_succ (Nat.mod_lt (Config.freeTurn s.turn) (y := l.length + 2) (by omega))
        unfold State.pick at hp
        simp only at hp
        split at hp
        · split at hp
          · exact absurd hp (by simp)
          · rw [List.getElem?_eq_getElem hlt] at hp; exact absurd hp (by simp)
        · rw [List.getElem?_eq_getElem hlt] at hp; exact absurd hp (by simp)
  | some g =>
    rw [hp] at h
    have hmem := (mem_movers s g).mp (hm g hp)
    cases g with
    | host =>
      simp only [move, hostMove, State.takeTurn_inbox] at h
      split at h
      · next hi => simp [State.hostCan, hi] at hmem
      · next r rest hi =>
        split at h
        · next i hd => exact ⟨r, rest, i, hi, hd, h⟩
        · exact absurd h (by simp)
        · exact absurd h (by simp)
    | actuator a => exact ⟨hmem, by injection h with h; exact h.symm⟩
    | release m => exact ⟨hmem, by injection h with h; exact h.symm⟩

/-! ### The host's list -/

theorem endTask_inbox (s : State) (a : Actuator) (t : Task) (r : Result) : (s.endTask a t r).inbox = s.inbox := by simp

/-- A move of an agent leaves the host's list. -/
theorem tick_inbox (s : State) (a : Actuator) : (s.tick a).inbox = s.inbox := by
  have hE : ∀ (s : State) t r, (s.endTask a t r).inbox = s.inbox := fun s t r => by simp
  have hG : ∀ (s : State) t, (s.setTask a t).inbox = s.inbox := fun s t => by simp
  unfold State.tick
  split
  · unfold State.startNext State.begin
    repeat' split
    all_goals simp [State.raiseBusError, State.setSpeed, State.setSeq]
    all_goals (split <;> simp)
  · split
    · unfold State.finish; split <;> simp [State.raiseBusError]
    · next t ht act rest hto =>
      cases act <;> simp only [State.runAct, State.tryWrite, State.tryReadMode1, State.raiseBusError, State.goOn,
        State.seqTest, State.seqNext, State.seqWait, State.seqCount, State.moveStepper]
      all_goals repeat' split
      all_goals simp

/-- An issue leaves the host's list. -/
theorem exec_inbox {i : Instr} {s t : State} (h : exec i s = .next t) : t.inbox = s.inbox := by
  have hE : ∀ (s : State) a i, (s.enqueue a i).inbox = s.inbox := fun s a i => by simp [State.enqueue]
  have hD : ∀ (s : State) a, (s.disarmFor a).inbox = s.inbox := fun s a => by cases a <;> rfl
  rcases exec_cases h with ⟨a, ha, hq, rfl⟩ | ⟨j, k', rpm, rfl, -, rfl⟩ | ⟨c, hc, rfl⟩
  · have hs : ∀ n (u : State), (State.settle n a u).inbox = u.inbox := fun n u =>
      settle_induct (P := fun v => v.inbox = u.inbox) (fun v hv _ => by rw [tick_inbox, hv]) n u rfl
    simp only [State.submit]
    split
    · exact hD _ _
    · split
      · rw [hs, hE]; exact hD _ _
      · rw [hE]; exact hD _ _
  · simp only [State.speedNow]
    repeat' split
    all_goals rfl
  · rfl

/-- A step takes at most the first record, and only when the host is chosen. -/
theorem step_inbox {s t : State} (h : step s = .next t) :
    (s.pick s.movers = some .host ∧ t.inbox = s.inbox.tail) ∨ (s.pick s.movers ≠ some .host ∧ t.inbox = s.inbox) := by
  have := step_chosen h
  cases hp : s.pick s.movers with
  | none => rw [hp] at this; exact .inr ⟨by simp, by rw [this.1]⟩
  | some g =>
    rw [hp] at this
    cases g with
    | host => obtain ⟨r, rest, i, hi, -, he⟩ := this; exact .inl ⟨rfl, by rw [exec_inbox he, hi]; rfl⟩
    | actuator a => exact .inr ⟨by simp, by rw [this.2, tick_inbox]; rfl⟩
    | release m => exact .inr ⟨by simp, by rw [this.2]; simp [State.fire]⟩

/-! ### What others leave an agent -/

/-- An issue on a block where agent `a` has a move leaves `a` its operation, and at most adds to its queue. -/
theorem exec_keeps {i : Instr} {s t : State} {a : Actuator} (h : exec i s = .next t) (hc : s.canTick a = true) :
    (t.worker a).task = (s.worker a).task ∧ (∃ l, (t.worker a).queue = (s.worker a).queue ++ l) ∧ t.lock = s.lock := by
  rcases exec_cases h with ⟨b, hb, hq, rfl⟩ | ⟨j, k', rpm, rfl, -, rfl⟩ | ⟨c, -, rfl⟩
  · have hw : ∀ c, ((s.log (.issue (.actuator b) i)).disarmFor b).worker c = s.worker c := fun c => by
      cases b <;> simp [State.disarmFor]
    have hl : ((s.log (.issue (.actuator b) i)).disarmFor b).lock = s.lock := by cases b <;> rfl
    have hm : ((s.log (.issue (.actuator b) i)).disarmFor b).movers ≠ [] := by
      intro he
      have : Agent.actuator a ∈ ((s.log (.issue (.actuator b) i)).disarmFor b).movers :=
        (mem_movers _ _).mpr (by simpa [canTick_of_eq (hw a) hl] using hc)
      rw [he] at this; simp at this
    simp only [State.submit, if_neg hm]
    split
    · exact ⟨by simp [hw], ⟨[], by simp [hw]⟩, hl⟩
    · refine ⟨?_, ?_, by rw [State.enqueue, State.setQueue_lock, hl]⟩
      · simp only [State.enqueue, State.worker_setQueue, hw]; split <;> simp_all
      · simp only [State.enqueue, State.worker_setQueue, hw]
        split
        · next e => subst e; exact ⟨[i], rfl⟩
        · exact ⟨[], by simp⟩
  · simp only [State.speedNow]
    repeat' split
    all_goals exact ⟨by simp, ⟨[], by simp⟩, rfl⟩
  · exact ⟨by simp [State.refuseIndex], ⟨[], by simp [State.refuseIndex]⟩, rfl⟩

/-- A STEP THAT CHOOSES ANOTHER AGENT leaves an agent that has a move its operation, and at most adds to its queue. -/
theorem step_keeps {s t : State} {a : Actuator} (hq : TasksOwned s) (h : step s = .next t) (hc : s.canTick a = true)
    (hn : s.pick s.movers ≠ some (.actuator a)) :
    (t.worker a).task = (s.worker a).task ∧ ∃ l, (t.worker a).queue = (s.worker a).queue ++ l := by
  have := step_chosen h
  cases hp : s.pick s.movers with
  | none => rw [hp] at this; rw [this.1]; exact ⟨rfl, [], by simp⟩
  | some g =>
    rw [hp] at this hn
    cases g with
    | host =>
      obtain ⟨r, rest, i, hi, -, he⟩ := this
      have hw : ({ s.takeTurn with inbox := rest } : State).worker a = s.worker a := by cases a <;> rfl
      have hk := exec_keeps he (a := a) (by rw [canTick_of_eq (s := s) hw rfl]; exact hc)
      rw [hw] at hk
      exact ⟨hk.1, hk.2.1⟩
    | actuator b =>
      have hb : a ≠ b := fun e => hn (by rw [e])
      have hq' : TasksOwned s.takeTurn := ⟨fun c => by rw [State.takeTurn_worker]; exact hq.1 c,
        fun c => by rw [State.takeTurn_worker]; exact hq.2 c⟩
      have hk := (tick_workers s.takeTurn b hq').1 a hb
      rw [this.2, hk, State.takeTurn_worker]
      exact ⟨rfl, [], by simp⟩
    | release m =>
      have hb : Actuator.dc m ≠ a := by
        rintro rfl
        have hi := canFire_idle this.1
        simp [State.canTick, hi, Worker.idle] at hc
      rw [this.2, fire_worker, if_neg hb, State.takeTurn_worker]
      exact ⟨rfl, [], by simp⟩

/-- An agent that has a move and does not wait for the lock has one still after a step that chooses another agent. -/
theorem step_keeps_move {s t : State} {a : Actuator} (hq : TasksOwned s) (h : step s = .next t) (hc : s.canTick a = true)
    (hw : s.wantsLock a = false) (hn : s.pick s.movers ≠ some (.actuator a)) :
    t.canTick a = true ∧ t.wantsLock a = false ∧ (t.worker a).task = (s.worker a).task := by
  obtain ⟨h1, l, h2⟩ := step_keeps hq h hc hn
  have hwt : t.wantsLock a = false := by unfold State.wantsLock at hw ⊢; rw [h1]; exact hw
  refine ⟨?_, hwt, h1⟩
  unfold State.canTick at hc ⊢
  unfold State.wantsLock at hw
  rw [h1]
  cases hT : (s.worker a).task with
  | some u => rw [hT] at hw; simp only at hw ⊢; simp [hw]
  | none =>
    rw [hT] at hc
    simp only [Bool.not_eq_true', List.isEmpty_eq_false_iff] at hc ⊢
    rw [h2]; simp [hc]

end Sys2Proof.Machine
end

