-- ==== Sys2Proof/Laws/Sequence.lean ====
section
/-! SUPPORT. Whole step sequences on a block at rest: the outputs of a oneStep as locked groups of writes, one round of a
loop, the main loop, the correction loop, and the operation from its issue to its end. -/

namespace Sys2Proof.Machine

/-! ### The outputs of a oneStep -/

/-- The six PwmController operations of an APPLY (spec 42 R215). -/
def outputBlocks (cfg : Config) (k : Fin 2) (p : Fin 32) (style : StepStyle) (d : Direction) : List (List (Byte × Byte)) :=
  let w := cfg.wiringSt[k]
  let duties := dutyPair cfg.microBackZero p style d
  let c := coilPattern cfg p style
  [chanBytes w.a.pwm 0 (duties.1 * 16), chanBytes w.b.pwm 0 (duties.2 * 16),
   pinBytes (pinChannel w cfg.coilPinOrder[0]) (c.getLsb 0), pinBytes (pinChannel w cfg.coilPinOrder[1]) (c.getLsb 1),
   pinBytes (pinChannel w cfg.coilPinOrder[2]) (c.getLsb 2), pinBytes (pinChannel w cfg.coilPinOrder[3]) (c.getLsb 3)]

theorem outputBlocks_flatten (cfg : Config) (k : Fin 2) (p : Fin 32) (style : StepStyle) (d : Direction) :
    (outputBlocks cfg k p style d).flatten = onestepBytes cfg k p style d := by
  simp [outputBlocks, onestepBytes]

theorem outputBlocks_acts (cfg : Config) (k : Fin 2) (p : Fin 32) (style : StepStyle) (d : Direction) :
    (outputBlocks cfg k p style d).flatMap lockedActs = outputActs cfg k p style d := by
  simp only [outputBlocks, List.flatMap_cons, List.flatMap_nil, ← setchActs_eq, ← setpinActs_eq, outputActs, applyActs, coilActs,
    List.append_nil]
  rfl

theorem chanBytes_length (c : Chan) (on off : Nat) : (chanBytes c on off).length = 4 := rfl

theorem pinBytes_length (c : Chan) (b : Bool) : (pinBytes c b).length = 4 := by cases b <;> rfl

theorem onestepBytes_length (cfg : Config) (k : Fin 2) (p : Fin 32) (style : StepStyle) (d : Direction) :
    (onestepBytes cfg k p style d).length = 24 := by
  simp [onestepBytes, chanBytes_length, pinBytes_length]

/-! ### Moves of the sequencer -/

@[simp] theorem setStepper_setStepper (s : State) (k : Fin 2) (x y : Stepper) :
    (s.setStepper k x).setStepper k y = s.setStepper k y := by simp [State.setStepper]

theorem afterRun_setStepper (s : State) (k : Fin 2) (x : Stepper) (evs : List Event) (n : Nat) :
    (s.setStepper k x).afterRun evs n = (s.afterRun evs n).setStepper k x := rfl

@[simp] theorem afterRun_cfg (s : State) (evs : List Event) (n : Nat) : (s.afterRun evs n).cfg = s.cfg := rfl

@[simp] theorem afterRun_stepper (s : State) (k : Fin 2) (evs : List Event) (n : Nat) :
    (s.afterRun evs n).stepper k = s.stepper k := rfl

theorem Alone.setSeq {k : Fin 2} {s : State} (h : Alone (.stepper k) s) (q : Seq) : Alone (.stepper k) (s.setSeq k q) :=
  h.setStepper _

theorem Alone.moveStepper {k : Fin 2} {s : State} (h : Alone (.stepper k) s) (d : Direction) (y : StepStyle) :
    Alone (.stepper k) (s.moveStepper k d y) := h.setStepper _

section moves

variable {n : Nat} {k : Fin 2} {s : State} {op : Instr} {g : Agent} {rest : List Act} {m : Byte} {c : Nat}

@[simp] theorem setTask_stepper_seq (t : Option Task) : ((s.setTask (.stepper k) t).stepper k).seq = (s.stepper k).seq := by
  simp [State.setTask, State.setWorker]

@[simp] theorem setTask_stepper_pos (t : Option Task) : ((s.setTask (.stepper k) t).stepper k).pos = (s.stepper k).pos := by
  simp [State.setTask, State.setWorker]

@[simp] theorem setTask_stepper_queue (t : Option Task) :
    ((s.setTask (.stepper k) t).stepper k).work.queue = (s.stepper k).work.queue := by
  simp [State.setTask, State.setWorker, State.worker]

theorem settle_oneStep (h : Alone (.stepper k) s) (d : Direction) (y : StepStyle) :
    State.settle (n + 1) (.stepper k) (s.setTask (.stepper k) (some ⟨op, g, .oneStep k d y :: rest, m, c⟩)) =
      State.settle n (.stepper k) ((s.moveStepper k d y).setTask (.stepper k)
        (some ⟨op, g, outputActs s.cfg k (nextPos s.cfg.correctionMode (s.stepper k).pos y d) y d ++ rest, m, c⟩)) := by
  rw [settle_task h _ (by simp [Task.wantsLock])]
  simp [State.runAct, moveStepper_setTask, goOn_setTask]

theorem settle_seqCount (h : Alone (.stepper k) s) {r : Running} (hr : (s.stepper k).seq = .running r) :
    State.settle (n + 1) (.stepper k) (s.setTask (.stepper k) (some ⟨op, g, .seqCount k :: rest, m, c⟩)) =
      State.settle n (.stepper k) ((s.setSeq k (.running { r with main := if r.phase = .main then r.main - 1 else r.main })).setTask
        (.stepper k) (some ⟨op, g, rest, m, c + 1⟩)) := by
  rw [settle_task h _ (by simp [Task.wantsLock])]
  have hs : s.setSeq k (.running r) = s := by
    have : ({ s.stepper k with seq := .running r } : Stepper) = s.st[k] := by
      have h2 : s.st[k] = s.stepper k := rfl
      rw [h2]; cases hx : s.stepper k; rw [hx] at hr; simp at hr; simp [hr]
    rw [State.setSeq, this, State.setStepper]; simp
  by_cases hp : r.phase = .main
  · simp [State.runAct, State.seqCount, hr, hp, setSeq_setTask_none, goOn_setTask]
  · have hp2 : r.phase = .correct := by cases h2 : r.phase with
      | main => exact absurd h2 hp
      | correct => rfl
    rw [if_neg hp, show s.setSeq k (.running { r with main := r.main }) = s from hs]
    simp [State.runAct, State.seqCount, hr, hp2, goOn_setTask]

theorem settle_seqTest (h : Alone (.stepper k) s) {t : State} {acts : List Act}
    (ht : ∀ u, (s.setTask (.stepper k) u).seqTest k = (t.setTask (.stepper k) u, acts)) :
    State.settle (n + 1) (.stepper k) (s.setTask (.stepper k) (some ⟨op, g, .seqTest k :: rest, m, c⟩)) =
      State.settle n (.stepper k) (t.setTask (.stepper k) (some ⟨op, g, acts ++ rest, m, c⟩)) := by
  rw [settle_task h _ (by simp [Task.wantsLock])]
  simp [State.runAct, ht, goOn_setTask]

theorem settle_seqWait (h : Alone (.stepper k) s) {r : Running} (hr : (s.stepper k).seq = .running r)
    (hq : (s.stepper k).work.queue = []) :
    State.settle (n + 1) (.stepper k) (s.setTask (.stepper k) (some ⟨op, g, .seqWait k :: rest, m, c⟩)) =
      State.settle n (.stepper k) (((s.log (.wait (.stepper k) r.spsEff)).setSeq k (.running { r with place := .inStep })).setTask
        (.stepper k) (some ⟨op, g, rest, m, c⟩)) := by
  rw [settle_task h _ (by simp [Task.wantsLock])]
  simp [State.runAct, State.seqWait, State.superseded, hr, hq, log_setTask, setSeq_setTask_none, goOn_setTask]

end moves

/-! ### Loops -/

/-- The stepper record after some rounds of a loop. -/
def loopStepper (x : Stepper) (pos : Nat) (style : Option StepStyle) (r : Running) : Stepper :=
  { x with pos := pos, style := style, seq := .running r }

section loops

variable {k : Fin 2} {op : Instr} {g : Agent} {m : Byte} {c : Nat}

/-- One round of a loop, from its test to the next test: at most 46 moves. -/
theorem settle_round {s : State} {F : Nat} {r : Running} (h : Alone (.stepper k) s) (hb : s.bus = .open) (hf : s.lock = .free)
    (hpl : r.place = .inStep) (hq : (s.stepper k).work.queue = [])
    (hgo : ∀ u, (s.setTask (.stepper k) u).seqTest k = (s.setTask (.stepper k) u).seqNext k r)
    (hok : AnswersOk s 24) (hF : 46 ≤ F) :
    ∃ F', F ≤ F' + 46 ∧
      State.settle F (.stepper k) (s.setTask (.stepper k) (some ⟨op, g, [.seqTest k], m, c⟩)) =
        State.settle F' (.stepper k) (((s.afterRun ((if r.first then [] else [.wait (.stepper k) r.spsEff]) ++
            okWrites (.stepper k) (onestepBytes s.cfg k (nextPos s.cfg.correctionMode (s.stepper k).pos r.style r.cmd) r.style r.cmd)) 24).setStepper k
          (loopStepper (s.stepper k) (nextPos s.cfg.correctionMode (s.stepper k).pos r.style r.cmd).val (some r.style)
            { r with first := false, main := if r.phase = .main then r.main - 1 else r.main })).setTask (.stepper k)
              (some ⟨op, g, [.seqTest k], m, c + 1⟩)) := by
  -- from the invocation to the next test: 44 moves
  have key : ∀ (b : State) (r' : Running) (n : Nat), Alone (.stepper k) b → b.bus = .open → b.lock = .free → AnswersOk b 24 →
      (b.stepper k).seq = .running r' → b.cfg = s.cfg → (b.stepper k).pos = (s.stepper k).pos →
      State.settle (n + 44) (.stepper k) (b.setTask (.stepper k) (some ⟨op, g, invocation k r ++ [], m, c⟩)) =
        State.settle n (.stepper k) (((b.afterRun (okWrites (.stepper k)
            (onestepBytes s.cfg k (nextPos s.cfg.correctionMode (s.stepper k).pos r.style r.cmd) r.style r.cmd)) 24).setStepper k
          (loopStepper (b.stepper k) (nextPos s.cfg.correctionMode (s.stepper k).pos r.style r.cmd).val (some r.style)
            { r' with main := if r'.phase = .main then r'.main - 1 else r'.main })).setTask (.stepper k)
              (some ⟨op, g, [.seqTest k], m, c + 1⟩)) := by
    intro b r' n hA hbb hbf hbok hbr hbc hbp
    have hlen : (outputBlocks s.cfg k (nextPos s.cfg.correctionMode (s.stepper k).pos r.style r.cmd) r.style r.cmd).flatten.length +
        3 * (outputBlocks s.cfg k (nextPos s.cfg.correctionMode (s.stepper k).pos r.style r.cmd) r.style r.cmd).length = 42 := by
      rw [outputBlocks_flatten, onestepBytes_length]; rfl
    have h24 : (outputBlocks s.cfg k (nextPos s.cfg.correctionMode (s.stepper k).pos r.style r.cmd) r.style r.cmd).flatten.length = 24 := by
      rw [outputBlocks_flatten, onestepBytes_length]
    have hinv : invocation k r ++ [] = .oneStep k r.cmd r.style :: [.seqCount k, .seqTest k] := rfl
    rw [hinv, show n + 44 = (n + 1 + 42) + 1 by omega, settle_oneStep (n := n + 1 + 42) hA, hbc, hbp, ← outputBlocks_acts, ← hlen,
      settle_blocks (n := n + 1) (s := b.moveStepper k r.cmd r.style) _ (hA.setStepper _) hbb hbf (by rw [h24]; exact hbok.of_eq rfl rfl), h24,
      outputBlocks_flatten, settle_seqCount (r := r') ((hA.moveStepper _ _).afterRun _ _)
        (by simp [State.moveStepper, hbr])]
    congr 2
    simp only [State.moveStepper, State.setSeq, afterRun_setStepper, State.stepper_setStepper_same, setStepper_setStepper,
      loopStepper, hbc, hbp]
  cases hfirst : r.first with
  | true =>
    obtain ⟨n, rfl⟩ : ∃ n, F = n + 44 + 1 := ⟨F - 45, by omega⟩
    refine ⟨n, by omega, ?_⟩
    rw [settle_seqTest (n := n + 44) (t := s.setSeq k (.running { r with first := false })) (acts := invocation k r) h
      (fun u => by rw [hgo u, State.seqNext, if_pos hfirst, setSeq_setTask_none]),
      key (s.setSeq k (.running { r with first := false })) { r with first := false } _ (h.setSeq _) hb hf (hok.of_eq rfl rfl) (by simp [State.setSeq]) rfl
        (by simp [State.setSeq])]
    congr 2
    simp [State.setSeq, afterRun_setStepper, loopStepper]
  | false =>
    obtain ⟨n, rfl⟩ : ∃ n, F = n + 44 + 1 + 1 := ⟨F - 46, by omega⟩
    refine ⟨n, by omega, ?_⟩
    rw [settle_seqTest (n := n + 44 + 1) (t := s.setSeq k (.running { r with place := .atWait }))
      (acts := .seqWait k :: invocation k r) h
      (fun u => by rw [hgo u, State.seqNext, if_neg (by simp [hfirst]), setSeq_setTask_none]),
      List.cons_append, settle_seqWait (n := n + 44) (s := s.setSeq k (.running { r with place := .atWait })) (r := { r with place := .atWait }) (h.setSeq _) (by simp [State.setSeq]) (by simpa [State.setSeq] using hq),
      key _ { r with place := .inStep } _ (((h.setSeq _).log _).setSeq _) hb hf (hok.of_eq rfl rfl) (by simp [State.setSeq]) rfl
        (by simp [State.setSeq, State.stepper_log])]
    rw [log_eq_afterRun _ _ (fun _ => rfl)]
    congr 2
    simp [State.setSeq, afterRun_setStepper, afterRun_afterRun, loopStepper, hfirst, hpl]

/-- The test of a loop goes on. -/
theorem seqTest_go {s : State} {r : Running} (hr : (s.stepper k).seq = .running r)
    (hm : r.phase = .main → 0 < r.main) (hc : r.phase = .correct → (s.stepper k).pos % 8 ≠ 0) (u : Option Task) :
    (s.setTask (.stepper k) u).seqTest k = (s.setTask (.stepper k) u).seqNext k r := by
  unfold State.seqTest
  rw [setTask_stepper_seq, hr, setTask_stepper_pos]
  cases hp : r.phase with
  | main => simp only [hp]; rw [if_pos (hm hp)]
  | correct => simp only [hp]; rw [if_pos (hc hp)]

theorem loopStepper_loopStepper (x : Stepper) (p p' : Nat) (y y' : Option StepStyle) (r r' : Running) :
    loopStepper (loopStepper x p y r) p' y' r' = loopStepper x p' y' r' := rfl

/-- `N` rounds of a loop. -/
theorem settle_rounds (N : Nat) : ∀ {s : State} {F c : Nat} {r : Running}, Alone (.stepper k) s → s.bus = .open →
    s.lock = .free → (s.stepper k).seq = .running r → r.place = .inStep → (s.stepper k).work.queue = [] →
    (r.phase = .main → N ≤ r.main) →
    (r.phase = .correct → ∀ i, i < N → posAfter s.cfg.correctionMode r.style r.cmd i (s.stepper k).pos % 8 ≠ 0) →
    AnswersOk s (24 * N) → 46 * N ≤ F →
    ∃ F', F ≤ F' + 46 * N ∧
      State.settle F (.stepper k) (s.setTask (.stepper k) (some ⟨op, g, [.seqTest k], m, c⟩)) =
        State.settle F' (.stepper k) (((s.afterRun (seqEvents s.cfg k r.spsEff r.style r.cmd r.first N (s.stepper k).pos)
            (24 * N)).setStepper k
          (loopStepper (s.stepper k) (posAfter s.cfg.correctionMode r.style r.cmd N (s.stepper k).pos)
            (if N = 0 then (s.stepper k).style else some r.style)
            { r with first := r.first && decide (N = 0), main := if r.phase = .main then r.main - N else r.main })).setTask (.stepper k)
              (some ⟨op, g, [.seqTest k], m, c + N⟩)) := by
  induction N with
  | zero =>
    intro s F c r _ _ _ hr _ _ _ _ _ _
    refine ⟨F, by omega, ?_⟩
    congr 2
    have h2 : loopStepper (s.stepper k) (s.stepper k).pos (s.stepper k).style r = s.st[k] := by
      have h3 : s.st[k] = s.stepper k := rfl
      rw [h3]; cases hx : s.stepper k; rw [hx] at hr; simp at hr; simp [loopStepper, hr]
    simp [seqEvents, posAfter, afterRun_zero, h2, State.setStepper]
  | succ N ih =>
    intro s F c r hA hb hf hr hpl hq hm hc hok hF
    obtain ⟨F1, hF1, h1⟩ := settle_round (op := op) (g := g) (m := m) (c := c) (F := F) (r := r) hA hb hf hpl hq
      (seqTest_go hr (fun h => by have := hm h; omega) (fun h => hc h 0 (by omega))) (hok.mono (by omega)) (by omega)
    obtain ⟨F2, hF2, h2⟩ := ih (s := (s.afterRun ((if r.first then [] else [.wait (.stepper k) r.spsEff]) ++
            okWrites (.stepper k) (onestepBytes s.cfg k (nextPos s.cfg.correctionMode (s.stepper k).pos r.style r.cmd) r.style r.cmd)) 24).setStepper k
          (loopStepper (s.stepper k) (nextPos s.cfg.correctionMode (s.stepper k).pos r.style r.cmd).val (some r.style)
            { r with first := false, main := if r.phase = .main then r.main - 1 else r.main })) (F := F1) (c := c + 1)
      (r := { r with first := false, main := if r.phase = .main then r.main - 1 else r.main })
      ((hA.afterRun _ _).setStepper _) hb hf (by simp [loopStepper]) hpl (by simpa [loopStepper] using hq)
      (fun h => by have := hm h; simp only at h; simp only [h, if_true]; omega)
      (fun h i hi => by simpa [loopStepper, posAfter] using hc h (i + 1) (by omega))
      (AnswersOk.of_eq (s := s.afterRun ((if r.first then [] else [.wait (.stepper k) r.spsEff]) ++
            okWrites (.stepper k) (onestepBytes s.cfg k (nextPos s.cfg.correctionMode (s.stepper k).pos r.style r.cmd) r.style r.cmd)) 24) (AnswersOk.afterRun (by rw [show 24 + 24 * N = 24 * (N + 1) by omega]; exact hok) _) rfl rfl)
      (by omega)
    refine ⟨F2, by omega, ?_⟩
    rw [h1, h2]
    congr 2
    · simp only [afterRun_setStepper, State.stepper_setStepper_same, setStepper_setStepper, afterRun_afterRun, loopStepper_loopStepper]
      have hev : seqEvents s.cfg k r.spsEff r.style r.cmd r.first (N + 1) (s.stepper k).pos =
          ((if r.first then [] else [.wait (.stepper k) r.spsEff]) ++
            okWrites (.stepper k) (onestepBytes s.cfg k (nextPos s.cfg.correctionMode (s.stepper k).pos r.style r.cmd) r.style r.cmd)) ++
          seqEvents s.cfg k r.spsEff r.style r.cmd false N (nextPos s.cfg.correctionMode (s.stepper k).pos r.style r.cmd).val := by
        simp [seqEvents]
      rw [hev]
      have hn : 24 + 24 * N = 24 * (N + 1) := by omega
      rw [hn]
      congr 1
      by_cases hp : r.phase = .main
      · simp [loopStepper, posAfter, hp, Nat.sub_sub, Nat.add_comm]
      · simp [loopStepper, posAfter, hp]
    · simp; omega

end loops

/-! ### Whole sequences -/

theorem posAfter_add (mode : CorrectionMode) (y : StepStyle) (d : Direction) (a b : Nat) :
    ∀ p, posAfter mode y d b (posAfter mode y d a p) = posAfter mode y d (a + b) p := by
  induction a with
  | zero => intro p; simp [posAfter]
  | succ a ih => intro p; rw [show a + 1 + b = (a + b) + 1 by omega]; exact ih _

theorem seqEvents_add (cfg : Config) (k : Fin 2) (q : Rat) (y : StepStyle) (d : Direction) (a b : Nat) :
    ∀ f p, seqEvents cfg k q y d f a p ++
      seqEvents cfg k q y d (f && decide (a = 0)) b (posAfter cfg.correctionMode y d a p) = seqEvents cfg k q y d f (a + b) p := by
  induction a with
  | zero => intro f p; simp [seqEvents, posAfter]
  | succ a ih =>
    intro f p
    rw [show a + 1 + b = (a + b) + 1 by omega]
    simp only [seqEvents, posAfter, List.append_assoc]
    have := ih false (nextPos cfg.correctionMode p y d).val
    simp only [Bool.false_and] at this
    simp [this]

/-- A microstep moves the position by one, around the circle (spec 42 R213, R214). -/
theorem nextPos_micro (mode : CorrectionMode) (p : Nat) (d : Direction) :
    (nextPos mode p .microstep d).val % 8 = match d with
      | .forward => (p + 1) % 8
      | .backward => (p + 7) % 8 := by
  cases d <;> simp [nextPos, wrapPos, delta, stepSize, Direction.sign] <;> omega

theorem posAfter_micro (mode : CorrectionMode) (d : Direction) (n : Nat) : ∀ p,
    posAfter mode .microstep d n p % 8 = match d with
      | .forward => (p + n) % 8
      | .backward => (p + 7 * n) % 8 := by
  induction n with
  | zero => intro p; cases d <;> simp [posAfter]
  | succ n ih =>
    intro p
    have h1 := ih (nextPos mode p .microstep d).val
    have h2 := nextPos_micro mode p d
    cases d <;> simp only [posAfter] at * <;> omega

/-- The correction stops exactly at the first position that is a multiple of 8 (spec 42 R233). -/
theorem correction_stops (mode : CorrectionMode) (d : Direction) (p : Nat) :
    (∀ i, i < correctionCount .microstep d p → posAfter mode .microstep d i p % 8 ≠ 0) ∧
    posAfter mode .microstep d (correctionCount .microstep d p) p % 8 = 0 := by
  cases d <;> simp only [correctionCount, posAfter_micro] <;> constructor <;> (try intro i hi) <;> omega

section whole

variable {k : Fin 2} {op : Instr} {g : Agent} {m : Byte} {c : Nat}

/-- A test that ends a sequence. -/
theorem seqTest_stop {s : State} {r : Running} (hr : (s.stepper k).seq = .running r)
    (hm : r.phase = .main → r.main = 0 ∧ r.style ≠ .microstep) (hc : r.phase = .correct → (s.stepper k).pos % 8 = 0) (u : Option Task) :
    (s.setTask (.stepper k) u).seqTest k = (s.setTask (.stepper k) u, []) := by
  unfold State.seqTest
  rw [setTask_stepper_seq, hr, setTask_stepper_pos]
  cases hp : r.phase with
  | main => simp only [hp]; rw [if_neg (by simp [(hm hp).1]), if_neg (hm hp).2]
  | correct => simp only [hp]; rw [if_neg (by simp [hc hp])]

/-- The test between the loops of a Microstep sequence. -/
theorem seqTest_turn {s : State} {r : Running} (hr : (s.stepper k).seq = .running r)
    (hp : r.phase = .main) (hm : r.main = 0) (hy : r.style = .microstep) (u : Option Task) :
    (s.setTask (.stepper k) u).seqTest k =
      ((s.setSeq k (.running { r with phase := .correct })).setTask (.stepper k) u, [.seqTest k]) := by
  unfold State.seqTest
  rw [setTask_stepper_seq, hr]
  simp only [hp]
  rw [if_neg (by simp [hm]), if_pos hy, setSeq_setTask_none]

/-- A sequence from its first test to the end of the operation, on a block otherwise at rest: at most 46 moves for each
invocation, and three. -/
theorem settle_sequence {s : State} (h : Launch s) (hb : s.bus = .open) (n : Nat) (d : Direction) (y : StepStyle) (sps : Rat) {F : Nat}
    (hv : ∀ t : State, t.okValue (.stepper k) op = none)
    (hok : AnswersOk s (24 * invocations s.cfg.correctionMode n y d (s.stepper k).pos))
    (hF : 46 * invocations s.cfg.correctionMode n y d (s.stepper k).pos + 3 ≤ F) :
    State.settle F (.stepper k) ((s.setSeq k (.running (seqStart sps n d y))).setTask (.stepper k)
        (some ⟨op, g, [.seqTest k], m, c⟩)) =
      (s.afterRun (seqEvents s.cfg k (effectiveDelay sps y) y d true (invocations s.cfg.correctionMode n y d (s.stepper k).pos)
          (s.stepper k).pos ++ [.done g op (.ok none)]) (24 * invocations s.cfg.correctionMode n y d (s.stepper k).pos)).stepped
        k y d (invocations s.cfg.correctionMode n y d (s.stepper k).pos) := by
  have hmi : invocations s.cfg.correctionMode n y d (s.stepper k).pos = mainCount n y +
    correctionCount y d (posAfter s.cfg.correctionMode y d (mainCount n y) (s.stepper k).pos) := rfl
  have hA := h.alone (.stepper k)
  -- the main loop
  obtain ⟨F1, hF1, h1⟩ := settle_rounds (op := op) (g := g) (m := m) (c := c) (F := F) (N := mainCount n y)
    (s := s.setSeq k (.running (seqStart sps n d y))) (r := seqStart sps n d y)
    (hA.setSeq _) hb h.lock_free (by simp [State.setSeq]) rfl (by
      have := h.worker_idle (.stepper k)
      simp only [State.worker] at this
      simp [State.setSeq, this, Worker.idle])
    (fun _ => Nat.le_refl _) (fun h => absurd h (by simp [seqStart]))
    (AnswersOk.of_eq (hok.mono (by omega)) rfl rfl) (by omega)
  -- the end, from a state whose sequence has reached its last test
  have fin : ∀ (x : Running) (N G c' : Nat), 2 ≤ G →
      (x.phase = .main → x.main = 0 ∧ x.style ≠ .microstep) →
      (x.phase = .correct → posAfter s.cfg.correctionMode y d N (s.stepper k).pos % 8 = 0) →
      State.settle G (.stepper k) (((s.afterRun (seqEvents s.cfg k (effectiveDelay sps y) y d true N (s.stepper k).pos) (24 * N)).setStepper k
        (loopStepper (s.stepper k) (posAfter s.cfg.correctionMode y d N (s.stepper k).pos)
          (if N = 0 then (s.stepper k).style else some y) x)).setTask (.stepper k) (some ⟨op, g, [.seqTest k], m, c'⟩)) =
      (s.afterRun (seqEvents s.cfg k (effectiveDelay sps y) y d true N (s.stepper k).pos ++ [.done g op (.ok none)]) (24 * N)).stepped
        k y d N := by
    intro x N G c' hG hm hc
    obtain ⟨G0, rfl⟩ : ∃ G0, G = G0 + 1 + 1 := ⟨G - 2, by omega⟩
    have hAr : Alone (.stepper k) (s.afterRun (seqEvents s.cfg k (effectiveDelay sps y) y d true N (s.stepper k).pos) (24 * N)) := hA.afterRun _ _
    have hwk : (s.stepper k).work = Worker.idle := h.worker_idle (.stepper k)
    rw [settle_seqTest (n := G0 + 1) (hAr.setStepper _) (fun u => seqTest_stop (r := x) (by simp [loopStepper]) hm (by simpa [loopStepper] using hc) u)]
    rw [List.append_nil, settle_finish (hAr.setStepper _) hb, hv,
      endTask_setTask _ _ _ _ _ (by simp [State.worker, loopStepper, hwk])]
    have hfin : ((((s.afterRun (seqEvents s.cfg k (effectiveDelay sps y) y d true N (s.stepper k).pos) (24 * N)).setStepper k
        (loopStepper (s.stepper k) (posAfter s.cfg.correctionMode y d N (s.stepper k).pos)
          (if N = 0 then (s.stepper k).style else some y) x)).log (.done g op (.ok none))).unlockFor (.stepper k)).endSeq (.stepper k) =
        (s.afterRun (seqEvents s.cfg k (effectiveDelay sps y) y d true N (s.stepper k).pos ++ [.done g op (.ok none)]) (24 * N)).stepped
        k y d N := by
      have hl : (((s.afterRun (seqEvents s.cfg k (effectiveDelay sps y) y d true N (s.stepper k).pos) (24 * N)).setStepper k
        (loopStepper (s.stepper k) (posAfter s.cfg.correctionMode y d N (s.stepper k).pos)
          (if N = 0 then (s.stepper k).style else some y) x)).log (.done g op (.ok none))).lock = .free := h.lock_free
      rw [State.unlockFor, if_neg (by rw [hl]; simp), log_eq_afterRun _ _ (fun _ => rfl)]
      simp only [State.endSeq, State.setSeq, State.stepped, afterRun_setStepper, afterRun_stepper, State.stepper_setStepper_same,
        setStepper_setStepper, afterRun_afterRun, afterRun_cfg, Nat.add_zero]
      congr 1
      have hs := h.seq_idle k
      simp [loopStepper, hs]
    rw [hfin]
    apply settle_idle
    simp [State.stepped, State.worker, hwk, Worker.idle, Worker.isIdle]
  rw [h1]
  have hS : (((s.setSeq k (.running (seqStart sps n d y))).afterRun (seqEvents (s.setSeq k (.running (seqStart sps n d y))).cfg k
        (seqStart sps n d y).spsEff (seqStart sps n d y).style (seqStart sps n d y).cmd (seqStart sps n d y).first (mainCount n y)
        ((s.setSeq k (.running (seqStart sps n d y))).stepper k).pos) (24 * mainCount n y)).setStepper k
      (loopStepper ((s.setSeq k (.running (seqStart sps n d y))).stepper k)
        (posAfter (s.setSeq k (.running (seqStart sps n d y))).cfg.correctionMode (seqStart sps n d y).style (seqStart sps n d y).cmd
          (mainCount n y) ((s.setSeq k (.running (seqStart sps n d y))).stepper k).pos)
        (if mainCount n y = 0 then ((s.setSeq k (.running (seqStart sps n d y))).stepper k).style else some (seqStart sps n d y).style)
        { seqStart sps n d y with first := (seqStart sps n d y).first && decide (mainCount n y = 0), main := if (seqStart sps n d y).phase = .main then (seqStart sps n d y).main - mainCount n y else (seqStart sps n d y).main })) =
      (s.afterRun (seqEvents s.cfg k (effectiveDelay sps y) y d true (mainCount n y) (s.stepper k).pos) (24 * mainCount n y)).setStepper k
        (loopStepper (s.stepper k) (posAfter s.cfg.correctionMode y d (mainCount n y) (s.stepper k).pos)
          (if mainCount n y = 0 then (s.stepper k).style else some y)
          { seqStart sps n d y with first := decide (mainCount n y = 0), main := 0 }) := by
    simp [State.setSeq, afterRun_setStepper, loopStepper, seqStart]
  rw [hS]
  by_cases hy : y = .microstep
  · subst hy
    obtain ⟨F2, rfl⟩ : ∃ F2, F1 = F2 + 1 := ⟨F1 - 1, by omega⟩
    have hcs := correction_stops s.cfg.correctionMode d (posAfter s.cfg.correctionMode .microstep d (mainCount n .microstep) (s.stepper k).pos)
    generalize hC : correctionCount .microstep d (posAfter s.cfg.correctionMode .microstep d (mainCount n .microstep) (s.stepper k).pos) = C at *
    generalize hM : mainCount n .microstep = M at *
    rw [hmi] at hok hF ⊢
    rw [settle_seqTest (n := F2) (((hA.afterRun _ _).setStepper _)) (fun u =>
      seqTest_turn (r := { seqStart sps n d .microstep with first := decide (M = 0), main := 0 }) (by simp [loopStepper]) rfl rfl rfl u)]
    have hE : (((s.afterRun (seqEvents s.cfg k (effectiveDelay sps .microstep) .microstep d true M (s.stepper k).pos) (24 * M)).setStepper k
        (loopStepper (s.stepper k) (posAfter s.cfg.correctionMode .microstep d M (s.stepper k).pos)
          (if M = 0 then (s.stepper k).style else some .microstep)
          { seqStart sps n d .microstep with first := decide (M = 0), main := 0 })).setSeq k
        (.running { seqStart sps n d .microstep with first := decide (M = 0), main := 0, phase := .correct })) =
      (s.afterRun (seqEvents s.cfg k (effectiveDelay sps .microstep) .microstep d true M (s.stepper k).pos) (24 * M)).setStepper k
        (loopStepper (s.stepper k) (posAfter s.cfg.correctionMode .microstep d M (s.stepper k).pos)
          (if M = 0 then (s.stepper k).style else some .microstep)
          { seqStart sps n d .microstep with first := decide (M = 0), main := 0, phase := .correct }) := by
      simp [State.setSeq, loopStepper]
    rw [List.append_nil, hE]
    obtain ⟨F3, hF3, h3⟩ := settle_rounds (op := op) (g := g) (m := m) (c := c + M) (F := F2) (N := C)
      (s := (s.afterRun (seqEvents s.cfg k (effectiveDelay sps .microstep) .microstep d true M (s.stepper k).pos) (24 * M)).setStepper k
        (loopStepper (s.stepper k) (posAfter s.cfg.correctionMode .microstep d M (s.stepper k).pos)
          (if M = 0 then (s.stepper k).style else some .microstep)
          { seqStart sps n d .microstep with first := decide (M = 0), main := 0, phase := .correct }))
      (r := { seqStart sps n d .microstep with first := decide (M = 0), main := 0, phase := .correct })
      ((hA.afterRun _ _).setStepper _) hb h.lock_free (by simp [loopStepper]) rfl
      (by
        have := h.worker_idle (.stepper k)
        simp only [State.worker] at this
        simp [loopStepper, this, Worker.idle])
      (fun h => absurd h (by simp))
      (fun _ i hi => by simpa [loopStepper, seqStart] using hcs.1 i hi)
      (AnswersOk.of_eq (s := s.afterRun (seqEvents s.cfg k (effectiveDelay sps .microstep) .microstep d true M (s.stepper k).pos) (24 * M))
        (AnswersOk.afterRun (by rw [show 24 * M + 24 * C = 24 * (M + C) by omega]; exact hok) _) rfl rfl) (by omega)
    rw [h3]
    have hfin := fin { seqStart sps n d .microstep with first := decide (M = 0) && decide (C = 0), main := 0, phase := .correct } (M + C) F3 (c + M + C)
      (by omega) (fun h => absurd h (by simp)) (fun _ => by rw [← posAfter_add]; exact hcs.2)
    rw [← hfin]
    congr 2
    simp only [State.stepper_setStepper_same, afterRun_setStepper, setStepper_setStepper, afterRun_afterRun, loopStepper_loopStepper,
      State.setStepper_cfg, afterRun_cfg]
    have hev := seqEvents_add s.cfg k (effectiveDelay sps .microstep) .microstep d M C true (s.stepper k).pos
    simp only [Bool.true_and] at hev
    have hn : 24 * M + 24 * C = 24 * (M + C) := by omega
    rw [← hev, hn]
    congr 1
    by_cases hM0 : M = 0 <;> by_cases hC0 : C = 0 <;> simp [loopStepper, seqStart, posAfter_add, hM0, hC0]
  · have hC : correctionCount y d (posAfter s.cfg.correctionMode y d (mainCount n y) (s.stepper k).pos) = 0 := by
      cases y <;> first | rfl | exact absurd rfl hy
    rw [hC, Nat.add_zero] at hmi
    rw [hmi]
    exact fin _ _ _ _ (by omega) (fun _ => ⟨rfl, hy⟩) (fun h => absurd h (by simp [seqStart]))

end whole

end Sys2Proof.Machine
end

