-- ==== Sys2Proof/Laws/Work.lean ====
section
/-! SUPPORT. How much the block has still to do: a number that every move makes smaller, so that a run to which nothing more
comes ends (spec 42 R234, 70 R305). The weights are bounds, not counts. -/

namespace Sys2Proof.Machine

/-! ### The weights -/

/-- What a loop's test reads of a sequence: its phase, the invocations left in the main loop, its direction. -/
def loopKey : Seq → Option (Phase × Nat × Direction)
  | .idle => none
  | .running r => some (r.phase, r.main, r.cmd)

/-- The key after an invocation has ended. -/
def keyCounted : Option (Phase × Nat × Direction) → Option (Phase × Nat × Direction)
  | some (.main, n, d) => some (.main, n - 1, d)
  | x => x

/-- The weight of a loop's test: all invocations it may still start. -/
def loopCost : Option (Phase × Nat × Direction) → Nat → Nat
  | none, _ => 1
  | some (.main, n, _), _ => 100 * n + 1000
  | some (.correct, _, d), p => 100 * correctionCount .microstep d p + 1

/-- The weight of a program, from the sequence and the position it starts with. -/
def todoCost (mode : CorrectionMode) : Option (Phase × Nat × Direction) → Nat → List Act → Nat
  | _, _, [] => 0
  | q, p, .oneStep _ d y :: rest => 50 + todoCost mode q (nextPos mode p y d).val rest
  | q, p, .seqCount _ :: rest => 1 + todoCost mode (keyCounted q) p rest
  | q, p, .seqTest _ :: rest => loopCost q p + todoCost mode q p rest
  | q, p, .arm _ _ :: rest => 40 + todoCost mode q p rest
  | q, p, _ :: rest => 1 + todoCost mode q p rest

/-- The sequence and the position of an agent; a DC agent and the controller have none. -/
def State.keyOf (s : State) : Actuator → Option (Phase × Nat × Direction)
  | .stepper k => loopKey (s.stepper k).seq
  | .controller => none
  | .dc _ => none

def State.posOf (s : State) : Actuator → Nat
  | .stepper k => (s.stepper k).pos
  | .controller => 0
  | .dc _ => 0

/-- The weight of an operation in progress. -/
def State.taskCost (s : State) (a : Actuator) (t : Option Task) : Nat :=
  match t with
  | some t => 1 + todoCost s.cfg.correctionMode (s.keyOf a) (s.posOf a) t.todo
  | none => 0

/-- The weight of a queued operation: that of its program, and one more for its start. -/
def opCost (cfg : Config) (i : Instr) : Nat :=
  match plan cfg i with
  | .error _ => 1
  | .ok p => 2 + (match p.setup with
    | .nothing => todoCost cfg.correctionMode none 0 p.todo
    | .one _ _ _ => 50
    | .seq _ n _ y => 100 * mainCount n y + 1000
    | .speedSeq _ n _ y _ => 100 * mainCount n y + 1000)

/-- The weight of what an agent has to do. -/
def State.workerCost (s : State) (a : Actuator) : Nat :=
  ((s.worker a).queue.map (opCost s.cfg)).sum + s.taskCost a (s.worker a).task

/-- The weight of an armed release. -/
def State.armedCost (s : State) (m : Fin 4) : Nat := if s.armed m then 30 else 0

/-- The weight of a record of the host. -/
def recordCost (cfg : Config) (r : Record) : Nat :=
  match decode r with
  | .ok i => 1 + opCost cfg i
  | .error _ => 1

/-- The weight of everything the block has still to do. -/
def State.work (s : State) : Nat :=
  (Actuator.all.map s.workerCost).sum + ((List.finRange 4).map s.armedCost).sum + (s.inbox.map (recordCost s.cfg)).sum

/-! ### Programs -/

/-- The weight an action may add to the armed releases. -/
def Act.armCost : Act → Nat
  | .arm _ _ => 30
  | _ => 0

/-- An action that starts nothing and touches no sequence. -/
def Act.plain : Act → Bool
  | .oneStep _ _ _ => false
  | .seqCount _ => false
  | .seqTest _ => false
  | .arm _ _ => false
  | _ => true

theorem todoCost_plain_append {mode : CorrectionMode} {q : Option (Phase × Nat × Direction)} {p : Nat} (u v : List Act)
    (h : ∀ act ∈ u, act.plain = true) : todoCost mode q p (u ++ v) = u.length + todoCost mode q p v := by
  induction u with
  | nil => simp
  | cons act u ih =>
    have h1 := ih (fun x hx => h x (by simp [hx]))
    have h2 := h act (by simp)
    cases act <;> simp_all [Act.plain, todoCost] <;> omega

theorem setchActs_plain (c : Chan) (on off : Nat) :
    (∀ act ∈ setchActs c on off, act.plain = true) ∧ (setchActs c on off).length = 7 := by
  refine ⟨fun act h => ?_, rfl⟩
  simp only [setchActs, tickWrites, List.mem_cons, List.mem_append, List.not_mem_nil, or_false] at h
  rcases h with rfl | rfl | (rfl | rfl | rfl | rfl) | rfl <;> rfl

theorem setpinActs_plain (c : Chan) (b : Bool) :
    (∀ act ∈ setpinActs c b, act.plain = true) ∧ (setpinActs c b).length = 7 := by
  cases b <;> exact setchActs_plain _ _ _

theorem outputActs_plain (cfg : Config) (k : Fin 2) (p : Fin 32) (y : StepStyle) (d : Direction) :
    (∀ act ∈ outputActs cfg k p y d, act.plain = true) ∧ (outputActs cfg k p y d).length = 42 := by
  refine ⟨fun act h => ?_, ?_⟩
  · simp only [outputActs, applyActs, coilActs, List.mem_append] at h
    rcases h with h | h | h | h | h | h
    · exact (setchActs_plain _ _ _).1 act h
    · exact (setchActs_plain _ _ _).1 act h
    all_goals exact (setpinActs_plain _ _).1 act h
  · simp [outputActs, applyActs, coilActs, (setchActs_plain _ _ _).2, (setpinActs_plain _ _).2]

/-- A correction step comes nearer to the boundary (spec 42 R233). -/
theorem correctionCount_next {mode : CorrectionMode} {p : Nat} {d : Direction} (h : p % 8 ≠ 0) :
    correctionCount .microstep d (nextPos mode p .microstep d).val + 1 = correctionCount .microstep d p := by
  cases d <;> simp [correctionCount, nextPos, wrapPos, delta, stepSize, Direction.sign] <;> omega

/-! ### Sums -/

theorem sum_le_sum {α : Type} (l : List α) (f g : α → Nat) (h : ∀ x ∈ l, f x ≤ g x) : (l.map f).sum ≤ (l.map g).sum := by
  induction l with
  | nil => simp
  | cons x l ih =>
    have h1 := ih (fun y hy => h y (by simp [hy]))
    have h2 := h x (by simp)
    simp only [List.map_cons, List.sum_cons]; omega

theorem sum_le_add {α : Type} [DecidableEq α] (l : List α) (hn : l.Nodup) (f g : α → Nat) (a : α) (c d : Nat) (ha : a ∈ l)
    (h : ∀ x ∈ l, x ≠ a → f x ≤ g x) (hd : f a + c ≤ g a + d) : (l.map f).sum + c ≤ (l.map g).sum + d := by
  induction l with
  | nil => simp at ha
  | cons x l ih =>
    simp only [List.map_cons, List.sum_cons]
    rw [List.nodup_cons] at hn
    by_cases hx : x = a
    · subst hx
      have := sum_le_sum l f g (fun y hy => h y (by simp [hy]) (fun e => hn.1 (e ▸ hy)))
      omega
    · have h1 := ih hn.2 (by simpa [Ne.symm hx] using ha) (fun y hy => h y (by simp [hy]))
      have h2 := h x (by simp) hx
      omega

theorem Actuator.mem_all (a : Actuator) : a ∈ Actuator.all := by
  cases a with
  | controller => decide
  | dc m => revert m; decide
  | stepper k => revert k; decide

theorem Actuator.all_nodup : Actuator.all.Nodup := by decide

/-! ### Agents that do not move -/

theorem workerCost_of_eq {s t : State} {a : Actuator} (hw : t.worker a = s.worker a) (hc : t.cfg = s.cfg)
    (hk : t.keyOf a = s.keyOf a) (hp : t.posOf a = s.posOf a) : t.workerCost a = s.workerCost a := by
  unfold State.workerCost State.taskCost
  rw [hw, hc, hk, hp]

/-! ### One action -/

section actions

variable {s : State} {a : Actuator} {t : Task} {act : Act} {rest : List Act}

@[simp] theorem State.keyOf_setTask (u : Option Task) (b : Actuator) : (s.setTask a u).keyOf b = s.keyOf b := by
  cases b <;> simp [State.keyOf, State.setTask]

@[simp] theorem State.posOf_setTask (u : Option Task) (b : Actuator) : (s.setTask a u).posOf b = s.posOf b := by
  cases b <;> simp [State.posOf, State.setTask]

@[simp] theorem State.keyOf_setQueue (u : List Instr) (b : Actuator) : (s.setQueue a u).keyOf b = s.keyOf b := by
  cases b <;> simp [State.keyOf, State.setQueue]

@[simp] theorem State.posOf_setQueue (u : List Instr) (b : Actuator) : (s.setQueue a u).posOf b = s.posOf b := by
  cases b <;> simp [State.posOf, State.setQueue]

theorem State.keyOf_congr {s t : State} (h : t.st = s.st) (b : Actuator) : t.keyOf b = s.keyOf b := by
  cases b <;> simp [State.keyOf, State.stepper, h]

theorem State.posOf_congr {s t : State} (h : t.st = s.st) (b : Actuator) : t.posOf b = s.posOf b := by
  cases b <;> simp [State.posOf, State.stepper, h]

/-- What an action that goes on does to the sequence and the position of its agent. -/
theorem runAct_key (ho : Act.ownedBy a act = true) (hgo : ((s.runAct a t act rest).worker a).task ≠ none) :
    (s.runAct a t act rest).keyOf a = (match act with
      | .seqCount k => keyCounted (loopKey (s.stepper k).seq)
      | .seqTest k => loopKey ((s.seqTest k).1.stepper k).seq
      | _ => s.keyOf a) ∧
    (s.runAct a t act rest).posOf a = (match act with
      | .oneStep k d y => (nextPos s.cfg.correctionMode (s.stepper k).pos y d).val
      | _ => s.posOf a) := by
  have hend : ∀ (u : State) r, ((u.endTask a t r).worker a).task = none := fun u r => by
    simp [State.endTask, State.worker_setTask]
  have hk : ∀ k, Act.ownedBy a act = decide (a = .stepper k) → a = .stepper k := fun k e => by
    rw [ho] at e; exact of_decide_eq_true e.symm
  cases act with
  | oneStep k d y =>
    obtain rfl := hk k rfl
    simp only [State.runAct, State.goOn, State.keyOf_setTask, State.posOf_setTask]
    simp [State.moveStepper, State.keyOf, State.posOf]
  | seqTest k =>
    obtain rfl := hk k rfl
    refine ⟨by simp only [State.runAct, State.goOn, State.keyOf_setTask]; rfl, ?_⟩
    simp only [State.runAct, State.goOn, State.posOf_setTask, State.seqTest, State.seqNext]
    repeat' split
    all_goals simp [State.posOf, State.setSeq]
  | seqCount k =>
    obtain rfl := hk k rfl
    simp only [State.runAct, State.goOn, State.keyOf_setTask, State.posOf_setTask, State.seqCount]
    cases hs : (s.stepper k).seq with
    | idle => simp [State.keyOf, State.posOf, hs, loopKey, keyCounted]
    | running r => cases hr : r.phase <;> simp [State.keyOf, State.posOf, State.setSeq, hs, hr, loopKey, keyCounted]
  | seqWait k =>
    obtain rfl := hk k rfl
    simp only [State.runAct, State.seqWait] at hgo ⊢
    split at hgo
    · exact absurd (hend _ _) hgo
    · next hn =>
      rw [if_neg hn]
      cases hs : (s.stepper k).seq with
      | idle => simp only [State.goOn, State.keyOf_setTask, State.posOf_setTask]; exact ⟨trivial, trivial⟩
      | running r =>
        simp only [State.goOn, State.keyOf_setTask, State.posOf_setTask]
        simp [State.keyOf, State.posOf, State.setSeq, hs, loopKey]
  | checkBus =>
    simp only [State.runAct, State.raiseBusError] at hgo ⊢
    split at hgo
    · exact absurd (hend _ _) hgo
    · next hn => rw [if_neg hn]; simp [State.goOn]
  | acquire =>
    simp only [State.runAct]
    split
    · simp only [State.goOn, State.keyOf_setTask, State.posOf_setTask]
      exact ⟨State.keyOf_congr rfl a, State.posOf_congr rfl a⟩
    · exact ⟨rfl, rfl⟩
  | release =>
    simp only [State.runAct, State.goOn, State.keyOf_setTask, State.posOf_setTask]
    exact ⟨State.keyOf_congr (by simp) a, State.posOf_congr (by simp) a⟩
  | write r v =>
    simp only [State.runAct, State.tryWrite, State.raiseBusError] at hgo ⊢
    split at hgo
    · next hn =>
      simp only [State.goOn, State.keyOf_setTask, State.posOf_setTask]
      exact ⟨State.keyOf_congr rfl a, State.posOf_congr rfl a⟩
    · exact absurd (hend _ _) hgo
  | writeMode1 w =>
    simp only [State.runAct, State.tryWrite, State.raiseBusError] at hgo ⊢
    split at hgo
    · next hn =>
      simp only [State.goOn, State.keyOf_setTask, State.posOf_setTask]
      exact ⟨State.keyOf_congr rfl a, State.posOf_congr rfl a⟩
    · exact absurd (hend _ _) hgo
  | readMode1 =>
    simp only [State.runAct, State.tryReadMode1, State.raiseBusError] at hgo ⊢
    split at hgo
    · next hn =>
      simp only [State.goOn, State.keyOf_setTask, State.posOf_setTask]
      exact ⟨State.keyOf_congr rfl a, State.posOf_congr rfl a⟩
    · exact absurd (hend _ _) hgo
  | wait q =>
    simp only [State.runAct, State.goOn, State.keyOf_setTask, State.posOf_setTask]
    exact ⟨State.keyOf_congr rfl a, State.posOf_congr rfl a⟩
  | arm m d =>
    simp only [State.runAct, State.goOn, State.keyOf_setTask, State.posOf_setTask]
    exact ⟨State.keyOf_congr rfl a, State.posOf_congr rfl a⟩

/-- A loop's test weighs more than what it puts in its place. -/
theorem seqTest_cost {k : Fin 2} (hm : CorrectionIsMicrostep s) :
    todoCost s.cfg.correctionMode (loopKey ((s.seqTest k).1.stepper k).seq) (s.stepper k).pos (s.seqTest k).2 + 1 ≤
      loopCost (loopKey (s.stepper k).seq) (s.stepper k).pos := by
  cases hs : (s.stepper k).seq with
  | idle => simp [State.seqTest, hs, todoCost, loopKey, loopCost]
  | running r =>
    have hle : ∀ d p, correctionCount .microstep d p ≤ 7 := fun d p => by
      cases d <;> simp only [correctionCount] <;> omega
    cases hr : r.phase with
    | main =>
      by_cases hmain : 0 < r.main
      · cases hf : r.first <;>
          simp [State.seqTest, State.seqNext, hs, hr, hmain, hf, State.setSeq, loopKey, loopCost, invocation, todoCost, keyCounted] <;>
          omega
      · by_cases hy : r.style = .microstep
        · have := hle r.cmd (s.stepper k).pos
          simp [State.seqTest, hs, hr, hmain, hy, State.setSeq, loopKey, loopCost, todoCost]
          omega
        · simp [State.seqTest, hs, hr, hmain, hy, loopKey, loopCost, todoCost]
    | correct =>
      have hy := hm k r hs hr
      by_cases hp : (s.stepper k).pos % 8 = 0
      · simp [State.seqTest, hs, hr, hp, loopKey, loopCost, todoCost]
      · have := correctionCount_next (mode := s.cfg.correctionMode) (d := r.cmd) hp
        cases hf : r.first <;>
          simp [State.seqTest, State.seqNext, hs, hr, hp, hf, hy, State.setSeq, loopKey, loopCost, invocation, todoCost, keyCounted] <;>
          omega

/-- ONE ACTION makes the weight of its agent smaller, that of arming a release by more than the release weighs. -/
theorem runAct_cost (ht : (s.worker a).task = some t) (hto : t.todo = act :: rest) (ho : Act.ownedBy a act = true)
    (hf : act = .acquire → s.lock = .free) (hm : CorrectionIsMicrostep s)
    (hl : ∀ k, act = .seqTest k → rest = []) :
    (s.runAct a t act rest).workerCost a + (act.armCost + 1) ≤ s.workerCost a := by
  have hcfg : (s.runAct a t act rest).cfg = s.cfg := (After.runAct s a t act rest).1
  have hpos : 1 ≤ todoCost s.cfg.correctionMode (s.keyOf a) (s.posOf a) (act :: rest) := by
    cases act <;> simp only [todoCost] <;> try omega
    case seqTest k =>
      have : 1 ≤ loopCost (s.keyOf a) (s.posOf a) := by
        unfold loopCost; split <;> omega
      omega
  rcases runAct_cases s a t act rest with ⟨h1, h2, -⟩ | ⟨h1, -⟩ | ⟨u, hu, -, -, h1, -, -⟩
  · exact absurd (hf h1) h2
  · have hna : act.armCost = 0 := by
      cases act with
      | arm m d =>
        have := h1 a
        simp [State.runAct, State.goOn, State.worker_setTask] at this
      | _ => rfl
    have ha := h1 a
    simp only [if_true] at ha
    unfold State.workerCost State.taskCost
    rw [ha, ht, hcfg, hna]
    simp only [hto]
    omega
  · have ha := h1 a
    simp only [if_true] at ha
    have hkey := runAct_key (s := s) (t := t) (rest := rest) ho (by rw [ha]; simp)
    unfold State.workerCost State.taskCost
    rw [ha, ht, hcfg]
    simp only [hto, hu]
    rw [hkey.1, hkey.2]
    have hk : ∀ k, Act.ownedBy a act = decide (a = .stepper k) → a = .stepper k := fun k e => by
      rw [ho] at e; exact of_decide_eq_true e.symm
    cases act with
    | oneStep k d y =>
      obtain rfl := hk k rfl
      have := outputActs_plain s.cfg k (nextPos s.cfg.correctionMode (s.stepper k).pos y d) y d
      simp only [unfoldsTo, todoCost]
      rw [todoCost_plain_append _ _ this.1, this.2]
      simp [State.keyOf, State.posOf, Act.armCost]
    | seqTest k =>
      obtain rfl := hk k rfl
      obtain rfl := hl k rfl
      have := seqTest_cost (s := s) (k := k) hm
      simp only [unfoldsTo, List.append_nil, todoCost, State.keyOf, State.posOf] at this ⊢
      simp [Act.armCost]; omega
    | seqCount k =>
      obtain rfl := hk k rfl
      simp [unfoldsTo, todoCost, State.keyOf, Act.armCost]
    | _ => simp [unfoldsTo, todoCost, Act.armCost]; try omega

end actions

/-! ### One move -/

/-- The start of an operation: its agent's weight becomes smaller than the queued operation's was. -/
theorem begin_cost {s : State} {a : Actuator} {i : Instr} {p : Plan} {rest : List Instr} (hp : plan s.cfg i = .ok p)
    (hs : PlanStarts a p) (ht : (s.worker a).task = none) (hq : (s.worker a).queue = rest) :
    (s.begin a i p).workerCost a + 1 ≤ (rest.map (opCost s.cfg)).sum + opCost s.cfg i := by
  have hcfg : (s.begin a i p).cfg = s.cfg := (After.begin s a i p).1
  obtain ⟨-, hqu, h⟩ := begin_workers s a i p
  unfold State.workerCost State.taskCost
  rw [hqu, hq, hcfg]
  have ho : opCost s.cfg i = 2 + (match p.setup with
      | .nothing => todoCost s.cfg.correctionMode none 0 p.todo
      | .one _ _ _ => 50
      | .seq _ n _ y => 100 * mainCount n y + 1000
      | .speedSeq _ n _ y _ => 100 * mainCount n y + 1000) := by
    simp only [opCost, hp]
  rcases h with ⟨h, -⟩ | ⟨h, -⟩
  · rw [h]; simp only; omega
  · rw [h]; simp only [Task.fresh]
    have hend : ∀ (u : State) t r, ((u.endTask a t r).worker a).task = none := fun u t r => by
      simp [State.endTask, State.worker_setTask]
    unfold PlanStarts at hs
    unfold State.begin at h ⊢
    cases hset : p.setup with
    | nothing =>
      rw [hset] at hs ho; simp only at ho hs
      simp only [State.keyOf_setTask, State.posOf_setTask]
      have hk : s.keyOf a = none ∧ s.posOf a = 0 := by
        cases a with
        | stepper k => exact absurd rfl (hs k)
        | controller => exact ⟨rfl, rfl⟩
        | dc m => exact ⟨rfl, rfl⟩
      rw [hk.1, hk.2]; omega
    | one k d y =>
      rw [hset] at hs ho; simp only at ho hs
      simp only [State.keyOf_setTask, State.posOf_setTask, hs.2, todoCost]
      omega
    | seq k n d y =>
      rw [hset] at hs ho; simp only at ho hs
      obtain ⟨rfl, hs⟩ := hs
      simp only [State.keyOf_setTask, State.posOf_setTask, hs, todoCost]
      simp [State.keyOf, State.setSeq, loopKey, seqStart, loopCost]
      omega
    | speedSeq k n d y rpm =>
      rw [hset] at hs ho h; simp only at ho hs h
      obtain ⟨rfl, hs, -⟩ := hs
      split at h
      · rw [State.raiseBusError, hend] at h; exact absurd h (by simp)
      · next hb =>
        simp only [if_neg hb, State.keyOf_setTask, State.posOf_setTask, hs, todoCost]
        simp [State.keyOf, State.setSeq, loopKey, seqStart, loopCost]
        omega

/-- The armed releases after a move: only arming adds one. -/
theorem tick_armed (s : State) (a : Actuator) (m : Fin 4) : (s.tick a).armed m = s.armed m ∨
    ∃ t d rest, (s.worker a).task = some t ∧ t.todo = .arm m d :: rest := by
  have hG : ∀ (s : State) u, (s.setTask a u).armed m = s.armed m := fun s u => by
    simp [State.armed, State.setTask]
  have hQ : ∀ (s : State) u, (s.setQueue a u).armed m = s.armed m := fun s u => by
    simp [State.armed, State.setQueue]
  have hC : ∀ {s t : State}, t.dc = s.dc → t.armed m = s.armed m := fun h => by simp [State.armed, State.motor, h]
  have hE : ∀ (s : State) t r, (s.endTask a t r).armed m = s.armed m := fun s t r => by
    rw [State.endTask, hG]
    apply hC
    simp
  unfold State.tick
  split
  · left
    unfold State.startNext
    split
    · rfl
    · next i rest hqu =>
      simp only
      split
      · rw [← hQ s rest]; rfl
      · unfold State.begin
        split
        · rw [hG, hQ]
        · rw [hG, ← hQ s rest]; rfl
        · rw [hG, ← hQ s rest]; rfl
        · simp only
          split
          · rw [State.raiseBusError, hE, hQ]
          · rw [hG, ← hQ s rest]; rfl
  · next t ht =>
    split
    · left; unfold State.finish; split <;> simp [State.raiseBusError, hE]
    · next act rest hto =>
      cases act with
      | arm j d =>
        by_cases hj : j = m
        · subst hj; exact .inr ⟨t, d, rest, ht, hto⟩
        · left
          simp [State.runAct, State.goOn, State.armed, State.setTask, State.setPending, State.motor_setMotor, hj]
      | _ =>
        left
        simp only [State.runAct, State.tryWrite, State.tryReadMode1, State.raiseBusError, State.goOn, State.seqTest,
          State.seqNext, State.seqWait, State.seqCount, State.moveStepper]
        repeat' split
        all_goals simp only [hE, hG]
        all_goals first | rfl | (apply hC; simp)

/-- EVERY MOVE OF AN AGENT makes the work smaller. -/
theorem tick_work {s : State} {a : Actuator} (hq : TasksOwned s) (hm : CorrectionIsMicrostep s) (hl : TestIsLast s)
    (hc : s.canTick a = true) : (s.tick a).work + 1 ≤ s.work := by
  have hcfg : (s.tick a).cfg = s.cfg := (After.tick s a).1
  have hothers : ∀ b ∈ Actuator.all, b ≠ a → (s.tick a).workerCost b ≤ s.workerCost b := fun b _ hb => by
    refine Nat.le_of_eq (workerCost_of_eq ((tick_workers s a hq).1 b hb) hcfg ?_ ?_)
    · cases b with
      | stepper k => simp only [State.keyOf]; rw [tick_stepper_ne hq (Ne.symm hb)]
      | _ => rfl
    · cases b with
      | stepper k => simp only [State.posOf]; rw [tick_stepper_ne hq (Ne.symm hb)]
      | _ => rfl
  have hin : ((s.tick a).inbox.map (recordCost (s.tick a).cfg)).sum = (s.inbox.map (recordCost s.cfg)).sum := by
    rw [tick_inbox, hcfg]
  -- an agent's own weight falls, and the armed releases stay
  have plain : (∀ m, (s.tick a).armed m = s.armed m) → (s.tick a).workerCost a + 1 ≤ s.workerCost a →
      (s.tick a).work + 1 ≤ s.work := fun harm hcost => by
    have h1 := sum_le_add Actuator.all Actuator.all_nodup _ _ a 1 0 (Actuator.mem_all a) hothers hcost
    have h2 : ((List.finRange 4).map (s.tick a).armedCost) = (List.finRange 4).map s.armedCost :=
      List.map_congr_left (fun m _ => by simp only [State.armedCost, harm])
    unfold State.work
    rw [hin, h2]; omega
  cases ht : (s.worker a).task with
  | none =>
    have harm : ∀ m, (s.tick a).armed m = s.armed m := fun m => by
      rcases tick_armed s a m with h | ⟨t, d, rest, h, -⟩
      · exact h
      · rw [ht] at h; exact absurd h (by simp)
    refine plain harm ?_
    cases hqu : (s.worker a).queue with
    | nil => simp [State.canTick, ht, hqu] at hc
    | cons i rest =>
      have hi := hq.2 a i (by simp [hqu])
      have hs : s.workerCost a = (rest.map (opCost s.cfg)).sum + opCost s.cfg i := by
        simp only [State.workerCost, State.taskCost, ht, hqu, List.map_cons, List.sum_cons]; omega
      rw [hs]
      have e1 : ((s.setQueue a rest).worker a).task = none := by simp [State.worker_setQueue, ht]
      have e2 : ((s.setQueue a rest).worker a).queue = rest := by simp [State.worker_setQueue]
      simp only [State.tick, ht, State.startNext, hqu]
      cases hp : plan s.cfg i with
      | error c =>
        simp only [State.workerCost, State.taskCost, State.worker_log, e1, e2, opCost, hp]
        simp
      | ok p =>
        have := begin_cost (s := s.setQueue a rest) (a := a) (i := i) (p := p) (rest := rest) (by simpa using hp)
          (plan_good hp hi.1 hi.2).2 e1 e2
        simpa using this
  | some t =>
    cases hto : t.todo with
    | nil =>
      have harm : ∀ m, (s.tick a).armed m = s.armed m := fun m => by
        rcases tick_armed s a m with h | ⟨u, d, rest, h, h'⟩
        · exact h
        · rw [ht] at h; injection h with h; rw [← h, hto] at h'; exact absurd h' (by simp)
      refine plain harm ?_
      have : ((s.tick a).worker a).task = none ∧ ((s.tick a).worker a).queue = (s.worker a).queue := by
        simp only [State.tick, ht, hto, State.finish]
        split <;> simp [State.raiseBusError, State.endTask, State.worker_setTask]
      simp only [State.workerCost, State.taskCost, this.1, this.2, ht, hcfg]
      omega
    | cons act rest =>
      have hrun : s.tick a = s.runAct a t act rest := by simp only [State.tick, ht, hto]
      have hcost := runAct_cost ht hto (hq.1 a t ht act (by simp [hto])) (fun e => by
          simp only [State.canTick, ht, Task.wantsLock, hto, e] at hc; simpa using hc) hm (fun k e => by
          have ho := hq.1 a t ht act (by simp [hto])
          rw [e] at ho
          have ha : a = .stepper k := of_decide_eq_true ho
          subst ha
          have := hl k t ht
          rw [hto, e] at this
          cases rest with
          | nil => rfl
          | cons x l => simp at this)
      rw [← hrun] at hcost
      by_cases harm : ∃ m d, act = .arm m d
      · obtain ⟨m, d, rfl⟩ := harm
        simp only [Act.armCost] at hcost
        have h1 := sum_le_add Actuator.all Actuator.all_nodup _ _ a 31 0 (Actuator.mem_all a) hothers hcost
        have h2 := sum_le_add (List.finRange 4) (List.nodup_finRange 4) (s.tick a).armedCost s.armedCost m 0 30
          (List.mem_finRange m) (fun j _ hj => by
            rcases tick_armed s a j with h | ⟨u, d', rest', h, h'⟩
            · simp [State.armedCost, h]
            · rw [ht] at h; injection h with h; rw [← h, hto] at h'; injection h' with h' _
              injection h' with h' _; exact absurd h'.symm hj) (by
            simp only [State.armedCost]; split <;> split <;> omega)
        unfold State.work
        rw [hin]; omega
      · refine plain (fun m => ?_) (by omega)
        rcases tick_armed s a m with h | ⟨u, d', rest', h, h'⟩
        · exact h
        · rw [ht] at h; injection h with h; rw [← h, hto] at h'; injection h' with h' _
          exact absurd ⟨m, d', h'⟩ harm

/-- A FIRING makes the work smaller: the armed release weighs more than its writes. -/
theorem fire_work {s : State} {m : Fin 4} (h : s.canFire m = true) : (s.fire m).work + 1 ≤ s.work := by
  have hcfg : (s.fire m).cfg = s.cfg := (After.fire s m).1
  have hi := canFire_idle h
  have ha : s.armed m = true := by simp only [State.canFire, Bool.and_eq_true] at h; exact h.1
  have hothers : ∀ b ∈ Actuator.all, b ≠ .dc m → (s.fire m).workerCost b ≤ s.workerCost b := fun b _ hb => by
    refine Nat.le_of_eq (workerCost_of_eq (by rw [fire_worker, if_neg (Ne.symm hb)]) hcfg ?_ ?_)
    · cases b with
      | stepper k => simp only [State.keyOf, fire_stepper]
      | _ => rfl
    · cases b with
      | stepper k => simp only [State.posOf, fire_stepper]
      | _ => rfl
  have hcost : (s.fire m).workerCost (.dc m) + 0 ≤ s.workerCost (.dc m) + 29 := by
    simp only [State.workerCost, State.taskCost, fire_worker, if_true, hi, hcfg, Worker.idle, Task.fresh]
    have hs : ∀ q, todoCost s.cfg.correctionMode q 0 (releaseActs s.cfg m) ≤ 28 := fun q => by
      simp only [releaseActs, dcRunActs]
      rw [todoCost_plain_append _ _ (setpinActs_plain _ _).1, ← List.append_nil (setpinActs s.cfg.wiringDc[m].in2 false),
        todoCost_plain_append _ _ (setpinActs_plain _ _).1]
      simp [todoCost, (setpinActs_plain _ _).2]
    have := hs ((s.fire m).keyOf (.dc m))
    simp only [State.posOf]
    simp; omega
  have h1 := sum_le_add Actuator.all Actuator.all_nodup _ _ (.dc m) 0 29 (Actuator.mem_all _) hothers hcost
  have h2 := sum_le_add (List.finRange 4) (List.nodup_finRange 4) (s.fire m).armedCost s.armedCost m 30 0
    (List.mem_finRange m) (fun j _ hj => by
      have : (s.fire m).armed j = s.armed j := by
        simp [State.fire, State.armed, State.setTask, State.setPending, State.motor_setMotor, Ne.symm hj]
      simp [State.armedCost, this]) (by
      have : (s.fire m).armed m = false := by
        simp [State.fire, State.armed, State.setTask, State.setPending]
      simp [State.armedCost, this, ha])
  have hin : (s.fire m).inbox = s.inbox := by simp [State.fire]
  unfold State.work
  rw [hin, hcfg]; omega

/-! ### One step -/

/-- Only what the weights read matters. -/
theorem work_congr {s t : State} (hw : ∀ b, t.worker b = s.worker b) (hc : t.cfg = s.cfg) (hk : ∀ b, t.keyOf b = s.keyOf b)
    (hp : ∀ b, t.posOf b = s.posOf b) (ha : ∀ m, t.armed m = true → s.armed m = true) (hi : t.inbox = s.inbox) : t.work ≤ s.work := by
  have h1 : Actuator.all.map t.workerCost = Actuator.all.map s.workerCost :=
    List.map_congr_left (fun b _ => workerCost_of_eq (hw b) hc (hk b) (hp b))
  have h2 := sum_le_sum (List.finRange 4) t.armedCost s.armedCost (fun m _ => by
    have := ha m
    unfold State.armedCost; split <;> split <;> simp_all)
  unfold State.work
  rw [h1, hi, hc]; omega

/-- A queued operation adds its weight. -/
theorem enqueue_work (s : State) (a : Actuator) (i : Instr) : (s.enqueue a i).work ≤ s.work + opCost s.cfg i := by
  have h1 := sum_le_add Actuator.all Actuator.all_nodup (s.enqueue a i).workerCost s.workerCost a 0 (opCost s.cfg i) (Actuator.mem_all a)
    (fun b _ hb => Nat.le_of_eq (workerCost_of_eq (by simp [State.enqueue, State.worker_setQueue, Ne.symm hb]) (by simp [State.enqueue]) (by simp [State.enqueue]) (by simp [State.enqueue])))
    (by simp only [State.workerCost, State.taskCost, State.enqueue, State.worker_setQueue, State.keyOf_setQueue, State.posOf_setQueue]; simp; omega)
  have h2 : (List.finRange 4).map (s.enqueue a i).armedCost = (List.finRange 4).map s.armedCost :=
    List.map_congr_left (fun m _ => by
      have : (s.enqueue a i).armed m = s.armed m := by simp [State.armed, State.enqueue, State.setQueue]
      rw [State.armedCost, State.armedCost, this])
  unfold State.work
  rw [h2]
  simp [State.enqueue] at h1 ⊢; omega

/-- The moves that follow an issue at once make the work no larger. -/
theorem settle_work (c : StepClosed SequencerInv) (n : Nat) (a : Actuator) (s : State) (h : SequencerInv s) :
    SequencerInv (State.settle n a s) ∧ (State.settle n a s).work ≤ s.work :=
  settle_induct (P := fun t => SequencerInv t ∧ t.work ≤ s.work) (fun t ht hc =>
    ⟨c.tick t a ht.1 hc, by have := tick_work ht.1.2.1 ht.1.2.2.1 ht.1.2.2.2 hc; omega⟩) n s ⟨h, Nat.le_refl _⟩

/-- AN ISSUE adds at most the weight of its operation. -/
theorem exec_work (c : StepClosed SequencerInv) {i : Instr} {s t : State} (h : SequencerInv s) (he : exec i s = .next t) :
    t.work ≤ s.work + opCost s.cfg i := by
  have hlog : ∀ (s : State) e, (s.log e).work ≤ s.work := fun s e =>
    work_congr (fun b => by simp) rfl (fun b => State.keyOf_congr rfl b) (fun b => State.posOf_congr rfl b) (fun m h => h) rfl
  rcases exec_cases he with ⟨a, ha, hq, rfl⟩ | ⟨j, k', rpm, rfl, -, rfl⟩ | ⟨c', -, rfl⟩
  · have hd : ((s.log (.issue (.actuator a) i)).disarmFor a).work ≤ s.work := by
      refine Nat.le_trans ?_ (hlog s (.issue (.actuator a) i))
      cases a with
      | controller => exact Nat.le_refl _
      | stepper k => exact Nat.le_refl _
      | dc m =>
        refine work_congr (fun b => by simp [State.disarmFor]) rfl (fun b => State.keyOf_congr rfl b) (fun b => State.posOf_congr rfl b) (fun j hj => ?_) rfl
        simp only [State.disarmFor, State.armed, State.setPending, State.motor_setMotor] at hj
        split at hj
        · simp at hj
        · exact hj
    have hinv : SequencerInv ((s.log (.issue (.actuator a) i)).disarmFor a) := by
      cases a with
      | controller => exact c.issue _ _ _ h
      | stepper k => exact c.issue _ _ _ h
      | dc m => exact c.disarm _ _ (c.issue _ _ _ h)
    have hcfg : ((s.log (.issue (.actuator a) i)).disarmFor a).cfg = s.cfg := by cases a <;> rfl
    have hen := enqueue_work ((s.log (.issue (.actuator a) i)).disarmFor a) a i
    rw [hcfg] at hen
    simp only [State.submit]
    split
    · have := hlog ((s.log (.issue (.actuator a) i)).disarmFor a) (.done (.actuator a) i (.busy i)); omega
    · split
      · have := (settle_work c (opFuel i) a _ (c.enqueue _ a i hinv ha hq)).2; omega
      · omega
  · have hsp : ∀ (u : State) (v : Fin 2 × Nat), (u.setSpeed v.1 v.2).work ≤ u.work := fun u v =>
      work_congr (fun b => by simp) rfl (fun b => by cases b <;> simp [State.keyOf, State.setSpeed, State.stepper_setStepper]; split <;> simp_all)
        (fun b => by cases b <;> simp [State.posOf, State.setSpeed, State.stepper_setStepper]; split <;> simp_all) (fun m h => h) rfl
    simp only [State.speedNow]
    split
    · have := hlog s; have := hlog (s.log (.issue (.actuator (.stepper j)) (.stspeed k' rpm))); grind
    · next v hv =>
      split
      · have := hlog s; have := hlog (s.log (.issue (.actuator (.stepper j)) (.stspeed k' rpm))); grind
      · have h1 := hlog s (.issue (.actuator (.stepper j)) (.stspeed k' rpm))
        have h2 := hsp (s.log (.issue (.actuator (.stepper j)) (.stspeed k' rpm))) v
        have h3 := hlog ((s.log (.issue (.actuator (.stepper j)) (.stspeed k' rpm))).setSpeed v.1 v.2) (.done (.actuator (.stepper j)) (.stspeed k' rpm) (.ok none))
        omega
  · have h1 := hlog s (.issue .host i)
    have h2 := hlog (s.log (.issue .host i)) (.done .host i (.configurationError i c'))
    simp only [State.refuseIndex]; omega

@[simp] theorem takeTurn_work (s : State) : s.takeTurn.work = s.work := rfl

/-- EVERY STEP in which somebody can move makes the work smaller. -/
theorem step_work (c : StepClosed SequencerInv) {s t : State} (h : SequencerInv s) (hs : step s = .next t) (hm : s.movers ≠ []) :
    t.work + 1 ≤ s.work := by
  have := step_chosen hs
  cases hp : s.pick s.movers with
  | none => rw [hp] at this; exact absurd this.2 hm
  | some g =>
    rw [hp] at this
    have ht := c.turn s h
    cases g with
    | host =>
      obtain ⟨r, rest, i, hi, hd, he⟩ := this
      have hw : t.work ≤ ({ s.takeTurn with inbox := rest } : State).work + opCost s.cfg i :=
        exec_work c (c.inbox s.takeTurn rest ht) he
      have : ({ s.takeTurn with inbox := rest } : State).work + (1 + opCost s.cfg i) = s.work := by
        have hr : recordCost s.cfg r = 1 + opCost s.cfg i := by simp [recordCost, hd]
        have : s.work = (Actuator.all.map s.workerCost).sum + ((List.finRange 4).map s.armedCost).sum + (s.inbox.map (recordCost s.cfg)).sum := rfl
        rw [this, hi, List.map_cons, List.sum_cons, hr]
        have e : ({ s.takeTurn with inbox := rest } : State).work = (Actuator.all.map s.workerCost).sum + ((List.finRange 4).map s.armedCost).sum + (rest.map (recordCost s.cfg)).sum := rfl
        rw [e]; omega
      omega
    | actuator a =>
      rw [this.2, ← takeTurn_work s]
      exact tick_work ht.2.1 ht.2.2.1 ht.2.2.2 (by rw [canTick_of_eq (s := s) (State.takeTurn_worker s a) rfl]; exact this.1)
    | release m =>
      rw [this.2, ← takeTurn_work s]
      exact fire_work this.1

/-- NO DEADLOCK: where nobody can move, the block is in a launch state (the holder of the lock could move). -/
theorem launch_of_idle {s : State} (hl : LockDiscipline s) (h : SequencerInv s) (hm : s.movers = []) : Launch s := by
  have hn : ∀ g, g ∉ s.movers := by simp [hm]
  have hb : s.inbox = [] := by
    have := mt (mem_movers s .host).mpr (hn _); simpa [State.hostCan] using this
  have hc : ∀ a, s.canTick a = false := fun a => by
    have := mt (mem_movers s (.actuator a)).mpr (hn _); simpa using this
  have hf : ∀ m, s.canFire m = false := fun m => by
    have := mt (mem_movers s (.release m)).mpr (hn _); simpa using this
  -- nobody waits: the holder could move
  have hfree : s.lock = .free := by
    cases hlk : s.lock with
    | free => rfl
    | held b =>
      exfalso
      have h1 := hl b
      cases ht : (s.worker b).task with
      | none => rw [ht] at h1; exact h1 hlk
      | some t =>
        rw [ht] at h1
        have h2 := hc b
        simp only [State.canTick, ht, hlk] at h2
        simp at h2
        unfold Task.wantsLock at h2
        split at h2
        · next e => simp only [e, hlk, bracketed] at h1; simp at h1
        · simp at h2
  have hw : ∀ a, s.worker a = Worker.idle := fun a => by
    have := hc a
    simp only [State.canTick] at this
    cases hwk : s.worker a with
    | mk q t =>
      rw [hwk] at this
      cases t with
      | some t => simp [hfree] at this
      | none => simp at this; simp [Worker.idle, this]
  refine ⟨?_, hb⟩
  have hs : ∀ k, (s.stepper k).seq = .idle := fun k => by
    have := h.1 k
    have hk : (s.stepper k).work = Worker.idle := hw (.stepper k)
    unfold TokenOf at this
    rw [hk] at this
    cases hq : (s.stepper k).seq with
    | idle => rfl
    | running r => rw [hq] at this; exact this.elim
  have ha : ∀ m, s.armed m = false := fun m => by
    have := hf m
    have hk : (s.motor m).work = Worker.idle := hw (.dc m)
    simpa [State.canFire, hk, Worker.isIdle, Worker.idle] using this
  simp [State.isFinal, hw, ha, hs, hfree, Worker.isIdle, Worker.idle, State.inFlight, State.locked]

end Sys2Proof.Machine
end

