-- ==== Sys2Proof/Tests/Slice0.lean ====
section
/-! SUPPORT. Tests on fixed values, their expected results from spec/95_test_vectors.md and spec/30_encoding.md; and for every
obligation with hypotheses a witness that meets them. -/

namespace Sys2Proof.Machine.Tests

open Sys2Proof Sys2Proof.Machine

/-! ### WellFormed refuses an ill-formed operation, once for each check (spec 30 R92, R93, R94) -/

theorem test_ill_channel : Instr.wellFormed (.setch 16 0 0) = false ∧ Instr.wellFormed (.setch (-1) 0 0) = false := by decide
theorem test_ill_frequency_zero : Instr.wellFormed (.setfreq 0) = false := by decide
theorem test_ill_frequency_negative : Instr.wellFormed (.setfreq 0xC04E000000000000) = false := by decide
theorem test_ill_frequency_infinite : Instr.wellFormed (.setfreq 0x7FF0000000000000) = false := by decide
theorem test_ill_frequency_nan : Instr.wellFormed (.setfreq 0x7FF8000000000000) = false := by decide
theorem test_ill_pin : Instr.wellFormed (.setpin 16 1) = false := by decide
theorem test_ill_pin_value : Instr.wellFormed (.setpin 3 2) = false ∧ Instr.wellFormed (.setpin 3 (-1)) = false := by decide
theorem test_ill_dcrun_index : Instr.wellFormed (.dcrun 4 1) = false := by decide
theorem test_ill_dcrun_command : Instr.wellFormed (.dcrun 0 7) = false ∧ Instr.wellFormed (.dcrun 0 0) = false := by decide
theorem test_ill_dcspeed_index : Instr.wellFormed (.dcspeed 4 10) = false := by decide
theorem test_ill_rundc_index : Instr.wellFormed (.rundc (-1) 1 10 none) = false := by decide
theorem test_ill_rundc_command : Instr.wellFormed (.rundc 0 5 10 none) = false := by decide
theorem test_ill_rundc_runtime : Instr.wellFormed (.rundc 0 1 10 (some 0xBFF0000000000000)) = false := by decide
theorem test_ill_stspeed_index : Instr.wellFormed (.stspeed 2 60) = false := by decide
theorem test_ill_stspeed_rpm : Instr.wellFormed (.stspeed 0 0) = false := by decide
theorem test_ill_onestep_index : Instr.wellFormed (.onestep 2 1 1) = false := by decide
theorem test_ill_onestep_brake : Instr.wellFormed (.onestep 0 3 1) = false := by decide
theorem test_ill_onestep_style : Instr.wellFormed (.onestep 0 1 9) = false := by decide
theorem test_ill_step_index : Instr.wellFormed (.step 2 1 1 1) = false := by decide
theorem test_ill_step_release : Instr.wellFormed (.step 0 3 4 1) = false := by decide
theorem test_ill_step_style : Instr.wellFormed (.step 0 3 1 0) = false := by decide
theorem test_ill_runst_index : Instr.wellFormed (.runst 2 4 1 60 1) = false := by decide
theorem test_ill_runst_brake : Instr.wellFormed (.runst 0 4 3 60 1) = false := by decide
theorem test_ill_runst_style : Instr.wellFormed (.runst 1 3 2 5 0) = false := by decide
theorem test_ill_runst_speed : Instr.wellFormed (.runst 0 4 1 0 1) = false ∧ Instr.wellFormed (.runst 0 4 1 (-7) 1) = false := by decide

/-! ### Decoding: each record written out from spec 30 R91 -/

theorem test_decode_init : decode ⟨0x01, []⟩ = .ok .init := by decide
theorem test_decode_setch : decode ⟨0x02, [.int 8, .int 0, .int 2048]⟩ = .ok (.setch 8 0 2048) := by decide
theorem test_decode_setall : decode ⟨0x03, [.int 0, .int 4096]⟩ = .ok (.setall 0 4096) := by decide
theorem test_decode_setfreq : decode ⟨0x04, [.f64 0x4099000000000000]⟩ = .ok (.setfreq 0x4099000000000000) := by decide
theorem test_decode_setpin : decode ⟨0x05, [.int 16, .int 1]⟩ = .ok (.setpin 16 1) := by decide
theorem test_decode_dcrun : decode ⟨0x10, [.int 0, .int 4]⟩ = .ok (.dcrun 0 4) := by decide
theorem test_decode_dcspeed : decode ⟨0x11, [.int 4, .int 10]⟩ = .ok (.dcspeed 4 10) := by decide
theorem test_decode_rundc : decode ⟨0x12, [.int 2, .int 2, .int 300, .f64 0x3FF8000000000000]⟩ =
    .ok (.rundc 2 2 300 (some 0x3FF8000000000000)) := by decide
theorem test_decode_rundc_none : decode ⟨0x12, [.int 0, .int 1, .int 128, .absent]⟩ = .ok (.rundc 0 1 128 none) := by decide
theorem test_decode_stspeed : decode ⟨0x20, [.int 0, .int 60]⟩ = .ok (.stspeed 0 60) := by decide
theorem test_decode_onestep : decode ⟨0x21, [.int 1, .int 1, .int 4]⟩ = .ok (.onestep 1 1 4) := by decide
theorem test_decode_step : decode ⟨0x22, [.int 0, .nat 2, .int 1, .int 2]⟩ = .ok (.step 0 2 1 2) := by decide
theorem test_decode_runst : decode ⟨0x23, [.int 1, .nat 1, .int 2, .int 30, .int 4]⟩ = .ok (.runst 1 1 2 30 4) := by decide
theorem test_decode_reserved : decode ⟨0x00, []⟩ = .error (.reservedSelector 0x00) ∧
    decode ⟨0x06, [.int 1]⟩ = .error (.reservedSelector 0x06) ∧ decode ⟨0x0F, []⟩ = .error (.reservedSelector 0x0F) ∧
    decode ⟨0x13, []⟩ = .error (.reservedSelector 0x13) ∧ decode ⟨0x1F, []⟩ = .error (.reservedSelector 0x1F) ∧
    decode ⟨0x24, []⟩ = .error (.reservedSelector 0x24) ∧ decode ⟨0xFF, []⟩ = .error (.reservedSelector 0xFF) := by decide
theorem test_decode_malformed : decode ⟨0x22, [.int 0, .int 2, .int 1, .int 2]⟩ = .error (.malformedOperands 0x22) := by decide
theorem test_table_words : decodeTableWord 8 0x05 = some (.setpin 0 0) ∧ decodeTableWord 8 0x12 = some (.rundc 0 0 0 none) ∧
    decodeTableWord 8 0x20 = some (.stspeed 0 0) ∧ decodeTableWord 8 0x06 = none := by decide

/-! ### Small states -/

/-- The block at rest, its bus open, with a list of answers. -/
def rest (p : InflightPolicy) (as : List Answer) : State :=
  { State.construct { defaultConfig with inflightPolicy := p } .open with answers := as }

/-- Answers that are all Ok, each read answered 0x01. -/
def oks (n : Nat) : List Answer := List.replicate n (.ok 0x01)

/-- The next state of an operation. -/
def after (i : Instr) (s : State) : State :=
  match exec i s with
  | .next t => t
  | .fault _ => s
  | .refused _ => s

/-- The Ok writes of a history, as the vectors write them: `W(rr,vv)`. -/
def oksOf : Event → Option (Nat × Nat)
  | .write _ r v true => some (r.toNat, v.toNat)
  | _ => none

/-- The Ok writes so far. -/
def writes (s : State) : List (Nat × Nat) := s.hist.filterMap oksOf

/-- The result of the operation that ended last. -/
def lastResult (s : State) : Option Result :=
  match s.hist.getLast? with
  | some (.done _ _ r) => some r
  | _ => none

/-! ### One operation each (spec 95, sections 2 and 3) -/

/-- 2.6: MODE1 read answered 0x91, then written 0x81. -/
theorem test_init : writes (after .init (rest .reject (oks 6 ++ [.ok 0x91, .ok 0]))) =
    [(0xFA, 0), (0xFB, 0), (0xFC, 0), (0xFD, 0), (0x01, 0x04), (0x00, 0x01), (0x00, 0x81)] := by decide +kernel

/-- 2.6: the MODE2 write fails. -/
theorem test_init_mode2_fails : (let t := after .init (rest .reject (oks 4 ++ [.busError]))
    imgGet t.img 0x01 = none ∧ imgGet t.img 0x00 = none ∧ t.lock = .free ∧
    lastResult t = some (.busError .init (some ⟨0x01, some 0x04⟩) none)) := by decide +kernel

/-- 2.2: ticks are clamped; 4096 is kept. -/
theorem test_setch : writes (after (.setch 15 (-5) 5000) (rest .reject (oks 4))) =
    [(0x42, 0x00), (0x43, 0x00), (0x44, 0x00), (0x45, 0x10)] := by decide +kernel

/-- 2.2: the third write fails. -/
theorem test_setch_third_fails : (let t := after (.setch 8 0 2048) (rest .reject (oks 2 ++ [.busError]))
    imgGet t.img 0x26 = some 0 ∧ imgGet t.img 0x27 = some 0 ∧ imgGet t.img 0x28 = none ∧ imgGet t.img 0x29 = none ∧
    t.chanOff 8 = none) := by decide +kernel

/-- 2.3: every channel is (4096, 0). -/
theorem test_setall : (let t := after (.setall 4096 0) (rest .reject (oks 4))
    ∀ c : Chan, t.chanOn c = some 4096 ∧ t.chanOff c = some 0) := by decide +kernel

/-- 2.3: the second write fails, on a block whose channels were known. -/
theorem test_setall_second_fails : (let t := after (.setall 0 0) { rest .reject [.ok 0, .busError] with
      img := [(6, 1), (7, 2), (8, 3), (9, 4)] }
    imgGet t.img 6 = some 0 ∧ imgGet t.img 7 = none ∧ imgGet t.img 8 = some 3 ∧ imgGet t.img 9 = some 4) := by decide +kernel

/-- 2.5: SETFREQ 1600.0 with MODE1 read as 0x81. -/
theorem test_setfreq : writes (after (.setfreq 0x4099000000000000) (rest .reject [.ok 0x81, .ok 0, .ok 0, .ok 0, .ok 0])) =
    [(0x00, 0x91), (0xFE, 0x03), (0x00, 0x81), (0x00, 0x81)] := by decide +kernel

/-- 2.5: SETFREQ 0.0. -/
theorem test_setfreq_zero : (after (.setfreq 0) (rest .reject [])).hist =
    [.issue (.actuator .controller) (.setfreq 0),
     .done (.actuator .controller) (.setfreq 0) (.configurationError (.setfreq 0) .frequency)] := by decide +kernel

/-- 2.4: SETPIN 9, 1. -/
theorem test_setpin : writes (after (.setpin 9 1) (rest .reject (oks 4))) =
    [(0x2A, 0x00), (0x2B, 0x10), (0x2C, 0x00), (0x2D, 0x00)] := by decide +kernel

/-- 2.4: with pin and value wrong, the pin error is reported. -/
theorem test_setpin_both_wrong : lastResult (after (.setpin 16 2) (rest .reject (oks 4))) =
    some (.configurationError (.setpin 16 2) .pin) := by decide +kernel

/-- 2.7: DCRUN 0, FORWARD. -/
theorem test_dcrun_forward : writes (after (.dcrun 0 1) (rest .reject (oks 8))) =
    [(0x2A, 0x00), (0x2B, 0x00), (0x2C, 0x00), (0x2D, 0x10), (0x2E, 0x00), (0x2F, 0x10), (0x30, 0x00), (0x31, 0x00)] := by
  decide +kernel

/-- 2.7: DCRUN 2, BACKWARD. -/
theorem test_dcrun_backward : writes (after (.dcrun 2 2) (rest .reject (oks 8))) =
    [(0x16, 0x00), (0x17, 0x00), (0x18, 0x00), (0x19, 0x10), (0x12, 0x00), (0x13, 0x10), (0x14, 0x00), (0x15, 0x00)] := by
  decide +kernel

/-- 2.8: DCSPEED 0, 300. -/
theorem test_dcspeed : writes (after (.dcspeed 0 300) (rest .reject (oks 4))) =
    [(0x26, 0x00), (0x27, 0x00), (0x28, 0xF0), (0x29, 0x0F)] := by decide +kernel

/-- 2.8: DCSPEED 4, 10. -/
theorem test_dcspeed_index : lastResult (after (.dcspeed 4 10) (rest .reject [])) =
    some (.configurationError (.dcspeed 4 10) .dcIndex) := by decide +kernel

/-- 2.9: RUNDC 2, BACKWARD, 300, 1.5. -/
theorem test_rundc : (let t := after (.rundc 2 2 300 (some 0x3FF8000000000000)) (rest .reject (oks 12))
    writes t = [(0x16, 0x00), (0x17, 0x00), (0x18, 0x00), (0x19, 0x10), (0x12, 0x00), (0x13, 0x10), (0x14, 0x00), (0x15, 0x00),
      (0x0E, 0x00), (0x0F, 0x00), (0x10, 0xF0), (0x11, 0x0F)] ∧
    (t.motor 2).pending = some 0x3FF8000000000000) := by decide +kernel

/-- 2.9: when DCSPEED's write fails, no release is armed. -/
theorem test_rundc_fails : (let t := after (.rundc 0 1 10 (some 0x4000000000000000)) (rest .reject (oks 8 ++ [.busError]))
    (t.motor 0).pending = none ∧ (writes t).length = 8) := by decide +kernel

/-- 2.9: the release of motor 2 fires: its first move. -/
theorem test_fire : (let t := ((rest .reject []).setPending 2 (some 0x3FF8000000000000)).fire 2
    (t.motor 2).pending = none ∧ t.hist = [.fire 2]) := by decide +kernel

/-- 2.13: STSPEED 1, 255 gives 1/850. -/
theorem test_stspeed : (let t := after (.stspeed 1 255) (rest .reject [])
    (t.stepper 1).sps = 1 / 850 ∧ (t.stepper 0).sps = 1 / 10 ∧ (t.stepper 1).acc = 0) := by decide +kernel

/-- 2.13: STSPEED 0, -3. -/
theorem test_stspeed_negative : (let t := after (.stspeed 0 (-3)) (rest .reject [])
    (t.stepper 0).sps = 1 / 10 ∧ lastResult t = some (.configurationError (.stspeed 0 (-3)) .rpm)) := by decide +kernel

/-- 2.12: ONESTEP 0, FORWARD, SINGLE from 0. -/
theorem test_onestep_single : (let t := after (.onestep 0 1 1) (rest .reject (oks 24))
    (t.stepper 0).pos = 8 ∧ lastResult t = some (.ok (some 8)) ∧
    writes t = [(0x26, 0x00), (0x27, 0x00), (0x28, 0xF0), (0x29, 0x0F), (0x3A, 0x00), (0x3B, 0x00), (0x3C, 0xF0), (0x3D, 0x0F),
      (0x2A, 0x00), (0x2B, 0x00), (0x2C, 0x00), (0x2D, 0x10), (0x32, 0x00), (0x33, 0x10), (0x34, 0x00), (0x35, 0x00),
      (0x2E, 0x00), (0x2F, 0x00), (0x30, 0x00), (0x31, 0x10), (0x36, 0x00), (0x37, 0x00), (0x38, 0x00), (0x39, 0x10)]) := by
  decide +kernel

/-- 2.12: ONESTEP 0, BACKWARD, MICROSTEP from 0, Overwritten: SETCH 8, 0, 4000; SETCH 13, 0, 800; pins 9, 11, 10, 12 to
1, 0, 0, 1. -/
theorem test_onestep_micro : (let t := after (.onestep 0 2 4) (rest .reject (oks 24))
    (t.stepper 0).pos = 31 ∧ t.chanOff 8 = some 4000 ∧ t.chanOff 13 = some 800 ∧ t.chanOn 9 = some 4096 ∧
    t.chanOn 11 = some 0 ∧ t.chanOn 10 = some 0 ∧ t.chanOn 12 = some 4096) := by decide +kernel

/-- 2.14: STEP 0, 0, FORWARD, MICROSTEP from 3: the correction alone, 5 invocations. -/
theorem test_step_correction : (let s := (rest .reject (oks 120)).setStepper 0 { Stepper.reset (1 / 10) with pos := 3 }
    let t := after (.step 0 0 1 4) s
    (t.stepper 0).pos = 8 ∧ (writes t).length = 120 ∧ (t.hist.filter (fun e => decide (e = .wait (.stepper 0) (1 / 80)))).length = 4 ∧
    (t.stepper 0).sps = 1 / 10) := by decide +kernel

/-- 2.17: STEP 1, 3, FORWARD, MICROSTEP, the 30th transaction fails. -/
theorem test_step_fails : (let t := after (.step 1 3 1 4) (rest .reject (oks 29 ++ [.busError]))
    (t.stepper 1).pos = 2 ∧ (t.stepper 1).seq = .idle ∧
    (match lastResult t with
      | some (.busError _ (some _) (some p)) => p
      | _ => ⟨99, 99⟩) = ⟨1, 2⟩) := by decide +kernel

/-- 2.15: RUNST 0, 4, FORWARD, 60, SINGLE. -/
theorem test_runst : (let t := after (.runst 0 4 1 60 1) (rest .reject (oks 96))
    (t.stepper 0).pos = 0 ∧ (t.stepper 0).sps = 1 / 200 ∧ (t.stepper 0).style = some .single ∧ (writes t).length = 96 ∧
    (t.hist.filter (fun e => decide (e = .wait (.stepper 0) (1 / 200)))).length = 3 ∧ t.chanOn 9 = some 4096 ∧
    t.chanOn 11 = some 0) := by decide +kernel

/-- 2.17: RUNST 1, 3, BACKWARD, 0, code 0: the style is named, not the speed. -/
theorem test_runst_style_first : lastResult (after (.runst 1 3 2 0 0) (rest .reject [])) =
    some (.configurationError (.runst 1 3 2 0 0) .styleCode) := by decide +kernel

/-- 2.10, rows SINGLE FORWARD and SINGLE BACKWARD under AddBoth, DOUBLE FORWARD under CorrectionOnly. -/
theorem test_next_positions :
    (List.range 32).map (fun p => (nextPos .addBoth p .single .forward).val) =
      [8, 9, 10, 11, 16, 17, 18, 19, 16, 17, 18, 19, 24, 25, 26, 27, 24, 25, 26, 27, 0, 1, 2, 3, 0, 1, 2, 3, 8, 9, 10, 11] ∧
    (List.range 32).map (fun p => (nextPos .addBoth p .single .backward).val) =
      [24, 25, 26, 27, 24, 25, 26, 27, 0, 1, 2, 3, 0, 1, 2, 3, 8, 9, 10, 11, 8, 9, 10, 11, 16, 17, 18, 19, 16, 17, 18, 19] ∧
    (List.range 32).map (fun p => (nextPos .correctionOnly p .double .forward).val) =
      [4, 5, 6, 7, 12, 13, 14, 15, 12, 13, 14, 15, 20, 21, 22, 23, 20, 21, 22, 23, 28, 29, 30, 31, 28, 29, 30, 31, 4, 5, 6, 7] := by
  decide +kernel

/-- 2.16: ONESTEP 0, BACKWARD, INTERLEAVE issued while STEP 0, 10, FORWARD, SINGLE is at a wait, Reject and Supersede. -/
def midStep (p : InflightPolicy) : State :=
  { rest p (oks 400) with
    st := (rest p []).st.set 0
      { pos := 24, sps := 1 / 10, style := some .single, acc := 0,
        seq := .running { cmd := .forward, style := .single, main := 7, phase := .main, spsEff := 1 / 10, first := false, place := .atWait },
        work := ⟨[], some ⟨.step 0 10 1 1, .actuator (.stepper 0),
          [.seqWait 0, .oneStep 0 .forward .single, .seqCount 0, .seqTest 0], 0, 3⟩⟩ } }

theorem test_reject : lastResult (after (.onestep 0 2 3) (midStep .reject)) = some (.busy (.onestep 0 2 3)) := by decide +kernel

theorem test_supersede : (let t := (after (.onestep 0 2 3) (midStep .supersede)).tick (.stepper 0)
    (t.stepper 0).pos = 24 ∧ (t.stepper 0).seq = .idle ∧ lastResult t = some (.cancelled (.step 0 10 1 1)) ∧
    ((t.tick (.stepper 0)).tick (.stepper 0)).stepper 0 = { t.stepper 0 with
      pos := 20, style := some .interleave, seq := (((t.tick (.stepper 0)).tick (.stepper 0)).stepper 0).seq,
      work := (((t.tick (.stepper 0)).tick (.stepper 0)).stepper 0).work }) := by decide +kernel

/-- 2.16: STSPEED 0, 120 at the same point is performed at once; the sequence keeps its delay. -/
theorem test_stspeed_in_flight : (let t := after (.stspeed 0 120) (midStep .reject)
    (t.stepper 0).sps = 1 / 400 ∧ (t.stepper 0).seq = ((midStep .reject).stepper 0).seq) := by decide +kernel

/-- spec 30 R109, R110: the assembler. -/
theorem test_assemble : assemble "SETPIN 16, 1".toList = .op ⟨0x05, [.int 16, .int 1]⟩ := by decide +kernel

/-! ### Witnesses: states and operands that meet the hypotheses of the obligations, at the ends of their ranges -/

/-- `rest` is a launch state, with its bus open. -/
theorem launch_rest (p : InflightPolicy) (as : List Answer) : Launch (rest p as) ∧ (rest p as).bus = .open := ⟨⟨rfl, rfl⟩, rfl⟩

/-- The first `n` answers of `oks n` are Ok. -/
theorem answers_oks (s : State) (n : Nat) (h : s.answers = oks n) : AnswersOk s n := by
  intro j hj
  simp [State.answerAt, h, oks, hj, Answer.isOk]

/-- ReservedSelectorsRefused: a reserved selector at each end of its ranges, and a state whose host would issue one. -/
theorem test_witness_reserved : (∀ sel ∈ ([0x00, 0x06, 0x0F, 0x13, 0x1F, 0x24, 0xFF] : List Byte), sel ∉ assignedSelectors) ∧
    (0x01 : Byte) ∈ assignedSelectors ∧ (0x23 : Byte) ∈ assignedSelectors ∧
    (let s := { rest .reject [] with inbox := [⟨0x24, []⟩] }
     s.pick s.movers = some .host) := by decide

/-- StepRunsDecoded. -/
theorem test_witness_decoded : (let s := { rest .reject [] with inbox := [⟨0x20, [.int 0, .int 60]⟩] }
    s.pick s.movers = some .host ∧ decode ⟨0x20, [.int 0, .int 60]⟩ = .ok (.stspeed 0 60)) ∧
    decodeTableWord 8 0x23 = some (.runst 0 0 0 0 0) := by decide

/-- StepMovesChosenAgent, each clause. -/
theorem test_witness_movers :
    (let s := (rest .reject []).setPending 3 (some 0)
     s.pick s.movers = some (.release 3)) ∧
    (midStep .reject).pick (midStep .reject).movers = some (.actuator (.stepper 0)) ∧ (rest .reject []).movers = [] := by decide

/-- EveryMoverMayGo: two agents may move. -/
theorem test_witness_two_movers : (let s := { (rest .reject []).setPending 3 (some 0) with inbox := [⟨0x01, []⟩] }
    Agent.host ∈ s.movers ∧ Agent.release 3 ∈ s.movers ∧ { s with sched := [.release 3] }.pick s.movers = some (.release 3)) := by decide

/-- Every agent of `midStep` but stepper 0 is at rest. -/
theorem midStep_worker (p : InflightPolicy) (a : Actuator) (h : a ≠ .stepper 0) : (midStep p).worker a = Worker.idle := by
  cases a with
  | controller => rfl
  | dc m => fin_cases m <;> rfl
  | stepper k =>
    have : k = 1 := by have := k.isLt; have : k ≠ 0 := fun e => h (by rw [e]); omega
    subst this; rfl

/-- The invariants that every step keeps, together, in the middle of a sequence, at a step with a next state. -/
theorem test_witness_invariants (p : InflightPolicy) : PositionsInRange (midStep p) ∧ LockDiscipline (midStep p) ∧
    TasksOwned (midStep p) ∧ SequencerInv (midStep p) ∧ WritesLegal (midStep p) ∧ DelaysPositive (midStep p) ∧
    ∃ t, step (midStep p) = .next t := by
  have hown : TasksOwned (midStep p) := by
    refine ⟨fun a t ht => ?_, fun a i hi => ?_⟩
    · by_cases h : a = .stepper 0
      · subst h
        have : t = ⟨.step 0 10 1 1, .actuator (.stepper 0), [.seqWait 0, .oneStep 0 .forward .single, .seqCount 0, .seqTest 0], 0, 3⟩ := by
          have := Option.some.inj ht; exact this.symm
        subst this
        decide
      · rw [midStep_worker p a h] at ht; exact absurd ht (by simp [Worker.idle])
    · by_cases h : a = .stepper 0
      · subst h; exact absurd hi (by simp [midStep, State.worker, State.stepper])
      · rw [midStep_worker p a h] at hi; exact absurd hi (by simp [Worker.idle])
  refine ⟨?_, fun a => ?_, hown, ⟨?_, hown, ?_, ?_⟩, ⟨?_, by simp [midStep, rest, State.construct], fun a t ht => ?_⟩, ⟨?_, ?_⟩, ?_⟩
  · intro k; revert k; cases p <;> decide
  · by_cases h : a = .stepper 0
    · subst h; rfl
    · rw [midStep_worker p a h]; simp [Worker.idle, midStep, rest, State.construct]
  · intro k
    have : k = 0 ∨ k = 1 := by omega
    rcases this with rfl | rfl
    · exact ⟨rfl, by decide⟩
    · exact trivial
  · intro k r hr hc
    have : k = 0 ∨ k = 1 := by omega
    rcases this with rfl | rfl
    · have := Seq.running.inj hr; subst this; exact absurd hc (by decide)
    · exact Seq.noConfusion (hr : Seq.idle = .running r)
  · intro k t ht
    have : k = 0 ∨ k = 1 := by omega
    rcases this with rfl | rfl
    · have := Option.some.inj ht; subst this; decide
    · exact absurd ht (by simp [midStep, rest, State.construct, State.stepper, Stepper.reset, Worker.idle])
  · cases p <;> decide
  · by_cases h : a = .stepper 0
    · subst h
      have : t = ⟨.step 0 10 1 1, .actuator (.stepper 0), [.seqWait 0, .oneStep 0 .forward .single, .seqCount 0, .seqTest 0], 0, 3⟩ := by
        have := Option.some.inj ht; exact this.symm
      subst this
      simp [Act.legal]
    · rw [midStep_worker p a h] at ht; exact absurd ht (by simp [Worker.idle])
  · cases p <;> decide +kernel
  · intro k; cases p <;> (revert k; decide +kernel)
  · cases p <;> exact ⟨_, rfl⟩

/-- StepKeepsImage, ImageAfterTransactions and the frames: a block whose image has entries, which its history builds. -/
theorem test_witness_image : (let s := (rest .reject (oks 8)).busWrite .controller 0xFA 0x07
    ImageIsHistory s ∧ imgWf s.img = true ∧ Answer.isOk s.nextAnswer = true ∧
    (∃ t, step s = .next t) ∧ ∃ t, exec (.dcrun 0 1) s = .next t) := by
  refine ⟨⟨by decide +kernel, by decide +kernel⟩, by decide +kernel, by decide, ⟨_, rfl⟩, ⟨_, rfl⟩⟩

/-- MutualExclusion: the controller holds the lock with a write to issue, and DC agent 1 waits for the lock. -/
def locked : State :=
  { rest .reject [] with
    ctrl := ⟨[], some ⟨.setall 0 0, .actuator .controller, [.write 0xFD 0x00, .release], 0, 0⟩⟩
    dc := (rest .reject []).dc.set 1 ⟨none, ⟨[], some ⟨.dcspeed 1 0, .actuator (.dc 1), setchActs 13 0 0 |>.tail, 0, 0⟩⟩⟩
    lock := .held .controller }

theorem test_witness_mutual_exclusion : LockDiscipline locked ∧ (locked.worker .controller).task =
      some ⟨.setall 0 0, .actuator .controller, [.write 0xFD 0x00, .release], 0, 0⟩ ∧ Act.needsLock (.write 0xFD 0x00) = true ∧
    (∃ u, (locked.worker (.dc 1)).task = some u ∧ u.todo.head? = some .acquire) := by
  refine ⟨fun a => ?_, rfl, rfl, _, rfl, rfl⟩
  cases a with
  | controller => rfl
  | dc m => fin_cases m <;> first | rfl | (show locked.lock ≠ _; decide)
  | stepper k => fin_cases k <;> (show locked.lock ≠ _; decide)

/-- The results on a block at rest: INIT, SETFREQ (60 Hz), and answers enough for each. -/
theorem test_witness_answers : (let s := rest .supersede (oks 8)
    Launch s ∧ s.bus = .open ∧ AnswersOk s 8 ∧ s.answerAt 6 = .ok 0x01 ∧ s.answerAt 0 = .ok 0x01 ∧
    F64.value 0x404E000000000000 = some 60 ∧ (0 : Rat) < 60) :=
  ⟨(launch_rest _ _).1, rfl, answers_oks _ 8 rfl, rfl, rfl, by decide +kernel, by decide⟩

/-- SETCH, SETALL, SETPIN, DCSPEED, DCRUN (8 writes), RUNDC (12 writes) with no runtime and with a runtime of 0.0. -/
theorem test_witness_writes : (let s := rest .reject (oks 12)
    Launch s ∧ s.bus = .open ∧ AnswersOk s 4 ∧ AnswersOk s (dcBytes s.cfg.wiringDc[3] .backward).length ∧
    AnswersOk s ((dcBytes s.cfg.wiringDc[0] .forward).length + 4) ∧ F64.runtimeOk none = true ∧ F64.runtimeOk (some 0) = true) := by
  have h := answers_oks (rest .reject (oks 12)) 12 rfl
  exact ⟨(launch_rest _ _).1, rfl, fun j hj => h j (by omega), fun j hj => h j (Nat.lt_of_lt_of_le hj (by decide)),
    fun j hj => h j (Nat.lt_of_lt_of_le hj (by decide)), rfl, by decide⟩

/-- Brake and the firing: motor 2 armed, the block otherwise at rest. -/
theorem test_witness_armed : (let s := (rest .reject (oks 8)).setPending 2 (some 0x3FF8000000000000)
    Launch (s.setPending 2 none) ∧ s.armed 2 = true ∧ s.bus = .open ∧ AnswersOk s 8) :=
  ⟨⟨by decide, rfl⟩, rfl, rfl, answers_oks _ 8 rfl⟩

/-- StspeedResult, each clause at its boundary: rpm 1; rpm 0; index -1 and 2. -/
theorem test_witness_stspeed : (let s := midStep .reject
    s.bus = .open ∧ 1 ≤ 1 ∧ (0 : Int) < 1 ∧ ¬(0 ≤ (-1 : Int) ∧ (-1 : Int) ≤ 1) ∧ ¬(0 ≤ (2 : Int) ∧ (2 : Int) ≤ 1)) :=
  ⟨rfl, by omega, by omega, by omega, by omega⟩

/-- ONESTEP, STEP (4 single steps: 96 answers) and RUNST at speed 1. -/
theorem test_witness_steps : (let s := rest .reject (oks 96)
    Launch s ∧ s.bus = .open ∧ AnswersOk s 24 ∧
    AnswersOk s (24 * invocations s.cfg.correctionMode 4 .single .forward (s.stepper 0).pos) ∧ (1 : Int) ≤ 1) := by
  have h := answers_oks (rest .reject (oks 96)) 96 rfl
  exact ⟨(launch_rest _ _).1, rfl, fun j hj => h j (by omega), fun j hj => h j (Nat.lt_of_lt_of_le hj (by decide)), by omega⟩

/-- MicrostepEndsOnFullStep and FullCycles: positions at both ends, on a boundary and with an even half-step index. -/
theorem test_witness_positions : 31 < 32 ∧ 0 < 32 ∧ 0 % 8 = 0 ∧ 24 % 8 = 0 ∧ 0 / 4 % 2 = 0 ∧ 27 / 4 % 2 = 0 := by decide

/-- PrescaleByte: the default range. -/
theorem test_witness_prescale : defaultConfig.prescaleMin.toNat ≤ defaultConfig.prescaleMax.toNat := by decide

/-- ConfigurationErrors, each clause: at rest; queued on an idle agent; an index that names no actuator. -/
theorem test_witness_configuration_errors :
    (Launch (rest .reject []) ∧ firstCause (.setpin 16 2) = some .pin) ∧
    (let s := (rest .reject []).setQueue (.dc 3) [.dcrun 3 5]
     (s.worker (.dc 3)).task = none ∧ (s.worker (.dc 3)).queue = [.dcrun 3 5] ∧ queueable (.dcrun 3 5) = true ∧
     opTarget (.dcrun 3 5) = some (.dc 3) ∧ firstCause (.dcrun 3 5) = some .commandCode) ∧
    opTarget (.step 2 0 1 1) = none ∧ opTarget (.dcspeed (-1) 0) = none :=
  ⟨⟨(launch_rest _ _).1, by decide⟩, by decide⟩

/-- FailedBus. -/
theorem test_witness_failed_bus : (let s := { rest .reject [] with bus := .failed }
    Launch s ∧ s.bus = .failed ∧ Instr.wellFormed (.stspeed 0 60) = true ∧ Instr.wellFormed (.dcrun 0 3) = true ∧
    Instr.wellFormed (.step 1 0 1 1) = true ∧ Instr.wellFormed .init = true) :=
  ⟨⟨(launch_rest .reject []).1.1, rfl⟩, rfl, by decide⟩

/-- WriteBusError: the first write of a SETCH and the last of a RUNDC; StepperBusErrors for the
last of an ONESTEP; ErrorsArePrecise with a failing write. -/
theorem test_witness_bus_errors :
    (let s := rest .reject [.busError]
     Launch s ∧ s.bus = .open ∧ AnswersOk s 0 ∧ s.answerAt 0 = .busError ∧ Instr.wellFormed (.setch 15 0 0) = true ∧
     F64.freqOk 0x404E000000000000 = true ∧ (plainWrites s.cfg (.setch 15 0 0)).isSome = true) ∧
    (let s := rest .reject (oks 11 ++ [.busError])
     Launch s ∧ s.answerAt 11 = .busError ∧ Instr.wellFormed (.rundc 3 2 55 (some 0)) = true ∧
     ((plainWrites s.cfg (.rundc 3 2 55 (some 0))).map (fun x => x.2.length)) = some 12) ∧
    (let s := rest .reject (oks 23 ++ [.busError])
     Launch s ∧ s.answerAt 23 = .busError ∧ (onestepBytes s.cfg 0 8 .single .forward).length = 24) ∧
    (∃ t g evs r, exec (.setch 15 0 0) (rest .reject [.busError]) = .next t ∧
      t.hist = (rest .reject [.busError]).hist ++ (.issue g (.setch 15 0 0) :: (evs ++ [.done g (.setch 15 0 0) r])) ∧
      ∃ e ∈ evs, failedTxn? e = some ⟨0x42, some 0⟩) := by
  refine ⟨⟨(launch_rest _ _).1, rfl, fun j hj => absurd hj (by omega), rfl, by decide⟩, ⟨(launch_rest _ _).1, by decide⟩,
    ⟨(launch_rest _ _).1, by decide⟩, ?_⟩
  refine ⟨_, .actuator .controller, [.write .controller 0x42 0 false],
    .busError (.setch 15 0 0) (some ⟨0x42, some 0⟩) none, rfl, ?_, ?_⟩
  · exact (by decide +kernel : (after (.setch 15 0 0) (rest .reject [.busError])).hist =
      [.issue (.actuator .controller) (.setch 15 0 0), .write .controller 0x42 0 false,
       .done (.actuator .controller) (.setch 15 0 0) (.busError (.setch 15 0 0) (some ⟨0x42, some 0⟩) none)])
  · decide

/-- The AnswersOk premises of the errors above. -/
theorem test_witness_bus_errors_answers : AnswersOk (rest .reject (oks 11 ++ [.busError])) 11 ∧
    AnswersOk (rest .reject (oks 23 ++ [.busError])) 23 := by
  constructor <;> (intro j hj; revert j; decide)

/-- BusyBlockQueues: a release is armed, so other moves are open; and a stepper busy under Supersede. -/
theorem test_witness_busy :
    (let s := (rest .reject []).setPending 1 (some 0)
     opTarget (.dcrun 0 1) = some (.dc 0) ∧ queueable (.dcrun 0 1) = true ∧ (s.disarmFor (.dc 0)).movers ≠ [] ∧
     s.inFlightFor (.dc 0) = false) ∧
    (let s := midStep .supersede
     opTarget (.onestep 0 2 3) = some (.stepper 0) ∧ (s.disarmFor (.stepper 0)).movers ≠ [] ∧
     s.inFlightFor (.stepper 0) = true ∧ s.cfg.inflightPolicy = .supersede) := by decide

/-- InflightReject: a sequence in flight; and a command queued behind nothing. -/
theorem test_witness_reject : (((midStep .reject).stepper 0).seq ≠ .idle ∧ (midStep .reject).cfg.inflightPolicy = .reject) ∧
    (((rest .reject []).setQueue (.stepper 1) [.onestep 1 1 1]).stepper 1).work.queue ≠ [] ∧
    opTarget (.onestep 1 1 1) = some (.stepper 1) ∧ queueable (.onestep 1 1 1) = true := by decide

/-- CancelAtWait and CancelOnlyAtWait: the sequence of `midStep` at its wait, with a command queued. -/
theorem test_witness_cancel : (let s := (midStep .supersede).setQueue (.stepper 0) [.onestep 0 2 3]
    (∃ t rest, (s.worker (.stepper 0)).task = some t ∧ t.todo = .seqWait 0 :: rest) ∧
    (s.worker (.stepper 0)).queue = [.onestep 0 2 3] ∧ s.cfg.inflightPolicy = .supersede ∧
    (∃ p, plan s.cfg (.onestep 0 2 3) = .ok p) ∧ Event.cancel 0 ∈ (s.tick (.stepper 0)).hist) :=
  ⟨⟨_, _, rfl, rfl⟩, rfl, rfl, ⟨_, rfl⟩, by decide +kernel⟩

/-- ReleaseCancelledAtIssue: a command for motor 2, and one for another agent; a RUNDC that leaves a release armed. -/
theorem test_witness_cancelled_release : opTarget (.dcspeed 2 0) = some (.dc 2) ∧ opTarget (.runst 1 1 1 1 1) ≠ some (.dc 2) ∧
    ((after (.rundc 2 2 300 (some 0)) (rest .reject (oks 12))).motor 2).pending ≠ none := by decide +kernel

/-- StepperBusErrors: the first and the last transaction of a STEP of 4 single steps and of a RUNST at speed 1. -/
theorem test_witness_stepper_bus_errors :
    (let s := rest .reject [.busError]
     Launch s ∧ s.bus = .open ∧ AnswersOk s 0 ∧ s.answerAt 0 = .busError ∧
     0 < 24 * invocations s.cfg.correctionMode 4 .single .forward (s.stepper 0).pos) ∧
    (let s := rest .reject (oks 95 ++ [.busError])
     Launch s ∧ s.bus = .open ∧ AnswersOk s 95 ∧ s.answerAt 95 = .busError ∧ (1 : Int) ≤ 1 ∧
     95 < 24 * invocations s.cfg.correctionMode 4 .single .forward (s.stepper 0).pos) := by
  refine ⟨⟨(launch_rest _ _).1, rfl, fun j hj => absurd hj (by omega), rfl, by decide⟩,
    ⟨(launch_rest _ _).1, rfl, fun j hj => ?_, by decide, by omega, by decide⟩⟩
  revert j; decide

/-- InitAndSetfreqBusErrors: the first and the last transaction of INIT and of SETFREQ. -/
theorem test_witness_pwm_bus_errors :
    (let s := rest .reject [.busError]
     Launch s ∧ s.bus = .open ∧ AnswersOk s 0 ∧ s.answerAt 0 = .busError) ∧
    (let s := rest .reject (oks 7 ++ [.busError])
     Launch s ∧ AnswersOk s 7 ∧ s.answerAt 7 = .busError ∧ s.answerAt 6 = .ok 0x01) ∧
    (let s := rest .reject (oks 4 ++ [.busError])
     Launch s ∧ AnswersOk s 4 ∧ s.answerAt 4 = .busError ∧ s.answerAt 0 = .ok 0x01 ∧
     F64.value 0x404E000000000000 = some 60) := by
  refine ⟨⟨(launch_rest _ _).1, rfl, fun j hj => absurd hj (by omega), rfl⟩,
    ⟨(launch_rest _ _).1, fun j hj => ?_, rfl, rfl⟩, ⟨(launch_rest _ _).1, fun j hj => ?_, rfl, rfl, by decide +kernel⟩⟩ <;>
    (revert j; decide)

/-- ChipView: a launch state in whose channel view one channel is known, and an operation of each kind. -/
theorem test_witness_chip_view : (let s : State := { rest .reject (oks 8) with img := [(6, 0), (7, 0x10), (8, 1), (9, 0)] }
    Launch s ∧ s.bus = .open ∧ imgWf s.img = true ∧ TicksInRange s ∧ s.chanOn 0 = some 4096 ∧ s.chanOff 0 = some 1 ∧
    s.chanOn 1 = none ∧ F64.freqOk 0x404E000000000000 = true ∧ s.answerAt 6 = .ok 0x01 ∧
    (∃ t, exec (.setch 15 0 5000) s = .next t) ∧ Instr.stspeed 0 1 ≠ .init ∧ ∀ f, Instr.stspeed 0 1 ≠ .setfreq f) := by
  refine ⟨⟨(launch_rest .reject (oks 8)).1.1, rfl⟩, rfl, by decide, fun c v => ?_, by decide, by decide, by decide, by decide +kernel,
    rfl, ⟨_, rfl⟩, by simp, by simp⟩
  have : ∀ c : Chan, (∀ x ∈ ({ rest .reject (oks 8) with img := [(6, 0), (7, 0x10), (8, 1), (9, 0)] } : State).chanOn c, x ≤ 4096) ∧
      (∀ x ∈ ({ rest .reject (oks 8) with img := [(6, 0), (7, 0x10), (8, 1), (9, 0)] } : State).chanOff c, x ≤ 4096) := by decide
  exact fun h => h.elim (fun h => (this c).1 v h) (fun h => (this c).2 v h)

/-- OnlyOneStepMovesPosition: an issue that moves a position. -/
theorem test_witness_position :
    ((after (.onestep 0 1 1) (rest .reject (oks 24))).stepper 0).pos ≠ ((rest .reject (oks 24)).stepper 0).pos := by
  decide +kernel

/-- No agent of `rest` has an operation. -/
theorem rest_idle (x : Actuator) : ((rest .reject []).worker x).task = none := by
  cases x with
  | controller => rfl
  | dc m => revert m; decide
  | stepper k => revert k; decide

/-- FrameStepper: a state whose queues and programs are their agents' own, and a move that sets a delay in it. -/
theorem test_witness_delay : (let s := (rest .reject []).setQueue (.stepper 0) [.runst 0 1 1 1 1]
    TasksOwned s ∧ ((s.tick (.stepper 0)).stepper 0).sps ≠ (s.stepper 0).sps) := by
  refine ⟨⟨fun a t ht => ?_, fun a i hi => ?_⟩, by decide +kernel⟩
  · rw [State.worker_setQueue] at ht
    split at ht <;> (simp only [rest_idle] at ht; exact absurd ht (by simp))
  · cases a with
    | controller => revert i; decide
    | dc m => revert i; revert m; decide
    | stepper k => revert i; revert k; decide

/-! A short run: the controller has an operation with an illegal channel queued, the host one with an illegal index. -/

/-- The order given before the first step; nothing comes later. -/
def shortFeed (n : Nat) : Feed := ⟨[], if n = 0 then [.actuator .controller] else [], []⟩

/-- The state before each step. -/
def shortRun : Nat → State
  | 0 => { rest .reject [] with ctrl := ⟨[.setch 16 0 0], none⟩, inbox := [⟨0x11, [.int 4, .int 10]⟩] }
  | 1 => { rest .reject [] with
      inbox := [⟨0x11, [.int 4, .int 10]⟩], turn := 1
      hist := [.done (.actuator .controller) (.setch 16 0 0) (.configurationError (.setch 16 0 0) .channel)] }
  | _ + 2 => { rest .reject [] with
      turn := 2
      hist := [.done (.actuator .controller) (.setch 16 0 0) (.configurationError (.setch 16 0 0) .channel),
        .issue .host (.dcspeed 4 10), .done .host (.dcspeed 4 10) (.configurationError (.dcspeed 4 10) .dcIndex)] }

theorem shortRun_movers : ∀ n, ((shortRun (n + 2)).fed (shortFeed (n + 2))).movers = [] := fun _ => rfl

theorem shortRun_idle (n : Nat) (a : Actuator) : ((shortRun n).worker a).task = none := by
  match n, a with
  | 0, .controller => rfl
  | 0, .dc m => exact rest_idle (.dc m)
  | 0, .stepper k => exact rest_idle (.stepper k)
  | 1, a => exact rest_idle a
  | _ + 2, a => exact rest_idle a

/-- FairRuns and RunsEnd: `shortRun` is a run with a fair schedule, to which no record comes, from a state that meets the
invariants and in which two agents have a step. -/
theorem test_witness_runs : IsRun shortFeed shortRun ∧ Fair shortFeed shortRun ∧ TasksOwned (shortRun 0) ∧
    LockDiscipline (shortRun 0) ∧ SequencerInv (shortRun 0) ∧ (∀ n, (shortFeed n).records = []) ∧
    (shortRun 0).worker .controller ≠ Worker.idle ∧ (shortRun 0).inbox ≠ [] := by
  have hown : TasksOwned (shortRun 0) := by
    refine ⟨fun a t ht => ?_, fun a i hi => ?_⟩
    · rw [shortRun_idle] at ht; exact absurd ht (by simp)
    · cases a with
      | controller => revert i; decide
      | dc m => revert i; revert m; decide
      | stepper k => revert i; revert k; decide
  refine ⟨fun n => ?_, ⟨fun n g hg => ?_, fun n a ha => ?_, fun n a ha => ?_⟩, hown, fun a => ?_, ⟨fun k => ?_, hown, fun k r hr => ?_,
    fun k t ht => ?_⟩, fun n => rfl, by decide, by decide⟩
  · match n with
    | 0 => rfl
    | 1 => rfl
    | _ + 2 => rfl
  · have hh : chosenAt shortFeed shortRun 1 = some .host := rfl
    match n with
    | 0 =>
      have : g = .host ∨ g = .actuator .controller := by
        have : g ∈ [Agent.host, .actuator .controller] := hg
        simpa using this
      rcases this with rfl | rfl
      · exact ⟨1, by omega, .inl hh⟩
      · exact ⟨0, by omega, .inl rfl⟩
    | 1 =>
      have : g ∈ [Agent.host] := hg
      simp at this; subst this
      exact ⟨1, by omega, .inl hh⟩
    | n + 2 => exact ⟨n + 2, by omega, .inr (by unfold EnabledAt; rw [shortRun_movers]; simp)⟩
  · simp only [State.atWait, shortRun_idle] at ha; exact absurd ha (by simp)
  · simp only [State.wantsLock, shortRun_idle] at ha; exact absurd ha (by simp)
  · rw [shortRun_idle]; simp [shortRun, rest, State.construct]
  · match k with
    | 0 => exact trivial
    | 1 => exact trivial
  · match k with
    | 0 => exact Seq.noConfusion (hr : Seq.idle = .running r)
    | 1 => exact Seq.noConfusion (hr : Seq.idle = .running r)
  · exact absurd (ht.symm.trans (shortRun_idle 0 (.stepper k))) (by simp)

end Sys2Proof.Machine.Tests
end

section
/-! PROOFS. Reset, and what a step keeps of the configuration, the history, the image, the positions and the delays
(spec 10 R20, R24, R25, R34, R35, R43, R50). -/

namespace Sys2Proof.Machine

/-! ### Reset -/

/-- Right after construction every agent is idle. -/
theorem construct_worker (cfg : Config) (b : BusHandle) (a : Actuator) : (State.construct cfg b).worker a = Worker.idle := by
  cases a with
  | controller => rfl
  | dc m => simp [State.worker, State.motor, State.construct]
  | stepper k => simp [State.worker, State.stepper, State.construct, Stepper.reset]

/-- Right after construction every stepper has its reset value. -/
theorem construct_stepper (cfg : Config) (b : BusHandle) (k : Fin 2) :
    (State.construct cfg b).stepper k = Stepper.reset cfg.spsInit := by
  simp [State.stepper, State.construct]

/-- Right after construction no release is armed. -/
theorem construct_pending (cfg : Config) (b : BusHandle) (m : Fin 4) : ((State.construct cfg b).motor m).pending = none := by
  simp [State.motor, State.construct]

/-- Settles O8: field by field, steppers, motors and agents by index. -/
theorem resetValues : Obligations.ResetValues := by
  refine ⟨fun cfg b => ⟨fun a => rfl, fun k => ?_, construct_pending cfg b, rfl, rfl, fun a => ?_, rfl⟩, ⟨_, rfl⟩, rfl⟩
  · rw [construct_stepper]; exact ⟨rfl, rfl, rfl, rfl, rfl⟩
  · rw [construct_worker]; rfl

/-- Right after construction the sequencer's invariant holds: there is no task, no queue and no sequence. -/
theorem construct_sequencerInv (cfg : Config) (b : BusHandle) : SequencerInv (State.construct cfg b) := by
  refine ⟨fun k => ?_, ⟨fun a t ht => ?_, fun a i hi => ?_⟩, fun k r hr => ?_, fun k t ht => ?_⟩
  · unfold TokenOf; rw [construct_stepper]; trivial
  · rw [construct_worker] at ht; simp [Worker.idle] at ht
  · rw [construct_worker] at hi; simp [Worker.idle] at hi
  · rw [construct_stepper] at hr; simp [Stepper.reset] at hr
  · rw [construct_stepper] at ht; simp [Stepper.reset, Worker.idle] at ht

/-- Settles O9: each invariant from the values after construction, the configuration's part from the defaults. -/
theorem resetInvariants : Obligations.ResetInvariants := by
  refine ⟨fun k => ?_, ⟨rfl, rfl⟩, fun a => ?_, construct_sequencerInv _ _, ⟨by decide, fun e he => ?_, fun a t ht => ?_⟩,
    by simp [Config.wellFormed, State.reset, State.construct, defaultConfig], fun k => ?_⟩
  · rw [State.reset, construct_stepper]; decide
  · rw [State.reset, construct_worker]; simp [Worker.idle, State.construct]
  · simp [State.reset, State.construct] at he
  · rw [State.reset, construct_worker] at ht; simp [Worker.idle] at ht
  · rw [State.reset, construct_stepper]; simp [Stepper.reset, defaultConfig]

/-! ### Configuration, bus handle, history and image -/

/-- Whatever an operation or a step does, its next state comes after: same configuration and bus handle, events added, and
the image following them. -/
theorem After.closed (o : State) : StepClosed (After o) where
  turn _ h := h.trans (.same rfl rfl rfl rfl)
  inbox _ _ h := h.trans (.same rfl rfl rfl rfl)
  issue _ _ _ h := h.trans (.log _ _ rfl)
  done _ _ _ _ h := h.trans (.log _ _ rfl)
  disarm _ _ h := h.trans (.same rfl rfl rfl rfl)
  enqueue _ _ _ h _ _ := h.trans (.same (by simp) (by simp) (by simp) (by simp))
  speed _ _ _ h _ := h.trans (.same rfl rfl rfl rfl)
  tick _ _ h _ := h.trans (.tick _ _)
  fire _ _ h _ := h.trans (.fire _ _)

/-- An operation's next state comes after. -/
theorem After.exec {i : Instr} {s t : State} (h : exec i s = .next t) : After s t := (After.closed s).of_exec (.refl s) h

/-- A step's next state comes after. -/
theorem After.step {s t : State} (h : step s = .next t) : After s t := (After.closed s).of_step (.refl s) h

/-- Settles O16: a step's next state comes after. -/
theorem stepKeepsConfigAndHistory : Obligations.StepKeepsConfigAndHistory := by
  intro s t h
  obtain ⟨hcfg, hbus, evs, hhist, -⟩ := After.step h
  exact ⟨hcfg, hbus, evs, hhist.symm⟩

/-- Settles O11: the image follows the events that a step adds. -/
theorem stepKeepsImage : Obligations.StepKeepsImage := by
  rintro s t ⟨hwf, himg⟩ h
  obtain ⟨-, -, evs, hh, hi⟩ := After.step h
  refine ⟨by rw [hi]; exact imgAfterEvents_wf _ _ hwf, ?_⟩
  rw [hi, hh, imgOfHist, imgAfterEvents_append, himg, imgOfHist]

/-! ### A stepper's position and delay -/

/-- A stepper without its sequence record and its agent: position, delay, style and accumulator (spec 10 R34 to R37). -/
def Stepper.body (x : Stepper) : Stepper := { x with seq := .idle, work := Worker.idle }

theorem Stepper.pos_of_body {x y : Stepper} (h : x.body = y.body) : x.pos = y.pos := show x.body.pos = y.body.pos by rw [h]

theorem Stepper.sps_of_body {x y : Stepper} (h : x.body = y.body) : x.sps = y.sps := show x.body.sps = y.body.sps by rw [h]

section body

variable (s : State) (a : Actuator) (k : Fin 2)

@[simp] theorem State.body_setTask (t : Option Task) : ((s.setTask a t).stepper k).body = (s.stepper k).body := by
  simp [State.setTask, Stepper.body]

@[simp] theorem State.body_setQueue (q : List Instr) : ((s.setQueue a q).stepper k).body = (s.stepper k).body := by
  simp [State.setQueue, Stepper.body]

@[simp] theorem State.body_enqueue (i : Instr) : ((s.enqueue a i).stepper k).body = (s.stepper k).body := by
  simp [State.enqueue]

@[simp] theorem State.body_setSeq (j : Fin 2) (q : Seq) : ((s.setSeq j q).stepper k).body = (s.stepper k).body := by
  rw [State.setSeq, State.stepper_setStepper]
  split
  · next h => rw [h]; rfl
  · rfl

@[simp] theorem State.body_endSeq : ((s.endSeq a).stepper k).body = (s.stepper k).body := by
  cases a <;> simp [State.endSeq]

@[simp] theorem State.body_endTask (t : Task) (r : Result) : ((s.endTask a t r).stepper k).body = (s.stepper k).body := by
  simp [State.endTask]

@[simp] theorem State.body_seqTest (j : Fin 2) : (((s.seqTest j).1).stepper k).body = (s.stepper k).body := by
  unfold State.seqTest State.seqNext
  repeat' split
  all_goals simp

@[simp] theorem State.body_seqCount (j : Fin 2) : ((s.seqCount j).stepper k).body = (s.stepper k).body := by
  unfold State.seqCount
  repeat' split
  all_goals simp

@[simp] theorem State.body_seqWait (j : Fin 2) (t : Task) (rest : List Act) :
    ((s.seqWait a j t rest).stepper k).body = (s.stepper k).body := by
  unfold State.seqWait State.goOn
  repeat' split
  all_goals simp

@[simp] theorem State.stepper_setPending (m : Fin 4) (p : Option F64) : (s.setPending m p).stepper k = s.stepper k := rfl

/-- Only a oneStep of the stepper changes position, delay, style or accumulator. -/
theorem runAct_body (t : Task) (act : Act) (rest : List Act) (h : ∀ d y, act ≠ .oneStep k d y) :
    ((s.runAct a t act rest).stepper k).body = (s.stepper k).body := by
  cases act with
  | oneStep j d y =>
    have hj : j ≠ k := fun e => h d y (by rw [e])
    simp [State.runAct, State.goOn, State.moveStepper, State.stepper_setStepper_ne _ _ _ _ hj]
  | seqTest j => simp [State.runAct, State.goOn]
  | seqCount j => simp [State.runAct, State.goOn]
  | seqWait j => simp [State.runAct]
  | _ =>
    simp only [State.runAct, State.tryWrite, State.tryReadMode1, State.raiseBusError, State.goOn]
    repeat' split
    all_goals simp

/-- STSPEED leaves every position (spec 42 R220). -/
theorem setSpeed_pos (j : Fin 2) (rpm : Nat) : ((s.setSpeed j rpm).stepper k).pos = (s.stepper k).pos := by
  rw [State.setSpeed, State.stepper_setStepper]
  split
  · next e => rw [e]
  · rfl

/-- The start of an operation changes a body only by RUNST's inner STSPEED (spec 42 R238). -/
theorem begin_body (i : Instr) (p : Plan) : ((s.begin a i p).stepper k).body = (s.stepper k).body ∨
    ∃ n d y rpm, p.setup = .speedSeq k n d y rpm ∧
      ((s.begin a i p).stepper k).body = ((s.setSpeed k rpm).stepper k).body := by
  unfold State.begin
  cases hp : p.setup with
  | nothing => simp
  | one j d y => simp
  | seq j n d y => simp
  | speedSeq j n d y rpm =>
    dsimp only
    split
    · simp [State.raiseBusError]
    · by_cases hj : j = k
      · subst hj; exact .inr ⟨n, d, y, rpm, rfl, by simp⟩
      · simp [State.stepper_setSpeed_ne _ _ _ _ hj]

end body

/-! ### What a plan is -/

/-- The plan of an operation whose checks pass, with what the checks found (the pseudocode of spec 40, 41, 42). -/
def PlanIs (cfg : Config) (p : Plan) : Instr → Prop
  | .init => planInit cfg = .ok p.todo ∧ p.setup = .nothing
  | .setch ch on off => ∃ c, chan? ch = some c ∧ p = .ofActs (setchActs c (clampTick on) (clampTick off))
  | .setall on off => planSetall on off = .ok p.todo ∧ p.setup = .nothing
  | .setfreq f => planSetfreq cfg f = .ok p.todo ∧ p.setup = .nothing
  | .setpin pin _ => ∃ c b, chan? pin = some c ∧ p = .ofActs (setpinActs c b)
  | .dcrun m cmd => ∃ k c, dcIndex? m = some k ∧ needCommand cmd = .ok c ∧ p = .ofActs (dcRunActs cfg.wiringDc[k] c)
  | .dcspeed m speed => ∃ k, dcIndex? m = some k ∧ p = .ofActs (dcSpeedActs cfg.wiringDc[k] speed)
  | .rundc m cmd speed _ => ∃ k c t, dcIndex? m = some k ∧ needCommand cmd = .ok c ∧
      p = .ofActs (dcRunActs cfg.wiringDc[k] c ++ (dcSpeedActs cfg.wiringDc[k] speed ++ armActs k t))
  | .stspeed _ _ => p = .ofActs []
  | .onestep k _ _ => ∃ j d y, stepperIndex? k = some j ∧ p = ⟨.one j d y, [.oneStep j d y]⟩
  | .step k n _ _ => ∃ j d y, stepperIndex? k = some j ∧ p = ⟨.seq j n d y, [.seqTest j]⟩
  | .runst k n _ _ _ => ∃ j d y rpm, stepperIndex? k = some j ∧ 1 ≤ rpm ∧ p = ⟨.speedSeq j n d y rpm, [.seqTest j]⟩

/-- A step of a chain of checks that passes has passed. -/
theorem bind_ok {α β : Type} {x : Except Cause α} {f : α → Except Cause β} {r : β} (h : (x >>= f) = .ok r) :
    ∃ v, x = .ok v ∧ f v = .ok r := by
  cases x with
  | error e => simp [bind, Except.bind] at h
  | ok v => exact ⟨v, rfl, h⟩

theorem map_ofActs_ok {x : Except Cause (List Act)} {p : Plan} (h : x.map Plan.ofActs = .ok p) :
    ∃ acts, x = .ok acts ∧ Plan.ofActs acts = p := by
  cases x with
  | error e => simp [Except.map] at h
  | ok acts => exact ⟨acts, rfl, by simpa [Except.map] using h⟩

/-- An operation whose checks pass has the plan of its kind. -/
theorem plan_is {cfg : Config} {i : Instr} {p : Plan} (h : plan cfg i = .ok p) : PlanIs cfg p i := by
  cases i with
  | init => obtain ⟨acts, hx, rfl⟩ := map_ofActs_ok (x := planInit cfg) h; exact ⟨hx, rfl⟩
  | setall on off => obtain ⟨acts, hx, rfl⟩ := map_ofActs_ok (x := planSetall on off) h; exact ⟨hx, rfl⟩
  | setfreq f => obtain ⟨acts, hx, rfl⟩ := map_ofActs_ok h; exact ⟨hx, rfl⟩
  | setch ch on off =>
    obtain ⟨acts, hx, rfl⟩ := map_ofActs_ok h
    obtain ⟨c, hc, hx⟩ := bind_ok hx
    cases hx
    exact ⟨c, need_ok hc, rfl⟩
  | setpin pin val =>
    obtain ⟨acts, hx, rfl⟩ := map_ofActs_ok h
    obtain ⟨c, hc, hx⟩ := bind_ok hx
    obtain ⟨b, -, hx⟩ := bind_ok hx
    cases hx
    exact ⟨c, b, need_ok hc, rfl⟩
  | dcrun m cmd =>
    obtain ⟨acts, hx, rfl⟩ := map_ofActs_ok h
    obtain ⟨k, hk, hx⟩ := bind_ok hx
    obtain ⟨c, hc, hx⟩ := bind_ok hx
    cases hx
    exact ⟨k, c, need_ok hk, hc, rfl⟩
  | dcspeed m sp =>
    obtain ⟨acts, hx, rfl⟩ := map_ofActs_ok h
    obtain ⟨k, hk, hx⟩ := bind_ok hx
    cases hx
    exact ⟨k, need_ok hk, rfl⟩
  | rundc m cmd sp rt =>
    obtain ⟨acts, hx, rfl⟩ := map_ofActs_ok h
    obtain ⟨k, hk, hx⟩ := bind_ok hx
    obtain ⟨c, hc, hx⟩ := bind_ok hx
    obtain ⟨t, -, hx⟩ := bind_ok hx
    cases hx
    exact ⟨k, c, t, need_ok hk, hc, rfl⟩
  | stspeed k rpm =>
    change (checkStspeed k rpm).map (fun _ => Plan.ofActs []) = .ok p at h
    cases hc : checkStspeed k rpm <;> simp [hc, Except.map] at h
    exact h.symm
  | onestep k cmd y =>
    obtain ⟨j, hj, h⟩ := bind_ok (show planOnestep k cmd y = _ from h)
    obtain ⟨d, -, h⟩ := bind_ok h
    obtain ⟨z, -, h⟩ := bind_ok h
    cases h
    exact ⟨j, d, z, need_ok hj, rfl⟩
  | step k n cmd y =>
    obtain ⟨j, hj, h⟩ := bind_ok (show planStep k n cmd y = _ from h)
    obtain ⟨d, -, h⟩ := bind_ok h
    obtain ⟨z, -, h⟩ := bind_ok h
    cases h
    exact ⟨j, d, z, need_ok hj, rfl⟩
  | runst k n cmd sp y =>
    obtain ⟨j, hj, h⟩ := bind_ok (show planRunst k n cmd sp y = _ from h)
    obtain ⟨d, -, h⟩ := bind_ok h
    obtain ⟨z, -, h⟩ := bind_ok h
    obtain ⟨r, hr, h⟩ := bind_ok h
    cases h
    refine ⟨j, d, z, r, need_ok hj, ?_, rfl⟩
    unfold needStepperSpeed at hr
    split at hr
    · cases hr
    · cases hr; omega

/-- Only RUNST starts with an inner STSPEED, and its speed is positive (spec 42 R238). -/
theorem plan_rpm_pos {cfg : Config} {i : Instr} {p : Plan} {k : Fin 2} {n : Nat} {d : Direction} {y : StepStyle} {rpm : Nat}
    (h : plan cfg i = .ok p) (hp : p.setup = .speedSeq k n d y rpm) : 1 ≤ rpm := by
  have hi := plan_is h
  cases i with
  | runst k n cmd sp y => obtain ⟨j, d, z, r, -, hr, rfl⟩ := hi; cases hp; exact hr
  | init => rw [hi.2] at hp; cases hp
  | setall on off => rw [hi.2] at hp; cases hp
  | setfreq f => rw [hi.2] at hp; cases hp
  | setch ch on off => obtain ⟨c, -, rfl⟩ := hi; cases hp
  | setpin pin val => obtain ⟨c, b, -, rfl⟩ := hi; cases hp
  | dcrun m cmd => obtain ⟨k, c, -, -, rfl⟩ := hi; cases hp
  | dcspeed m sp => obtain ⟨k, -, rfl⟩ := hi; cases hp
  | rundc m cmd sp rt => obtain ⟨k, c, t, -, -, rfl⟩ := hi; cases hp
  | stspeed k rpm => cases hi; cases hp
  | onestep k cmd y => obtain ⟨j, d, z, -, rfl⟩ := hi; cases hp
  | step k n cmd y => obtain ⟨j, d, z, -, rfl⟩ := hi; cases hp

/-! ### One move and the steppers' bodies -/

/-- WHAT ONE MOVE DOES TO A STEPPER'S BODY: nothing, or a oneStep moves it, or RUNST's inner STSPEED sets its delay. -/
theorem tick_body (s : State) (a : Actuator) (k : Fin 2) :
    ((s.tick a).stepper k).body = (s.stepper k).body ∨
    (∃ t d y rest, (s.worker a).task = some t ∧ t.todo = .oneStep k d y :: rest ∧
      ((s.tick a).stepper k).body = ((s.moveStepper k d y).stepper k).body) ∨
    (∃ rpm, 1 ≤ rpm ∧ ((s.tick a).stepper k).body = ((s.setSpeed k rpm).stepper k).body) := by
  unfold State.tick
  split
  · unfold State.startNext
    split
    · exact .inl rfl
    · next i rest hq =>
      dsimp only
      split
      · exact .inl (by simp)
      · next p hp =>
        rcases begin_body (s.setQueue a rest) a k i p with h | ⟨n, d, y, rpm, hset, h⟩
        · exact .inl (by rw [h]; simp)
        · refine .inr (.inr ⟨rpm, plan_rpm_pos hp hset, ?_⟩)
          rw [h]
          simp [State.setSpeed, Stepper.body, State.setQueue]
  · next t ht =>
    split
    · unfold State.finish
      split <;> exact .inl (by simp [State.raiseBusError])
    · next act rest hto =>
      by_cases hact : ∃ d y, act = .oneStep k d y
      · obtain ⟨d, y, rfl⟩ := hact
        exact .inr (.inl ⟨t, d, y, rest, ht, hto, by simp [State.runAct, State.goOn]⟩)
      · exact .inl (runAct_body s a k t act rest (fun d y e => hact ⟨d, y, e⟩))

/-- ONE MOVE AND A POSITION: it stays, or a oneStep takes it to the position of spec 42 R214. -/
theorem tick_pos (s : State) (a : Actuator) (k : Fin 2) : ((s.tick a).stepper k).pos = (s.stepper k).pos ∨
    ∃ t d y rest, (s.worker a).task = some t ∧ t.todo = .oneStep k d y :: rest ∧
      ((s.tick a).stepper k).pos = (nextPos s.cfg.correctionMode (s.stepper k).pos y d).val := by
  rcases tick_body s a k with h | ⟨t, d, y, rest, ht, hto, h⟩ | ⟨rpm, -, h⟩
  · exact .inl (Stepper.pos_of_body h)
  · exact .inr ⟨t, d, y, rest, ht, hto, by rw [Stepper.pos_of_body h]; simp [State.moveStepper]⟩
  · exact .inl (by rw [Stepper.pos_of_body h]; simp [State.setSpeed])

/-- What a property of a stepper's body needs, to be kept by every step. -/
theorem body_closed {P : State → Prop} (same : ∀ s t : State, t.cfg = s.cfg →
      (∀ k, (t.stepper k).body = (s.stepper k).body) → P s → P t)
    (speed : ∀ s k rpm, P s → 1 ≤ rpm → P (s.setSpeed k rpm))
    (tick : ∀ s a, P s → P (s.tick a)) : StepClosed P where
  turn s h := same s _ rfl (fun _ => rfl) h
  inbox s _ h := same s _ rfl (fun _ => rfl) h
  issue s _ _ h := same s _ rfl (fun _ => rfl) h
  done s _ _ _ h := same s _ rfl (fun _ => rfl) h
  disarm s _ h := same s _ rfl (fun _ => rfl) h
  enqueue s a i h _ _ := same s _ (by simp) (fun k => by simp) h
  speed := speed
  tick s a h _ := tick s a h
  fire s m h := fun _ => same s _ (After.fire s m).1 (fun k => by rw [fire_stepper]) h

/-- Settles O10: a oneStep moves into 0..31, and nothing else moves. -/
theorem stepKeepsPositions : Obligations.StepKeepsPositions := by
  intro s t hs hstep
  refine (body_closed (P := PositionsInRange) (fun s t _ hb h k => ?_) (fun s k rpm h _ j => ?_) (fun s a h k => ?_)).of_step hs hstep
  · rw [Stepper.pos_of_body (hb k)]; exact h k
  · rw [setSpeed_pos]; exact h j
  · rcases tick_pos s a k with e | ⟨t, d, y, rest, -, -, e⟩
    · rw [e]; exact h k
    · rw [e]; exact Fin.isLt _

/-- The delay that STSPEED sets is positive, for positive steps per revolution (spec 42 R220, 00 R7). -/
theorem secondsPerStep_pos {cfg : Config} (h : cfg.wellFormed = true) (k : Fin 2) {rpm : Nat} (hr : 1 ≤ rpm) :
    0 < secondsPerStep cfg k rpm := by
  simp only [Config.wellFormed, Bool.and_eq_true, decide_eq_true_eq] at h
  obtain ⟨⟨h0, h1⟩, -⟩ := h
  have hk : 0 < cfg.stepsPerRev[k] := by
    match k with
    | 0 => exact h0
    | 1 => exact h1
  have : 0 < cfg.stepsPerRev[k] * rpm := Nat.mul_pos hk hr
  unfold secondsPerStep
  positivity

/-- STSPEED keeps the delays positive. -/
theorem DelaysPositive.setSpeed {s : State} (h : DelaysPositive s) (k : Fin 2) {rpm : Nat} (hr : 1 ≤ rpm) :
    DelaysPositive (s.setSpeed k rpm) := by
  obtain ⟨hcfg, hsps⟩ := h
  refine ⟨hcfg, fun j => ?_⟩
  rw [State.setSpeed, State.stepper_setStepper]
  split
  · exact secondsPerStep_pos hcfg k hr
  · exact hsps j

/-- One move keeps the delays positive. -/
theorem DelaysPositive.tick {s : State} (h : DelaysPositive s) (a : Actuator) : DelaysPositive (s.tick a) := by
  have hcfg : (s.tick a).cfg = s.cfg := (After.tick s a).1
  refine ⟨by rw [hcfg]; exact h.1, fun k => ?_⟩
  rcases tick_body s a k with e | ⟨t, d, y, rest, -, -, e⟩ | ⟨rpm, hr, e⟩
  · rw [Stepper.sps_of_body e]; exact h.2 k
  · rw [Stepper.sps_of_body e]; simpa [State.moveStepper] using h.2 k
  · rw [Stepper.sps_of_body e]; exact (h.setSpeed k hr).2 k

/-- Settles O15: only STSPEED sets a delay, on its own or inside RUNST, and a positive one. -/
theorem stepKeepsDelays : Obligations.StepKeepsDelays := by
  intro s t hs hstep
  refine (body_closed (P := DelaysPositive) (fun s t hc hb h => ⟨hc ▸ h.1, fun k => ?_⟩) (fun s k rpm h hr => h.setSpeed k hr)
    (fun s a h => h.tick a)).of_step hs hstep
  rw [Stepper.sps_of_body (hb k)]; exact h.2 k

end Sys2Proof.Machine
end

section
/-! PROOFS. What a step keeps of the agents' tasks, the lock and the writes (spec 10 R29, R30, R33, R42, R44, 20 R69, R72). -/

namespace Sys2Proof.Machine

/-! ### Invariants of tasks, lock, sequences and history -/

/-- The events added from `s` to `t` write only what `W` allows. -/
def AddsWrites (W : Byte → Byte → Prop) (s t : State) : Prop :=
  ∃ evs, t.hist = s.hist ++ evs ∧ ∀ b r v ok, Event.write b r v ok ∈ evs → W r v

namespace AddsWrites

variable {W : Byte → Byte → Prop} {s t u : State}

theorem refl (s : State) : AddsWrites W s s := ⟨[], by simp, by simp⟩

theorem trans (h : AddsWrites W s t) (k : AddsWrites W t u) : AddsWrites W s u := by
  obtain ⟨e, he, hw⟩ := h
  obtain ⟨f, hf, hx⟩ := k
  exact ⟨e ++ f, by rw [hf, he, List.append_assoc],
    fun b r v ok hm => (List.mem_append.mp hm).elim (hw b r v ok) (hx b r v ok)⟩

theorem same (h : t.hist = s.hist) : AddsWrites W s t := ⟨[], by simp [h], by simp⟩

/-- One event that is no write. -/
theorem one {e : Event} (h : t.hist = s.hist ++ [e]) (he : ∀ b r v ok, e ≠ .write b r v ok) : AddsWrites W s t :=
  ⟨[e], h, fun b r v ok hm => absurd (List.mem_singleton.mp hm).symm (he b r v ok)⟩

theorem endTask (s : State) (a : Actuator) (t : Task) (r : Result) : AddsWrites W s (s.endTask a t r) :=
  one (State.endTask_hist s a t r) (by simp)

theorem raiseBusError (s : State) (a : Actuator) (t : Task) (x : Option Txn) : AddsWrites W s (s.raiseBusError a t x) :=
  endTask _ _ _ _

theorem goOn (s : State) (a : Actuator) (t : Task) (rest : List Act) : AddsWrites W s (s.goOn a t rest) :=
  same (by simp [State.goOn])

theorem setTask (s : State) (a : Actuator) (t : Option Task) : AddsWrites W s (s.setTask a t) := same (by simp)

theorem tryWrite (s : State) (a : Actuator) (t : Task) (r v : Byte) (rest : List Act) (h : W r v) :
    AddsWrites W s (s.tryWrite a t r v rest) := by
  have hw : AddsWrites W s (s.busWrite a r v) := ⟨_, rfl, fun b r' v' ok hm => by
    obtain ⟨-, rfl, rfl, -⟩ := Event.write.inj (List.mem_singleton.mp hm); exact h⟩
  unfold State.tryWrite
  split
  · exact hw.trans (goOn _ _ _ _)
  · exact hw.trans (raiseBusError _ _ _ _)

end AddsWrites

/-- Only queues, armed releases, delays and records of the history that are no writes change: what an issue does by itself. -/
structure Quiet (s t : State) : Prop where
  cfg : t.cfg = s.cfg
  lock : t.lock = s.lock
  task : ∀ a, (t.worker a).task = (s.worker a).task
  seq : ∀ k, (t.stepper k).seq = (s.stepper k).seq
  hist : AddsWrites (fun _ _ => False) s t

theorem State.worker_enqueue (s : State) (a b : Actuator) (i : Instr) : (s.enqueue a i).worker b =
    if a = b then { s.worker a with queue := (s.worker a).queue ++ [i] } else s.worker b := by
  simp only [State.enqueue, State.worker_setQueue]

theorem Quiet.log (s : State) (e : Event) (he : ∀ b r v ok, e ≠ .write b r v ok) : Quiet s (s.log e) where
  cfg := rfl
  lock := rfl
  task _ := by simp
  seq _ := rfl
  hist := .one rfl he

theorem Quiet.enqueue (s : State) (a : Actuator) (i : Instr) : Quiet s (s.enqueue a i) where
  cfg := by simp
  lock := by simp
  task b := by rw [State.worker_enqueue]; split <;> simp_all
  seq k := by simp [State.enqueue, State.setQueue]
  hist := .same (by simp)

theorem Quiet.setPending (s : State) (m : Fin 4) (p : Option F64) : Quiet s (s.setPending m p) where
  cfg := rfl
  lock := rfl
  task _ := by simp
  seq _ := rfl
  hist := .same rfl

theorem Quiet.setSpeed (s : State) (k : Fin 2) (rpm : Nat) : Quiet s (s.setSpeed k rpm) where
  cfg := rfl
  lock := rfl
  task _ := by simp
  seq j := by rw [State.setSpeed, State.stepper_setStepper]; split <;> simp_all
  hist := .same rfl

theorem Quiet.takeTurn (s : State) : Quiet s s.takeTurn := ⟨rfl, rfl, fun _ => by simp, fun _ => rfl, .same rfl⟩

theorem Quiet.setInbox (s : State) (rest : List Record) : Quiet s { s with inbox := rest } :=
  ⟨rfl, rfl, fun a => by cases a <;> rfl, fun _ => rfl, .same rfl⟩

/-- A property that an issue by itself keeps, and that moves and firings keep under an invariant, is kept by every step under
that invariant. -/
theorem StepClosed.strengthen {P Q : State → Prop} (c : StepClosed P) (quiet : ∀ s t, Quiet s t → Q s → Q t)
    (tick : ∀ s a, P s → Q s → Q (s.tick a)) (fire : ∀ s m, P s → Q s → s.canFire m = true → Q (s.fire m)) :
    StepClosed (fun s => P s ∧ Q s) where
  turn s h := ⟨c.turn s h.1, quiet _ _ (.takeTurn s) h.2⟩
  inbox s rest h := ⟨c.inbox s rest h.1, quiet _ _ (.setInbox s rest) h.2⟩
  issue s g i h := ⟨c.issue s g i h.1, quiet _ _ (.log s _ (by simp)) h.2⟩
  done s g i r h := ⟨c.done s g i r h.1, quiet _ _ (.log s _ (by simp)) h.2⟩
  disarm s m h := ⟨c.disarm s m h.1, quiet _ _ (.setPending s m _) h.2⟩
  enqueue s a i h ht hq := ⟨c.enqueue s a i h.1 ht hq, quiet _ _ (.enqueue s a i) h.2⟩
  speed s k rpm h hr := ⟨c.speed s k rpm h.1 hr, quiet _ _ (.setSpeed s k rpm) h.2⟩
  tick s a h hc := ⟨c.tick s a h.1 hc, tick s a h.1 h.2⟩
  fire s m h hc := ⟨c.fire s m h.1 hc, fire s m h.1 h.2 hc⟩

/-! ### Tasks and queues are their agent's own -/

/-- Where the actions of an agent's task come from after its move: from its task before, or from a good program. -/
theorem tick_todo {s : State} {a : Actuator} (h : TasksOwned s) {t : Task} {x : Act}
    (ht : ((s.tick a).worker a).task = some t) (hx : x ∈ t.todo) :
    (∃ u, (s.worker a).task = some u ∧ x ∈ u.todo) ∨
    ((s.cfg.prescaleMin.toNat ≤ s.cfg.prescaleMax.toNat → Act.legal s.cfg x = true) ∧ Act.ownedBy a x = true) := by
  obtain ⟨-, -, hc⟩ := tick_workers s a h
  rcases hc with ⟨hn, -⟩ | ⟨-, -, p, i, -, hg, -, hu⟩ | ⟨-, -, -, -, -, -, -, he⟩ | ⟨u, act, rest, w, hu, hto, hw, hwt, -, -⟩
  · rw [hn] at ht; cases ht
  · rw [hu] at ht; cases ht
    exact .inr ⟨(hg.2 x hx).1, (hg.2 x hx).2.1⟩
  · rw [he] at ht; exact .inl ⟨t, ht, hx⟩
  · rw [hw] at ht; cases ht
    rw [hwt] at hx
    rcases List.mem_append.mp hx with hx | hx
    · exact .inr ((unfolds_good s a act (h.1 a u hu act (by simp [hto]))).2.1 x hx)
    · exact .inl ⟨u, hu, by simp [hto, hx]⟩

/-- An invariant of tasks and queues is one of the agents' records alone. -/
theorem TasksOwned.of_worker {s t : State} (h : TasksOwned s) (hw : ∀ a, t.worker a = s.worker a) : TasksOwned t := by
  unfold TasksOwned; simp only [hw]; exact h

theorem TasksOwned.enqueue {s : State} (h : TasksOwned s) {a : Actuator} {i : Instr} (ht : opTarget i = some a)
    (hq : queueable i = true) : TasksOwned (s.enqueue a i) := by
  refine ⟨fun b t hb => ?_, fun b j hj => ?_⟩
  · rw [(Quiet.enqueue s a i).task b] at hb; exact h.1 b t hb
  · rw [State.worker_enqueue] at hj
    split at hj
    · next e =>
      subst e
      rcases List.mem_append.mp hj with hj | hj
      · exact h.2 a j hj
      · rw [List.mem_singleton.mp hj]; exact ⟨ht, hq⟩
    · exact h.2 b j hj

theorem TasksOwned.tick {s : State} (h : TasksOwned s) (a : Actuator) : TasksOwned (s.tick a) := by
  obtain ⟨hne, ⟨l, hq⟩, -⟩ := tick_workers s a h
  refine ⟨fun b t ht x hx => ?_, fun b i hi => ?_⟩
  · by_cases hb : b = a
    · subst hb
      rcases tick_todo h ht hx with ⟨u, hu, hxu⟩ | ⟨-, ho⟩
      · exact h.1 b u hu x hxu
      · exact ho
    · rw [hne b hb] at ht; exact h.1 b t ht x hx
  · by_cases hb : b = a
    · subst hb; exact h.2 b i (by rw [hq]; exact List.mem_append_right l hi)
    · rw [hne b hb] at hi; exact h.2 b i hi

/-- The program of a firing is a good one. -/
theorem releaseActs_good (cfg : Config) (m : Fin 4) : GoodProgram cfg (.dc m) (releaseActs cfg m) := good_dcRun _ _ _ _

theorem TasksOwned.fire {s : State} (h : TasksOwned s) (m : Fin 4) : TasksOwned (s.fire m) := by
  refine ⟨fun b t ht x hx => ?_, fun b i hi => ?_⟩
  · rw [fire_worker] at ht
    split at ht
    · next e => subst e; cases ht; exact ((releaseActs_good s.cfg m).2 x hx).2.1
    · exact h.1 b t ht x hx
  · rw [fire_worker] at hi
    split at hi
    · next e => subst e; exact h.2 _ i hi
    · exact h.2 b i hi

/-- Every step keeps tasks and queues their agent's own. -/
theorem TasksOwned.closed : StepClosed TasksOwned where
  turn _ h := h.of_worker (fun _ => by simp)
  inbox _ _ h := h.of_worker (fun a => by cases a <;> rfl)
  issue _ _ _ h := h.of_worker (fun _ => by simp)
  done _ _ _ _ h := h.of_worker (fun _ => by simp)
  disarm _ _ h := h.of_worker (fun _ => by simp)
  enqueue _ _ _ h ht hq := h.enqueue ht hq
  speed _ _ _ h _ := h.of_worker (fun _ => by simp)
  tick _ a h _ := h.tick a
  fire _ m h _ := h.fire m

/-! ### The lock -/

/-- The lock discipline of one agent: its program is bracketed from where it stands; an agent without one holds no lock. -/
def LockAt (l : Lock) (a : Actuator) : Option Task → Prop
  | some t => bracketed (decide (l = .held a)) t.todo = true
  | none => l ≠ .held a

@[simp] theorem lockAt_none (l : Lock) (a : Actuator) : LockAt l a none ↔ l ≠ .held a := Iff.rfl

@[simp] theorem lockAt_some (l : Lock) (a : Actuator) (t : Task) :
    LockAt l a (some t) ↔ bracketed (decide (l = .held a)) t.todo = true := Iff.rfl

theorem lockDiscipline_iff (s : State) : LockDiscipline s ↔ ∀ a, LockAt s.lock a (s.worker a).task := Iff.rfl

/-- The discipline reads of the lock only whether the agent holds it. -/
theorem LockAt.of_iff {l l' : Lock} {a : Actuator} {t : Option Task} (h : LockAt l a t) (hl : l' = .held a ↔ l = .held a) :
    LockAt l' a t := by
  cases t with
  | none => exact fun e => h (hl.mp e)
  | some t => unfold LockAt; simpa [hl] using h

/-- An action of another agent neither takes the lock from an agent nor gives it. -/
theorem lockAfter_other {a b : Actuator} (hb : b ≠ a) {l : Lock} {act : Act} (hf : act = .acquire → l = .free) :
    lockAfter a l act = .held b ↔ l = .held b := by
  cases act with
  | acquire => simp [lockAfter, hf rfl, Ne.symm hb]
  | release =>
    simp only [lockAfter]
    split
    · next h => simp [h, Ne.symm hb]
    · rfl
  | _ => rfl

/-- The end of another agent's operation leaves an agent's hold on the lock. -/
theorem unlock_other {a b : Actuator} (hb : b ≠ a) (l : Lock) : (if l = .held a then Lock.free else l) = .held b ↔ l = .held b := by
  split
  · next h => simp [h, Ne.symm hb]
  · rfl

/-- An action, with what it puts in front of the program, leaves the program bracketed from where the lock then stands. -/
theorem bracketed_step {a : Actuator} {l : Lock} {act : Act} {rest u : List Act}
    (h : bracketed (decide (l = .held a)) (act :: rest) = true) (hu : bracketed false u = true)
    (hn : (∀ k d y, act ≠ .oneStep k d y) → (∀ k, act ≠ .seqTest k) → u = []) :
    bracketed (decide (lockAfter a l act = .held a)) (u ++ rest) = true := by
  have hout : bracketed false (act :: rest) = bracketed false rest → decide (l = .held a) = false →
      bracketed (decide (l = .held a)) (u ++ rest) = true := fun e hl => by
    rw [hl] at h ⊢
    rw [e] at h
    exact bracketed_append u rest _ hu h
  cases act with
  | oneStep k d y => exact hout rfl (by revert h; cases decide (l = .held a) <;> simp [bracketed])
  | seqTest k => exact hout rfl (by revert h; cases decide (l = .held a) <;> simp [bracketed])
  | _ =>
    obtain rfl := hn (by simp) (by simp)
    simp_all [bracketed, lockAfter]

/-- A move leaves the hold of another agent on the lock. -/
theorem tick_lock_other {s : State} (ho : TasksOwned s) {a b : Actuator} (hb : b ≠ a) :
    (s.tick a).lock = .held b ↔ s.lock = .held b := by
  obtain ⟨-, -, hc⟩ := tick_workers s a ho
  rcases hc with ⟨-, hl | ⟨hl, -⟩⟩ | ⟨-, hl, -⟩ | ⟨-, -, -, -, -, -, -, he⟩ | ⟨-, act, -, -, -, -, -, -, hl, hf⟩
  · rw [hl]; exact unlock_other hb _
  · rw [hl]
  · rw [hl]
  · rw [he]
  · rw [hl]; exact lockAfter_other hb hf

/-- The agent that moves keeps its discipline. -/
theorem lockAt_tick {s : State} (ho : TasksOwned s) {a : Actuator} (h : LockAt s.lock a (s.worker a).task) :
    LockAt (s.tick a).lock a ((s.tick a).worker a).task := by
  obtain ⟨-, -, hc⟩ := tick_workers s a ho
  rcases hc with ⟨hn, hl⟩ | ⟨hn, hl, p, i, -, hg, -, hu⟩ | ⟨-, -, -, -, -, -, -, he⟩ | ⟨t, act, rest, u, ht, hto, hu, hut, hl, -⟩
  · -- no operation is left, and an end unlocks
    rw [hn, lockAt_none]
    rcases hl with hl | ⟨hl, hnone⟩
    · rw [hl]
      split
      · simp
      · assumption
    · rw [hl]; rwa [hnone, lockAt_none] at h
  · -- an operation starts, outside the lock
    rw [hn, lockAt_none] at h
    rw [hu, hl, lockAt_some, decide_eq_false h]
    exact hg.1
  · rw [he]; exact h
  · -- one action
    have hgood := unfolds_good s a act (ho.1 a t ht act (by simp [hto]))
    rw [ht, lockAt_some, hto] at h
    rw [hu, hl, lockAt_some, hut]
    exact bracketed_step h hgood.1 hgood.2.2.1

/-- One move keeps the lock discipline: the mover's by its program's brackets, the others' because their hold on the lock
does not change. -/
theorem LockDiscipline.tick {s : State} (ho : TasksOwned s) (h : LockDiscipline s) (a : Actuator) :
    LockDiscipline (s.tick a) := by
  rw [lockDiscipline_iff] at h ⊢
  intro b
  by_cases hb : b = a
  · subst hb; exact lockAt_tick ho (h b)
  · rw [(tick_workers s a ho).1 b hb]; exact (h b).of_iff (tick_lock_other ho hb)

/-- A firing starts outside the lock: its agent had no operation. -/
theorem LockDiscipline.fire {s : State} (h : LockDiscipline s) {m : Fin 4} (hc : s.canFire m = true) : LockDiscipline (s.fire m) := by
  have hl : (s.fire m).lock = s.lock := by simp [State.fire]
  rw [lockDiscipline_iff] at h ⊢
  intro b
  rw [fire_worker, hl]
  split
  · next e =>
    subst e
    have hb := h (.dc m)
    rw [canFire_idle hc] at hb
    rw [lockAt_some, decide_eq_false (show ¬s.lock = .held (.dc m) from hb)]
    exact (releaseActs_good s.cfg m).1
  · exact h b

/-- Under the ownership of the tasks, every move keeps each agent's brackets. -/
theorem LockDiscipline.closed : StepClosed (fun s => TasksOwned s ∧ LockDiscipline s) := by
  refine TasksOwned.closed.strengthen (fun s t q hs => ?_) (fun s a ho hs => hs.tick ho a) (fun s m _ hs hc => hs.fire hc)
  rw [lockDiscipline_iff] at hs ⊢
  intro a
  rw [q.task a, q.lock]; exact hs a

/-- Settles O12: every move, firing and issue keeps the lock discipline, given that tasks are their agent's own. -/
theorem stepKeepsLockDiscipline : Obligations.StepKeepsLockDiscipline :=
  fun _ _ ho hl h => LockDiscipline.closed.of_step ⟨ho, hl⟩ h

/-! ### Writes -/

/-- The register and the byte an action writes, given the MODE1 byte that its operation keeps. -/
def Act.written (cfg : Config) (latch : Byte) : Act → Option (Byte × Byte)
  | .write r v => some (r, v)
  | .writeMode1 w => some (regMode1, mode1Value cfg latch w)
  | _ => none

/-- The writes that one action adds to the history are its own. -/
theorem runAct_adds (s : State) (a : Actuator) (t : Task) (act : Act) (rest : List Act) :
    AddsWrites (fun r v => act.written s.cfg t.latch = some (r, v)) s (s.runAct a t act rest) := by
  cases act with
  | write r v => exact .tryWrite _ _ _ _ _ _ rfl
  | writeMode1 w => exact .tryWrite _ _ _ _ _ _ rfl
  | checkBus =>
    simp only [State.runAct]
    split
    · exact .raiseBusError _ _ _ _
    · exact .goOn _ _ _ _
  | acquire =>
    simp only [State.runAct]
    split
    · exact (AddsWrites.same (t := s.setLock (.held a)) rfl).trans (.goOn _ _ _ _)
    · exact .refl s
  | release => exact (AddsWrites.same (t := s.unlockFor a) (by simp)).trans (.goOn _ _ _ _)
  | readMode1 =>
    have hr : ∀ W, AddsWrites W s (s.busRead a regMode1) := fun W => .one rfl (by simp)
    simp only [State.runAct, State.tryReadMode1]
    split
    · exact (hr _).trans (.goOn _ _ _ _)
    · exact (hr _).trans (.raiseBusError _ _ _ _)
  | wait q => exact (AddsWrites.one (t := s.log (.wait a q)) rfl (by simp)).trans (.goOn _ _ _ _)
  | arm m d => exact (AddsWrites.same (t := s.setPending m (some d)) rfl).trans (.goOn _ _ _ _)
  | oneStep k d y => exact (AddsWrites.same (t := s.moveStepper k d y) rfl).trans (.goOn _ _ _ _)
  | seqTest k =>
    refine (AddsWrites.same (t := (s.seqTest k).1) ?_).trans (.goOn _ _ _ _)
    unfold State.seqTest State.seqNext
    repeat' split
    all_goals rfl
  | seqCount k =>
    refine (AddsWrites.same (t := s.seqCount k) ?_).trans (.goOn _ _ _ _)
    unfold State.seqCount
    repeat' split
    all_goals rfl
  | seqWait k =>
    simp only [State.runAct, State.seqWait]
    split
    · exact (AddsWrites.one (t := s.log (.cancel k)) rfl (by simp)).trans (.endTask _ _ _ _)
    · split
      · exact .goOn _ _ _ _
      · next r _ =>
        exact (AddsWrites.one (t := (s.log (.wait a r.spsEff)).setSeq k (.running { r with place := .inStep })) rfl
          (by simp)).trans (.goOn _ _ _ _)

/-- The start of an operation writes nothing. -/
theorem begin_adds {W : Byte → Byte → Prop} (s : State) (a : Actuator) (i : Instr) (p : Plan) : AddsWrites W s (s.begin a i p) := by
  unfold State.begin
  split
  · exact .setTask _ _ _
  · exact (AddsWrites.same (t := s.setSeq _ _) rfl).trans (.setTask _ _ _)
  · exact (AddsWrites.same (t := s.setSeq _ _) rfl).trans (.setTask _ _ _)
  · dsimp only
    split
    · exact .raiseBusError _ _ _ _
    · exact (AddsWrites.same (t := (s.setSpeed _ _).setSeq _ _) rfl).trans (.setTask _ _ _)

/-- WHAT ONE MOVE WRITES: what the next action of the agent's operation writes, and nothing otherwise. -/
theorem tick_adds (s : State) (a : Actuator) :
    AddsWrites (fun r v => ∃ t act rest, (s.worker a).task = some t ∧ t.todo = act :: rest ∧
      act.written s.cfg t.latch = some (r, v)) s (s.tick a) := by
  unfold State.tick
  split
  · unfold State.startNext
    split
    · exact .refl s
    · next i rest hq =>
      dsimp only
      split
      · exact (AddsWrites.same (t := s.setQueue a rest) (by simp)).trans (.one rfl (by simp))
      · exact (AddsWrites.same (t := s.setQueue a rest) (by simp)).trans (begin_adds _ _ _ _)
  · next t ht =>
    split
    · unfold State.finish
      split
      · exact .raiseBusError _ _ _ _
      · exact .endTask _ _ _ _
    · next act rest hto =>
      obtain ⟨evs, hh, hw⟩ := runAct_adds s a t act rest
      exact ⟨evs, hh, fun b r v ok hm => ⟨t, act, rest, ht, hto, hw b r v ok hm⟩⟩

/-- A legal action writes what is legal. -/
theorem Act.legal_written {cfg : Config} {latch : Byte} {act : Act} {r v : Byte} (h : Act.legal cfg act = true)
    (hw : act.written cfg latch = some (r, v)) : legalWrite cfg r v = true := by
  cases act with
  | write r' v' => cases hw; exact h
  | writeMode1 w => cases hw; rfl
  | _ => cases hw

/-- Legal writes added to a legal history. -/
theorem legal_hist {cfg : Config} {s t : State} {W : Byte → Byte → Prop} (h : ∀ e ∈ s.hist, Event.legal cfg e = true)
    (hadd : AddsWrites W s t) (hW : ∀ r v, W r v → legalWrite cfg r v = true) : ∀ e ∈ t.hist, Event.legal cfg e = true := by
  obtain ⟨evs, hh, hw⟩ := hadd
  intro e he
  rw [hh] at he
  rcases List.mem_append.mp he with he | he
  · exact h e he
  · cases e with
    | write b r v ok => exact hW r v (hw b r v ok he)
    | _ => rfl

/-- One move keeps the writes legal. -/
theorem WritesLegal.tick {s : State} (ho : TasksOwned s) (h : WritesLegal s) (a : Actuator) : WritesLegal (s.tick a) := by
  have hcfg : (s.tick a).cfg = s.cfg := (After.tick s a).1
  obtain ⟨hr, hh, ht⟩ := h
  unfold WritesLegal
  rw [hcfg]
  refine ⟨hr, legal_hist hh (tick_adds s a) ?_, fun b t hb x hx => ?_⟩
  · rintro r v ⟨t, act, rest, hta, hto, hw⟩
    exact Act.legal_written (ht a t hta act (by simp [hto])) hw
  · by_cases e : b = a
    · subst e
      rcases tick_todo ho hb hx with ⟨u, hu, hxu⟩ | ⟨hl, -⟩
      · exact ht b u hu x hxu
      · exact hl hr
    · rw [(tick_workers s a ho).1 b e] at hb; exact ht b t hb x hx

/-- A firing keeps the writes legal. -/
theorem WritesLegal.fire {s : State} (h : WritesLegal s) (m : Fin 4) : WritesLegal (s.fire m) := by
  obtain ⟨hr, hh, ht⟩ := h
  have hcfg : (s.fire m).cfg = s.cfg := (After.fire s m).1
  unfold WritesLegal
  rw [hcfg]
  refine ⟨hr, legal_hist (W := fun _ _ => False) hh (.one (e := .fire m) (by simp [State.fire]) (by simp)) (by simp),
    fun b t hb x hx => ?_⟩
  rw [fire_worker] at hb
  split at hb
  · cases hb; exact ((releaseActs_good s.cfg m).2 x hx).1 hr
  · exact ht b t hb x hx

/-- Settles O14: an action writes what is legal, and the actions of every task come from good programs. -/
theorem stepKeepsLegalWrites : Obligations.StepKeepsLegalWrites := by
  intro s t ho hw h
  refine ((TasksOwned.closed.strengthen (Q := WritesLegal) (fun s t q hs => ?_) (fun s a ho hs => hs.tick ho a)
    (fun s m _ hs _ => hs.fire m)).of_step ⟨ho, hw⟩ h).2
  unfold WritesLegal at hs ⊢
  simp only [q.cfg, q.task]
  exact ⟨hs.1, legal_hist hs.2.1 q.hist (by simp), hs.2.2⟩

end Sys2Proof.Machine
end

section
/-! PROOFS. What a step keeps of the sequencer: the in-flight token, the correction loop, the place of a loop's test (spec 10
R40, 42 R233, R235). -/

namespace Sys2Proof.Machine

/-! ### The invariant of one stepper -/

/-- The token of a sequence and a task (spec 10 R40, 42 R235). -/
def TokenOk (k : Fin 2) : Seq → Option Task → Prop
  | .idle, none => True
  | .running r, some t => decide (r.place = .atWait) = atWaitAct k t.todo ∧ Act.seqWait k ∉ t.todo.tail
  | .idle, some _ => False
  | .running _, none => False

/-- The sequencer's invariant of one stepper, read off its sequence and its task. -/
structure SeqGood (k : Fin 2) (q : Seq) (o : Option Task) : Prop where
  token : TokenOk k q o
  correction : ∀ r, q = .running r → r.phase = .correct → r.style = .microstep
  test : ∀ t, o = some t → Act.seqTest k ∉ t.todo.dropLast

theorem sequencerInv_iff (s : State) :
    SequencerInv s ↔ TasksOwned s ∧ ∀ k, SeqGood k (s.stepper k).seq (s.stepper k).work.task := by
  constructor
  · rintro ⟨htok, ho, hcorr, htest⟩
    exact ⟨ho, fun k => ⟨htok k, hcorr k, htest k⟩⟩
  · rintro ⟨ho, h⟩
    exact ⟨fun k => (h k).token, ho, fun k => (h k).correction, fun k => (h k).test⟩

/-- A stepper at rest. -/
theorem SeqGood.idle (k : Fin 2) : SeqGood k .idle none := ⟨trivial, by simp, by simp⟩

/-- A sequence in progress that is not at a wait. -/
theorem SeqGood.inStep {k : Fin 2} {r : Running} {t : Task} (hp : r.place = .inStep) (hw : Act.seqWait k ∉ t.todo)
    (hc : r.phase = .correct → r.style = .microstep) (ht : Act.seqTest k ∉ t.todo.dropLast) : SeqGood k (.running r) (some t) := by
  refine ⟨⟨?_, fun h => hw (List.mem_of_mem_tail h)⟩, fun r' e => ?_, fun t' e => ?_⟩
  · have : atWaitAct k t.todo = false := decide_eq_false fun h => hw (List.mem_of_mem_head? h)
    rw [this, hp]; rfl
  · cases e; exact hc
  · cases e; exact ht

/-- A stepper with a task is in a sequence. -/
theorem SeqGood.running {k : Fin 2} {q : Seq} {t : Task} (h : SeqGood k q (some t)) : ∃ r, q = .running r := by
  cases q with
  | idle => exact absurd h.token id
  | running r => exact ⟨r, rfl⟩

/-- What the invariant says of a sequence in front of an action. -/
theorem SeqGood.cons {k : Fin 2} {r : Running} {t : Task} {act : Act} {rest : List Act}
    (h : SeqGood k (.running r) (some t)) (hto : t.todo = act :: rest) :
    (act ≠ .seqWait k → r.place = .inStep) ∧ Act.seqWait k ∉ rest ∧ (r.phase = .correct → r.style = .microstep) ∧
    Act.seqTest k ∉ (act :: rest).dropLast := by
  obtain ⟨hplace, htail⟩ := h.token
  rw [hto] at hplace htail
  refine ⟨fun hact => ?_, htail, h.correction r rfl, hto ▸ h.test t rfl⟩
  have : atWaitAct k (act :: rest) = false := decide_eq_false (by simpa using hact)
  rw [this] at hplace
  cases hr : r.place with
  | inStep => rfl
  | atWait => rw [hr] at hplace; cases hplace

/-! ### One action and the sequence -/

/-- The sequence of stepper `k` after an action of its agent that the operation survives. -/
def seqAfter (s : State) (k : Fin 2) : Act → Seq
  | .seqTest _ => ((s.seqTest k).1.stepper k).seq
  | .seqCount _ => ((s.seqCount k).stepper k).seq
  | .seqWait _ => match (s.stepper k).seq with
    | .idle => .idle
    | .running r => .running { r with place := .inStep }
  | _ => (s.stepper k).seq

@[simp] theorem State.seq_setTask (s : State) (a : Actuator) (t : Option Task) (k : Fin 2) :
    ((s.setTask a t).stepper k).seq = (s.stepper k).seq := by simp [State.setTask]

@[simp] theorem State.seq_setQueue (s : State) (a : Actuator) (q : List Instr) (k : Fin 2) :
    ((s.setQueue a q).stepper k).seq = (s.stepper k).seq := by simp [State.setQueue]

@[simp] theorem State.seq_setSeq_same (s : State) (k : Fin 2) (q : Seq) : ((s.setSeq k q).stepper k).seq = q := by
  simp [State.setSeq]

/-- The end of an operation of a stepper ends its sequence (spec 42 R235). -/
@[simp] theorem State.seq_endTask (s : State) (k : Fin 2) (t : Task) (r : Result) :
    ((s.endTask (.stepper k) t r).stepper k).seq = .idle := by
  simp [State.endTask, State.endSeq]

@[simp] theorem State.task_endTask (s : State) (a : Actuator) (t : Task) (r : Result) :
    ((s.endTask a t r).worker a).task = none := by
  simp [State.endTask]

/-- WHAT ONE ACTION DOES to its stepper's sequence: it ends with the operation, or goes on as `seqAfter` says. -/
theorem runAct_seq {s : State} {k : Fin 2} {t : Task} {act : Act} (rest : List Act)
    (ht : (s.worker (.stepper k)).task = some t) (ho : Act.ownedBy (.stepper k) act = true) :
    ((s.runAct (.stepper k) t act rest).stepper k).seq =
      if ((s.runAct (.stepper k) t act rest).worker (.stepper k)).task = none then .idle else seqAfter s k act := by
  have hj : ∀ j, Act.ownedBy (.stepper k) act = decide (Actuator.stepper k = .stepper j) → k = j := fun j e => by
    rw [ho] at e; simpa using e.symm
  have wr : ∀ r v, ((s.tryWrite (.stepper k) t r v rest).stepper k).seq =
      if ((s.tryWrite (.stepper k) t r v rest).worker (.stepper k)).task = none then .idle else (s.stepper k).seq := by
    intro r v
    cases hn : s.nextAnswer <;> simp [State.tryWrite, hn, State.goOn, State.raiseBusError]
  cases act with
  | seqTest j => obtain rfl := hj j rfl; simp [State.runAct, State.goOn, seqAfter]
  | seqCount j => obtain rfl := hj j rfl; simp [State.runAct, State.goOn, seqAfter]
  | oneStep j d y => obtain rfl := hj j rfl; simp [State.runAct, State.goOn, State.moveStepper, seqAfter]
  | seqWait j =>
    obtain rfl := hj j rfl
    simp only [State.runAct, State.seqWait]
    split
    · simp
    · split <;> simp [State.goOn, seqAfter, *]
  | write r v => exact wr r v
  | writeMode1 w => exact wr _ _
  | readMode1 =>
    cases hn : s.nextAnswer <;> simp [State.runAct, State.tryReadMode1, seqAfter, hn, State.goOn, State.raiseBusError]
  | checkBus =>
    simp only [State.runAct, seqAfter]
    by_cases hb : s.bus = .failed <;> simp [hb, State.goOn, State.raiseBusError]
  | acquire =>
    simp only [State.runAct, seqAfter]
    by_cases hl : s.lock = .free <;> simp [hl, ht, State.goOn]
  | _ => simp [State.runAct, State.goOn, seqAfter]

/-- What a loop's test leaves, when its program ends with it: the program is at its end, or goes on with an invocation, at
once or after a wait. -/
theorem seqTest_good {s : State} {k : Fin 2} {r : Running} {u : Task} (hr : (s.stepper k).seq = .running r)
    (hp : r.place = .inStep) (hc : r.phase = .correct → r.style = .microstep) (hu : u.todo = (s.seqTest k).2) :
    SeqGood k ((s.seqTest k).1.stepper k).seq (some u) := by
  have hnext : ∀ q, q = s.seqNext k r → u.todo = q.2 → SeqGood k (q.1.stepper k).seq (some u) := by
    rintro q rfl hu
    unfold State.seqNext at hu ⊢
    split at hu
    · next hf =>
      rw [if_pos hf, State.seq_setSeq_same]
      exact .inStep hp (by simp [hu, invocation]) hc (by simp [hu, invocation])
    · next hf =>
      rw [if_neg hf, State.seq_setSeq_same]
      exact ⟨⟨by simp [hu, atWaitAct], by simp [hu, invocation]⟩, fun r' e => by cases e; exact hc,
        fun t' e => by cases e; simp [hu, invocation]⟩
  have hend : u.todo = [] → SeqGood k (s.stepper k).seq (some u) := fun hu => by
    rw [hr]; exact .inStep hp (by simp [hu]) hc (by simp [hu])
  unfold State.seqTest at hu ⊢
  rw [hr] at hu ⊢
  cases hph : r.phase with
  | main =>
    simp only [hph] at hu ⊢
    split at hu
    · next h => rw [if_pos h]; exact hnext _ rfl hu
    · next h =>
      rw [if_neg h]
      split at hu
      · next hy =>
        rw [if_pos hy, State.seq_setSeq_same]
        exact .inStep hp (by simp [hu]) (fun _ => hy) (by simp [hu])
      · next hy => rw [if_neg hy]; exact hend hu
  | correct =>
    simp only [hph] at hu ⊢
    split at hu
    · next h => rw [if_pos h]; exact hnext _ rfl hu
    · next h => rw [if_neg h]; exact hend hu

/-- The outputs of a oneStep hold no wait's end and no test. -/
theorem outputActs_noSeq (cfg : Config) (k : Fin 2) (p : Fin 32) (y : StepStyle) (d : Direction) {act : Act}
    (h : act ∈ outputActs cfg k p y d) : (∀ j, act ≠ .seqWait j) ∧ ∀ j, act ≠ .seqTest j := by
  refine ⟨((good_output cfg .controller k p y d).2 act h).2.2, fun j e => ?_⟩
  have := (outputActs_plain cfg k p y d).1 act h
  rw [e] at this; cases this

/-- An action that the operation survives keeps the invariant of its stepper. -/
theorem SeqGood.act {s : State} {k : Fin 2} {t u : Task} {act : Act} {rest : List Act}
    (h : SeqGood k (s.stepper k).seq (some t)) (hto : t.todo = act :: rest) (ho : Act.ownedBy (.stepper k) act = true)
    (hu : u.todo = unfoldsTo s act ++ rest) : SeqGood k (seqAfter s k act) (some u) := by
  obtain ⟨r, hr⟩ := h.running
  rw [hr] at h
  obtain ⟨hplace, hwait, hcorr, htest⟩ := h.cons hto
  have hj : ∀ j, Act.ownedBy (.stepper k) act = decide (Actuator.stepper k = .stepper j) → k = j := fun j e => by
    rw [ho] at e; simpa using e.symm
  have hrest : Act.seqTest k ∉ rest.dropLast := fun hm => htest (by
    cases rest with
    | nil => simp at hm
    | cons x xs => rw [List.dropLast_cons_cons]; exact List.mem_cons_of_mem _ hm)
  -- an action that puts nothing in front of the program and leaves the phase and the style
  have plain : ∀ r' : Running, r'.place = .inStep → r'.phase = r.phase → r'.style = r.style → unfoldsTo s act = [] →
      SeqGood k (.running r') (some u) := fun r' h1 h2 h3 h4 => by
    rw [h4, List.nil_append] at hu
    exact .inStep h1 (by rw [hu]; exact hwait) (by rw [h2, h3]; exact hcorr) (by rw [hu]; exact hrest)
  cases act with
  | seqTest j =>
    obtain rfl := hj j rfl
    have hnil : rest = [] := by
      cases rest with
      | nil => rfl
      | cons x xs => exact absurd (by simp) htest
    rw [hnil, List.append_nil] at hu
    exact seqTest_good hr (hplace (by simp)) hcorr hu
  | seqCount j =>
    obtain rfl := hj j rfl
    simp only [seqAfter, State.seqCount, hr]
    split
    · rw [State.seq_setSeq_same]; exact plain _ (hplace (by simp)) rfl rfl rfl
    · rw [hr]; exact plain _ (hplace (by simp)) rfl rfl rfl
  | seqWait j =>
    simp only [seqAfter, hr]
    exact plain _ rfl rfl rfl rfl
  | oneStep j d y =>
    simp only [seqAfter, hr]
    have hout := fun act hm => outputActs_noSeq s.cfg j (nextPos s.cfg.correctionMode (s.stepper j).pos y d) y d (act := act) hm
    refine .inStep (hplace (by simp)) (fun hm => ?_) hcorr (fun hm => ?_)
    · rw [hu] at hm
      rcases List.mem_append.mp hm with hm | hm
      · exact (hout _ hm).1 k rfl
      · exact hwait hm
    · rw [hu] at hm
      cases rest with
      | nil => rw [List.append_nil] at hm; exact (hout _ (List.mem_of_mem_dropLast hm)).2 k rfl
      | cons x xs =>
        rw [List.dropLast_append_of_ne_nil (by simp)] at hm
        rcases List.mem_append.mp hm with hm | hm
        · exact (hout _ hm).2 k rfl
        · exact hrest hm
  | _ =>
    simp only [seqAfter, hr]
    exact plain _ (hplace (by simp)) rfl rfl rfl

/-! ### One move -/

/-- The start of a stepper command starts its sequence. -/
theorem begin_seqGood (s : State) (k : Fin 2) (i : Instr) {p : Plan} (hp : PlanStarts (.stepper k) p) :
    SeqGood k ((s.begin (.stepper k) i p).stepper k).seq ((s.begin (.stepper k) i p).worker (.stepper k)).task := by
  unfold PlanStarts at hp
  unfold State.begin
  cases hset : p.setup with
  | nothing => rw [hset] at hp; exact absurd rfl (hp k)
  | one j d y =>
    rw [hset] at hp
    obtain ⟨e, htodo⟩ := hp
    cases e
    simp only [State.seq_setTask, State.seq_setSeq_same, State.worker_setTask_same]
    exact .inStep rfl (by simp [Task.fresh, htodo]) (by simp [seqOne]) (by simp [Task.fresh, htodo])
  | seq j n d y =>
    rw [hset] at hp
    obtain ⟨e, htodo⟩ := hp
    cases e
    simp only [State.seq_setTask, State.seq_setSeq_same, State.worker_setTask_same]
    exact .inStep rfl (by simp [Task.fresh, htodo]) (by simp [seqStart]) (by simp [Task.fresh, htodo])
  | speedSeq j n d y rpm =>
    rw [hset] at hp
    obtain ⟨e, htodo, -⟩ := hp
    cases e
    dsimp only
    split
    · rw [State.raiseBusError, State.seq_endTask, State.task_endTask]; exact .idle k
    · simp only [State.seq_setTask, State.seq_setSeq_same, State.worker_setTask_same]
      exact .inStep rfl (by simp [Task.fresh, htodo]) (by simp [seqStart]) (by simp [Task.fresh, htodo])

/-- A stepper agent's move keeps the invariant of its stepper. -/
theorem SeqGood.tick {s : State} (ho : TasksOwned s) {k : Fin 2} (h : SeqGood k (s.stepper k).seq (s.stepper k).work.task) :
    SeqGood k ((s.tick (.stepper k)).stepper k).seq ((s.tick (.stepper k)).worker (.stepper k)).task := by
  unfold State.tick
  split
  · next ht =>
    have ht' : (s.stepper k).work.task = none := ht
    unfold State.startNext
    split
    · exact h
    · next i rest hqu =>
      dsimp only
      split
      · simpa [State.worker_setQueue, ht', ht] using (show SeqGood k (s.stepper k).seq none from ht' ▸ h)
      · next p hp =>
        have hi := ho.2 (.stepper k) i (by simp [hqu])
        exact begin_seqGood _ k i (plan_good hp hi.1 hi.2).2
  · next t ht =>
    have ht' : (s.stepper k).work.task = some t := ht
    split
    · unfold State.finish
      split
      · rw [State.raiseBusError, State.seq_endTask, State.task_endTask]; exact .idle k
      · rw [State.seq_endTask, State.task_endTask]; exact .idle k
    · next act rest hto =>
      have hown := ho.1 _ t ht act (by simp [hto])
      have hseq := runAct_seq rest ht hown
      rcases runAct_cases s (.stepper k) t act rest with ⟨-, -, he⟩ | ⟨hw, -⟩ | ⟨u, hu, -, -, hw, -⟩
      · rw [he]; exact h
      · have hnone : ((s.runAct (.stepper k) t act rest).worker (.stepper k)).task = none := by rw [hw]; simp
        rw [hseq, hnone]; exact .idle k
      · have hsome : ((s.runAct (.stepper k) t act rest).worker (.stepper k)).task = some u := by rw [hw]; simp
        rw [ht'] at h
        rw [hseq, hsome]; exact h.act hto hown hu

/-- A property equivalent to one that every step keeps is kept by every step. -/
theorem StepClosed.congr {P Q : State → Prop} (c : StepClosed P) (h : ∀ s, P s ↔ Q s) : StepClosed Q := by
  obtain rfl : P = Q := funext fun s => propext (h s)
  exact c

/-- The stepper that moves keeps its invariant, and no other agent's move or firing touches it. -/
theorem SequencerInv.closed : StepClosed SequencerInv := by
  refine (TasksOwned.closed.strengthen (Q := fun s => ∀ k, SeqGood k (s.stepper k).seq (s.stepper k).work.task)
    (fun s t q h k => ?_) (fun s a ho h k => ?_) (fun s m _ h _ k => ?_)).congr (fun s => (sequencerInv_iff s).symm)
  · have ht : (t.stepper k).work.task = (s.stepper k).work.task := q.task (.stepper k)
    rw [q.seq k, ht]; exact h k
  · by_cases ha : a = .stepper k
    · subst ha; exact SeqGood.tick ho (h k)
    · rw [tick_stepper_ne ho ha]; exact h k
  · rw [fire_stepper]; exact h k

/-- Settles O13: every move, firing and issue keeps the sequencer's invariant. -/
theorem stepKeepsSequencer : Obligations.StepKeepsSequencer := fun _ _ hs h => SequencerInv.closed.of_step hs h

end Sys2Proof.Machine
end

section
/-! PROOFS. What an issue does, seen from the agent that runs the operation: a run of its program alone. The image after a
transaction, and the positions (spec 10 R24, R25, R34, 60 R275). -/

namespace Sys2Proof.Machine

/-! ### The image after a transaction -/

/-- The entries a write reaches: its register, and byte `k` of every channel for the all-channel register `0xFA + k` (spec 10 R25). -/
theorem mem_imgTargets (reg : Byte) (a : Nat) : a ∈ imgTargets reg ↔
    a = reg.toNat ∨ ∃ (k : Nat) (c : Chan), k ≤ 3 ∧ reg.toNat = 0xFA + k ∧ a = 6 + 4 * c.val + k := by
  have hall : regAllLed.toNat = 0xFA := by decide
  unfold imgTargets
  rw [hall]
  split
  · next h =>
    simp only [List.mem_cons, List.mem_map, List.mem_finRange, true_and, chanBase_toNat]
    refine or_congr_right ⟨?_, ?_⟩
    · rintro ⟨c, rfl⟩; exact ⟨reg.toNat - 0xFA, c, by omega, by omega, rfl⟩
    · rintro ⟨k, c, -, hk, rfl⟩; exact ⟨c, by omega⟩
  · next h =>
    rw [List.mem_singleton]
    refine ⟨.inl, ?_⟩
    rintro (h' | ⟨k, c, hk, hr, -⟩)
    · exact h'
    · omega

/-- Settles O19: the entries a write reaches read as its outcome says, and no other entry changes. -/
theorem imageAfterTransactions : Obligations.ImageAfterTransactions := by
  intro s b reg v hwf
  have hget : ∀ a, imgGet (s.busWrite b reg v).img a =
      if a ∈ imgTargets reg then (if Answer.isOk s.nextAnswer then some v else none) else imgGet s.img a :=
    fun a => by rw [State.busWrite_img]; exact imgGet_imgAfterWrite _ _ _ _ _ hwf
  refine ⟨?_, fun k c hk hr => ?_, fun a ha hc => ?_, rfl⟩
  · rw [hget, if_pos ((mem_imgTargets _ _).mpr (.inl rfl))]
  · rw [hget, if_pos ((mem_imgTargets _ _).mpr (.inr ⟨k, c, hk, hr, rfl⟩))]
  · rw [hget, if_neg]
    rw [mem_imgTargets]
    rintro (h | ⟨k, c, hk, hr, h⟩)
    · exact ha h
    · exact hc k c hk hr h

/-! ### What an issue does -/

/-- The state in which an issue queues its operation: the issue recorded, an armed release of its motor cancelled. -/
def State.issued (s : State) (a : Actuator) (i : Instr) : State := (s.log (.issue (.actuator a) i)).disarmFor a

theorem Quiet.issued (s : State) (a : Actuator) (i : Instr) : Quiet s (s.issued a i) := by
  have hl := Quiet.log s (.issue (.actuator a) i) (by simp)
  cases a with
  | dc m => exact ⟨hl.cfg, hl.lock, fun b => by simp [State.issued, State.disarmFor], hl.seq, hl.hist⟩
  | _ => exact hl

theorem State.body_issued (s : State) (a : Actuator) (i : Instr) (k : Fin 2) : (s.issued a i).stepper k = s.stepper k := by
  cases a <;> rfl

/-- An agent that cannot move is idle, or waits for a lock that is taken. -/
theorem idle_or_stuck {s : State} {a : Actuator} (h : s.canTick a = false) :
    s.worker a = Worker.idle ∨ ∃ t, (s.worker a).task = some t ∧ t.wantsLock = true ∧ s.lock ≠ .free := by
  unfold State.canTick at h
  cases hw : s.worker a with
  | mk q o =>
    rw [hw] at h
    cases o with
    | none => left; simp at h; simp [h, Worker.idle]
    | some t => right; simp at h; exact ⟨t, rfl, h⟩

/-- WHAT AN ISSUE DOES: it ends Busy; or it only queues the operation; or nobody can move and its agent is idle, and the
agent's moves follow. -/
theorem submit_cases (s : State) (a : Actuator) (i : Instr) :
    s.submit a i = (s.issued a i).log (.done (.actuator a) i (.busy i)) ∨
    s.submit a i = (s.issued a i).enqueue a i ∨
    ((s.issued a i).movers = [] ∧ (s.issued a i).worker a = Worker.idle ∧
      s.submit a i = State.settle (opFuel i) a ((s.issued a i).enqueue a i)) := by
  have hs : s.submit a i = if (s.issued a i).inFlightFor a ∧ (s.issued a i).cfg.inflightPolicy = .reject then
      (s.issued a i).log (.done (.actuator a) i (.busy i))
      else if (s.issued a i).movers = [] then State.settle (opFuel i) a ((s.issued a i).enqueue a i)
      else (s.issued a i).enqueue a i := rfl
  rw [hs]
  split
  · exact .inl rfl
  · split
    · next hm =>
      have hcan : (s.issued a i).canTick a = false := by
        have : ¬(s.issued a i).canTick a = true := fun hc => by
          have := (mem_movers (s.issued a i) (.actuator a)).mpr hc
          rw [hm] at this; cases this
        simpa using this
      rcases idle_or_stuck hcan with hw | ⟨t, ht, hwl, hl⟩
      · exact .inr (.inr ⟨hm, hw, rfl⟩)
      · refine .inr (.inl (settle_nil fun he => ?_))
        have hc : ((s.issued a i).enqueue a i).canTick a = true :=
          (mem_movers _ (.actuator a)).mp (by rw [he]; simp)
        unfold State.canTick at hc
        rw [(Quiet.enqueue _ a i).task a, ht] at hc
        simp [hwl, hl] at hc
    · exact .inr (.inl rfl)

/-! ### A run of one operation -/

/-- The queue of an agent does not change while it performs an action, and stays with the end of its operation. -/
theorem runAct_queue (s : State) (a : Actuator) (t : Task) (act : Act) (rest : List Act) :
    ((s.runAct a t act rest).worker a).queue = (s.worker a).queue := by
  rcases runAct_cases s a t act rest with ⟨-, -, he⟩ | ⟨hw, -⟩ | ⟨u, -, -, -, hw, -⟩
  · rw [he]
  · rw [hw]; simp
  · rw [hw]; simp

theorem finish_worker (s : State) (a : Actuator) (t : Task) :
    (s.finish a t).worker a = { s.worker a with task := none } := by
  unfold State.finish
  split <;> simp [State.raiseBusError, State.endTask]

/-- The first move of an agent that was idle when an operation was queued starts the operation. -/
theorem tick_enqueue {s : State} {a : Actuator} (hw : s.worker a = Worker.idle) (i : Instr) :
    (∀ c, plan s.cfg i = .error c → (s.enqueue a i).tick a = s.log (.done (.actuator a) i (.configurationError i c))) ∧
    (∀ p, plan s.cfg i = .ok p → (s.enqueue a i).tick a = s.begin a i p) := by
  have hq : (s.enqueue a i).setQueue a [] = s := by
    have : ({ s.worker a with queue := [] } : Worker) = s.worker a := by rw [hw]; rfl
    simp [State.enqueue, State.setQueue, this]
  have hw' : (s.enqueue a i).worker a = ⟨[i], none⟩ := by rw [State.worker_enqueue, if_pos rfl, hw]; rfl
  constructor
  all_goals
    intro _ hp
    simp only [State.tick, State.startNext, hw', hq, State.enqueue_cfg, hp]

/-- THE RUN OF ONE OPERATION by an agent that was idle: a property of the start that its actions and its end keep, holds
after any number of the agent's moves, if there was any. -/
theorem settle_run {s : State} {a : Actuator} {i : Instr} (hw : s.worker a = Worker.idle) {J : State → Prop}
    (error : ∀ c, plan s.cfg i = .error c → J (s.log (.done (.actuator a) i (.configurationError i c))))
    (start : ∀ p, plan s.cfg i = .ok p → J (s.begin a i p))
    (act : ∀ u t x rest, J u → (u.worker a).task = some t → t.todo = x :: rest → J (u.runAct a t x rest))
    (finish : ∀ u t, J u → (u.worker a).task = some t → t.todo = [] → J (u.finish a t)) (n : Nat) :
    State.settle n a (s.enqueue a i) = s.enqueue a i ∨ J (State.settle n a (s.enqueue a i)) := by
  refine (settle_induct (P := fun v => v = s.enqueue a i ∨ ((v.worker a).queue = [] ∧ J v)) (fun v hv hc => ?_) n _ (.inl rfl)).imp_right
    And.right
  right
  rcases hv with rfl | ⟨hq, hv⟩
  · cases hp : plan s.cfg i with
    | error c => rw [(tick_enqueue hw i).1 c hp]; exact ⟨by simp [hw, Worker.idle], error c hp⟩
    | ok p => rw [(tick_enqueue hw i).2 p hp]; exact ⟨by rw [(begin_workers s a i p).2.1, hw]; rfl, start p hp⟩
  · unfold State.tick
    split
    · next ht => simp [State.canTick, ht, hq] at hc
    · next t ht =>
      split
      · next hto => exact ⟨by rw [finish_worker]; exact hq, finish v t hv ht hto⟩
      · next x rest hto => exact ⟨by rw [runAct_queue]; exact hq, act v t x rest hv ht hto⟩

/-- Every action of the agent's program satisfies `Q`. -/
def ProgramIs (Q : Act → Prop) (a : Actuator) (u : State) : Prop := ∀ t, (u.worker a).task = some t → ∀ x ∈ t.todo, Q x

namespace ProgramIs

variable {Q : Act → Prop} {a : Actuator} {u : State}

theorem of_none (h : (u.worker a).task = none) : ProgramIs Q a u := fun t ht => by rw [h] at ht; cases ht

theorem begin (s : State) (i : Instr) {p : Plan} (h : ∀ x ∈ p.todo, Q x) : ProgramIs Q a (s.begin a i p) := fun t ht x hx => by
  rcases (begin_workers s a i p).2.2 with ⟨hn, -⟩ | ⟨hs, -⟩
  · rw [hn] at ht; cases ht
  · rw [hs] at ht; cases ht; exact h x hx

theorem runAct (h : ProgramIs Q a u) (unfolds : ∀ x, Q x → ∀ y ∈ unfoldsTo u x, Q y) {t : Task} {x : Act} {rest : List Act}
    (ht : (u.worker a).task = some t) (hto : t.todo = x :: rest) : ProgramIs Q a (u.runAct a t x rest) := by
  intro v hv y hy
  rcases runAct_cases u a t x rest with ⟨-, -, he⟩ | ⟨hw, -⟩ | ⟨v', hv', -, -, hw, -⟩
  · rw [he] at hv; exact h v hv y hy
  · rw [hw] at hv; simp at hv
  · rw [hw] at hv; simp at hv; subst hv
    rw [hv'] at hy
    rcases List.mem_append.mp hy with hy | hy
    · exact unfolds x (h t ht x (by simp [hto])) y hy
    · exact h t ht y (by simp [hto, hy])

theorem finish (u : State) (t : Task) : ProgramIs Q a (u.finish a t) := of_none (by rw [finish_worker])

end ProgramIs

/-- The same with what is known of every action of the program. -/
theorem settle_program {s : State} {a : Actuator} {i : Instr} (hw : s.worker a = Worker.idle) {J : State → Prop} {Q : Act → Prop}
    (error : ∀ c, plan s.cfg i = .error c → J (s.log (.done (.actuator a) i (.configurationError i c))))
    (start : ∀ p, plan s.cfg i = .ok p → J (s.begin a i p) ∧ ∀ x ∈ p.todo, Q x)
    (unfolds : ∀ u x, Q x → ∀ y ∈ unfoldsTo u x, Q y)
    (act : ∀ u t x rest, J u → (u.worker a).task = some t → t.todo = x :: rest → Q x → J (u.runAct a t x rest))
    (finish : ∀ u t, J u → (u.worker a).task = some t → t.todo = [] → J (u.finish a t)) (n : Nat) :
    State.settle n a (s.enqueue a i) = s.enqueue a i ∨ J (State.settle n a (s.enqueue a i)) :=
  (settle_run (J := fun u => J u ∧ ProgramIs Q a u) hw
    (fun c hc => ⟨error c hc, .of_none (by simp [hw, Worker.idle])⟩)
    (fun p hp => ⟨(start p hp).1, .begin s i (start p hp).2⟩)
    (fun u t x rest hJ ht hto => ⟨act u t x rest hJ.1 ht hto (hJ.2 t ht x (by simp [hto])), hJ.2.runAct (unfolds u) ht hto⟩)
    (fun u t hJ ht hto => ⟨finish u t hJ.1 ht hto, .finish u t⟩) n).imp_right And.left

/-! ### Positions -/

/-- An operation that another agent runs leaves a stepper's position: no oneStep of the stepper is in its program. -/
theorem settle_pos_ne {s : State} {a : Actuator} {i : Instr} {k : Fin 2} (hw : s.worker a = Worker.idle)
    (ht : opTarget i = some a) (hq : queueable i = true) (ha : a ≠ .stepper k) (n : Nat) :
    ((State.settle n a (s.enqueue a i)).stepper k).pos = (s.stepper k).pos := by
  have hrun := settle_program (J := fun u => ((u.stepper k).body) = (s.stepper k).body) (Q := fun x => Act.ownedBy a x = true)
    (i := i) hw (fun c _ => rfl)
    (fun p hp => ⟨by rw [begin_stepper_ne ha (plan_good hp ht hq).2], fun x hx => ((plan_good hp ht hq).1.2 x hx).2.1⟩)
    (fun u x hx y hy => ((unfolds_good u a x hx).2.1 y hy).2)
    (fun u t x rest hJ _ _ hx => by rw [runAct_stepper_ne ha hx]; exact hJ)
    (fun u t hJ _ _ => by unfold State.finish; split <;> simpa [State.raiseBusError] using hJ) n
  rcases hrun with he | he
  · rw [he]; exact Stepper.pos_of_body (by simp)
  · exact Stepper.pos_of_body he

/-- STSPEED, or an operation whose index names nothing, leaves every position. -/
theorem speedNow_pos (s : State) (j k : Fin 2) (i : Instr) (check : Except Cause (Fin 2 × Nat)) :
    ((s.speedNow j i check).stepper k).pos = (s.stepper k).pos := by
  unfold State.speedNow
  cases check with
  | error c => rfl
  | ok v =>
    dsimp only
    split
    · rfl
    · exact setSpeed_pos _ _ _ _

/-- Settles O18: a move by `tick_pos`; a firing touches no stepper; and an issue moves a stepper only through the moves of
that stepper's agent, which follow at once when nobody could move. -/
theorem onlyOneStepMovesPosition : Obligations.OnlyOneStepMovesPosition := by
  refine ⟨tick_pos, fire_stepper, fun s t i k h hne => ?_⟩
  rcases exec_cases h with ⟨a, ha, hq, rfl⟩ | ⟨j, _, rpm, rfl, -, rfl⟩ | ⟨c, -, rfl⟩
  · rcases submit_cases s a i with he | he | ⟨hm, hw, he⟩
    · rw [he] at hne
      exact absurd (by rw [State.stepper_log, State.body_issued]) hne
    · rw [he] at hne
      exact absurd (Stepper.pos_of_body (by rw [State.body_enqueue, State.body_issued])) hne
    · by_cases hk : a = .stepper k
      · subst hk; exact ⟨ha, hq, hm, he⟩
      · rw [he, settle_pos_ne hw ha hq hk, State.body_issued] at hne
        exact absurd rfl hne
  · exact absurd (speedNow_pos s j k _ _) hne
  · exact absurd rfl hne

end Sys2Proof.Machine
end

section
/-! PROOFS. Every operation issued to a block at rest ends within its moves, whatever the bus answers (spec 42 R234, 60 R264,
R267): the shapes of the programs, a count of the moves, and the state at the end. -/

namespace Sys2Proof.Machine

/-! ### The shapes of the programs -/

/-- The bytes of a tick pair at a channel or at the all-channel registers (spec 10 R31, R32, 30 R101). -/
def TickBlock (b : List (Byte × Byte)) : Prop :=
  ∃ base on off, ((∃ c : Chan, base = 6 + 4 * c.val) ∨ base = 0xFA) ∧ on ≤ 4096 ∧ off ≤ 4096 ∧ b = pairBytes base on off

theorem tickBlock_chan (c : Chan) {on off : Nat} (h1 : on ≤ 4096) (h2 : off ≤ 4096) : TickBlock (chanBytes c on off) :=
  ⟨_, on, off, .inl ⟨c, rfl⟩, h1, h2, rfl⟩

theorem tickBlock_pin (c : Chan) (high : Bool) : TickBlock (pinBytes c high) := by
  cases high <;> exact tickBlock_chan c (by omega) (by omega)

theorem TickBlock.length {b : List (Byte × Byte)} (h : TickBlock b) : b.length = 4 := by
  obtain ⟨base, on, off, -, -, -, rfl⟩ := h; rfl

theorem blocks_length {bs : List (List (Byte × Byte))} (h : ∀ b ∈ bs, TickBlock b) :
    (bs.flatMap lockedActs).length = 7 * bs.length := by
  induction bs with
  | nil => rfl
  | cons b bs ih =>
    have hb := (h b (by simp)).length
    rw [List.flatMap_cons, List.length_append, ih (fun c hc => h c (by simp [hc]))]
    simp [lockedActs, writeActs, hb]; omega

/-- The program of INIT (spec 40 R120). -/
def initActs (cfg : Config) : List Act :=
  .checkBus :: .acquire :: (writeActs (pairBytes 0xFA (clampTick cfg.initAllOff.1) (clampTick cfg.initAllOff.2)) ++
    [.write regMode2 bitOutdrv, .write regMode1 bitAllcall, .wait settleSeconds,
     .readMode1, .writeMode1 .clearSleep, .wait settleSeconds, .release])

/-- The program of SETFREQ (spec 40 R140). -/
def setfreqActs (cfg : Config) (q : Rat) : List Act :=
  [.checkBus, .acquire, .readMode1, .writeMode1 .sleep, .write regPrescale (prescale cfg q),
    .writeMode1 .restore, .wait settleSeconds, .writeMode1 .restart, .release]

/-- THE SHAPE OF A PLAN: the programs of INIT and SETFREQ; locked groups of tick pairs, and the arming of RUNDC; a oneStep; or
the test of a sequence's loop. -/
inductive PlanShape (cfg : Config) (i : Instr) : Plan → Prop
  | init : i = .init → PlanShape cfg i (.ofActs (initActs cfg))
  | setfreq (f : F64) (q : Rat) : i = .setfreq f → PlanShape cfg i (.ofActs (setfreqActs cfg q))
  | blocks (bs : List (List (Byte × Byte))) (arm : List Act) : bs.length ≤ 3 → arm.length ≤ 1 → (bs = [] → arm = []) →
      (∀ b ∈ bs, TickBlock b) →
      (∀ x ∈ arm, ∃ m t, x = .arm m t ∧ opTarget i = some (.dc m)) →
      PlanShape cfg i (.ofActs (bs.flatMap lockedActs ++ arm))
  | one (k : Fin 2) (d : Direction) (y : StepStyle) : PlanShape cfg i ⟨.one k d y, [.oneStep k d y]⟩
  | seq (k : Fin 2) (n : Nat) (d : Direction) (y : StepStyle) : opFuel i = 64 * (8 * n + 9) →
      PlanShape cfg i ⟨.seq k n d y, [.seqTest k]⟩
  | speedSeq (k : Fin 2) (n : Nat) (d : Direction) (y : StepStyle) (rpm : Nat) : opFuel i = 64 * (8 * n + 9) →
      PlanShape cfg i ⟨.speedSeq k n d y rpm, [.seqTest k]⟩

/-- The groups of writes of a DC command (spec 41 R164, R165). -/
theorem dcRunActs_blocks (t : Triple) (c : Command) :
    ∃ bs : List (List (Byte × Byte)), dcRunActs t c = bs.flatMap lockedActs ∧ bs.length ≤ 2 ∧ ∀ b ∈ bs, TickBlock b := by
  have two : ∀ (u v : Chan) (x y : Bool), ∃ bs : List (List (Byte × Byte)),
      setpinActs u x ++ setpinActs v y = bs.flatMap lockedActs ∧ bs.length ≤ 2 ∧ ∀ b ∈ bs, TickBlock b := fun u v x y => by
    refine ⟨[pinBytes u x, pinBytes v y], by simp [setpinActs_eq], le_rfl, fun b hb => ?_⟩
    rcases List.mem_pair.mp hb with rfl | rfl <;> exact tickBlock_pin _ _
  cases c with
  | forward => exact two _ _ _ _
  | backward => exact two _ _ _ _
  | release => exact two _ _ _ _
  | brake => exact ⟨[], rfl, by simp, by simp⟩

theorem dcSpeedActs_eq (t : Triple) (v : Int) : dcSpeedActs t v = lockedActs (chanBytes t.pwm 0 (dutyTick (clampSpeed v))) :=
  setchActs_eq _ _ _

theorem tickBlock_duty (c : Chan) (v : Int) : TickBlock (chanBytes c 0 (dutyTick (clampSpeed v))) :=
  tickBlock_chan c (by omega) (by have := clampSpeed_le v; unfold dutyTick dutyScale; omega)

/-- One locked group of a tick pair is a program of that shape. -/
theorem PlanShape.ofBlock (cfg : Config) (i : Instr) {b : List (Byte × Byte)} (hb : TickBlock b) :
    PlanShape cfg i (.ofActs (lockedActs b)) := by
  have := PlanShape.blocks (cfg := cfg) (i := i) [b] [] (by simp) (by simp) (by simp) (by simpa using hb) (by simp)
  simpa using this

/-- Every operation that passes its checks has a plan of one of the shapes. -/
theorem plan_shape {cfg : Config} {i : Instr} {p : Plan} (h : plan cfg i = .ok p) : PlanShape cfg i p := by
  have hi := plan_is h
  cases i with
  | init =>
    obtain ⟨ht, hs⟩ := hi
    obtain rfl : p = .ofActs (initActs cfg) := by
      cases p; cases hs; injection ht with ht; cases ht; rfl
    exact .init rfl
  | setall on off =>
    obtain ⟨ht, hs⟩ := hi
    obtain rfl : p = .ofActs (lockedActs (pairBytes 0xFA (clampTick on) (clampTick off))) := by
      cases p; cases hs; injection ht with ht; cases ht; rfl
    exact .ofBlock _ _ ⟨_, _, _, .inr rfl, clampTick_le on, clampTick_le off, rfl⟩
  | setfreq f =>
    obtain ⟨ht, hs⟩ := hi
    obtain ⟨q, -, ht⟩ := bind_ok ht
    obtain rfl : p = .ofActs (setfreqActs cfg q) := by
      cases p; cases hs; injection ht with ht; cases ht; rfl
    exact .setfreq f q rfl
  | setch ch on off =>
    obtain ⟨c, -, rfl⟩ := hi
    rw [setchActs_eq]
    exact .ofBlock _ _ (tickBlock_chan c (clampTick_le on) (clampTick_le off))
  | setpin pin val =>
    obtain ⟨c, b, -, rfl⟩ := hi
    rw [setpinActs_eq]
    exact .ofBlock _ _ (tickBlock_pin c b)
  | dcrun m cmd =>
    obtain ⟨k, c, -, -, rfl⟩ := hi
    obtain ⟨bs, he, hl, hb⟩ := dcRunActs_blocks cfg.wiringDc[k] c
    rw [he, ← List.append_nil (bs.flatMap lockedActs)]
    exact .blocks bs [] (by omega) (by simp) (by simp) hb (by simp)
  | dcspeed m sp =>
    obtain ⟨k, -, rfl⟩ := hi
    rw [dcSpeedActs_eq]
    exact .ofBlock _ _ (tickBlock_duty _ _)
  | rundc m cmd sp rt =>
    obtain ⟨k, c, t, hk, -, rfl⟩ := hi
    obtain ⟨bs, he, hl, hb⟩ := dcRunActs_blocks cfg.wiringDc[k] c
    have hacts : dcRunActs cfg.wiringDc[k] c ++ (dcSpeedActs cfg.wiringDc[k] sp ++ armActs k t) =
        (bs ++ [chanBytes cfg.wiringDc[k].pwm 0 (dutyTick (clampSpeed sp))]).flatMap lockedActs ++ armActs k t := by
      rw [he, dcSpeedActs_eq]; simp
    rw [hacts]
    refine .blocks _ _ (by rw [List.length_append, List.length_singleton]; omega) (by cases t <;> simp [armActs]) (by simp) (fun b hm => ?_) (fun x hx => ?_)
    · rcases List.mem_append.mp hm with hm | hm
      · exact hb b hm
      · rw [List.mem_singleton.mp hm]; exact tickBlock_duty _ _
    · cases t with
      | none => cases hx
      | some t => exact ⟨k, t, List.mem_singleton.mp hx, by simp [opTarget, hk]⟩
  | stspeed k rpm => cases hi; exact .blocks [] [] (by simp) (by simp) (by simp) (by simp) (by simp)
  | onestep k cmd y => obtain ⟨j, d, z, -, rfl⟩ := hi; exact .one j d z
  | step k n cmd y => obtain ⟨j, d, z, -, rfl⟩ := hi; exact .seq j n d z rfl
  | runst k n cmd sp y => obtain ⟨j, d, z, r, -, -, rfl⟩ := hi; exact .speedSeq j n d z r rfl

/-! ### Counting moves -/

/-- A bound on the moves that a loop's test may still start: 46 for an invocation with its count, its test and its wait, and 7
invocations of a correction. -/
def loopMoves : Option (Phase × Nat × Direction) → Nat → Nat
  | none, _ => 1
  | some (.main, n, _), _ => 46 * n + 324
  | some (.correct, _, d), p => 46 * correctionCount .microstep d p + 1

/-- A bound on the moves of a program, from the sequence and the position it starts with. -/
def movesLeft (mode : CorrectionMode) : Option (Phase × Nat × Direction) → Nat → List Act → Nat
  | _, _, [] => 0
  | q, p, .oneStep _ d y :: rest => 43 + movesLeft mode q (nextPos mode p y d).val rest
  | q, p, .seqCount _ :: rest => 1 + movesLeft mode (keyCounted q) p rest
  | q, p, .seqTest _ :: rest => loopMoves q p + movesLeft mode q p rest
  | q, p, _ :: rest => 1 + movesLeft mode q p rest

/-- A bound on the moves of an agent's operation in progress, its end included. -/
def State.movesLeft (s : State) (a : Actuator) : Nat :=
  match (s.worker a).task with
  | some t => 1 + Machine.movesLeft s.cfg.correctionMode (s.keyOf a) (s.posOf a) t.todo
  | none => 0

theorem State.movesLeft_none {s : State} {a : Actuator} (h : (s.worker a).task = none) : s.movesLeft a = 0 := by
  unfold State.movesLeft; rw [h]

theorem State.movesLeft_some {s : State} {a : Actuator} {t : Task} (h : (s.worker a).task = some t) :
    s.movesLeft a = 1 + Machine.movesLeft s.cfg.correctionMode (s.keyOf a) (s.posOf a) t.todo := by
  unfold State.movesLeft; rw [h]

/-- An action that takes one move whatever the sequence is. -/
def Act.single : Act → Bool
  | .oneStep _ _ _ => false
  | .seqCount _ => false
  | .seqTest _ => false
  | _ => true

/-- The moves of a program that begins with single actions. -/
theorem movesLeft_append {mode : CorrectionMode} {q : Option (Phase × Nat × Direction)} {p : Nat} {u : List Act} (v : List Act)
    (h : ∀ x ∈ u, x.single = true) : movesLeft mode q p (u ++ v) = u.length + movesLeft mode q p v := by
  induction u with
  | nil => simp
  | cons x u ih =>
    have h1 := ih (fun y hy => h y (by simp [hy]))
    have h2 := h x (by simp)
    cases x <;> simp_all [Act.single, movesLeft] <;> omega

theorem movesLeft_single {mode : CorrectionMode} {q : Option (Phase × Nat × Direction)} {p : Nat} {u : List Act}
    (h : ∀ x ∈ u, x.single = true) : movesLeft mode q p u = u.length := by
  have := movesLeft_append (mode := mode) (q := q) (p := p) [] h
  simpa [movesLeft] using this

/-- What the other weights call plain is single. -/
theorem Act.single_of_plain {x : Act} (h : x.plain = true) : x.single = true := by
  cases x with
  | oneStep k d y => cases h
  | seqTest k => cases h
  | seqCount k => cases h
  | _ => rfl

/-- A loop's test counts more moves than what it puts in its place. -/
theorem seqTest_moves {s : State} {k : Fin 2} (hm : CorrectionIsMicrostep s) :
    movesLeft s.cfg.correctionMode (loopKey ((s.seqTest k).1.stepper k).seq) (s.stepper k).pos (s.seqTest k).2 + 1 ≤
      loopMoves (loopKey (s.stepper k).seq) (s.stepper k).pos := by
  cases hs : (s.stepper k).seq with
  | idle => simp [State.seqTest, hs, movesLeft, loopKey, loopMoves]
  | running r =>
    have hle : correctionCount .microstep r.cmd (s.stepper k).pos ≤ 7 := by
      cases r.cmd <;> simp only [correctionCount] <;> omega
    cases hr : r.phase with
    | main =>
      by_cases hmain : 0 < r.main
      · cases hf : r.first <;>
          simp [State.seqTest, State.seqNext, hs, hr, hmain, hf, State.setSeq, loopKey, loopMoves, invocation, movesLeft, keyCounted] <;>
          omega
      · by_cases hy : r.style = .microstep
        · simp [State.seqTest, hs, hr, hmain, hy, State.setSeq, loopKey, loopMoves, movesLeft]
          omega
        · simp [State.seqTest, hs, hr, hmain, hy, loopKey, loopMoves, movesLeft]
    | correct =>
      have hy := hm k r hs hr
      by_cases hp : (s.stepper k).pos % 8 = 0
      · simp [State.seqTest, hs, hr, hp, loopKey, loopMoves, movesLeft]
      · have := correctionCount_next (mode := s.cfg.correctionMode) (d := r.cmd) hp
        cases hf : r.first <;>
          simp [State.seqTest, State.seqNext, hs, hr, hp, hf, hy, State.setSeq, loopKey, loopMoves, invocation, movesLeft, keyCounted] <;>
          omega

/-- ONE ACTION uses up a move. -/
theorem runAct_moves {s : State} {a : Actuator} {t : Task} {act : Act} {rest : List Act} (ht : (s.worker a).task = some t)
    (hto : t.todo = act :: rest) (ho : Act.ownedBy a act = true) (hf : act = .acquire → s.lock = .free)
    (hm : CorrectionIsMicrostep s) (hl : ∀ k, act = .seqTest k → rest = []) :
    (s.runAct a t act rest).movesLeft a + 1 ≤ s.movesLeft a := by
  have hcfg : (s.runAct a t act rest).cfg = s.cfg := (After.runAct s a t act rest).1
  rw [State.movesLeft_some ht, hto]
  rcases runAct_cases s a t act rest with ⟨h1, h2, -⟩ | ⟨h1, -⟩ | ⟨u, hu, -, -, h1, -, -⟩
  · exact absurd (hf h1) h2
  · rw [State.movesLeft_none (by rw [h1]; simp)]; omega
  · have ha : ((s.runAct a t act rest).worker a).task = some u := by rw [h1]; simp
    obtain ⟨hkey, hpos⟩ := runAct_key (s := s) (t := t) (rest := rest) ho (by rw [ha]; simp)
    rw [State.movesLeft_some ha, hcfg, hu, hkey, hpos]
    have hk : ∀ k, Act.ownedBy a act = decide (a = .stepper k) → a = .stepper k := fun k e => by
      rw [ho] at e; exact of_decide_eq_true e.symm
    cases act with
    | oneStep k d y =>
      obtain rfl := hk k rfl
      obtain ⟨hplain, hlen⟩ := outputActs_plain s.cfg k (nextPos s.cfg.correctionMode (s.stepper k).pos y d) y d
      simp only [unfoldsTo, movesLeft]
      rw [movesLeft_append _ (fun x hx => Act.single_of_plain (hplain x hx)), hlen]
      simp only [State.keyOf, State.posOf]; omega
    | seqTest k =>
      obtain rfl := hk k rfl
      obtain rfl := hl k rfl
      have := seqTest_moves (s := s) (k := k) hm
      simp only [unfoldsTo, List.append_nil, movesLeft, State.keyOf, State.posOf] at this ⊢
      omega
    | seqCount k =>
      obtain rfl := hk k rfl
      simp only [unfoldsTo, List.nil_append, movesLeft, State.keyOf]; omega
    | _ => simp only [unfoldsTo, List.nil_append, movesLeft]; omega

/-- The moves of a started operation fit its fuel. -/
theorem begin_moves {s : State} {a : Actuator} {i : Instr} {p : Plan} (h : PlanShape s.cfg i p) (hs : PlanStarts a p) :
    (s.begin a i p).movesLeft a + 1 ≤ opFuel i := by
  have hfuel : 64 ≤ opFuel i := by cases i <;> simp only [opFuel] <;> omega
  have hcfg : (s.begin a i p).cfg = s.cfg := (After.begin s a i p).1
  rcases (begin_workers s a i p).2.2 with ⟨hn, -⟩ | ⟨ht, -⟩
  · rw [State.movesLeft_none hn]; omega
  rw [State.movesLeft_some ht, hcfg]
  have hsingle : (∀ x ∈ p.todo, x.single = true) → p.todo.length ≤ 62 →
      1 + movesLeft s.cfg.correctionMode ((s.begin a i p).keyOf a) ((s.begin a i p).posOf a)
        (Task.fresh i (.actuator a) p.todo).todo + 1 ≤ opFuel i := fun h1 h2 => by
    rw [show (Task.fresh i (.actuator a) p.todo).todo = p.todo from rfl, movesLeft_single h1]; omega
  -- a sequence starts with its main count
  have hseq : ∀ (k : Fin 2) (n : Nat) (d : Direction) (y : StepStyle) (sps : Rat), a = .stepper k → p.todo = [.seqTest k] →
      ((s.begin a i p).stepper k).seq = .running (seqStart sps n d y) → opFuel i = 64 * (8 * n + 9) →
      1 + movesLeft s.cfg.correctionMode ((s.begin a i p).keyOf a) ((s.begin a i p).posOf a)
        (Task.fresh i (.actuator a) p.todo).todo + 1 ≤ opFuel i := fun k n d y sps h1 h2 h3 h4 => by
    have hmain : mainCount n y ≤ 8 * n := by cases y <;> simp only [mainCount, microsteps] <;> omega
    rw [show (Task.fresh i (.actuator a) p.todo).todo = p.todo from rfl, h2, h1, h4]
    rw [h1] at h3
    simp only [State.keyOf, h3, loopKey, seqStart, movesLeft, loopMoves]
    omega
  cases h with
  | init _ => exact hsingle (List.all_eq_true.mp (by rfl)) (show 13 ≤ 62 by omega)
  | setfreq f q _ => exact hsingle (List.all_eq_true.mp (by rfl)) (show 9 ≤ 62 by omega)
  | blocks bs arm h1 h2 _ h3 h4 =>
    refine hsingle (fun x hx => ?_) (by simp only [Plan.ofActs, List.length_append, blocks_length h3]; omega)
    rcases List.mem_append.mp hx with hx | hx
    · obtain ⟨b, -, hx⟩ := List.mem_flatMap.mp hx
      simp only [lockedActs, writeActs, List.mem_cons, List.mem_append, List.mem_map, List.not_mem_nil, or_false] at hx
      rcases hx with rfl | rfl | ⟨w, -, rfl⟩ | rfl <;> rfl
    · obtain ⟨m, t, rfl, -⟩ := h4 x hx; rfl
  | one k d y =>
    simp only [Task.fresh, movesLeft]; omega
  | seq k n d y hf =>
    exact hseq k n d y (s.stepper k).sps hs.1 rfl (by simp [State.begin]) hf
  | speedSeq k n d y rpm hf =>
    refine hseq k n d y ((s.setSpeed k rpm).stepper k).sps hs.1 rfl ?_ hf
    unfold State.begin at ht ⊢
    dsimp only at ht ⊢
    split at ht
    · next hb => rw [State.raiseBusError, State.task_endTask] at ht; cases ht
    · next hb => rw [if_neg hb]; simp

end Sys2Proof.Machine
end

section
/-! PROOFS. The end of an operation on a block at rest, whatever the bus answers (spec 60 R264, R267, R276), and the Failed bus
handle (spec 10 R45, 60 R261). -/

namespace Sys2Proof.Machine

/-! ### An agent that runs alone -/

/-- A release is armed by the agent of its own motor. -/
def ArmsOwn (a : Actuator) (x : Act) : Prop := ∀ m t, x = .arm m t → a = .dc m

/-- What a oneStep or a test puts in front of a program arms no release. -/
theorem unfolds_armsOwn {a : Actuator} (u : State) (x : Act) (_ : ArmsOwn a x) : ∀ y ∈ unfoldsTo u x, ArmsOwn a y := by
  rintro y hy m t rfl
  cases x with
  | oneStep k d z =>
    have := (outputActs_plain u.cfg k (nextPos u.cfg.correctionMode (u.stepper k).pos z d) z d).1 _ hy
    cases this
  | seqTest k =>
    revert hy
    simp only [unfoldsTo, State.seqTest, State.seqNext]
    repeat' split
    all_goals simp [invocation]
  | _ => cases hy

/-- A planned operation arms the release of its own motor only (spec 41 R176). -/
theorem plan_armsOwn {cfg : Config} {i : Instr} {p : Plan} {a : Actuator} (h : PlanShape cfg i p) (ha : opTarget i = some a) :
    ∀ x ∈ p.todo, ArmsOwn a x := by
  rintro x hx m t rfl
  cases h with
  | init _ => simp [Plan.ofActs, initActs, writeActs, pairBytes] at hx
  | setfreq f q _ => simp [Plan.ofActs, setfreqActs] at hx
  | blocks bs arm _ _ _ _ harm =>
    rcases List.mem_append.mp hx with hx | hx
    · obtain ⟨b, -, hx⟩ := List.mem_flatMap.mp hx
      simp [lockedActs, writeActs] at hx
    · obtain ⟨m', t', e, ht⟩ := harm _ hx
      cases e
      rw [ha] at ht; exact Option.some.inj ht
  | one k d y => simp at hx
  | seq k n d y _ => simp at hx
  | speedSeq k n d y rpm _ => simp at hx

/-- Agent `a` runs alone: nobody else has or can have a step, and the invariants hold. -/
structure Solo (a : Actuator) (u : State) : Prop where
  alone : Alone a u
  seq : SequencerInv u
  lock : LockDiscipline u
  queue : (u.worker a).queue = []
  arms : ProgramIs (ArmsOwn a) a u

/-- Only an agent that runs alone can hold the lock. -/
theorem Solo.lock_cases {a : Actuator} {u : State} (h : Solo a u) : u.lock = .free ∨ u.lock = .held a := by
  cases hl : u.lock with
  | free => exact .inl rfl
  | held b =>
    by_cases hb : b = a
    · exact .inr (by rw [hb])
    · have hidle := h.alone.2.1 b hb
      have hlock := (lockDiscipline_iff u).mp h.lock b
      simp only [Worker.isIdle, Bool.and_eq_true, Option.isNone_iff_eq_none] at hidle
      rw [hidle.2, lockAt_none] at hlock
      exact absurd hl hlock

/-- The lock is free when an agent that runs alone wants it. -/
theorem Solo.lock_free {a : Actuator} {u : State} (h : Solo a u) {t : Task} (ht : (u.worker a).task = some t)
    (hw : t.wantsLock = true) : u.lock = .free := by
  rcases h.lock_cases with hl | hl
  · exact hl
  · have hlock := (lockDiscipline_iff u).mp h.lock a
    rw [ht, lockAt_some, hl] at hlock
    unfold Task.wantsLock at hw
    split at hw
    · next rest hto => rw [hto] at hlock; simp [bracketed] at hlock
    · cases hw

/-- An agent that runs alone can move while its operation is in progress. -/
theorem Solo.canTick {a : Actuator} {u : State} (h : Solo a u) {t : Task} (ht : (u.worker a).task = some t) :
    u.canTick a = true := by
  unfold State.canTick
  rw [ht]
  cases hw : t.wantsLock with
  | false => simp [hw]
  | true => simp [h.lock_free ht hw]

/-- Nobody else comes to have a step by an agent's move. -/
theorem Alone.tick {a : Actuator} {u : State} (h : Alone a u) (ho : TasksOwned u) (harm : ProgramIs (ArmsOwn a) a u) :
    Alone a (u.tick a) := by
  refine h.of_eq (tick_inbox u a) (tick_workers u a ho).1 (fun m hm => ?_)
  rcases tick_armed u a m with he | ⟨t, d, rest, ht, hto⟩
  · exact he
  · exact absurd (harm t ht (.arm m d) (by simp [hto]) m d rfl) hm

/-- A move of the operation in progress keeps the agent alone. -/
theorem Solo.tick {a : Actuator} {u : State} (h : Solo a u) {t : Task} (ht : (u.worker a).task = some t) : Solo a (u.tick a) := by
  have hc := h.canTick ht
  refine ⟨h.alone.tick h.seq.2.1 h.arms, SequencerInv.closed.tick u a h.seq hc,
    (LockDiscipline.closed.tick u a ⟨h.seq.2.1, h.lock⟩ hc).2, ?_, ?_⟩
  all_goals
    unfold State.tick
    rw [ht]
    dsimp only
    split
  · rw [finish_worker]; exact h.queue
  · rw [runAct_queue]; exact h.queue
  · exact .finish u t
  · next x rest hto => exact h.arms.runAct (fun x => unfolds_armsOwn u x) ht hto

/-- A move of the operation in progress uses up one of the moves left. -/
theorem Solo.movesLeft_tick {a : Actuator} {u : State} (h : Solo a u) {t : Task} (ht : (u.worker a).task = some t) :
    (u.tick a).movesLeft a + 1 ≤ u.movesLeft a := by
  obtain ⟨-, ho, hcorr, hlast⟩ := h.seq
  unfold State.tick
  rw [ht]
  dsimp only
  split
  · rw [State.movesLeft_none (by rw [finish_worker]), State.movesLeft_some ht]; omega
  · next x rest hto =>
    refine runAct_moves ht hto (ho.1 a t ht x (by simp [hto])) (fun hx => h.lock_free ht ?_) hcorr (fun k hx => ?_)
    · simp [Task.wantsLock, hto, hx]
    · subst hx
      have hown := ho.1 a t ht (.seqTest k) (by simp [hto])
      obtain rfl : a = .stepper k := of_decide_eq_true hown
      have htest := hlast k t ht
      rw [hto] at htest
      cases rest with
      | nil => rfl
      | cons y ys => exact absurd (by simp) htest

/-- AN OPERATION THAT RUNS ALONE ENDS within its moves. -/
theorem Solo.ends {a : Actuator} : ∀ (n : Nat) (u : State), Solo a u → u.movesLeft a ≤ n →
    Solo a (State.settle n a u) ∧ (State.settle n a u).worker a = Worker.idle := by
  intro n
  induction n with
  | zero =>
    intro u h hn
    refine ⟨h, ?_⟩
    cases ht : (u.worker a).task with
    | some t => rw [State.movesLeft_some ht] at hn; omega
    | none => show u.worker a = Worker.idle; cases hw : u.worker a; simp_all [Worker.idle, h.queue.symm]
  | succ n ih =>
    intro u h hn
    cases ht : (u.worker a).task with
    | none =>
      have hidle : u.worker a = Worker.idle := by
        have hq := h.queue
        cases hw : u.worker a; rw [hw] at hq ht; simp_all [Worker.idle]
      rw [settle_idle (by rw [hidle]; rfl)]
      exact ⟨h, hidle⟩
    | some t =>
      rw [settle_alone h.alone (h.canTick ht)]
      exact ih _ (h.tick ht) (by have := h.movesLeft_tick ht; omega)

/-! ### From a block at rest -/

theorem Launch.sequencerInv {s : State} (h : Launch s) : SequencerInv s := by
  rw [sequencerInv_iff]
  have htask : ∀ a, (s.worker a).task = none := fun a => by rw [h.worker_idle a]; rfl
  refine ⟨⟨fun a t ht => ?_, fun a i hi => ?_⟩, fun k => ?_⟩
  · rw [htask a] at ht; cases ht
  · rw [h.worker_idle a] at hi; cases hi
  · rw [h.seq_idle k, show (s.stepper k).work.task = none from htask (.stepper k)]; exact .idle k

theorem Launch.lockDiscipline {s : State} (h : Launch s) : LockDiscipline s := by
  rw [lockDiscipline_iff]
  intro a
  rw [h.worker_idle a, h.lock_free]; simp [Worker.idle]

/-- On a block at rest the issue is recorded, and no release is there to cancel. -/
theorem Launch.issued {s : State} (h : Launch s) (a : Actuator) (i : Instr) : s.issued a i = s.log (.issue (.actuator a) i) := by
  cases a with
  | dc m => exact setPending_none_self (h.pending_none m)
  | _ => rfl

/-- On a block at rest with one operation queued, the operation's agent is alone and can move. -/
theorem Launch.queued {s : State} (h : Launch s) (a : Actuator) (i : Instr) :
    Alone a (s.enqueue a i) ∧ (s.enqueue a i).canTick a = true := by
  refine ⟨(h.alone a).of_eq (by simp) (fun b hb => by rw [State.worker_enqueue, if_neg (Ne.symm hb)])
    (fun m _ => by simp [State.armed, State.enqueue, State.setQueue]), ?_⟩
  unfold State.canTick
  rw [State.worker_enqueue, if_pos rfl, h.worker_idle a]; rfl

/-- The agent runs alone once the first move of its operation is made on a block at rest. -/
theorem Launch.solo {s : State} (h : Launch s) {a : Actuator} {i : Instr} (ht : opTarget i = some a) (hq : queueable i = true) :
    Solo a ((s.enqueue a i).tick a) := by
  have hidle := h.worker_idle a
  have hseq : SequencerInv (s.enqueue a i) := SequencerInv.closed.enqueue s a i h.sequencerInv ht hq
  have hlock := (LockDiscipline.closed.enqueue s a i ⟨h.sequencerInv.2.1, h.lockDiscipline⟩ ht hq).2
  have hnone : ((s.enqueue a i).worker a).task = none := by rw [(Quiet.enqueue s a i).task a, hidle]; rfl
  obtain ⟨halone, hc⟩ := h.queued a i
  have hfirst : (((s.enqueue a i).tick a).worker a).queue = [] ∧ ProgramIs (ArmsOwn a) a ((s.enqueue a i).tick a) := by
    cases hp : plan s.cfg i with
    | error c =>
      rw [(tick_enqueue hidle i).1 c hp]
      exact ⟨by simp [hidle, Worker.idle], .of_none (by simp [hidle, Worker.idle])⟩
    | ok p =>
      rw [(tick_enqueue hidle i).2 p hp]
      exact ⟨by rw [(begin_workers s a i p).2.1, hidle]; rfl, .begin s i (plan_armsOwn (plan_shape hp) ht)⟩
  exact ⟨halone.tick hseq.2.1 (.of_none hnone), SequencerInv.closed.tick _ a hseq hc,
    (LockDiscipline.closed.tick _ a ⟨hseq.2.1, hlock⟩ hc).2, hfirst.1, hfirst.2⟩

/-- The moves of an operation on a block at rest, its start included, fit its fuel. -/
theorem Launch.movesLeft {s : State} (h : Launch s) {a : Actuator} {i : Instr} (ht : opTarget i = some a)
    (hq : queueable i = true) : ((s.enqueue a i).tick a).movesLeft a + 1 ≤ opFuel i := by
  have hidle := h.worker_idle a
  cases hp : plan s.cfg i with
  | error c =>
    rw [(tick_enqueue hidle i).1 c hp, State.movesLeft_none (by simp [hidle, Worker.idle])]
    cases i <;> simp only [opFuel] <;> omega
  | ok p => rw [(tick_enqueue hidle i).2 p hp]; exact begin_moves (plan_shape hp) (plan_good hp ht hq).2

/-- EVERY QUEUED OPERATION ENDS on a block at rest, within its issue: its agent is idle again, and ran alone. -/
theorem Launch.submit_ends {s : State} (h : Launch s) {a : Actuator} {i : Instr} (ht : opTarget i = some a)
    (hq : queueable i = true) : Solo a (s.submit a i) ∧ (s.submit a i).worker a = Worker.idle := by
  have hl : Launch (s.log (.issue (.actuator a) i)) := h
  have hmoves := hl.movesLeft ht hq
  obtain ⟨n, hn⟩ : ∃ n, opFuel i = n + 1 := ⟨opFuel i - 1, by omega⟩
  obtain ⟨halone, hc⟩ := hl.queued a i
  rw [submit_launch h, hn, settle_alone halone hc]
  exact (hl.solo ht hq).ends n _ (by omega)

/-- THE RUN OF ONE OPERATION on a block at rest: what its start has and its actions and its end keep, holds at its end. -/
theorem Launch.submit_run {s : State} (h : Launch s) {a : Actuator} {i : Instr} (ht : opTarget i = some a)
    (hq : queueable i = true) {J : State → Prop}
    (error : ∀ c, plan s.cfg i = .error c →
      J ((s.log (.issue (.actuator a) i)).log (.done (.actuator a) i (.configurationError i c))))
    (start : ∀ p, plan s.cfg i = .ok p → J ((s.log (.issue (.actuator a) i)).begin a i p))
    (act : ∀ u t x rest, J u → (u.worker a).task = some t → t.todo = x :: rest → J (u.runAct a t x rest))
    (finish : ∀ u t, J u → (u.worker a).task = some t → t.todo = [] → J (u.finish a t)) : J (s.submit a i) := by
  have hl : Launch (s.log (.issue (.actuator a) i)) := h
  have hend := (h.submit_ends ht hq).2
  rw [submit_launch h] at hend ⊢
  rcases settle_run (hl.worker_idle a) error start act finish (opFuel i) with he | he
  · rw [he, State.worker_enqueue, if_pos rfl] at hend
    simp [Worker.idle] at hend
  · exact he

/-- A block on which an agent ran alone is at rest when that agent is idle, if no release is armed. -/
theorem Solo.launch {a : Actuator} {u : State} (h : Solo a u) (hw : u.worker a = Worker.idle) (hp : ∀ m, u.armed m = false) :
    Launch u := by
  have hidle : ∀ b, (u.worker b).isIdle = true := fun b => by
    by_cases hb : b = a
    · rw [hb, hw]; rfl
    · exact h.alone.2.1 b hb
  have htask : ∀ b, (u.worker b).task = none := fun b => by
    have := hidle b
    simp only [Worker.isIdle, Bool.and_eq_true, Option.isNone_iff_eq_none] at this
    exact this.2
  have hseq : ∀ k, (u.stepper k).seq = .idle := fun k => by
    have hk := (((sequencerInv_iff u).mp h.seq).2 k).token
    rw [show (u.stepper k).work.task = none from htask (.stepper k)] at hk
    cases hs : (u.stepper k).seq with
    | idle => rfl
    | running r => rw [hs] at hk; exact absurd hk id
  have hlock : u.lock = .free := by
    rcases h.lock_cases with hl | hl
    · exact hl
    · have := (lockDiscipline_iff u).mp h.lock a
      rw [htask a, lockAt_none] at this
      exact absurd hl this
  refine ⟨?_, h.alone.1⟩
  simp [State.isFinal, hidle, State.inFlight, hseq, hp, State.locked, hlock]

/-! ### The Failed bus handle -/

/-- A legal operation names its actuator. -/
theorem wellFormed_target {i : Instr} (h : i.wellFormed = true) : ∃ a, opTarget i = some a := by
  have dc : ∀ m : Int, inRange 0 3 m = true → ∃ a, (dcIndex? m).map Actuator.dc = some a := fun m hm => by
    rcases index_cases (n := 3) m with ⟨-, k, hk⟩ | ⟨h1, -⟩
    · exact ⟨.dc k, by simp [dcIndex?, hk]⟩
    · exact absurd (h1.symm.trans hm) (by simp)
  have st : ∀ m : Int, inRange 0 1 m = true → ∃ a, (stepperIndex? m).map Actuator.stepper = some a := fun m hm => by
    rcases index_cases (n := 1) m with ⟨-, k, hk⟩ | ⟨h1, -⟩
    · exact ⟨.stepper k, by simp [stepperIndex?, hk]⟩
    · exact absurd (h1.symm.trans hm) (by simp)
  cases i with
  | dcrun m cmd => simp only [Instr.wellFormed, Bool.and_eq_true] at h; exact dc m h.1
  | dcspeed m sp => exact dc m h
  | rundc m cmd sp rt => simp only [Instr.wellFormed, Bool.and_eq_true] at h; exact dc m h.1.1
  | stspeed k rpm => simp only [Instr.wellFormed, Bool.and_eq_true] at h; exact st k h.1
  | onestep k cmd y => simp only [Instr.wellFormed, Bool.and_eq_true] at h; exact st k h.1.1
  | step k n cmd y => simp only [Instr.wellFormed, Bool.and_eq_true] at h; exact st k h.1.1
  | runst k n cmd sp y => simp only [Instr.wellFormed, Bool.and_eq_true] at h; exact st k h.1.1.1
  | _ => exact ⟨.controller, rfl⟩

/-! ### The checks of a legal operation -/

/-- A check, or a chain of checks, that passes. -/
def Passes {α : Type} (x : Except Cause α) : Prop := ∃ v, x = .ok v

namespace Passes

theorem ok {α : Type} (v : α) : Passes (.ok v) := ⟨v, rfl⟩

theorem bind {α β : Type} {x : Except Cause α} {f : α → Except Cause β} (hx : Passes x) (hf : ∀ v, Passes (f v)) :
    Passes (x >>= f) := by
  obtain ⟨v, rfl⟩ := hx; exact hf v

theorem map {α β : Type} {x : Except Cause α} (f : α → β) (hx : Passes x) : Passes (x.map f) := by
  obtain ⟨v, rfl⟩ := hx; exact ⟨f v, rfl⟩

theorem index {n : Nat} {v : Int} (c : Cause) (h : inRange 0 (n : Int) v = true) : Passes (need (indexOf? (n + 1) v) c) := by
  rcases index_cases v with ⟨-, k, hk⟩ | ⟨hbad, -⟩
  · exact ⟨k, by rw [hk]; rfl⟩
  · rw [h] at hbad; cases hbad

theorem command {c : Int} (h : Command.codeOk c = true) : Passes (needCommand c) := by
  rcases needCommand_cases c with ⟨-, x, hx, -⟩ | ⟨hbad, -⟩
  · exact ⟨x, hx⟩
  · rw [h] at hbad; cases hbad

theorem direction {c : Int} (h : Command.stepCodeOk c = true) : Passes (needDirection c) := by
  rcases needDirection_cases c with ⟨-, -, d, hd, -⟩ | ⟨-, hbad, -⟩ | ⟨-, hbad, -⟩
  · exact ⟨d, hd⟩
  · rw [h] at hbad; cases hbad
  · rw [h] at hbad; cases hbad

theorem style {c : Int} (h : StepStyle.codeOk c = true) : Passes (needStyle c) := by
  rcases needStyle_cases c with ⟨-, y, hy, -⟩ | ⟨hbad, -⟩
  · exact ⟨y, hy⟩
  · rw [h] at hbad; cases hbad

theorem frequency {f : F64} (h : F64.freqOk f = true) : Passes (needFrequency f) := by
  rcases needFrequency_cases f with ⟨-, q, -, -, hq⟩ | ⟨hbad, -⟩
  · exact ⟨q, hq⟩
  · rw [h] at hbad; cases hbad

theorem runtime {rt : Option F64} (h : F64.runtimeOk rt = true) : Passes (needRuntime rt) := by
  rcases needRuntime_cases rt with ⟨-, ht⟩ | ⟨hbad, -⟩
  · exact ⟨rt, ht⟩
  · rw [h] at hbad; cases hbad

theorem speed {v : Int} (h : 1 ≤ v) : Passes (needStepperSpeed v) := by
  rcases needStepperSpeed_cases v with ⟨-, hv⟩ | ⟨hbad, -⟩
  · exact ⟨_, hv⟩
  · exact absurd h hbad

theorem rpm {v : Int} (h : 1 ≤ v) : Passes (needRpm v) := ⟨v.toNat, if_neg (by omega)⟩

theorem pinValue {v : Int} (h : inRange 0 1 v = true) : Passes (needPinValue v) := by
  have hv : v = 0 ∨ v = 1 := by simp [inRange] at h; omega
  rcases hv with rfl | rfl
  · exact ⟨false, rfl⟩
  · exact ⟨true, rfl⟩

end Passes

/-- A legal operation passes its checks, one after another. -/
theorem plan_of_wellFormed (cfg : Config) {i : Instr} (h : i.wellFormed = true) : Passes (plan cfg i) := by
  cases i with simp only [Instr.wellFormed, Bool.and_eq_true, decide_eq_true_eq] at h
  | init => exact ⟨_, rfl⟩
  | setall on off => exact ⟨_, rfl⟩
  | setch ch on off => exact .map _ (.bind (.index (n := 15) _ h) fun c => .ok _)
  | setfreq f => exact .map _ (.bind (.frequency h) fun q => .ok _)
  | setpin p v =>
    obtain ⟨hp, hv⟩ := h
    exact .map _ (.bind (.index (n := 15) _ hp) fun c => .bind (.pinValue hv) fun b => .ok _)
  | dcrun m cmd =>
    obtain ⟨hm, hc⟩ := h
    exact .map _ (.bind (.index (n := 3) _ hm) fun k => .bind (.command hc) fun c => .ok _)
  | dcspeed m sp => exact .map _ (.bind (.index (n := 3) _ h) fun k => .ok _)
  | rundc m cmd sp rt =>
    obtain ⟨⟨hm, hc⟩, ht⟩ := h
    exact .map _ (.bind (.index (n := 3) _ hm) fun k => .bind (.command hc) fun c => .bind (.runtime ht) fun t => .ok _)
  | stspeed k rpm =>
    obtain ⟨hk, hr⟩ := h
    exact .map _ (.bind (.index (n := 1) _ hk) fun j => .bind (.rpm hr) fun r => .ok _)
  | onestep k cmd y =>
    obtain ⟨⟨hk, hc⟩, hy⟩ := h
    exact .bind (.index (n := 1) _ hk) fun j => .bind (.direction hc) fun d => .bind (.style hy) fun z => .ok _
  | step k n cmd y =>
    obtain ⟨⟨hk, hc⟩, hy⟩ := h
    exact .bind (.index (n := 1) _ hk) fun j => .bind (.direction hc) fun d => .bind (.style hy) fun z => .ok _
  | runst k n cmd sp y =>
    obtain ⟨⟨⟨hk, hc⟩, hy⟩, hs⟩ := h
    exact .bind (.index (n := 1) _ hk) fun j => .bind (.direction hc) fun d => .bind (.style hy) fun z =>
      .bind (.speed hs) fun r => .ok _

/-! ### The program of an operation on a Failed handle -/

/-- A program that has not reached the bus: at its end, in front of a test of the handle or of a oneStep, or at the first test
of a sequence. -/
def BeforeBus (u : State) (todo : List Act) : Prop :=
  todo = [] ∨ (∃ rest, todo = .checkBus :: rest) ∨ (∃ k d y rest, todo = .oneStep k d y :: rest) ∨
  ∃ k r, todo = [.seqTest k] ∧ (u.stepper k).seq = .running r ∧ r.first = true

theorem BeforeBus.setTask {u : State} {todo : List Act} (h : BeforeBus u todo) (a : Actuator) (t : Option Task) :
    BeforeBus (u.setTask a t) todo := by
  unfold BeforeBus; simp only [State.seq_setTask]; exact h

/-- From `s` to `u` no transaction was issued and no release armed or cancelled. -/
structure OffBus (s u : State) : Prop where
  bus : u.bus = s.bus
  img : u.img = s.img
  answers : u.answers = s.answers
  drawn : u.drawn = s.drawn
  armed : ∀ m, u.armed m = s.armed m

@[simp] theorem State.armed_endTask (s : State) (a : Actuator) (t : Task) (r : Result) (m : Fin 4) :
    (s.endTask a t r).armed m = s.armed m := by
  have hC : ∀ {s t : State}, t.dc = s.dc → t.armed m = s.armed m := fun h => by simp [State.armed, State.motor, h]
  rw [State.endTask, State.armed_setTask]
  exact hC (by simp)

namespace OffBus

theorem trans {s u v : State} (h : OffBus s u) (k : OffBus u v) : OffBus s v :=
  ⟨k.bus.trans h.bus, k.img.trans h.img, k.answers.trans h.answers, k.drawn.trans h.drawn, fun m => (k.armed m).trans (h.armed m)⟩

theorem same (s : State) {st : Vector Stepper 2} {hist : List Event} : OffBus s { s with st := st, hist := hist } :=
  ⟨rfl, rfl, rfl, rfl, fun _ => rfl⟩

theorem setTask (s : State) (a : Actuator) (t : Option Task) : OffBus s (s.setTask a t) :=
  ⟨by simp, by simp, by simp, by simp, fun m => by simp⟩

theorem raiseBusError (s : State) (a : Actuator) (t : Task) (x : Option Txn) : OffBus s (s.raiseBusError a t x) :=
  ⟨by simp, by simp, by simp, by simp, fun m => by simp [State.raiseBusError]⟩

end OffBus

/-- The run of operation `i` on agent `a` with a Failed bus handle, issued in `s`: off the bus, and in progress before it or
ended with BusError. -/
def FailedRun (s : State) (a : Actuator) (i : Instr) (u : State) : Prop :=
  OffBus s u ∧
  ((∃ t, (u.worker a).task = some t ∧ t.op = i ∧ t.by_ = .actuator a ∧ u.hist = s.hist ++ [.issue (.actuator a) i] ∧
      BeforeBus u t.todo) ∨
    ((u.worker a).task = none ∧
      ∃ p, u.hist = s.hist ++ [.issue (.actuator a) i, .done (.actuator a) i (.busError i none p)]))

section failedRun

variable {s u : State} {a : Actuator} {i : Instr} {t : Task}

/-- The operation goes on before the bus. -/
theorem FailedRun.running (h : OffBus s u) (hop : t.op = i) (hby : t.by_ = .actuator a)
    (hh : u.hist = s.hist ++ [.issue (.actuator a) i]) (hbefore : BeforeBus u t.todo) : FailedRun s a i (u.setTask a (some t)) :=
  ⟨h.trans (.setTask _ _ _), .inl ⟨t, by simp, hop, hby, by simpa using hh, hbefore.setTask _ _⟩⟩

/-- The operation ends with BusError and no transaction. -/
theorem FailedRun.raise (h : OffBus s u) (hop : t.op = i) (hby : t.by_ = .actuator a)
    (hh : u.hist = s.hist ++ [.issue (.actuator a) i]) : FailedRun s a i (u.raiseBusError a t none) :=
  ⟨h.trans (.raiseBusError _ _ _ _),
    .inr ⟨State.task_endTask _ _ _ _, _, by rw [State.raiseBusError_hist, hh, hop, hby, List.append_assoc]; rfl⟩⟩

/-- On a Failed handle an operation starts before the bus, RUNST with its end (log entry 7). -/
theorem FailedRun.begin (hb : s.bus = .failed) {p : Plan} (hs : PlanShape s.cfg i p) :
    FailedRun s a i ((s.log (.issue (.actuator a) i)).begin a i p) := by
  cases hs with
  | init _ => exact .running (.same s) rfl rfl rfl (.inr (.inl ⟨_, rfl⟩))
  | setfreq f q _ => exact .running (.same s) rfl rfl rfl (.inr (.inl ⟨_, rfl⟩))
  | blocks bs arm _ _ hnil _ _ =>
    refine .running (.same s) rfl rfl rfl ?_
    cases bs with
    | nil => exact .inl (by simp [Task.fresh, Plan.ofActs, hnil rfl])
    | cons b bs => exact .inr (.inl ⟨_, rfl⟩)
  | one k d y => exact .running (.same s) rfl rfl rfl (.inr (.inr (.inl ⟨k, d, y, [], rfl⟩)))
  | seq k n d y _ =>
    exact .running (.same s) rfl rfl rfl (.inr (.inr (.inr ⟨k, _, rfl, State.seq_setSeq_same _ _ _, rfl⟩)))
  | speedSeq k n d y rpm _ =>
    have hf : (s.log (.issue (.actuator a) i)).bus = .failed := hb
    simp only [State.begin, if_pos hf]
    exact .raise (.same s) rfl rfl rfl

/-- On a Failed handle an action leaves the operation before the bus, or ends it. -/
theorem FailedRun.act (hb : s.bus = .failed) (h : FailedRun s a i u) {x : Act} {rest : List Act}
    (ht : (u.worker a).task = some t) (hto : t.todo = x :: rest) : FailedRun s a i (u.runAct a t x rest) := by
  obtain ⟨hoff, ⟨t', ht', hop, hby, hh, hbefore⟩ | ⟨hn, -⟩⟩ := h
  · rw [ht] at ht'; cases ht'
    have hfailed : u.bus = .failed := hoff.bus.trans hb
    rw [hto] at hbefore
    rcases hbefore with e | ⟨r, e⟩ | ⟨k, d, y, r, e⟩ | ⟨k, r, e, hr, hfirst⟩
    · cases e
    · cases e
      simp only [State.runAct, if_pos hfailed]
      exact .raise hoff hop hby hh
    · cases e
      exact .running (hoff.trans (.same u)) hop hby hh (.inr (.inl ⟨_, rfl⟩))
    · cases e
      -- the first test of a sequence: the first invocation, the correction loop's test, or the end
      have hnext : FailedRun s a i ((u.seqNext k r).1.goOn a t ((u.seqNext k r).2 ++ [])) := by
        simp only [State.seqNext, if_pos hfirst]
        exact .running (hoff.trans (.same u)) hop hby hh (.inr (.inr (.inl ⟨k, r.cmd, r.style, _, rfl⟩)))
      have hend : FailedRun s a i (u.goOn a t ([] ++ [])) := .running hoff hop hby hh (.inl rfl)
      simp only [State.runAct, State.seqTest, hr]
      repeat' split
      · exact hnext
      · exact .running (hoff.trans (.same u)) hop hby hh
          (.inr (.inr (.inr ⟨k, _, rfl, State.seq_setSeq_same _ _ _, hfirst⟩)))
      · exact hend
      · exact hnext
      · exact hend
  · rw [ht] at hn; cases hn

/-- On a Failed handle the end of a program that never reached the bus is BusError (log entry 7). -/
theorem FailedRun.finish (hb : s.bus = .failed) (h : FailedRun s a i u) (ht : (u.worker a).task = some t) :
    FailedRun s a i (u.finish a t) := by
  obtain ⟨hoff, ⟨t', ht', hop, hby, hh, -⟩ | ⟨hn, -⟩⟩ := h
  · rw [ht] at ht'; cases ht'
    simp only [State.finish, if_pos (hoff.bus.trans hb)]
    exact .raise hoff hop hby hh
  · rw [ht] at hn; cases hn

end failedRun

/-- Settles O45: a queued operation never reaches the bus and ends on a block at rest; STSPEED ends at its issue. -/
theorem failedBus : Obligations.FailedBus := by
  intro s i hL hb hwf
  obtain ⟨t, he⟩ := exec_next i s
  obtain ⟨p, hp⟩ := plan_of_wellFormed s.cfg hwf
  obtain ⟨a', ha'⟩ := wellFormed_target hwf
  rcases exec_cases he with ⟨a, ha, hq, rfl⟩ | ⟨j, k, rpm, rfl, hj, rfl⟩ | ⟨c, hc, -⟩
  · have hrun : FailedRun s a i (s.submit a i) := by
      refine hL.submit_run ha hq (fun c hc => ?_) (fun p hp => .begin hb (plan_shape hp))
        (fun u t x rest h ht hto => h.act hb ht hto) (fun u t h ht _ => h.finish hb ht)
      rw [show plan s.cfg i = .error c from hc] at hp; cases hp
    obtain ⟨hsolo, hidle⟩ := hL.submit_ends ha hq
    obtain ⟨⟨-, himg, hans, hdr, harm⟩, ⟨t, ht, -⟩ | ⟨-, pr, hh⟩⟩ := hrun
    · rw [hidle] at ht; cases ht
    · refine ⟨_, a, pr, he, hh, himg, hsolo.launch hidle (fun m => ?_), hans, hdr⟩
      rw [harm m, State.armed, hL.pending_none m]; rfl
  · have hr : checkStspeed k rpm = .ok (j, rpm.toNat) := by
      simp only [Instr.wellFormed, Bool.and_eq_true, decide_eq_true_eq] at hwf
      have : needRpm rpm = .ok rpm.toNat := if_neg (by omega)
      simp [checkStspeed, hj, need, this, bind, Except.bind]
    have hf : (s.log (.issue (.actuator (.stepper j)) (.stspeed k rpm))).bus = .failed := hb
    have hs : s.speedNow j (.stspeed k rpm) (checkStspeed k rpm) = (s.log (.issue (.actuator (.stepper j)) (.stspeed k rpm))).log
        (.done (.actuator (.stepper j)) (.stspeed k rpm) (.busError (.stspeed k rpm) none none)) := by
      simp only [State.speedNow, hr, if_pos hf]
    rw [hs] at he
    exact ⟨_, .stepper j, none, he, by simp, rfl, hL, rfl, rfl⟩
  · rw [ha'] at hc; cases hc

end Sys2Proof.Machine
end

section
/-! PROOFS. The channel view and the status bits (spec 10 R26, R46): tick pairs in the image, the programs that write them, and
the bits of MODE1. -/

namespace Sys2Proof.Machine

/-! ### Image entries and events -/

/-- What an entry reads after some events, when no write among them reaches it. -/
theorem imgGet_events (m : List Host.Cell) (evs : List Event) (b : Nat) (hwf : imgWf m = true)
    (h : ∀ a r v ok, Event.write a r v ok ∈ evs → b ∉ imgTargets r) : imgGet (imgAfterEvents m evs) b = imgGet m b := by
  induction evs generalizing m with
  | nil => rfl
  | cons e evs ih =>
    rw [imgAfterEvents_cons, ih _ (imgAfterEvent_wf m e hwf) (fun a r v ok hm => h a r v ok (by simp [hm]))]
    cases e with
    | write a r v ok => simp only [imgAfterEvent]; rw [imgGet_imgAfterWrite m r v ok b hwf, if_neg (h a r v ok (by simp))]
    | _ => rfl

/-- What a register reads after some events, when the last write to it was Ok. -/
theorem imgGet_last {m : List Host.Cell} {pre post : List Event} {a : Actuator} {r v : Byte} (hwf : imgWf m = true)
    (hpost : ∀ b r' v' ok, Event.write b r' v' ok ∉ post) :
    imgGet (imgAfterEvents m (pre ++ .write a r v true :: post)) r.toNat = some v := by
  have hpre := imgAfterEvents_wf m pre hwf
  rw [imgAfterEvents_append, imgAfterEvents_cons, imgGet_events _ _ _ (imgAfterEvent_wf _ _ hpre)
    (fun b r' v' ok hm => absurd hm (hpost b r' v' ok))]
  simp only [imgAfterEvent]
  rw [imgGet_imgAfterWrite _ _ _ _ _ hpre, if_pos ((mem_imgTargets r _).mpr (.inl rfl))]
  rfl

theorem After.wf {s t : State} (h : After s t) (hwf : imgWf s.img = true) : imgWf t.img = true := by
  obtain ⟨-, -, evs, -, himg⟩ := h
  rw [himg]; exact imgAfterEvents_wf _ _ hwf

/-- An entry that no write reaches reads as before. -/
theorem After.imgGet_of_adds {s t : State} {W : Byte → Byte → Prop} (h : After s t) (hW : AddsWrites W s t)
    (hwf : imgWf s.img = true) {b : Nat} (hb : ∀ r v, W r v → b ∉ imgTargets r) : imgGet t.img b = imgGet s.img b := by
  obtain ⟨-, -, evs, hh, himg⟩ := h
  obtain ⟨evs', hh', hw⟩ := hW
  obtain rfl : evs' = evs := List.append_cancel_left (hh'.symm.trans hh)
  rw [himg]
  exact imgGet_events _ _ _ hwf (fun a r v ok hm => hb r v (hw a r v ok hm))

/-! ### Tick registers -/

/-- A tick pair from `base` stands in the registers of channel `e`: its own, or those of all channels (spec 10 R25). -/
abbrev Covers (base : Nat) (e : Chan) : Prop := base = 6 + 4 * e.val ∨ base = 0xFA

/-- Where a tick pair may stand (spec 10 R31, R32). -/
def TickBase (base : Nat) : Prop := (∃ c : Chan, base = 6 + 4 * c.val) ∨ base = 0xFA

theorem TickBase.toNat {base : Nat} (h : TickBase base) {j : Nat} (hj : j ≤ 3) : (BitVec.ofNat 8 (base + j)).toNat = base + j := by
  rw [BitVec.toNat_ofNat]
  rcases h with ⟨c, rfl⟩ | rfl
  · have := c.isLt; omega
  · omega

/-- Byte `j` of a tick pair reaches byte `j` of the channels it covers, and no other channel byte. -/
theorem mem_targets_tick {base : Nat} (h : TickBase base) (e : Chan) {j l : Nat} (hj : j ≤ 3) (hl : l ≤ 3) :
    6 + 4 * e.val + l ∈ imgTargets (BitVec.ofNat 8 (base + j)) ↔ Covers base e ∧ l = j := by
  rw [mem_imgTargets, h.toNat hj]
  have he := e.isLt
  constructor
  · rintro (h1 | ⟨k, c, hk, h1, h2⟩)
    · rcases h with ⟨c, rfl⟩ | rfl
      · exact ⟨.inl (by omega), by omega⟩
      · omega
    · have hc := c.isLt
      rcases h with ⟨c', rfl⟩ | rfl
      · have := c'.isLt; omega
      · exact ⟨.inr rfl, by omega⟩
  · rintro ⟨h1 | h1, rfl⟩
    · exact .inl (by omega)
    · exact .inr ⟨l, e, hl, by omega, rfl⟩

/-- No other register of the map reaches a channel byte. -/
theorem not_mem_targets_other {r : Byte} (h : r = regMode1 ∨ r = regMode2 ∨ r = regPrescale) (e : Chan) {l : Nat} (hl : l ≤ 3) :
    6 + 4 * e.val + l ∉ imgTargets r := by
  have he := e.isLt
  rw [mem_imgTargets]
  rintro (h1 | ⟨k, c, hk, h1, -⟩)
  all_goals
    rcases h with rfl | rfl | rfl <;> simp [regMode1, regMode2, regPrescale] at h1 <;> omega

/-- The tick that two bytes of a channel's registers make: `h` is 0 for on, 2 for off (spec 10 R26). -/
def half (m : List Host.Cell) (e : Chan) (h : Nat) : Option Nat :=
  tickOf (imgGet m (6 + 4 * e.val + h)) (imgGet m (6 + 4 * e.val + (h + 1)))

theorem chanOn_eq_half (s : State) (c : Chan) : s.chanOn c = half s.img c 0 := by
  unfold State.chanOn half; rw [chanBase_toNat]; rfl

theorem chanOff_eq_half (s : State) (c : Chan) : s.chanOff c = half s.img c 2 := by
  unfold State.chanOff half; rw [chanBase_toNat]

/-- Every tick of the image is in 0..4096 or Unknown. -/
def TicksOk (m : List Host.Cell) : Prop := ∀ (e : Chan) (h v : Nat), h = 0 ∨ h = 2 → half m e h = some v → v ≤ 4096

theorem ticksInRange_iff (s : State) : TicksInRange s ↔ TicksOk s.img := by
  unfold TicksInRange TicksOk
  constructor
  · rintro h e j v (rfl | rfl) hv
    · exact h e v (.inl (by rw [chanOn_eq_half]; exact hv))
    · exact h e v (.inr (by rw [chanOff_eq_half]; exact hv))
  · rintro h e v (hv | hv)
    · exact h e 0 v (.inl rfl) (by rw [← chanOn_eq_half]; exact hv)
    · exact h e 2 v (.inr rfl) (by rw [← chanOff_eq_half]; exact hv)

theorem half_congr {m m' : List Host.Cell} {e : Chan} {h : Nat} (h0 : imgGet m' (6 + 4 * e.val + h) = imgGet m (6 + 4 * e.val + h))
    (h1 : imgGet m' (6 + 4 * e.val + (h + 1)) = imgGet m (6 + 4 * e.val + (h + 1))) : half m' e h = half m e h := by
  unfold half; rw [h0, h1]

/-- The two bytes of a tick make the tick (spec 30 R101). -/
theorem tickOf_tickBytes {t : Nat} (h : t ≤ 4096) : tickOf (some (tickBytes t).1) (some (tickBytes t).2) = some t := by
  simp only [tickOf, tickBytes, BitVec.toNat_ofNat]
  congr 1; omega

/-! ### A tick pair written -/

theorem imgGet_okWrite {m : List Host.Cell} (hwf : imgWf m = true) (r v : Byte) (b : Nat) :
    imgGet (imgAfterWrite m r v true) b = if b ∈ imgTargets r then some v else imgGet m b := by
  rw [imgGet_imgAfterWrite m r v true b hwf]; rfl

/-- What the bytes of a channel read after the four writes of a tick pair. -/
theorem imgGet_pair {m : List Host.Cell} (hwf : imgWf m = true) (a : Actuator) {base : Nat} (hb : TickBase base) (on off : Nat)
    (e : Chan) {l : Nat} (hl : l ≤ 3) : imgGet (imgAfterEvents m (okWrites a (pairBytes base on off))) (6 + 4 * e.val + l) =
      if Covers base e then some (if l = 0 then (tickBytes on).1 else if l = 1 then (tickBytes on).2
        else if l = 2 then (tickBytes off).1 else (tickBytes off).2) else imgGet m (6 + 4 * e.val + l) := by
  have hw : ∀ (m : List Host.Cell) r v, imgWf m = true → imgWf (imgAfterWrite m r v true) = true :=
    fun m r v h => imgAfterWrite_wf m r v true h
  simp only [pairBytes, okWrites, List.map_cons, List.map_nil, imgAfterEvents_cons, imgAfterEvents_nil, imgAfterEvent]
  rw [imgGet_okWrite (hw _ _ _ (hw _ _ _ (hw _ _ _ hwf))), imgGet_okWrite (hw _ _ _ (hw _ _ _ hwf)), imgGet_okWrite (hw _ _ _ hwf),
    imgGet_okWrite hwf]
  have h0 := mem_targets_tick hb e (j := 0) (by omega) hl
  simp only [mem_targets_tick hb e (j := 3) (by omega) hl, mem_targets_tick hb e (j := 2) (by omega) hl,
    mem_targets_tick hb e (j := 1) (by omega) hl, Nat.add_zero] at h0 ⊢
  simp only [h0]
  by_cases hc : Covers base e
  · simp only [hc, true_and, if_true]
    obtain rfl | rfl | rfl | rfl : l = 0 ∨ l = 1 ∨ l = 2 ∨ l = 3 := by omega
    all_goals rfl
  · simp [hc]

/-- The channel view after the four writes of a tick pair: its ticks on the channels it covers, and the old view elsewhere. -/
theorem half_pair {m : List Host.Cell} (hwf : imgWf m = true) (a : Actuator) {base : Nat} (hb : TickBase base) {on off : Nat}
    (h1 : on ≤ 4096) (h2 : off ≤ 4096) (e : Chan) :
    (Covers base e → half (imgAfterEvents m (okWrites a (pairBytes base on off))) e 0 = some on ∧
      half (imgAfterEvents m (okWrites a (pairBytes base on off))) e 2 = some off) ∧
    (¬Covers base e → ∀ h, h = 0 ∨ h = 2 → half (imgAfterEvents m (okWrites a (pairBytes base on off))) e h = half m e h) := by
  have hget := fun {l} hl => imgGet_pair hwf a hb on off e (l := l) hl
  refine ⟨fun hc => ⟨?_, ?_⟩, fun hc h hh => ?_⟩
  · rw [half, hget (by omega), hget (by omega), if_pos hc, if_pos hc]; exact tickOf_tickBytes h1
  · rw [half, hget (by omega), hget (by omega), if_pos hc, if_pos hc]; exact tickOf_tickBytes h2
  · refine half_congr ?_ ?_
    · rw [hget (by omega), if_neg hc]
    · rw [hget (by omega), if_neg hc]

end Sys2Proof.Machine
end

section
/-! PROOFS. Programs write ticks in pairs, so no operation on a block at rest leaves a tick out of range (spec 10 R26); MODE1 is
written by INIT and SETFREQ alone (spec 10 R46, 30 R104). -/

namespace Sys2Proof.Machine

/-! ### Programs that write ticks in pairs -/

/-- A program that writes each tick as a pair, low byte first, and no other channel byte; when the low byte `v` of the half at
`base + h` has been written, the program begins with its high byte. -/
inductive TicksPaired : Option (Nat × Nat × Byte) → List Act → Prop
  | nil : TicksPaired none []
  | low {base h : Nat} {v : Byte} {rest : List Act} : TickBase base → h = 0 ∨ h = 2 → TicksPaired (some (base, h, v)) rest →
      TicksPaired none (.write (BitVec.ofNat 8 (base + h)) v :: rest)
  | high {base h : Nat} {v w : Byte} {rest : List Act} : TickBase base → h = 0 ∨ h = 2 → w.toNat * 256 + v.toNat ≤ 4096 →
      TicksPaired none rest → TicksPaired (some (base, h, v)) (.write (BitVec.ofNat 8 (base + (h + 1))) w :: rest)
  | other {x : Act} {rest : List Act} : (∀ r v, x = .write r v → r = regMode1 ∨ r = regMode2 ∨ r = regPrescale) →
      TicksPaired none rest → TicksPaired none (x :: rest)

namespace TicksPaired

theorem skip {x : Act} {rest : List Act} (hx : ∀ r v, x ≠ .write r v) (h : TicksPaired none rest) : TicksPaired none (x :: rest) :=
  .other (fun r v e => absurd e (hx r v)) h

theorem append {p : Option (Nat × Nat × Byte)} {u v : List Act} (hu : TicksPaired p u) (hv : TicksPaired none v) :
    TicksPaired p (u ++ v) := by
  induction hu with
  | nil => exact hv
  | low hb hh _ ih => exact .low hb hh ih
  | high hb hh hle _ ih => exact .high hb hh hle ih
  | other hx _ ih => exact .other hx ih

/-- The two bytes of a tick are in range as a pair. -/
theorem tickBytes_le {t : Nat} (h : t ≤ 4096) : (tickBytes t).2.toNat * 256 + (tickBytes t).1.toNat ≤ 4096 := by
  simp only [tickBytes, BitVec.toNat_ofNat]; omega

theorem block {b : List (Byte × Byte)} (hb : TickBlock b) {rest : List Act} (hr : TicksPaired none rest) :
    TicksPaired none (writeActs b ++ rest) := by
  obtain ⟨base, on, off, hbase, h1, h2, rfl⟩ := hb
  exact .low (h := 0) hbase (.inl rfl) (.high (h := 0) hbase (.inl rfl) (tickBytes_le h1)
    (.low (h := 2) hbase (.inr rfl) (.high (h := 2) hbase (.inr rfl) (tickBytes_le h2) hr)))

theorem locked {b : List (Byte × Byte)} (hb : TickBlock b) : TicksPaired none (lockedActs b) :=
  .skip (by simp) (.skip (by simp) (block hb (.skip (by simp) .nil)))

theorem blocks {bs : List (List (Byte × Byte))} (h : ∀ b ∈ bs, TickBlock b) : TicksPaired none (bs.flatMap lockedActs) := by
  induction bs with
  | nil => exact .nil
  | cons b bs ih =>
    rw [List.flatMap_cons]
    exact (locked (h b (by simp))).append (ih (fun c hc => h c (by simp [hc])))

/-- Actions that write nothing. -/
theorem silent {acts : List Act} (h : ∀ x ∈ acts, ∀ r v, x ≠ .write r v) : TicksPaired none acts := by
  induction acts with
  | nil => exact .nil
  | cons x acts ih => exact .skip (h x (by simp)) (ih (fun y hy => h y (by simp [hy])))

end TicksPaired

/-- The groups of writes of a oneStep's outputs are tick pairs (spec 42 R215). -/
theorem outputBlocks_tick (cfg : Config) (k : Fin 2) (p : Fin 32) (y : StepStyle) (d : Direction) :
    ∀ b ∈ outputBlocks cfg k p y d, TickBlock b := by
  have hd := dutyPair_le cfg.microBackZero p y d
  simp only [outputBlocks, List.forall_mem_cons, List.not_mem_nil, false_implies, implies_true, and_true]
  exact ⟨tickBlock_chan _ (by omega) (by omega), tickBlock_chan _ (by omega) (by omega), tickBlock_pin _ _, tickBlock_pin _ _,
    tickBlock_pin _ _, tickBlock_pin _ _⟩

/-- What a loop's test puts in front of a program. -/
theorem seqTest_acts (s : State) (k : Fin 2) {x : Act} (h : x ∈ (s.seqTest k).2) :
    (∃ d y, x = .oneStep k d y) ∨ x = .seqCount k ∨ x = .seqTest k ∨ x = .seqWait k := by
  revert h
  unfold State.seqTest State.seqNext
  repeat' split
  all_goals simp [invocation]
  all_goals rintro (rfl | rfl | rfl | rfl) <;> simp

theorem unfolds_paired (s : State) (x : Act) : TicksPaired none (unfoldsTo s x) := by
  cases x with
  | oneStep k d y => rw [unfoldsTo, ← outputBlocks_acts]; exact .blocks (outputBlocks_tick _ _ _ _ _)
  | seqTest k =>
    refine .silent fun x hx r v => ?_
    rcases seqTest_acts s k hx with ⟨d, y, rfl⟩ | rfl | rfl | rfl <;> simp
  | _ => exact .nil

/-- Every plan writes its ticks in pairs. -/
theorem plan_paired {cfg : Config} {i : Instr} {p : Plan} (h : PlanShape cfg i p) : TicksPaired none p.todo := by
  cases h with
  | init _ =>
    refine .skip (by simp) (.skip (by simp) (.block ⟨_, _, _, .inr rfl, clampTick_le _, clampTick_le _, rfl⟩ ?_))
    exact .other (fun r v e => by cases e; exact .inr (.inl rfl)) (.other (fun r v e => by cases e; exact .inl rfl)
      (.silent (by simp)))
  | setfreq f q _ =>
    exact .skip (by simp) (.skip (by simp) (.skip (by simp) (.skip (by simp)
      (.other (fun r v e => by cases e; exact .inr (.inr rfl)) (.silent (by simp))))))
  | blocks bs arm _ _ _ hb harm =>
    exact (TicksPaired.blocks hb).append (.silent fun x hx r v => by obtain ⟨m, t, rfl, -⟩ := harm x hx; simp)
  | one k d y => exact .silent (by simp)
  | seq k n d y _ => exact .silent (by simp)
  | speedSeq k n d y rpm _ => exact .silent (by simp)

/-! ### The image between the two bytes of a tick -/

/-- The ticks of the image are in range, but for the one whose low byte alone has been written. -/
def TicksPending (m : List Host.Cell) : Option (Nat × Nat × Byte) → Prop
  | none => TicksOk m
  | some (base, h, v) => ∀ (e : Chan) (j : Nat), j = 0 ∨ j = 2 →
      (Covers base e ∧ j = h → imgGet m (6 + 4 * e.val + j) = some v) ∧
      (¬(Covers base e ∧ j = h) → ∀ x, half m e j = some x → x ≤ 4096)

/-- A write to a register that is no channel byte leaves the ticks. -/
theorem TicksOk.of_other {m m' : List Host.Cell} (h : TicksOk m)
    (hm : ∀ (e : Chan) (l : Nat), l ≤ 3 → imgGet m' (6 + 4 * e.val + l) = imgGet m (6 + 4 * e.val + l)) : TicksOk m' := by
  intro e j x hj hx
  rw [half_congr (hm e j (by omega)) (hm e (j + 1) (by omega))] at hx
  exact h e j x hj hx

theorem tickOf_none_left (y : Option Byte) : tickOf none y = none := by cases y <;> rfl

theorem tickOf_none_right (x : Option Byte) : tickOf x none = none := by cases x <;> rfl

section write

variable {m : List Host.Cell} (hwf : imgWf m = true) {base h : Nat} (hb : TickBase base) (hh : h = 0 ∨ h = 2)
include hwf hb hh

/-- A low byte written leaves its ticks pending, or Unknown when it fails. -/
theorem TicksOk.low (hok : TicksOk m) (v : Byte) :
    TicksPending (imgAfterWrite m (BitVec.ofNat 8 (base + h)) v true) (some (base, h, v)) ∧
    TicksOk (imgAfterWrite m (BitVec.ofNat 8 (base + h)) v false) := by
  have hget : ∀ ok (e : Chan) {l : Nat}, l ≤ 3 → imgGet (imgAfterWrite m (BitVec.ofNat 8 (base + h)) v ok) (6 + 4 * e.val + l) =
      if Covers base e ∧ l = h then (if ok then some v else none) else imgGet m (6 + 4 * e.val + l) := fun ok e l hl => by
    rw [imgGet_imgAfterWrite _ _ _ _ _ hwf]
    simp only [mem_targets_tick hb e (j := h) (by omega) hl]
  have hsame : ∀ ok (e : Chan) {j : Nat}, j = 0 ∨ j = 2 → ¬(Covers base e ∧ j = h) →
      half (imgAfterWrite m (BitVec.ofNat 8 (base + h)) v ok) e j = half m e j := fun ok e j hj hn =>
    half_congr (by rw [hget ok e (by omega), if_neg hn]) (by rw [hget ok e (by omega), if_neg (by omega)])
  refine ⟨fun e j hj => ⟨fun hc => ?_, fun hn x hx => ?_⟩, fun e j x hj hx => ?_⟩
  · rw [hget true e (by omega), if_pos hc]; rfl
  · rw [hsame true e hj hn] at hx; exact hok e j x hj hx
  · by_cases hc : Covers base e ∧ j = h
    · rw [half, hget false e (by omega), if_pos hc] at hx
      rw [show (if false = true then some v else none) = none from rfl, tickOf_none_left] at hx; cases hx
    · rw [hsame false e hj hc] at hx; exact hok e j x hj hx

/-- The high byte of a pending tick makes it a tick in range, or Unknown when it fails. -/
theorem TicksPending.high {v w : Byte} (hp : TicksPending m (some (base, h, v))) (hle : w.toNat * 256 + v.toNat ≤ 4096) (ok : Bool) :
    TicksOk (imgAfterWrite m (BitVec.ofNat 8 (base + (h + 1))) w ok) := by
  have hget : ∀ (e : Chan) {l : Nat}, l ≤ 3 → imgGet (imgAfterWrite m (BitVec.ofNat 8 (base + (h + 1))) w ok) (6 + 4 * e.val + l) =
      if Covers base e ∧ l = h + 1 then (if ok then some w else none) else imgGet m (6 + 4 * e.val + l) := fun e l hl => by
    rw [imgGet_imgAfterWrite _ _ _ _ _ hwf]
    simp only [mem_targets_tick hb e (j := h + 1) (by omega) hl]
  intro e j x hj hx
  obtain ⟨hlow, hrest⟩ := hp e j hj
  by_cases hc : Covers base e ∧ j = h
  · rw [half, hget e (by omega), if_neg (by omega), hget e (by omega), if_pos ⟨hc.1, by rw [hc.2]⟩, hlow hc] at hx
    cases ok with
    | false => cases hx
    | true => cases hx; exact hle
  · have : half (imgAfterWrite m (BitVec.ofNat 8 (base + (h + 1))) w ok) e j = half m e j :=
      half_congr (by rw [hget e (by omega), if_neg (by omega)])
        (by rw [hget e (by omega), if_neg (fun hx => hc ⟨hx.1, by omega⟩)])
    rw [this] at hx; exact hrest hc x hx

end write

/-! ### The run of one operation and the ticks -/

/-- A write action records its outcome in the image, and the operation goes on or ends with it. -/
theorem runAct_write {u : State} {a : Actuator} {t : Task} {r v : Byte} (rest : List Act) :
    ((u.runAct a t (.write r v) rest).img = imgAfterWrite u.img r v true ∧
      ((u.runAct a t (.write r v) rest).worker a).task = some { t with todo := rest }) ∨
    ((u.runAct a t (.write r v) rest).img = imgAfterWrite u.img r v false ∧
      ((u.runAct a t (.write r v) rest).worker a).task = none) := by
  simp only [State.runAct]
  unfold State.tryWrite
  cases hn : u.nextAnswer with
  | ok b => exact .inl ⟨by simp [State.goOn, hn, Answer.isOk], by simp [State.goOn]⟩
  | busError => exact .inr ⟨by simp [hn, Answer.isOk], by simp [State.raiseBusError]⟩

/-- The channel bytes after an action that writes none of them. -/
theorem runAct_channels {u : State} {a : Actuator} {t : Task} {x : Act} (rest : List Act) (hwf : imgWf u.img = true)
    (hx : ∀ r v, x = .write r v → r = regMode1 ∨ r = regMode2 ∨ r = regPrescale) (e : Chan) {l : Nat} (hl : l ≤ 3) :
    imgGet (u.runAct a t x rest).img (6 + 4 * e.val + l) = imgGet u.img (6 + 4 * e.val + l) := by
  refine (After.runAct u a t x rest).imgGet_of_adds (runAct_adds u a t x rest) hwf fun r v hw => ?_
  refine not_mem_targets_other ?_ e hl
  cases x with
  | write r' v' => cases hw; exact hx r v rfl
  | writeMode1 w => cases hw; exact .inl rfl
  | _ => cases hw

/-- What the run of an operation keeps of the ticks: in range, but for a pending one whose high byte comes next. -/
def TicksRun (a : Actuator) (u : State) : Prop :=
  imgWf u.img = true ∧ ((∃ t p, (u.worker a).task = some t ∧ TicksPaired p t.todo ∧ TicksPending u.img p) ∨
    ((u.worker a).task = none ∧ TicksOk u.img))

theorem TicksRun.act {a : Actuator} {u : State} (h : TicksRun a u) {t : Task} {x : Act} {rest : List Act}
    (ht : (u.worker a).task = some t) (hto : t.todo = x :: rest) : TicksRun a (u.runAct a t x rest) := by
  obtain ⟨hwf, ⟨t', p, ht', hpair, hpend⟩ | ⟨hn, -⟩⟩ := h
  · rw [ht] at ht'; cases ht'
    rw [hto] at hpair
    refine ⟨(After.runAct u a t x rest).wf hwf, ?_⟩
    cases hpair with
    | low hb hh hrest =>
      obtain ⟨hok, hfail⟩ := TicksOk.low hwf hb hh hpend _
      rcases runAct_write (u := u) (a := a) (t := t) rest with ⟨himg, htask⟩ | ⟨himg, htask⟩
      · exact .inl ⟨_, _, htask, hrest, by rw [himg]; exact hok⟩
      · exact .inr ⟨htask, by rw [himg]; exact hfail⟩
    | high hb hh hle hrest =>
      have hok := TicksPending.high hwf hb hh hpend hle
      rcases runAct_write (u := u) (a := a) (t := t) rest with ⟨himg, htask⟩ | ⟨himg, htask⟩
      · exact .inl ⟨_, none, htask, hrest, by rw [himg]; exact hok true⟩
      · exact .inr ⟨htask, by rw [himg]; exact hok false⟩
    | other hx hrest =>
      have hok : TicksOk (u.runAct a t x rest).img :=
        TicksOk.of_other hpend fun e l hl => runAct_channels rest hwf hx e hl
      rcases runAct_cases u a t x rest with ⟨-, -, he⟩ | ⟨hw, -⟩ | ⟨v, hv, -, -, hw, -⟩
      · rw [he]; exact .inl ⟨t, none, ht, by rw [hto]; exact .other hx hrest, hpend⟩
      · exact .inr ⟨by rw [hw]; simp, hok⟩
      · exact .inl ⟨v, none, by rw [hw]; simp, by rw [hv]; exact (unfolds_paired u x).append hrest, hok⟩
  · rw [ht] at hn; cases hn

/-- The start of an operation leaves the image. -/
theorem begin_img (s : State) (a : Actuator) (i : Instr) (p : Plan) : (s.begin a i p).img = s.img := by
  unfold State.begin
  split
  · simp
  · simp [State.setSeq]
  · simp [State.setSeq]
  · dsimp only; split <;> simp [State.setSeq, State.setSpeed]

theorem finish_img (s : State) (a : Actuator) (t : Task) : (s.finish a t).img = s.img := by
  unfold State.finish; split <;> simp

/-- An operation issued to a block at rest leaves every tick in range or Unknown, whatever the bus answers. -/
theorem submit_ticks {s : State} (hL : Launch s) (hwf : imgWf s.img = true) (hok : TicksOk s.img) {a : Actuator} {i : Instr}
    (ht : opTarget i = some a) (hq : queueable i = true) : TicksOk (s.submit a i).img := by
  have hrun : TicksRun a (s.submit a i) := by
    refine hL.submit_run ht hq (fun c _ => ⟨hwf, .inr ⟨?_, hok⟩⟩) (fun p hp => ?_) (fun u t x rest h ht hto => h.act ht hto)
      (fun u t h ht hto => ?_)
    · simp [hL.worker_idle a, Worker.idle]
    · refine ⟨by rw [begin_img]; exact hwf, ?_⟩
      rcases (begin_workers (s.log (.issue (.actuator a) i)) a i p).2.2 with ⟨hn, -⟩ | ⟨hs, -⟩
      · exact .inr ⟨hn, by rw [begin_img]; exact hok⟩
      · exact .inl ⟨_, none, hs, plan_paired (plan_shape hp), by rw [begin_img]; exact hok⟩
    · obtain ⟨hwf, ⟨t', p, ht', hpair, hpend⟩ | ⟨hn, -⟩⟩ := h
      · rw [ht] at ht'; cases ht'
        rw [hto] at hpair
        cases hpair
        exact ⟨by rw [finish_img]; exact hwf, .inr ⟨by rw [finish_worker], by rw [finish_img]; exact hpend⟩⟩
      · rw [ht] at hn; cases hn
  obtain ⟨-, ⟨t, -, ht', -⟩ | ⟨-, h⟩⟩ := hrun
  · rw [(hL.submit_ends ht hq).2] at ht'; cases ht'
  · exact h

/-- STSPEED and an operation whose index names nothing leave the image. -/
theorem speedNow_img (s : State) (j : Fin 2) (i : Instr) (c : Except Cause (Fin 2 × Nat)) : (s.speedNow j i c).img = s.img := by
  unfold State.speedNow
  dsimp only
  repeat' split
  all_goals rfl

/-- No operation on a block at rest leaves a tick out of range. -/
theorem exec_ticks {s t : State} {i : Instr} (hL : Launch s) (hwf : imgWf s.img = true) (hok : TicksInRange s)
    (h : exec i s = .next t) : TicksInRange t := by
  rw [ticksInRange_iff] at hok ⊢
  rcases exec_cases h with ⟨a, ha, hq, rfl⟩ | ⟨j, k, rpm, rfl, -, rfl⟩ | ⟨c, -, rfl⟩
  · exact submit_ticks hL hwf hok ha hq
  · rw [speedNow_img]; exact hok
  · exact hok

/-! ### MODE1 -/

/-- An action that does not write MODE1. -/
def Act.sparesMode1 : Act → Bool
  | .write r _ => decide (r ≠ regMode1)
  | .writeMode1 _ => false
  | _ => true

/-- Only a write to MODE1 reaches its entry. -/
theorem mode1_not_target {r : Byte} (h : r ≠ regMode1) : (0 : Nat) ∉ imgTargets r := by
  rw [mem_imgTargets]
  rintro (h0 | ⟨k, c, -, -, h0⟩)
  · exact h (BitVec.eq_of_toNat_eq h0.symm)
  · omega

theorem tickBlock_sparesMode1 {b : List (Byte × Byte)} (h : TickBlock b) : ∀ x ∈ lockedActs b, x.sparesMode1 = true := by
  obtain ⟨base, on, off, hb, -, -, rfl⟩ := h
  have hreg : ∀ j, j ≤ 3 → BitVec.ofNat 8 (base + j) ≠ regMode1 := fun j hj e => by
    have h1 := TickBase.toNat hb hj
    rw [e] at h1
    have h2 : regMode1.toNat = 0 := rfl
    rcases hb with ⟨c, rfl⟩ | rfl <;> omega
  have h0 : BitVec.ofNat 8 base ≠ regMode1 := hreg 0 (by omega)
  simp [lockedActs, writeActs, pairBytes, Act.sparesMode1, h0, hreg 1, hreg 2, hreg 3]

theorem blocks_sparesMode1 {bs : List (List (Byte × Byte))} (h : ∀ b ∈ bs, TickBlock b) :
    ∀ x ∈ bs.flatMap lockedActs, x.sparesMode1 = true := fun x hx => by
  obtain ⟨b, hb, hx⟩ := List.mem_flatMap.mp hx
  exact tickBlock_sparesMode1 (h b hb) x hx

/-- The operations but INIT and SETFREQ do not write MODE1 (spec 30 R104). -/
theorem plan_sparesMode1 {cfg : Config} {i : Instr} {p : Plan} (h : PlanShape cfg i p) (h1 : i ≠ .init) (h2 : ∀ f, i ≠ .setfreq f) :
    ∀ x ∈ p.todo, x.sparesMode1 = true := by
  cases h with
  | init e => exact absurd e h1
  | setfreq f q e => exact absurd e (h2 f)
  | blocks bs arm _ _ _ hb harm =>
    intro x hx
    rcases List.mem_append.mp hx with hx | hx
    · exact blocks_sparesMode1 hb x hx
    · obtain ⟨m, t, rfl, -⟩ := harm x hx; rfl
  | one k d y => simp [Act.sparesMode1]
  | seq k n d y _ => simp [Act.sparesMode1]
  | speedSeq k n d y rpm _ => simp [Act.sparesMode1]

theorem unfolds_sparesMode1 (s : State) (x : Act) : ∀ y ∈ unfoldsTo s x, y.sparesMode1 = true := by
  cases x with
  | oneStep k d y => rw [unfoldsTo, ← outputBlocks_acts]; exact blocks_sparesMode1 (outputBlocks_tick _ _ _ _ _)
  | seqTest k =>
    intro x hx
    rcases seqTest_acts s k hx with ⟨d, y, rfl⟩ | rfl | rfl | rfl <;> rfl
  | _ => simp [unfoldsTo]

/-- An action that does not write MODE1 leaves its entry. -/
theorem runAct_mode1 {u : State} {a : Actuator} {t : Task} {x : Act} (rest : List Act) (hwf : imgWf u.img = true)
    (hx : x.sparesMode1 = true) : imgGet (u.runAct a t x rest).img 0 = imgGet u.img 0 := by
  refine (After.runAct u a t x rest).imgGet_of_adds (runAct_adds u a t x rest) hwf fun r v hw => mode1_not_target ?_
  cases x with
  | write r' v' => cases hw; exact of_decide_eq_true hx
  | writeMode1 w => cases hx
  | _ => cases hw

/-- MODE1 after an operation other than INIT and SETFREQ is as before, in every state. -/
theorem exec_mode1 {s t : State} {i : Instr} (hwf : imgWf s.img = true) (h1 : i ≠ .init) (h2 : ∀ f, i ≠ .setfreq f)
    (h : exec i s = .next t) : imgGet t.img 0 = imgGet s.img 0 := by
  rcases exec_cases h with ⟨a, ha, hq, rfl⟩ | ⟨j, k, rpm, rfl, -, rfl⟩ | ⟨c, -, rfl⟩
  · have hissued : (s.issued a i).img = s.img := by cases a <;> rfl
    rcases submit_cases s a i with he | he | ⟨-, hw, he⟩
    · rw [he, State.log_img, hissued]
    · rw [he, State.enqueue_img, hissued]
    · have hrun := settle_program (i := i) hw (J := fun u => imgWf u.img = true ∧ imgGet u.img 0 = imgGet s.img 0)
        (Q := fun x => x.sparesMode1 = true) (fun c _ => by rw [State.log_img, hissued]; exact ⟨hwf, rfl⟩)
        (fun p hp => ⟨by rw [begin_img, hissued]; exact ⟨hwf, rfl⟩, plan_sparesMode1 (plan_shape hp) h1 h2⟩)
        (fun u x _ => unfolds_sparesMode1 u x)
        (fun u t x rest hJ _ _ hx => ⟨(After.runAct u a t x rest).wf hJ.1, (runAct_mode1 rest hJ.1 hx).trans hJ.2⟩)
        (fun u t hJ _ _ => by rw [finish_img]; exact hJ) (opFuel i)
      rw [he]
      rcases hrun with hr | hr
      · rw [hr, State.enqueue_img, hissued]
      · exact hr.2
  · rw [speedNow_img]
  · rfl

end Sys2Proof.Machine
end

section
/-! PROOFS. INIT and SETFREQ on a block at rest, move by move (spec 40 R120, R140), and the obligation on the channel view and
the status bits (spec 10 R26, R46, 30 R104). -/

namespace Sys2Proof.Machine

/-! ### Programs under the lock

The moves of an agent that is alone, from a run that has made the events `E` with `k` answers. -/

section moves

variable {n : Nat} {a : Actuator} {s : State} {op : Instr} {g : Agent} {rest : List Act} {m : Byte} {c : Nat} {E : List Event} {k : Nat}

theorem move_wait (h : Alone a s) {q : Rat} :
    State.settle (n + 1) a ((s.afterRun E k).setTask a (some ⟨op, g, .wait q :: rest, m, c⟩)) =
      State.settle n a ((s.afterRun (E ++ [.wait a q]) k).setTask a (some ⟨op, g, rest, m, c⟩)) := by
  rw [settle_wait (h.afterRun _ _), afterRun_log _ _ _ _ (fun _ => rfl)]

theorem busRead_ok {s : State} (a : Actuator) (r : Byte) {b : Byte} (hok : s.nextAnswer = .ok b) :
    s.busRead a r = s.afterRun [.read a r (.ok b)] 1 := by
  simp [State.afterRun, State.dropAnswers, State.busRead, State.drawAnswer, hok, imgAfterEvent]

theorem move_readMode1 (h : Alone a s) {b : Byte} (hok : s.answerAt k = .ok b) :
    State.settle (n + 1) a ((s.afterRun E k).setTask a (some ⟨op, g, .readMode1 :: rest, m, c⟩)) =
      State.settle n a ((s.afterRun (E ++ [.read a regMode1 (.ok b)]) (k + 1)).setTask a (some ⟨op, g, rest, b, c⟩)) := by
  have hn : (s.afterRun E k).nextAnswer = .ok b := by rw [nextAnswer_eq, answerAt_afterRun]; exact hok
  rw [settle_readMode1 (h.afterRun _ _) hn, busRead_ok a regMode1 hn, afterRun_afterRun]

/-- Writes with outcome Ok. -/
theorem move_writes (h : Alone a s) (ws : List (Byte × Byte)) (hok : AnswersOk s (k + ws.length)) :
    State.settle (n + ws.length) a ((s.afterRun E k).setTask a (some ⟨op, g, writeActs ws ++ rest, m, c⟩)) =
      State.settle n a ((s.afterRun (E ++ okWrites a ws) (k + ws.length)).setTask a (some ⟨op, g, rest, m, c⟩)) := by
  rw [settle_writes ws (h.afterRun _ _) (hok.afterRun _), afterRun_afterRun]

theorem move_write (h : Alone a s) {r v : Byte} (hok : AnswersOk s (k + 1)) :
    State.settle (n + 1) a ((s.afterRun E k).setTask a (some ⟨op, g, .write r v :: rest, m, c⟩)) =
      State.settle n a ((s.afterRun (E ++ [.write a r v true]) (k + 1)).setTask a (some ⟨op, g, rest, m, c⟩)) :=
  move_writes h [(r, v)] hok

theorem move_writeMode1 (h : Alone a s) {what : Mode1Write} (hok : AnswersOk s (k + 1)) :
    State.settle (n + 1) a ((s.afterRun E k).setTask a (some ⟨op, g, .writeMode1 what :: rest, m, c⟩)) =
      State.settle n a ((s.afterRun (E ++ [.write a regMode1 (mode1Value s.cfg m what) true]) (k + 1)).setTask a
        (some ⟨op, g, rest, m, c⟩)) := by
  obtain ⟨b, hb⟩ := (AnswersOk.afterRun (m := k) hok E).head
  rw [settle_writeMode1 (h.afterRun _ _) hb, busWrite_ok _ _ _ _ b hb, afterRun_afterRun, afterRun_cfg]
  rfl

end moves

/-- A whole operation that runs one program under the lock, from what its body does. -/
theorem submit_held {s : State} (h : Launch s) (hb : s.bus = .open) (a : Actuator) (i : Instr) {body : List Act} {E : List Event}
    {k : Nat} {m : Byte} (hp : plan s.cfg i = .ok (.ofActs (.checkBus :: .acquire :: (body ++ [.release]))))
    (hf : body.length + 5 ≤ opFuel i) (hv : ∀ t : State, t.okValue a i = none)
    (hbody : ∀ n, State.settle (n + body.length) a (((s.setLock (.held a)).afterRun [.issue (.actuator a) i] 0).setTask a
        (some ⟨i, .actuator a, body ++ [.release], 0, 0⟩)) =
      State.settle n a (((s.setLock (.held a)).afterRun (.issue (.actuator a) i :: E) k).setTask a
        (some ⟨i, .actuator a, [.release], m, 0⟩))) :
    s.submit a i = s.afterRun (.issue (.actuator a) i :: (E ++ [.done (.actuator a) i (.ok none)])) k := by
  obtain ⟨n, hn⟩ : ∃ n, opFuel i = n + 2 + body.length + 1 + 1 + 1 := ⟨opFuel i - (body.length + 5), by omega⟩
  have hA : ∀ evs j, Alone a (s.afterRun evs j) := fun evs j => (h.alone a).afterRun evs j
  rw [submit_ofActs h a i hp hn, List.append_nil, settle_checkBus (hA _ _) hb, settle_acquire (hA _ _) h.lock_free,
    ← afterRun_setLock, hbody, settle_release (((h.alone a).setLock _).afterRun _ _) rfl, afterRun_setLock, setLock_setLock,
    setLock_self (s.afterRun _ _) h.lock_free, settle_finish (hA _ _) hb, endTask_launch (h.afterRun _ _), hv,
    settle_launch ((h.afterRun _ _).afterRun _ _), afterRun_afterRun]
  simp

/-! ### INIT and SETFREQ -/

theorem settleSeconds_eq : settleSeconds = 5 / 1000 := by norm_num [settleSeconds]

/-- The writes of INIT before its MODE1 read (spec 40 R121). -/
def initWrites (cfg : Config) : List (Byte × Byte) :=
  pairBytes 0xFA (clampedTick cfg.initAllOff.1) (clampedTick cfg.initAllOff.2) ++ [(regMode2, bitOutdrv), (regMode1, bitAllcall)]

theorem initWrites_length (cfg : Config) : (initWrites cfg).length = 6 := rfl

/-- The program of INIT, its writes told apart. -/
theorem plan_init (cfg : Config) : plan cfg .init = .ok (.ofActs (.checkBus :: .acquire :: ((writeActs (initWrites cfg) ++
    [.wait settleSeconds, .readMode1, .writeMode1 .clearSleep, .wait settleSeconds]) ++ [.release]))) := by
  rw [initWrites, clampedTick_eq, clampedTick_eq]; rfl

theorem initEvents_eq (cfg : Config) (b : Byte) : initEvents cfg b = okWrites .controller (initWrites cfg) ++
    [.wait .controller settleSeconds, .read .controller regMode1 (.ok b),
      .write .controller regMode1 (mode1Value cfg b .clearSleep) true, .wait .controller settleSeconds] := by
  rw [settleSeconds_eq]; rfl

theorem setfreqEvents_eq (cfg : Config) (q : Rat) (old : Byte) : setfreqEvents cfg q old =
    [.read .controller regMode1 (.ok old), .write .controller regMode1 (mode1Value cfg old .sleep) true,
      .write .controller regPrescale (prescale cfg q) true, .write .controller regMode1 (mode1Value cfg old .restore) true,
      .wait .controller settleSeconds, .write .controller regMode1 (mode1Value cfg old .restart) true] := by
  rw [settleSeconds_eq]; rfl

/-- INIT on a block at rest (spec 40 R120, R121). -/
theorem exec_init {s : State} {b : Byte} (h : Launch s) (hb : s.bus = .open) (hok : AnswersOk s 8) (h6 : s.answerAt 6 = .ok b) :
    exec .init s = .next (s.afterRun (.issue (.actuator .controller) .init ::
      (initEvents s.cfg b ++ [.done (.actuator .controller) .init (.ok none)])) 8) := by
  rw [exec_submit rfl rfl]
  congr 1
  have hA : Alone .controller (s.setLock (.held .controller)) := (h.alone _).setLock _
  have hok' : ∀ j, j ≤ 8 → AnswersOk (s.setLock (.held .controller)) j := fun j hj => (hok.mono hj).of_eq rfl rfl
  refine submit_held h hb .controller .init (m := b) (plan_init s.cfg) (show 15 ≤ 64 by decide)
    (fun _ => rfl) fun n => ?_
  change State.settle (n + 1 + 1 + 1 + 1 + (initWrites s.cfg).length) .controller _ = _
  rw [List.append_assoc, move_writes hA _ (hok' _ (by simp [initWrites_length])), initWrites_length]
  simp only [List.cons_append, List.nil_append]
  rw [move_wait hA, move_readMode1 hA h6, move_writeMode1 hA (hok' _ (by decide)), move_wait hA, initEvents_eq]
  simp

/-- SETFREQ on a block at rest (spec 40 R140, R142). -/
theorem exec_setfreq {s : State} {f : F64} {q : Rat} {old : Byte} (h : Launch s) (hb : s.bus = .open)
    (hq : needFrequency f = .ok q) (hok : AnswersOk s 5) (h0 : s.answerAt 0 = .ok old) :
    exec (.setfreq f) s = .next (s.afterRun (.issue (.actuator .controller) (.setfreq f) ::
      (setfreqEvents s.cfg q old ++ [.done (.actuator .controller) (.setfreq f) (.ok none)])) 5) := by
  rw [exec_submit rfl rfl]
  congr 1
  have hA : Alone .controller (s.setLock (.held .controller)) := (h.alone _).setLock _
  have hok' : ∀ j, j ≤ 5 → AnswersOk (s.setLock (.held .controller)) j := fun j hj => (hok.mono hj).of_eq rfl rfl
  have hp : plan s.cfg (.setfreq f) = .ok (.ofActs (setfreqActs s.cfg q)) := by
    simp only [plan, planSetfreq, hq]; rfl
  refine submit_held h hb .controller (.setfreq f) (m := old)
    (body := [.readMode1, .writeMode1 .sleep, .write regPrescale (prescale s.cfg q), .writeMode1 .restore, .wait settleSeconds,
      .writeMode1 .restart]) hp (show 11 ≤ 64 by decide) (fun _ => rfl) fun n => ?_
  simp only [List.cons_append, List.nil_append, List.length_cons, List.length_nil]
  rw [show n + (0 + 1 + 1 + 1 + 1 + 1 + 1) = n + 1 + 1 + 1 + 1 + 1 + 1 from rfl, move_readMode1 hA h0,
    move_writeMode1 hA (hok' _ (by decide)), move_write hA (hok' _ (by decide)), move_writeMode1 hA (hok' _ (by decide)),
    move_wait hA, move_writeMode1 hA (hok' _ (by decide))]
  rw [setfreqEvents_eq]
  rfl

/-! ### The status bits -/

theorem sleepBit_eq (s : State) : s.sleepBit = (imgGet s.img 0).map (fun m => m.getLsbD 4) := by
  have hbit : ∀ m : Byte, decide (m &&& bitSleep ≠ 0) = m.getLsbD 4 := by decide
  exact congrArg (fun f => (imgGet s.img 0).map f) (funext hbit)

theorem restartBit_eq (s : State) : s.restartBit = (imgGet s.img 0).map (fun m => m.getLsbD 7) := by
  have hbit : ∀ m : Byte, decide (m &&& bitRestart ≠ 0) = m.getLsbD 7 := by decide
  exact congrArg (fun f => (imgGet s.img 0).map f) (funext hbit)

theorem inFlight_iff (s : State) (k : Fin 2) : s.inFlight k = true ↔ (s.stepper k).seq ≠ .idle := decide_eq_true_iff

theorem armed_iff (s : State) (m : Fin 4) : s.armed m = true ↔ (s.motor m).pending ≠ none := Option.isSome_iff_ne_none

theorem locked_iff (s : State) : s.locked = true ↔ s.lock ≠ .free := decide_eq_true_iff

theorem busFailed_iff (s : State) : s.busFailed = true ↔ s.bus = .failed := decide_eq_true_iff

/-- The status bits after a run whose last write to MODE1 is `v`. -/
theorem mode1_bits {s : State} (hwf : imgWf s.img = true) {pre post : List Event} {a : Actuator} {v : Byte} (n : Nat)
    (hpost : ∀ b r' v' ok, Event.write b r' v' ok ∉ post) :
    (s.afterRun (pre ++ .write a regMode1 v true :: post) n).sleepBit = some (v.getLsbD 4) ∧
    (s.afterRun (pre ++ .write a regMode1 v true :: post) n).restartBit = some (v.getLsbD 7) := by
  have h : imgGet (s.afterRun (pre ++ .write a regMode1 v true :: post) n).img 0 = some v := imgGet_last hwf hpost
  rw [sleepBit_eq, restartBit_eq, h]
  exact ⟨rfl, rfl⟩

/-- INIT clears SLEEP and keeps the RESTART it read (spec 30 R104). -/
theorem init_bits {s : State} {b : Byte} (h : Launch s) (hb : s.bus = .open) (hwf : imgWf s.img = true) (hok : AnswersOk s 8)
    (h6 : s.answerAt 6 = .ok b) :
    ∃ t, exec .init s = .next t ∧ t.sleepBit = some false ∧ t.restartBit = some (b.getLsbD 7) := by
  refine ⟨_, exec_init h hb hok h6, ?_⟩
  have hv : (b &&& 0xEF).getLsbD 4 = false ∧ (b &&& 0xEF).getLsbD 7 = b.getLsbD 7 := by simp
  have hbits := mode1_bits hwf 8 (a := .controller) (v := b &&& 0xEF)
    (pre := .issue (.actuator .controller) .init :: (okWrites .controller (pairBytes 0xFA (clampedTick s.cfg.initAllOff.1)
      (clampedTick s.cfg.initAllOff.2) ++ [(0x01, 0x04), (0x00, 0x01)]) ++
      [.wait .controller (5 / 1000), .read .controller 0x00 (.ok b)]))
    (post := [.wait .controller (5 / 1000), .done (.actuator .controller) .init (.ok none)]) (by simp)
  rw [hv.1, hv.2] at hbits
  simpa [initEvents, regMode1] using hbits

/-- SETFREQ restores the SLEEP it read and sets RESTART (spec 30 R104). -/
theorem setfreq_bits {s : State} {f : F64} {old : Byte} (h : Launch s) (hb : s.bus = .open) (hwf : imgWf s.img = true)
    (hf : F64.freqOk f = true) (hok : AnswersOk s 5) (h0 : s.answerAt 0 = .ok old) :
    ∃ t, exec (.setfreq f) s = .next t ∧ t.sleepBit = some (old.getLsbD 4) ∧ t.restartBit = some true := by
  rcases needFrequency_cases f with ⟨-, q, -, -, hq⟩ | ⟨hbad, -⟩
  · refine ⟨_, exec_setfreq h hb hq hok h0, ?_⟩
    have hv : (old ||| 0x80).getLsbD 4 = old.getLsbD 4 ∧ (old ||| 0x80).getLsbD 7 = true := by simp
    have hbits := mode1_bits hwf 5 (a := .controller) (v := old ||| 0x80)
      (pre := .issue (.actuator .controller) (.setfreq f) :: (setfreqEvents s.cfg q old).take 5)
      (post := [.done (.actuator .controller) (.setfreq f) (.ok none)]) (by simp)
    rw [hv.1, hv.2] at hbits
    exact hbits
  · rw [hf] at hbad; cases hbad

/-- MODE1 is left by every operation but INIT and SETFREQ. -/
theorem other_bits {s t : State} {i : Instr} (hwf : imgWf s.img = true) (h1 : i ≠ .init) (h2 : ∀ f, i ≠ .setfreq f)
    (h : exec i s = .next t) : t.sleepBit = s.sleepBit ∧ t.restartBit = s.restartBit := by
  simp only [sleepBit_eq, restartBit_eq, exec_mode1 hwf h1 h2 h, and_self]

/-! ### The channel view -/

/-- The channel view, spelled out (spec 10 R26). -/
theorem chan_bytes (s : State) (c : Chan) :
    s.chanOn c = (match imgGet s.img (6 + 4 * c.val), imgGet s.img (7 + 4 * c.val) with
      | some low, some high => some (high.toNat * 256 + low.toNat)
      | _, _ => none) ∧
    s.chanOff c = (match imgGet s.img (8 + 4 * c.val), imgGet s.img (9 + 4 * c.val) with
      | some low, some high => some (high.toNat * 256 + low.toNat)
      | _, _ => none) := by
  rw [chanOn_eq_half, chanOff_eq_half, half, half, show 6 + 4 * c.val + (0 + 1) = 7 + 4 * c.val by omega,
    show 6 + 4 * c.val + 2 = 8 + 4 * c.val by omega, show 6 + 4 * c.val + (2 + 1) = 9 + 4 * c.val by omega]
  exact ⟨rfl, rfl⟩

/-- The channel view after an operation that wrote one tick pair. -/
theorem ranOk_view {s : State} (hwf : imgWf s.img = true) {base : Nat} (hb : TickBase base) (on off : Int) (i : Instr) (e : Chan) :
    let t := s.ranOk .controller i (pairBytes base (clampedTick on) (clampedTick off)) none
    (Covers base e → t.chanOn e = some (clampedTick on) ∧ t.chanOff e = some (clampedTick off)) ∧
    (¬Covers base e → t.chanOn e = s.chanOn e ∧ t.chanOff e = s.chanOff e) := by
  intro t
  have himg : t.img = imgAfterEvents s.img (okWrites .controller (pairBytes base (clampedTick on) (clampedTick off))) := by
    simp [t, State.ranOk, State.afterRun, imgAfterEvent]
  have hle : ∀ v : Int, clampedTick v ≤ 4096 := fun v => by rw [clampedTick_eq]; exact clampTick_le v
  obtain ⟨hin, hout⟩ := half_pair hwf .controller hb (hle on) (hle off) e
  simp only [chanOn_eq_half, chanOff_eq_half, himg]
  exact ⟨hin, fun hc => ⟨hout hc 0 (.inl rfl), hout hc 2 (.inr rfl)⟩⟩

/-- A PwmController operation that writes one tick pair, on a block at rest. -/
theorem exec_pair {s : State} (h : Launch s) (hb : s.bus = .open) {i : Instr} {base : Nat} {on off : Int}
    (ht : opTarget i = some .controller) (hq : queueable i = true) (hf : opFuel i = 64) (hv : ∀ t : State, t.okValue .controller i = none)
    (hp : plan s.cfg i = .ok (.ofActs (lockedActs (pairBytes base (clampedTick on) (clampedTick off))))) (hok : AnswersOk s 4) :
    exec i s = .next (s.ranOk .controller i (pairBytes base (clampedTick on) (clampedTick off)) none) := by
  rw [exec_submit ht hq, submit_blocks h hb .controller i [pairBytes base (clampedTick on) (clampedTick off)]
    (by simpa using hp) (by rw [hf]; simp [pairBytes]) hv (by simpa [pairBytes] using hok)]
  simp [State.ranOk]

/-- SETCH makes its channel the clamped ticks and leaves the others. -/
theorem setch_view {s : State} (c : Chan) (on off : Int) (h : Launch s) (hb : s.bus = .open) (hwf : imgWf s.img = true)
    (hok : AnswersOk s 4) :
    ∃ t, exec (.setch c.val on off) s = .next t ∧ t.chanOn c = some (clampedTick on) ∧ t.chanOff c = some (clampedTick off) ∧
      ∀ e : Chan, e ≠ c → t.chanOn e = s.chanOn e ∧ t.chanOff e = s.chanOff e := by
  have hp : plan s.cfg (.setch c.val on off) =
      .ok (.ofActs (lockedActs (pairBytes (6 + 4 * c.val) (clampedTick on) (clampedTick off)))) := by
    rw [← chanBytes, ← setchActs_eq, clampedTick_eq, clampedTick_eq]
    simp only [plan, planSetch, chan?_val]
    rfl
  have hview := fun e => ranOk_view hwf (.inl ⟨c, rfl⟩) on off (.setch c.val on off) e
  obtain ⟨hon, hoff⟩ := (hview c).1 (.inl rfl)
  refine ⟨_, exec_pair h hb rfl rfl rfl (fun _ => rfl) hp hok, hon, hoff, fun e he => (hview e).2 ?_⟩
  have hne := Fin.val_ne_of_ne he
  have := c.isLt
  rintro (hc | hc) <;> omega

/-- SETALL makes every channel the clamped ticks. -/
theorem setall_view {s : State} (on off : Int) (h : Launch s) (hb : s.bus = .open) (hwf : imgWf s.img = true)
    (hok : AnswersOk s 4) : ∃ t, exec (.setall on off) s = .next t ∧
      ∀ c : Chan, t.chanOn c = some (clampedTick on) ∧ t.chanOff c = some (clampedTick off) := by
  have hp : plan s.cfg (.setall on off) = .ok (.ofActs (lockedActs (pairBytes 0xFA (clampedTick on) (clampedTick off)))) := by
    rw [clampedTick_eq, clampedTick_eq]; rfl
  exact ⟨_, exec_pair h hb rfl rfl rfl (fun _ => rfl) hp hok,
    fun c => (ranOk_view hwf (.inr rfl) on off (.setall on off) c).1 (.inr rfl)⟩

/-- Settles O20: the view is two tick pairs of the image, each written low byte then high byte by one program; MODE1 is written
by INIT and SETFREQ alone, whose runs on a block at rest are exact. -/
theorem chipView : Obligations.ChipView := by
  unfold Obligations.ChipView
  refine ⟨chan_bytes, fun s c on off => setch_view c on off, fun s on off => setall_view on off, fun s t i => exec_ticks,
    fun s => ⟨sleepBit_eq s, restartBit_eq s, inFlight_iff s, armed_iff s, locked_iff s, busFailed_iff s⟩,
    fun s b => init_bits, fun s f old => setfreq_bits, fun s t i => other_bits⟩

end Sys2Proof.Machine
end

section
/-! PROOFS. Mutual exclusion on the bus, of the lock discipline (spec 10 R42, 20 R72, R73). -/

namespace Sys2Proof.Machine

/-- In a bracketed program a bus transaction or a wait of a PwmController operation stands inside the lock. -/
theorem inside_of_bracketed_needsLock {inside : Bool} {x : Act} {xs : List Act} (h : bracketed inside (x :: xs) = true)
    (hx : x.needsLock = true) : inside = true := by
  cases x with
  | write _ _ | readMode1 | writeMode1 _ | wait _ => exact (Bool.and_eq_true_iff.mp h).1
  | acquire | release | checkBus | arm _ _ | oneStep _ _ _ | seqTest _ | seqWait _ | seqCount _ => cases hx

/-- Under the lock discipline, an agent whose next action needs the lock holds it. -/
theorem LockDiscipline.held_of_needsLock {s : State} (h : LockDiscipline s) {a : Actuator} {t : Task} {x : Act}
    {xs : List Act} (ht : (s.worker a).task = some t) (hto : t.todo = x :: xs) (hx : x.needsLock = true) :
    s.lock = .held a := by
  have hb := (lockDiscipline_iff s).mp h a
  rw [ht, lockAt_some, hto] at hb
  exact of_decide_eq_true (inside_of_bracketed_needsLock hb hx)

/-- Settles O17: each agent whose next action needs the lock holds it, and the lock has one holder. -/
theorem mutualExclusion : Obligations.MutualExclusion := by
  unfold Obligations.MutualExclusion
  intro s a t x xs hl ht hto hx
  have ha := hl.held_of_needsLock ht hto hx
  refine ⟨ha, fun b u y ys hne hu huto => Bool.eq_false_iff.mpr fun hy => hne ?_⟩
  have hb := hl.held_of_needsLock hu huto hy
  exact Lock.held.inj (hb.symm.trans ha)

end Sys2Proof.Machine
end

section
/-! PROOFS. The encoding: what the decoder answers, the encoder's inverse, the reserved selectors, the bytes of a duty and of a
digital pin, and lines of the assembler (spec 30 R91 to R110). -/

namespace Sys2Proof

/-! ### The decoder and the encoder -/

/-- An operand reads as a runtime exactly when the encoder writes that runtime so (spec 30 R92). -/
theorem runtimeOperand_eq_some {x : Operand} {t : Option F64} : runtimeOperand x = some t ↔ runtimeField t = x := by
  cases x <;> cases t <;> simp [runtimeOperand, runtimeField, eq_comm]

/-- WHAT THE DECODER CAN ANSWER: the operation whose record it read; a malformed tuple behind an assigned selector; or a
reserved selector. The runtime field of RUNDC is the only operand with a reading of its own. -/
theorem decode_cases (r : Record) :
    (∃ i, decode r = .ok i ∧ encode i = r) ∨
    (decode r = .error (.malformedOperands r.sel) ∧ r.sel ∈ assignedSelectors) ∨
    (decode r = .error (.reservedSelector r.sel) ∧ r.sel ∉ assignedSelectors) := by
  obtain ⟨sel, args⟩ := r
  unfold decode
  split
  case h_8 m cmd speed rt hsel hargs =>
    obtain rfl : sel = 0x12#8 := hsel
    obtain rfl : args = [.int m, .int cmd, .int speed, rt] := hargs
    split
    · next t ht => exact .inl ⟨_, rfl, by rw [encode, runtimeOperand_eq_some.mp ht]; rfl⟩
    · exact .inr (.inl ⟨rfl, by simp [assignedSelectors]⟩)
  case h_13 =>
    split
    · next h => exact .inr (.inl ⟨rfl, h⟩)
    · next h => exact .inr (.inr ⟨rfl, h⟩)
  all_goals exact .inl ⟨_, rfl, by simp_all [encode]⟩

theorem decode_encode (i : Instr) : decode (encode i) = .ok i := by
  cases i with
  | rundc m cmd speed rt => cases rt <;> rfl
  | _ => rfl

theorem encode_of_decode {r : Record} {i : Instr} (h : decode r = .ok i) : encode i = r := by
  obtain ⟨j, hj, he⟩ | ⟨hm, -⟩ | ⟨hr, -⟩ := decode_cases r
  · cases hj.symm.trans h
    exact he
  · cases hm.symm.trans h
  · cases hr.symm.trans h

/-- Settles O1: a decoded record is the one that the encoder writes, and every encoded operation decodes to itself. -/
theorem decodeIffEncode : Obligations.DecodeIffEncode := by
  unfold Obligations.DecodeIffEncode
  exact fun r i => ⟨encode_of_decode, fun h => h ▸ decode_encode i⟩

/-- Settles O2, by running the decoder on the seven records. -/
theorem wordsDecode : Obligations.WordsDecode := by
  unfold Obligations.WordsDecode
  decide

/-! ### Reserved selectors -/

/-- Spec 30 R91: the selector of an operation's record is an assigned one. -/
theorem encode_sel_assigned (i : Instr) : (encode i).sel ∈ assignedSelectors := by
  cases i <;> simp [encode, assignedSelectors]

/-- Refusal as reserved is of the selector alone. -/
theorem decode_eq_reserved {r : Record} {e : Byte} :
    decode r = .error (.reservedSelector e) ↔ e = r.sel ∧ r.sel ∉ assignedSelectors := by
  obtain ⟨i, hi, he⟩ | ⟨hm, ha⟩ | ⟨hr, ha⟩ := decode_cases r
  · have ha : r.sel ∈ assignedSelectors := he ▸ encode_sel_assigned i
    simp [hi, ha]
  · simp [hm, ha]
  · simp [hr, ha, eq_comm]

/-- The reserved ranges of spec 30 R107. -/
theorem mem_assignedSelectors_iff (sel : Byte) : sel ∈ assignedSelectors ↔
    ¬(sel = 0x00 ∨ (0x06 ≤ sel.toNat ∧ sel.toNat ≤ 0x0F) ∨ (0x13 ≤ sel.toNat ∧ sel.toNat ≤ 0x1F) ∨ 0x24 ≤ sel.toNat) := by
  simp only [assignedSelectors, List.mem_cons, List.not_mem_nil, or_false]
  bv_omega

end Sys2Proof

namespace Sys2Proof.Machine

theorem step_of_pick_host {s : State} (h : s.pick s.movers = some .host) : step s = hostMove s.takeTurn := by
  rw [step, machineStep, h]
  rfl

/-- Spec 30 R107: the host's next record is refused by name, whatever its operands. -/
theorem hostMove_reserved {s : State} {r : Record} {rest : List Record} (hi : s.inbox = r :: rest)
    (hr : r.sel ∉ assignedSelectors) : hostMove s = .refused (.reservedSelector r.sel) := by
  simp [hostMove, hi, decode_eq_reserved.mpr ⟨rfl, hr⟩]

/-- Settles O3: the decoder's answer by `decode_eq_reserved`, the step's by the host's move. -/
theorem reservedSelectorsRefused : Obligations.ReservedSelectorsRefused := by
  unfold Obligations.ReservedSelectorsRefused
  refine ⟨fun sel args hr => decode_eq_reserved.mpr ⟨rfl, hr⟩, fun sel args e ha h => (decode_eq_reserved.mp h).2 ha,
    fun s sel args rest hr hi hp => ?_, mem_assignedSelectors_iff⟩
  rw [step_of_pick_host hp, hostMove_reserved (s.takeTurn_inbox.trans hi) hr]

/-! ### Bytes of ticks -/

/-- Settles O27: a pin value is SETCH's program at a full tick, 4096, whose bytes are 0x00 and 0x10. -/
theorem digitalPinBytes : Obligations.PinBytes := by
  unfold Obligations.PinBytes
  exact fun c => ⟨rfl, rfl, rfl, rfl⟩

theorem tickLow_toNat (t : Nat) : (tickLow t).toNat = t % 256 := by simp [tickLow]

theorem tickHigh_toNat {t : Nat} (h : t < 65536) : (tickHigh t).toNat = t / 256 := by
  simp only [tickHigh, BitVec.toNat_ofNat]
  omega

/-- Settles O28: the bytes are quotient and remainder by 256 of a tick that is 16 times the duty. -/
theorem dutyTicks : Obligations.DutyTicks := by
  unfold Obligations.DutyTicks
  refine ⟨fun d => ?_, by decide, by decide⟩
  have ht : dutyTick d.val = d.val * 16 := rfl
  rw [tickLow_toNat, tickHigh_toNat (by omega), ht]
  omega

/-! ### The assembler -/

/-- Settles O60, by assembling the five lines. -/
theorem assemblerLines : Obligations.AssemblerLines := by
  unfold Obligations.AssemblerLines
  decide

end Sys2Proof.Machine
end

section
/-! PROOFS. The PwmController operations on a block at rest (spec 40): what each records and leaves when no transaction fails,
and where INIT and SETFREQ end when one does (spec 60 R261, R264); the PRESCALE byte (spec 40 R140). -/

namespace Sys2Proof.Machine

/-! ### Operations that complete -/

/-- Settles O21: the run is `exec_init`; its events hold six writes, the MODE1 read and write, and two waits. -/
theorem initResult : Obligations.InitResult := by
  unfold Obligations.InitResult
  intro s b h hb hok h6
  exact ⟨⟨_, exec_init h hb hok h6⟩, rfl, by simp [initEvents, okWrites, pairBytes]⟩

/-- The program of a legal SETCH: one tick pair under the lock (spec 40 R124). -/
theorem plan_setch (cfg : Config) (c : Chan) (on off : Int) :
    plan cfg (.setch c.val on off) = .ok (.ofActs (lockedActs (chanBytes c (clampedTick on) (clampedTick off)))) := by
  rw [← setchActs_eq, clampedTick_eq, clampedTick_eq]
  simp only [plan, planSetch, chan?_val]
  rfl

/-- The program of SETALL: one tick pair at the all-channel registers under the lock (spec 40 R130). -/
theorem plan_setall (cfg : Config) (on off : Int) :
    plan cfg (.setall on off) = .ok (.ofActs (lockedActs (pairBytes 0xFA (clampedTick on) (clampedTick off)))) := by
  rw [clampedTick_eq, clampedTick_eq]
  rfl

/-- The program of a legal SETPIN: the bytes of its value under the lock (spec 40 R150). -/
theorem plan_setpin (cfg : Config) (c : Chan) (v : Bool) :
    plan cfg (.setpin c.val (if v then 1 else 0)) = .ok (.ofActs (lockedActs (pinBytes c v))) := by
  have hv : needPinValue (if v then 1 else 0) = .ok v := by cases v <;> rfl
  simp only [plan, planSetpin, chan?_val, hv, ← setpinActs_eq]
  rfl

/-- The bytes of a pin value are a tick pair that the clamp leaves (spec 30 R103). -/
theorem pinBytes_eq (c : Chan) (v : Bool) :
    pinBytes c v = pairBytes (6 + 4 * c.val) (clampedTick (if v then 4096 else 0)) (clampedTick (if v then 0 else 4096)) := by
  cases v <;> rfl

/-- Settles O22: SETCH's program is one tick pair under the lock. -/
theorem setchResult : Obligations.SetchResult := by
  unfold Obligations.SetchResult
  exact fun s c on off h hb hok => exec_pair h hb rfl rfl rfl (fun _ => rfl) (plan_setch s.cfg c on off) hok

/-- Settles O23: SETALL's program is one tick pair at the all-channel registers. -/
theorem setallResult : Obligations.SetallResult := by
  unfold Obligations.SetallResult
  exact fun s on off h hb hok => exec_pair h hb rfl rfl rfl (fun _ => rfl) (plan_setall s.cfg on off) hok

/-- Settles O26: SETPIN's program is the tick pair of its value. -/
theorem setpinResult : Obligations.SetpinResult := by
  unfold Obligations.SetpinResult
  intro s c v h hb hok
  have hp := plan_setpin s.cfg c v
  rw [pinBytes_eq] at hp ⊢
  exact exec_pair h hb rfl rfl rfl (fun _ => rfl) hp hok

theorem needFrequency_of_pos {f : F64} {q : Rat} (hf : F64.value f = some q) (hq : 0 < q) : needFrequency f = .ok q := by
  simp [needFrequency, hf, hq]

/-- Settles O24: the frequency passes its check, and the run is `exec_setfreq`. -/
theorem setfreqResult : Obligations.SetfreqResult := by
  unfold Obligations.SetfreqResult
  exact fun s f q old h hb hf hq hok h0 => exec_setfreq h hb (needFrequency_of_pos hf hq) hok h0

/-! ### The PRESCALE byte -/

/-- The test vectors of spec 95 2.5, by computing the formula in binary64. -/
theorem prescale_vectors : prescale defaultConfig 23 = 255 ∧ prescale defaultConfig 60 = 101 ∧
    prescale defaultConfig 40 = 152 ∧ prescale defaultConfig 2000 = 3 ∧ prescale defaultConfig (1 / 2) = 255 := by
  decide +kernel

/-- Settles O25: rounding clamps to the range, whatever the formula's `x` is, and the five values are computed. -/
theorem prescaleByte : Obligations.PrescaleByte := by
  unfold Obligations.PrescaleByte
  exact ⟨fun cfg q h => roundAndClamp_range cfg h (prescaleX q), prescale_vectors⟩

end Sys2Proof.Machine
end

section
/-! PROOFS. The first failing transaction of a program under the lock, and where INIT and SETFREQ end when one of theirs fails
(spec 40 R120, R140, 60 R261, R262, R264). -/

namespace Sys2Proof.Machine

/-! ### A program under the lock and its first failing transaction -/

/-- The events of a program under the lock when no transaction fails and its MODE1 reads answer `b`; `m` is the MODE1 byte that
the operation keeps. The program is read up to the first action that is no transaction and no wait. -/
def heldEvents (cfg : Config) (a : Actuator) (b : Byte) : Byte → List Act → List Event
  | m, .write r v :: rest => .write a r v true :: heldEvents cfg a b m rest
  | m, .writeMode1 w :: rest => .write a regMode1 (mode1Value cfg m w) true :: heldEvents cfg a b m rest
  | _, .readMode1 :: rest => .read a regMode1 (.ok b) :: heldEvents cfg a b b rest
  | m, .wait q :: rest => .wait a q :: heldEvents cfg a b m rest
  | _, _ => []

/-- The transactions of some events, in order. -/
abbrev txns (evs : List Event) : List Txn := evs.filterMap txn?

/-- From transaction number `k` on, the `j`-th transaction of `evs` is the first that fails; the MODE1 reads before it are
answered `b`. -/
structure FirstFails (s : State) (b : Byte) (evs : List Event) (k j : Nat) : Prop where
  lt : j < (txns evs).length
  ok : AnswersOk s (k + j)
  bad : s.answerAt (k + j) = .busError
  read : ∀ l, l < j → (txns evs)[l]? = some ⟨regMode1, none⟩ → s.answerAt (k + l) = .ok b

theorem FirstFails.tail {s : State} {b : Byte} {e : Event} {evs : List Event} {x : Txn} {k j : Nat} (he : txn? e = some x)
    (h : FirstFails s b (e :: evs) k (j + 1)) : FirstFails s b evs (k + 1) j where
  lt := by simpa [txns, he] using h.lt
  ok := by rw [Nat.add_right_comm]; exact h.ok
  bad := by rw [Nat.add_right_comm]; exact h.bad
  read l hl hx := by
    rw [Nat.add_right_comm]
    exact h.read (l + 1) (by omega) (by simpa [txns, he] using hx)

theorem FirstFails.skip {s : State} {b : Byte} {e : Event} {evs : List Event} {k j : Nat} (he : txn? e = none)
    (h : FirstFails s b (e :: evs) k j) : FirstFails s b evs k j := by
  have ht : txns (e :: evs) = txns evs := List.filterMap_cons_none he
  exact ⟨ht ▸ h.lt, h.ok, h.bad, ht ▸ h.read⟩

theorem busRead_fail (s : State) (a : Actuator) (r : Byte) (hbad : s.nextAnswer = .busError) :
    s.busRead a r = s.afterRun [.read a r .busError] 1 := by
  simp [State.afterRun, State.dropAnswers, State.busRead, State.drawAnswer, hbad, imgAfterEvent]

theorem nextAnswer_setTask (s : State) (a : Actuator) (t : Option Task) : (s.setTask a t).nextAnswer = s.nextAnswer := by
  cases a <;> rfl

theorem failAt_txn {e : Event} {x : Txn} (he : txn? e = some x) (evs : List Event) (j : Nat) :
    failAt (e :: evs) (j + 1) = e :: failAt evs j := by
  cases e with
  | write _ _ _ _ | read _ _ _ => rfl
  | wait _ _ | issue _ _ | done _ _ _ | cancel _ | fire _ => cases he

theorem failAt_silent {e : Event} (he : txn? e = none) (evs : List Event) (j : Nat) :
    failAt (e :: evs) j = e :: failAt evs j := by
  cases e with
  | write _ _ _ _ | read _ _ _ => cases he
  | wait _ _ | issue _ _ | done _ _ _ | cancel _ | fire _ => cases j <;> rfl

/-- From a run that has made the events `E` with `k` answers, `u` is what the agent's moves give when `evs` follow up to their
`j`-th transaction, which fails and ends operation `op` of agent `a` with BusError. -/
def FailsFrom (a : Actuator) (s : State) (op : Instr) (g : Agent) (E : List Event) (k : Nat) (evs : List Event) (j : Nat)
    (u : State) : Prop :=
  ∃ n t, t.op = op ∧ t.by_ = g ∧ u = State.settle n a
    (((s.afterRun (E ++ failAt evs j) (k + (j + 1))).setTask a (some t)).raiseBusError a t (txns evs)[j]?)

section fails

variable {a : Actuator} {s u : State} {op : Instr} {g : Agent} {E evs : List Event} {k j : Nat} {e : Event} {x : Txn}

/-- The failing transaction comes after one that did not fail. -/
theorem FailsFrom.later (he : txn? e = some x) (h : FailsFrom a s op g (E ++ [e]) (k + 1) evs j u) :
    FailsFrom a s op g E k (e :: evs) (j + 1) u := by
  obtain ⟨n, t, h1, h2, rfl⟩ := h
  refine ⟨n, t, h1, h2, ?_⟩
  rw [failAt_txn he, List.append_assoc, List.singleton_append, show k + 1 + (j + 1) = k + (j + 1 + 1) by omega]
  simp [txns, he]

/-- The failing transaction comes after an event that is none. -/
theorem FailsFrom.silent (he : txn? e = none) (h : FailsFrom a s op g (E ++ [e]) k evs j u) :
    FailsFrom a s op g E k (e :: evs) j u := by
  obtain ⟨n, t, h1, h2, rfl⟩ := h
  refine ⟨n, t, h1, h2, ?_⟩
  rw [failAt_silent he, List.append_assoc, List.singleton_append]
  simp [txns, he]

end fails

section moves

variable {n : Nat} {a : Actuator} {s : State} {op : Instr} {g : Agent} {rest : List Act} {m b : Byte} {c : Nat} {E : List Event}
  {k : Nat}

theorem move_writeFail (h : Alone a s) {r v : Byte} (hbad : s.answerAt k = .busError) :
    State.settle (n + 1) a ((s.afterRun E k).setTask a (some ⟨op, g, .write r v :: rest, m, c⟩)) =
      State.settle n a (((s.afterRun (E ++ [.write a r v false]) (k + 1)).setTask a
        (some ⟨op, g, .write r v :: rest, m, c⟩)).raiseBusError a ⟨op, g, .write r v :: rest, m, c⟩ (some ⟨r, some v⟩)) := by
  have hn : (s.afterRun E k).nextAnswer = .busError := by rw [nextAnswer_eq, answerAt_afterRun]; exact hbad
  rw [settle_writeFail (h.afterRun _ _) hn, busWrite_fail _ _ _ _ hn, afterRun_afterRun]

theorem move_writeMode1Fail (h : Alone a s) {w : Mode1Write} (hbad : s.answerAt k = .busError) :
    State.settle (n + 1) a ((s.afterRun E k).setTask a (some ⟨op, g, .writeMode1 w :: rest, m, c⟩)) =
      State.settle n a (((s.afterRun (E ++ [.write a regMode1 (mode1Value s.cfg m w) false]) (k + 1)).setTask a
        (some ⟨op, g, .writeMode1 w :: rest, m, c⟩)).raiseBusError a ⟨op, g, .writeMode1 w :: rest, m, c⟩
          (some ⟨regMode1, some (mode1Value s.cfg m w)⟩)) := by
  have hn : (s.afterRun E k).nextAnswer = .busError := by rw [nextAnswer_eq, answerAt_afterRun]; exact hbad
  rw [settle_task (h.afterRun _ _) _ (by simp [Task.wantsLock])]
  simp only [State.runAct, State.tryWrite, nextAnswer_setTask, hn, busWrite_setTask, busWrite_fail _ _ _ _ hn, afterRun_afterRun,
    State.setTask_cfg, afterRun_cfg]

theorem move_readMode1Fail (h : Alone a s) (hbad : s.answerAt k = .busError) :
    State.settle (n + 1) a ((s.afterRun E k).setTask a (some ⟨op, g, .readMode1 :: rest, m, c⟩)) =
      State.settle n a (((s.afterRun (E ++ [.read a regMode1 .busError]) (k + 1)).setTask a
        (some ⟨op, g, .readMode1 :: rest, m, c⟩)).raiseBusError a ⟨op, g, .readMode1 :: rest, m, c⟩ (some ⟨regMode1, none⟩)) := by
  have hn : (s.afterRun E k).nextAnswer = .busError := by rw [nextAnswer_eq, answerAt_afterRun]; exact hbad
  rw [settle_task (h.afterRun _ _) _ (by simp [Task.wantsLock])]
  simp only [State.runAct, State.tryReadMode1, nextAnswer_setTask, hn, busRead_setTask, busRead_fail _ _ _ hn, afterRun_afterRun]

/-- THE FIRST FAILING TRANSACTION of a program under the lock: those before it stand, it is the last, and the operation ends
BusError with it (spec 60 R264). -/
theorem held_fails (h : Alone a s) (acts : List Act) : ∀ {m : Byte} {E : List Event} {k j : Nat},
    FirstFails s b (heldEvents s.cfg a b m acts) k j → FailsFrom a s op g E k (heldEvents s.cfg a b m acts) j
      (State.settle (n + acts.length) a ((s.afterRun E k).setTask a (some ⟨op, g, acts ++ rest, m, c⟩))) := by
  induction acts with
  | nil => intro m E k j hf; cases hf.lt
  | cons x acts ih =>
    intro m E k j hf
    rw [List.length_cons, ← Nat.add_assoc, List.cons_append]
    cases x with
    | wait q =>
      rw [move_wait h]
      exact .silent rfl (ih (hf.skip rfl))
    | write r v =>
      cases j with
      | zero => exact ⟨_, _, rfl, rfl, move_writeFail h hf.bad⟩
      | succ j =>
        rw [move_write h (hf.ok.mono (by omega))]
        exact .later rfl (ih (hf.tail rfl))
    | writeMode1 w =>
      cases j with
      | zero => exact ⟨_, _, rfl, rfl, move_writeMode1Fail h hf.bad⟩
      | succ j =>
        rw [move_writeMode1 h (hf.ok.mono (by omega))]
        exact .later rfl (ih (hf.tail rfl))
    | readMode1 =>
      cases j with
      | zero => exact ⟨_, _, rfl, rfl, move_readMode1Fail h hf.bad⟩
      | succ j =>
        have hb : s.answerAt k = .ok b := hf.read 0 (by omega) rfl
        rw [move_readMode1 h hb]
        exact .later rfl (ih (hf.tail rfl))
    | checkBus | acquire | release | arm _ _ | oneStep _ _ _ | seqTest _ | seqWait _ | seqCount _ => cases hf.lt

end moves

/-- A whole operation that runs one program under the lock, whose `j`-th transaction fails. -/
theorem submit_held_fails {s : State} (h : Launch s) (hb : s.bus = .open) {a : Actuator} (ha : ∀ k, a ≠ .stepper k) (i : Instr)
    {body : List Act} {evs : List Event} {b : Byte} {j : Nat}
    (hp : plan s.cfg i = .ok (.ofActs (.checkBus :: .acquire :: (body ++ [.release])))) (hlen : body.length + 3 ≤ opFuel i)
    (hevs : heldEvents s.cfg a b 0 body = evs) (hf : FirstFails s b evs 0 j) :
    s.submit a i = s.afterRun (.issue (.actuator a) i :: (failAt evs j ++
      [.done (.actuator a) i (.busError i (txns evs)[j]? none)])) (j + 1) := by
  obtain ⟨n, hn⟩ : ∃ n, opFuel i = n + body.length + 1 + 1 + 1 := ⟨opFuel i - (body.length + 3), by omega⟩
  have hA : Alone a (s.setLock (.held a)) := (h.alone a).setLock _
  have hpr : ∀ (u : State) (t : Task), u.progress a t = none := fun u t => by
    cases a with
    | controller | dc m => rfl
    | stepper k => exact absurd rfl (ha k)
  subst hevs
  have hf' : FirstFails (s.setLock (.held a)) b (heldEvents s.cfg a b 0 body) 0 j := ⟨hf.lt, hf.ok, hf.bad, hf.read⟩
  obtain ⟨n', t, hop, hby, he⟩ := held_fails (n := n) (op := i) (g := .actuator a) (rest := [.release]) (c := 0)
    (E := [.issue (.actuator a) i]) hA body hf'
  rw [submit_ofActs h a i hp hn, List.append_nil, settle_checkBus ((h.alone a).afterRun _ _) hb,
    settle_acquire ((h.alone a).afterRun _ _) h.lock_free, ← afterRun_setLock, he, afterRun_setLock, State.raiseBusError,
    endTask_locked (h.afterRun _ _), settle_launch ((h.afterRun _ _).afterRun _ _), afterRun_afterRun, hpr, hop, hby]
  simp

/-! ### INIT and SETFREQ -/

/-- INIT under the lock (spec 40 R120). -/
def initBody (cfg : Config) : List Act :=
  writeActs (initWrites cfg) ++ [.wait settleSeconds, .readMode1, .writeMode1 .clearSleep, .wait settleSeconds]

/-- SETFREQ under the lock (spec 40 R140). -/
def setfreqBody (cfg : Config) (q : Rat) : List Act :=
  [.readMode1, .writeMode1 .sleep, .write regPrescale (prescale cfg q), .writeMode1 .restore, .wait settleSeconds,
    .writeMode1 .restart]

theorem plan_setfreq (cfg : Config) {f : F64} {q : Rat} (hq : needFrequency f = .ok q) :
    plan cfg (.setfreq f) = .ok (.ofActs (.checkBus :: .acquire :: (setfreqBody cfg q ++ [.release]))) := by
  simp only [plan, planSetfreq, hq]
  rfl

theorem heldEvents_initBody (cfg : Config) (b m : Byte) : heldEvents cfg .controller b m (initBody cfg) = initEvents cfg b := by
  rw [initEvents_eq]
  rfl

theorem heldEvents_setfreqBody (cfg : Config) (q : Rat) (old m : Byte) :
    heldEvents cfg .controller old m (setfreqBody cfg q) = setfreqEvents cfg q old := by
  rw [setfreqEvents_eq]
  rfl

/-- A read among some transactions stands where the list of their kinds says. -/
theorem read_kind {evs : List Event} {kinds : List Bool} (hk : (txns evs).map (fun x => x.value.isNone) = kinds)
    {l : Nat} {r : Byte} (h : (txns evs)[l]? = some ⟨r, none⟩) : kinds[l]? = some true ∧ l < kinds.length := by
  have hl : kinds[l]? = some true := by rw [← hk, List.getElem?_map, h]; rfl
  exact ⟨hl, (List.getElem?_eq_some_iff.mp hl).1⟩

/-- The read of INIT is its transaction 6. -/
theorem initEvents_read {cfg : Config} {b : Byte} {l : Nat} (h : (txns (initEvents cfg b))[l]? = some ⟨regMode1, none⟩) :
    l = 6 := by
  obtain ⟨hl, hlt⟩ := read_kind (kinds := [false, false, false, false, false, false, true, false]) rfl h
  have key : ∀ l < 8, [false, false, false, false, false, false, true, false][l]? = some true → l = 6 := by decide
  exact key l hlt hl

/-- The read of SETFREQ is its transaction 0. -/
theorem setfreqEvents_read {cfg : Config} {q : Rat} {old : Byte} {l : Nat}
    (h : (txns (setfreqEvents cfg q old))[l]? = some ⟨regMode1, none⟩) : l = 0 := by
  obtain ⟨hl, hlt⟩ := read_kind (kinds := [true, false, false, false, false]) rfl h
  have key : ∀ l < 5, [true, false, false, false, false][l]? = some true → l = 0 := by decide
  exact key l hlt hl

/-- INIT whose `j`-th transaction fails. -/
theorem exec_init_fails {s : State} {b : Byte} {j : Nat} (h : Launch s) (hb : s.bus = .open) (hj : j < 8) (hok : AnswersOk s j)
    (hbad : s.answerAt j = .busError) (h6 : 6 < j → s.answerAt 6 = .ok b) :
    exec .init s = .next (s.afterRun (.issue (.actuator .controller) .init :: (failAt (initEvents s.cfg b) j ++
      [.done (.actuator .controller) .init (.busError .init (txns (initEvents s.cfg b))[j]? none)])) (j + 1)) := by
  have hf : FirstFails s b (initEvents s.cfg b) 0 j := by
    refine ⟨hj, by rwa [Nat.zero_add], by rwa [Nat.zero_add], fun l hl hx => ?_⟩
    obtain rfl := initEvents_read hx
    exact h6 hl
  rw [exec_submit rfl rfl, submit_held_fails h hb (by simp) .init (plan_init s.cfg) (show 13 ≤ 64 by decide)
    (heldEvents_initBody s.cfg b 0) hf]

/-- SETFREQ whose `j`-th transaction fails. -/
theorem exec_setfreq_fails {s : State} {f : F64} {q : Rat} {old : Byte} {j : Nat} (h : Launch s) (hb : s.bus = .open)
    (hq : needFrequency f = .ok q) (hj : j < 5) (hok : AnswersOk s j) (hbad : s.answerAt j = .busError)
    (h0 : 0 < j → s.answerAt 0 = .ok old) :
    exec (.setfreq f) s = .next (s.afterRun (.issue (.actuator .controller) (.setfreq f) ::
      (failAt (setfreqEvents s.cfg q old) j ++ [.done (.actuator .controller) (.setfreq f)
        (.busError (.setfreq f) (txns (setfreqEvents s.cfg q old))[j]? none)])) (j + 1)) := by
  have hf : FirstFails s old (setfreqEvents s.cfg q old) 0 j := by
    refine ⟨hj, by rwa [Nat.zero_add], by rwa [Nat.zero_add], fun l hl hx => ?_⟩
    obtain rfl := setfreqEvents_read hx
    exact h0 hl
  rw [exec_submit rfl rfl, submit_held_fails h hb (by simp) (.setfreq f) (plan_setfreq s.cfg hq) (show 9 ≤ 64 by decide)
    (heldEvents_setfreqBody s.cfg q old 0) hf]

/-- Settles O49: both operations run one program under the lock, which its first failing transaction ends. -/
theorem initAndSetfreqBusErrors : Obligations.InitAndSetfreqBusErrors := by
  unfold Obligations.InitAndSetfreqBusErrors
  exact ⟨fun s b j h hb hj hok hbad h6 => exec_init_fails h hb hj hok hbad h6,
    fun s f q old j h hb hf hq hj hok hbad h0 => exec_setfreq_fails h hb (needFrequency_of_pos hf hq) hj hok hbad h0⟩

end Sys2Proof.Machine
end

section
/-! PROOFS. What an operation leaves unchanged (spec 40 R120, R124, R130, R140, R150): the other agents, what the host and the
scheduler have still to give, and the image entries that its program does not reach. -/

namespace Sys2Proof.Machine

/-- The next state of an operation that names an actuator is its agent's issue. -/
theorem submit_of_exec {i : Instr} {a : Actuator} {s t : State} (ht : opTarget i = some a) (hq : queueable i = true)
    (h : exec i s = .next t) : s.submit a i = t := by
  rw [exec_submit ht hq] at h
  exact (Host_next_inj _ _).mp h

/-! ### The other agents -/

/-- From `s` to `t` only agent `a`, the lock, the bus, the history and the image may have changed: the scheduler's choices and the
other agents, with their motor or stepper, are as they were. -/
structure Elsewhere (a : Actuator) (s t : State) : Prop where
  sched : t.sched = s.sched
  turn : t.turn = s.turn
  ctrl : a ≠ .controller → t.ctrl = s.ctrl
  motor : ∀ m, a ≠ .dc m → t.motor m = s.motor m
  stepper : ∀ k, a ≠ .stepper k → t.stepper k = s.stepper k

namespace Elsewhere

variable {a : Actuator} {s t u : State}

theorem refl (s : State) : Elsewhere a s s := ⟨rfl, rfl, fun _ => rfl, fun _ _ => rfl, fun _ _ => rfl⟩

theorem trans (h : Elsewhere a s t) (k : Elsewhere a t u) : Elsewhere a s u where
  sched := k.sched.trans h.sched
  turn := k.turn.trans h.turn
  ctrl ha := (k.ctrl ha).trans (h.ctrl ha)
  motor m ha := (k.motor m ha).trans (h.motor m ha)
  stepper j ha := (k.stepper j ha).trans (h.stepper j ha)

theorem log (s : State) (e : Event) : Elsewhere a s (s.log e) :=
  ⟨rfl, rfl, fun _ => rfl, fun _ _ => rfl, fun _ _ => rfl⟩

theorem setLock (s : State) (l : Lock) : Elsewhere a s (s.setLock l) :=
  ⟨rfl, rfl, fun _ => rfl, fun _ _ => rfl, fun _ _ => rfl⟩

theorem busWrite (s : State) (b : Actuator) (r v : Byte) : Elsewhere a s (s.busWrite b r v) :=
  ⟨rfl, rfl, fun _ => rfl, fun _ _ => rfl, fun _ _ => rfl⟩

theorem busRead (s : State) (b : Actuator) (r : Byte) : Elsewhere a s (s.busRead b r) :=
  ⟨rfl, rfl, fun _ => rfl, fun _ _ => rfl, fun _ _ => rfl⟩

/-- The queue and the task of the agent. -/
theorem setWorker (s : State) (a : Actuator) (w : Worker) : Elsewhere a s (s.setWorker a w) where
  sched := by simp
  turn := by simp
  ctrl ha := by rw [State.ctrl_setWorker, if_neg ha]
  motor m ha := by rw [State.motor_setWorker, if_neg ha]
  stepper k ha := by rw [State.stepper_setWorker, if_neg ha]

theorem setTask (s : State) (a : Actuator) (t : Option Task) : Elsewhere a s (s.setTask a t) := setWorker _ _ _

theorem goOn (s : State) (a : Actuator) (t : Task) (rest : List Act) : Elsewhere a s (s.goOn a t rest) := setWorker _ _ _

theorem enqueue (s : State) (a : Actuator) (i : Instr) : Elsewhere a s (s.enqueue a i) := setWorker _ _ _

/-- The stepper's own record. -/
theorem setStepper (s : State) (k : Fin 2) (x : Stepper) : Elsewhere (.stepper k) s (s.setStepper k x) where
  sched := rfl
  turn := rfl
  ctrl _ := rfl
  motor _ _ := rfl
  stepper j hj := State.stepper_setStepper_ne s k j x fun e => hj (by rw [e])

/-- The motor's own record. -/
theorem setMotor (s : State) (m : Fin 4) (x : DcMotor) : Elsewhere (.dc m) s (s.setMotor m x) where
  sched := rfl
  turn := rfl
  ctrl _ := rfl
  motor j hj := State.motor_setMotor_ne s m j x fun e => hj (by rw [e])
  stepper _ _ := rfl

theorem setSeq (s : State) (k : Fin 2) (q : Seq) : Elsewhere (.stepper k) s (s.setSeq k q) := setStepper _ _ _

theorem unlockFor (s : State) (b : Actuator) : Elsewhere a s (s.unlockFor b) := by
  unfold State.unlockFor
  split
  · exact setLock _ _
  · exact refl s

theorem endSeq (s : State) (a : Actuator) : Elsewhere a s (s.endSeq a) := by
  cases a with
  | stepper k => exact setSeq _ _ _
  | controller | dc m => exact refl s

theorem endTask (s : State) (a : Actuator) (t : Task) (r : Result) : Elsewhere a s (s.endTask a t r) :=
  ((log _ _).trans (unlockFor _ _)).trans ((endSeq _ _).trans (setTask _ _ _))

theorem raiseBusError (s : State) (a : Actuator) (t : Task) (x : Option Txn) : Elsewhere a s (s.raiseBusError a t x) :=
  endTask _ _ _ _

theorem tryWrite (s : State) (a : Actuator) (t : Task) (r v : Byte) (rest : List Act) :
    Elsewhere a s (s.tryWrite a t r v rest) := by
  unfold State.tryWrite
  split
  · exact (busWrite _ _ _ _).trans (goOn _ _ _ _)
  · exact (busWrite _ _ _ _).trans (raiseBusError _ _ _ _)

theorem tryReadMode1 (s : State) (a : Actuator) (t : Task) (rest : List Act) : Elsewhere a s (s.tryReadMode1 a t rest) := by
  unfold State.tryReadMode1
  split
  · exact (busRead _ _ _).trans (goOn _ _ _ _)
  · exact (busRead _ _ _).trans (raiseBusError _ _ _ _)

theorem seqNext (s : State) (k : Fin 2) (r : Running) : Elsewhere (.stepper k) s (s.seqNext k r).1 := by
  unfold State.seqNext
  split <;> exact setSeq _ _ _

theorem seqTest (s : State) (k : Fin 2) : Elsewhere (.stepper k) s (s.seqTest k).1 := by
  unfold State.seqTest
  split
  · exact refl s
  · split
    · split
      · exact seqNext _ _ _
      · split
        · exact setSeq _ _ _
        · exact refl s
    · split
      · exact seqNext _ _ _
      · exact refl s

theorem seqCount (s : State) (k : Fin 2) : Elsewhere (.stepper k) s (s.seqCount k) := by
  unfold State.seqCount
  split
  · exact refl s
  · split
    · exact setSeq _ _ _
    · exact refl s

theorem seqWait (s : State) (k : Fin 2) (t : Task) (rest : List Act) :
    Elsewhere (.stepper k) s (s.seqWait (.stepper k) k t rest) := by
  unfold State.seqWait
  split
  · exact (log _ _).trans (endTask _ _ _ _)
  · split
    · exact goOn _ _ _ _
    · exact ((log _ _).trans (setSeq _ _ _)).trans (goOn _ _ _ _)

/-- An action of the agent's own: one of another agent's stepper or motor is not in its program. -/
theorem runAct (s : State) {a : Actuator} (t : Task) {x : Act} (rest : List Act) (ho : Act.ownedBy a x = true)
    (harm : ArmsOwn a x) : Elsewhere a s (s.runAct a t x rest) := by
  have own : ∀ k, Act.ownedBy a x = decide (a = .stepper k) → a = .stepper k := fun k e =>
    of_decide_eq_true (e.symm.trans ho)
  cases x with
  | checkBus =>
    simp only [State.runAct]
    split
    · exact raiseBusError _ _ _ _
    · exact goOn _ _ _ _
  | acquire =>
    simp only [State.runAct]
    split
    · exact (setLock _ _).trans (goOn _ _ _ _)
    · exact refl s
  | release => exact (unlockFor _ _).trans (goOn _ _ _ _)
  | write r v => exact tryWrite _ _ _ _ _ _
  | writeMode1 w => exact tryWrite _ _ _ _ _ _
  | readMode1 => exact tryReadMode1 _ _ _ _
  | wait q => exact (log _ _).trans (goOn _ _ _ _)
  | arm m d => obtain rfl := harm m d rfl; exact (setMotor _ _ _).trans (goOn _ _ _ _)
  | oneStep k d y => obtain rfl := own k rfl; exact (setStepper _ _ _).trans (goOn _ _ _ _)
  | seqTest k => obtain rfl := own k rfl; exact (seqTest _ _).trans (goOn _ _ _ _)
  | seqWait k => obtain rfl := own k rfl; exact seqWait _ _ _ _
  | seqCount k => obtain rfl := own k rfl; exact (seqCount _ _).trans (goOn _ _ _ _)

/-- The start of an operation: only a stepper command changes more than its agent's task. -/
theorem begin (s : State) {a : Actuator} (i : Instr) {p : Plan} (hp : PlanStarts a p) : Elsewhere a s (s.begin a i p) := by
  unfold State.begin
  unfold PlanStarts at hp
  split
  · exact setTask _ _ _
  · next h => rw [h] at hp; obtain ⟨rfl, -⟩ := hp; exact (setSeq _ _ _).trans (setTask _ _ _)
  · next h => rw [h] at hp; obtain ⟨rfl, -⟩ := hp; exact (setSeq _ _ _).trans (setTask _ _ _)
  · next h =>
    rw [h] at hp
    obtain ⟨rfl, -⟩ := hp
    dsimp only
    split
    · exact raiseBusError _ _ _ _
    · exact (setStepper _ _ _).trans ((setSeq _ _ _).trans (setTask _ _ _))

theorem finish (s : State) (a : Actuator) (t : Task) : Elsewhere a s (s.finish a t) := by
  unfold State.finish
  split
  · exact raiseBusError _ _ _ _
  · exact endTask _ _ _ _

/-- The record of the issue, and the cancelling of the motor's own release. -/
theorem issued (s : State) (a : Actuator) (i : Instr) : Elsewhere a s (s.issued a i) := by
  cases a with
  | dc m => exact (log s _).trans (setMotor _ _ _)
  | controller | stepper k => exact log s _

/-- AN OPERATION leaves every agent but its own (spec 60 R274). -/
theorem exec {i : Instr} (ht : opTarget i = some a) (hq : queueable i = true) (h : Machine.exec i s = .next t) :
    Elsewhere a s t := by
  obtain rfl := submit_of_exec ht hq h
  have hi := issued s a i
  rcases submit_cases s a i with he | he | ⟨-, hw, he⟩
  · rw [he]; exact hi.trans (log _ _)
  · rw [he]; exact hi.trans (enqueue _ _ _)
  · rw [he]
    have hrun := settle_program (i := i) hw (J := Elsewhere a s) (Q := fun x => Act.ownedBy a x = true ∧ ArmsOwn a x)
      (fun c _ => hi.trans (log _ _))
      (fun p hp => ⟨hi.trans (begin _ i (plan_good hp ht hq).2),
        fun x hx => ⟨((plan_good hp ht hq).1.2 x hx).2.1, plan_armsOwn (plan_shape hp) ht x hx⟩⟩)
      (fun u x hx y hy => ⟨((unfolds_good u a x hx.1).2.1 y hy).2, unfolds_armsOwn u x hx.2 y hy⟩)
      (fun u t x rest hJ _ _ hx => hJ.trans (runAct u t rest hx.1 hx.2))
      (fun u t hJ _ _ => hJ.trans (finish u a t)) (opFuel i)
    rcases hrun with hr | hr
    · rw [hr]; exact hi.trans (enqueue _ _ _)
    · exact hr

end Elsewhere

/-! ### The image entries that a program reaches -/

/-- An action whose write, if it makes one, reaches only the image entries `regs` (spec 10 R24, R25). -/
def Act.Within (regs : List Nat) (x : Act) : Prop :=
  ∀ cfg m r v, x.written cfg m = some (r, v) → ∀ b ∈ imgTargets r, b ∈ regs

theorem within_write {regs : List Nat} {r v : Byte} : (Act.write r v).Within regs ↔ ∀ b ∈ imgTargets r, b ∈ regs := by
  refine ⟨fun h => h defaultConfig 0 r v rfl, fun h cfg m r' v' hw => ?_⟩
  cases hw
  exact h

/-- The MODE and PRESCALE registers reach themselves alone. -/
theorem imgTargets_control :
    imgTargets regMode1 = [0x00] ∧ imgTargets regMode2 = [0x01] ∧ imgTargets regPrescale = [0xFE] := by
  decide

theorem within_writeMode1 {regs : List Nat} {w : Mode1Write} (h : 0 ∈ regs) : (Act.writeMode1 w).Within regs := by
  intro cfg m r v hw b hb
  cases hw
  rw [imgTargets_control.1, List.mem_singleton] at hb
  subst hb
  exact h

theorem within_silent {regs : List Nat} {x : Act} (h : ∀ cfg m, x.written cfg m = none) : x.Within regs := by
  intro cfg m r v hw
  rw [h cfg m] at hw
  cases hw

/-- An action that stays within the entries leaves the others. -/
theorem runAct_entry {u : State} {a : Actuator} {t : Task} {x : Act} {regs : List Nat} {b : Nat} (rest : List Act)
    (hwf : imgWf u.img = true) (hx : x.Within regs) (hb : b ∉ regs) : imgGet (u.runAct a t x rest).img b = imgGet u.img b :=
  (After.runAct u a t x rest).imgGet_of_adds (runAct_adds u a t x rest) hwf fun r v hw hm => hb (hx _ _ r v hw b hm)

/-- A program of actions that put nothing in their place and stay within the entries. -/
def DirectWithin (regs : List Nat) (acts : List Act) : Prop := ∀ x ∈ acts, x.single = true ∧ x.Within regs

theorem unfoldsTo_single {x : Act} (h : x.single = true) (u : State) : unfoldsTo u x = [] := by
  cases x with
  | oneStep k d y | seqTest k | seqCount k => cases h
  | _ => rfl

/-- AN OPERATION with such a program leaves the image's other entries, in every state. -/
theorem exec_entry {i : Instr} {a : Actuator} {s t : State} {regs : List Nat} {b : Nat} (ht : opTarget i = some a)
    (hq : queueable i = true) (hp : ∀ p, plan s.cfg i = .ok p → DirectWithin regs p.todo) (hb : b ∉ regs)
    (hwf : imgWf s.img = true) (h : exec i s = .next t) : imgGet t.img b = imgGet s.img b := by
  obtain rfl := submit_of_exec ht hq h
  have hissued : (s.issued a i).img = s.img ∧ (s.issued a i).cfg = s.cfg := by cases a <;> exact ⟨rfl, rfl⟩
  obtain ⟨himg, hcfg⟩ := hissued
  rcases submit_cases s a i with he | he | ⟨-, hw, he⟩
  · rw [he, State.log_img, himg]
  · rw [he, State.enqueue_img, himg]
  · have hrun := settle_program (i := i) hw (J := fun u => imgWf u.img = true ∧ imgGet u.img b = imgGet s.img b)
      (Q := fun x => x.single = true ∧ x.Within regs) (fun c _ => by rw [State.log_img, himg]; exact ⟨hwf, rfl⟩)
      (fun p hpl => ⟨by rw [begin_img, himg]; exact ⟨hwf, rfl⟩, hp p (hcfg ▸ hpl)⟩)
      (fun u x hx y hy => by rw [unfoldsTo_single hx.1] at hy; cases hy)
      (fun u t x rest hJ _ _ hx => ⟨(After.runAct u a t x rest).wf hJ.1, (runAct_entry rest hJ.1 hx.2 hb).trans hJ.2⟩)
      (fun u t hJ _ _ => by rw [finish_img]; exact hJ) (opFuel i)
    rw [he]
    rcases hrun with hr | hr
    · rw [hr, State.enqueue_img, himg]
    · exact hr.2

/-- WHAT AN OPERATION LEAVES UNCHANGED, from what its program reaches. -/
theorem frame_of_direct {i : Instr} {a : Actuator} (ht : opTarget i = some a) (hq : queueable i = true)
    (hp : ∀ cfg p, plan cfg i = .ok p → DirectWithin (storedRegs cfg i) p.todo) : Frame i := by
  intro s t hwf h
  obtain ⟨hcfg, hbus, evs, hhist, -⟩ := After.exec h
  have hE := Elsewhere.exec ht hq h
  rw [ht]
  exact ⟨hcfg, hbus, exec_inbox h, hE.sched, hE.turn, fun hn => hE.ctrl (by simpa using hn),
    fun m hn => hE.motor m (by simpa using hn), fun k hn => hE.stepper k (by simpa using hn),
    fun b hb => exec_entry ht hq (hp s.cfg) hb hwf h, ⟨evs, hhist.symm⟩⟩

/-! ### The PwmController operations -/

namespace DirectWithin

variable {regs : List Nat}

theorem nil : DirectWithin regs [] := fun _ hx => by cases hx

theorem cons {x : Act} {acts : List Act} (hs : x.single = true) (hx : x.Within regs) (h : DirectWithin regs acts) :
    DirectWithin regs (x :: acts) := List.forall_mem_cons.mpr ⟨⟨hs, hx⟩, h⟩

/-- An action that writes nothing. -/
theorem silent {x : Act} {acts : List Act} (hs : x.single = true) (hx : ∀ cfg m, x.written cfg m = none)
    (h : DirectWithin regs acts) : DirectWithin regs (x :: acts) := cons hs (within_silent hx) h

/-- A write to MODE1. -/
theorem mode1 {w : Mode1Write} {acts : List Act} (h0 : 0 ∈ regs) (h : DirectWithin regs acts) :
    DirectWithin regs (.writeMode1 w :: acts) := cons rfl (within_writeMode1 h0) h

theorem append {u v : List Act} (hu : DirectWithin regs u) (hv : DirectWithin regs v) : DirectWithin regs (u ++ v) :=
  fun x hx => (List.mem_append.mp hx).elim (hu x) (hv x)

theorem writes {ws : List (Byte × Byte)} (h : ∀ w ∈ ws, ∀ b ∈ imgTargets w.1, b ∈ regs) :
    DirectWithin regs (writeActs ws) := fun x hx => by
  obtain ⟨w, hw, rfl⟩ := List.mem_map.mp hx
  exact ⟨rfl, within_write.mpr (h w hw)⟩

/-- A program under the lock. -/
theorem held {body : List Act} (h : DirectWithin regs body) :
    DirectWithin regs (.checkBus :: .acquire :: (body ++ [.release])) :=
  .silent rfl (fun _ _ => rfl) (.silent rfl (fun _ _ => rfl) (h.append (.silent rfl (fun _ _ => rfl) .nil)))

end DirectWithin

/-- The entries that byte `j` of a tick pair reaches: its own, and for the all-channel registers byte `j` of every channel
(spec 10 R25). -/
theorem mem_targets_byte {base : Nat} (hb : TickBase base) {j b : Nat} (hj : j ≤ 3)
    (h : b ∈ imgTargets (BitVec.ofNat 8 (base + j))) : b = base + j ∨ (base = 0xFA ∧ ∃ c : Chan, b = 6 + 4 * c.val + j) := by
  rw [mem_imgTargets, hb.toNat hj] at h
  rcases h with h | ⟨k, c, hk, hr, h⟩
  · exact .inl h
  · rcases hb with ⟨e, rfl⟩ | rfl
    · have := e.isLt; omega
    · exact .inr ⟨rfl, c, by omega⟩

/-- The bytes of a tick pair reach the registers of the channels that it covers. -/
theorem pairBytes_targets {base : Nat} (hb : TickBase base) (on off : Nat) {regs : List Nat}
    (hown : ∀ j ≤ 3, base + j ∈ regs) (hall : base = 0xFA → ∀ c : Chan, ∀ j ≤ 3, 6 + 4 * c.val + j ∈ regs) :
    ∀ w ∈ pairBytes base on off, ∀ b ∈ imgTargets w.1, b ∈ regs := by
  have byte : ∀ j ≤ 3, ∀ b ∈ imgTargets (BitVec.ofNat 8 (base + j)), b ∈ regs := fun j hj b h => by
    rcases mem_targets_byte hb hj h with rfl | ⟨h0, c, rfl⟩
    · exact hown j hj
    · exact hall h0 c j hj
  simp only [pairBytes, List.forall_mem_cons, List.not_mem_nil, false_implies, implies_true, and_true]
  exact ⟨byte 0 (by omega), byte 1 (by omega), byte 2 (by omega), byte 3 (by omega)⟩

theorem mem_channelRegs (c : Chan) {j : Nat} (hj : j ≤ 3) : 6 + 4 * c.val + j ∈ channelRegs c := by
  simp only [channelRegs, List.mem_cons, List.not_mem_nil, or_false]
  omega

theorem chanBytes_targets (c : Chan) (on off : Nat) : ∀ w ∈ chanBytes c on off, ∀ b ∈ imgTargets w.1, b ∈ channelRegs c :=
  pairBytes_targets (.inl ⟨c, rfl⟩) on off (fun _ => mem_channelRegs c) fun h => by have := c.isLt; omega

theorem pinBytes_targets (c : Chan) (high : Bool) : ∀ w ∈ pinBytes c high, ∀ b ∈ imgTargets w.1, b ∈ channelRegs c := by
  cases high
  · exact chanBytes_targets c 0 4096
  · exact chanBytes_targets c 4096 0

theorem aliasBytes_targets (on off : Nat) : ∀ w ∈ pairBytes 0xFA on off, ∀ b ∈ imgTargets w.1, b ∈ aliasRegs := by
  refine pairBytes_targets (.inr rfl) on off (fun j hj => List.mem_append_left _ ?_) fun _ c j hj =>
    List.mem_append_right _ (List.mem_flatMap.mpr ⟨c, List.mem_finRange c, mem_channelRegs c hj⟩)
  simp only [List.mem_cons, List.not_mem_nil, or_false]
  omega

theorem frame_init : Frame .init := by
  refine frame_of_direct rfl rfl fun cfg p hp => ?_
  rw [plan_init] at hp
  cases hp
  have hmode1 : (0 : Nat) ∈ storedRegs cfg .init := .head _
  refine .held (.append (.writes ?_) ?_)
  · obtain ⟨h1, h2, -⟩ := imgTargets_control
    refine List.forall_mem_append.mpr ⟨fun w hw b hb => List.mem_append_right _ (aliasBytes_targets _ _ w hw b hb), ?_⟩
    simp [h1, h2, storedRegs]
  · exact .silent rfl (fun _ _ => rfl) (.silent rfl (fun _ _ => rfl) (.mode1 hmode1 (.silent rfl (fun _ _ => rfl) .nil)))

theorem frame_setch (ch on off : Int) : Frame (.setch ch on off) := by
  refine frame_of_direct rfl rfl fun cfg p hp => ?_
  obtain ⟨c, hc, rfl⟩ : ∃ c, chan? ch = some c ∧ _ := plan_is hp
  rw [setchActs_eq, storedRegs, hc]
  exact .held (.writes (chanBytes_targets c _ _))

theorem frame_setall (on off : Int) : Frame (.setall on off) := by
  refine frame_of_direct rfl rfl fun cfg p hp => ?_
  cases hp
  exact .held (.writes (aliasBytes_targets _ _))

theorem frame_setfreq (f : F64) : Frame (.setfreq f) := by
  refine frame_of_direct rfl rfl fun cfg p hp => ?_
  obtain ⟨q, -, hq⟩ := bind_ok (plan_is hp).1
  rw [← Except.ok.inj hq]
  have hmode1 : (0 : Nat) ∈ storedRegs cfg (.setfreq f) := .head _
  have hprescale : ∀ b ∈ imgTargets regPrescale, b ∈ storedRegs cfg (.setfreq f) := by
    simp [imgTargets_control.2.2, storedRegs]
  exact .held (body := setfreqBody cfg q) (.silent rfl (fun _ _ => rfl) (.mode1 hmode1
    (.cons rfl (within_write.mpr hprescale) (.mode1 hmode1 (.silent rfl (fun _ _ => rfl) (.mode1 hmode1 .nil))))))

theorem frame_setpin (pin val : Int) : Frame (.setpin pin val) := by
  refine frame_of_direct rfl rfl fun cfg p hp => ?_
  obtain ⟨c, v, hc, rfl⟩ : ∃ c v, chan? pin = some c ∧ _ := plan_is hp
  rw [setpinActs_eq, storedRegs, hc]
  exact .held (.writes (pinBytes_targets c v))

/-- Settles O57: a PwmController operation moves its own agent alone, and its program's writes reach no
register but those it stores to. -/
theorem framePwm : Obligations.FramePwm := by
  unfold Obligations.FramePwm
  exact ⟨frame_init, frame_setch, frame_setall, frame_setfreq, frame_setpin⟩

end Sys2Proof.Machine
end

section
/-! PROOFS. The DC operations on a block at rest (spec 41 R164, R165, R170, R176): what each records and leaves when no
transaction fails. -/

namespace Sys2Proof.Machine

/-! ### The programs of the DC operations -/

/-- The tick pairs of a DC command on a bridge, in order (spec 41 R164): none for Brake. -/
def dcBlocks (t : Triple) : Command → List (List (Byte × Byte))
  | .forward => [pinBytes t.in2 false, pinBytes t.in1 true]
  | .backward => [pinBytes t.in1 false, pinBytes t.in2 true]
  | .release => [pinBytes t.in1 false, pinBytes t.in2 false]
  | .brake => []

/-- The tick pair of a speed on a bridge (spec 41 R170). -/
def speedBytes (t : Triple) (speed : Int) : List (Byte × Byte) := chanBytes t.pwm 0 (clampedSpeed speed * 16)

theorem dcRunActs_eq (t : Triple) (c : Command) : dcRunActs t c = (dcBlocks t c).flatMap lockedActs := by
  cases c <;> simp [dcRunActs, dcBlocks, setpinActs_eq]

theorem dcSpeedActs_eq_speedBytes (t : Triple) (v : Int) : dcSpeedActs t v = lockedActs (speedBytes t v) := by
  rw [speedBytes, clampedSpeed_eq]
  exact dcSpeedActs_eq t v

theorem dcBlocks_flatten (t : Triple) (c : Command) : (dcBlocks t c).flatten = dcBytes t c := by
  cases c <;> simp [dcBlocks, dcBytes]

/-- A DC command writes at most two tick pairs. -/
theorem dcBlocks_length (t : Triple) (c : Command) : (dcBlocks t c).length ≤ 2 ∧ (dcBytes t c).length ≤ 8 := by
  cases c <;> exact ⟨by simp [dcBlocks], by simp [dcBytes, pinBytes, chanBytes, pairBytes]⟩

theorem plan_dcrun (cfg : Config) (m : Fin 4) (c : Command) :
    plan cfg (.dcrun m.val (commandCode c)) = .ok (.ofActs ((dcBlocks cfg.wiringDc[m] c).flatMap lockedActs)) := by
  rw [← dcRunActs_eq]
  simp only [plan, planDcrun, dcIndex?_val, needCommand_code]
  rfl

theorem plan_dcspeed (cfg : Config) (m : Fin 4) (speed : Int) :
    plan cfg (.dcspeed m.val speed) = .ok (.ofActs (lockedActs (speedBytes cfg.wiringDc[m] speed))) := by
  rw [← dcSpeedActs_eq_speedBytes]
  simp only [plan, planDcspeed, dcIndex?_val]
  rfl

theorem plan_rundc (cfg : Config) (m : Fin 4) (c : Command) (speed : Int) {rt : Option F64} (h : F64.runtimeOk rt = true) :
    plan cfg (.rundc m.val (commandCode c) speed rt) = .ok (.ofActs
      ((dcBlocks cfg.wiringDc[m] c ++ [speedBytes cfg.wiringDc[m] speed]).flatMap lockedActs ++ armActs m rt)) := by
  have ht : needRuntime rt = .ok rt := by
    rcases needRuntime_cases rt with ⟨-, ht⟩ | ⟨hbad, -⟩
    · exact ht
    · rw [h] at hbad; cases hbad
  rw [List.flatMap_append, List.flatMap_singleton, ← dcRunActs_eq, ← dcSpeedActs_eq_speedBytes, List.append_assoc]
  simp only [plan, planRundc, dcIndex?_val, needCommand_code, ht]
  rfl

/-- A DC operation on a legal motor is that motor's (spec 60 R274). -/
theorem opTarget_dcrun (m : Fin 4) (cmd : Int) : opTarget (.dcrun m.val cmd) = some (.dc m) := by simp [opTarget]

theorem opTarget_dcspeed (m : Fin 4) (speed : Int) : opTarget (.dcspeed m.val speed) = some (.dc m) := by simp [opTarget]

theorem opTarget_rundc (m : Fin 4) (cmd speed : Int) (rt : Option F64) :
    opTarget (.rundc m.val cmd speed rt) = some (.dc m) := by simp [opTarget]

/-! ### Running them -/

theorem setPending_setTask (s : State) (m : Fin 4) (t u : Option Task) (p : Option F64) :
    ((s.setTask (.dc m) t).setPending m p).setTask (.dc m) u = (s.setPending m p).setTask (.dc m) u := by
  simp [State.setTask, State.setWorker, State.setPending, State.setMotor, State.motor, State.worker]

theorem afterRun_setPending (s : State) (evs : List Event) (n : Nat) (m : Fin 4) (p : Option F64) :
    (s.afterRun evs n).setPending m p = (s.setPending m p).afterRun evs n := rfl

/-- The arming at the end of RUNDC, one move when a runtime is given (spec 41 R176). -/
theorem settle_arm {n : Nat} {m : Fin 4} {s : State} {op : Instr} {g : Agent} {b : Byte} {c : Nat} (h : Alone (.dc m) s)
    (hp : (s.motor m).pending = none) (rt : Option F64) :
    State.settle (n + (armActs m rt).length) (.dc m) (s.setTask (.dc m) (some ⟨op, g, armActs m rt, b, c⟩)) =
      State.settle n (.dc m) ((s.setPending m rt).setTask (.dc m) (some ⟨op, g, [], b, c⟩)) := by
  cases rt with
  | none => rw [setPending_none_self hp]; rfl
  | some t =>
    rw [show n + (armActs m (some t)).length = n + 1 from rfl, settle_task h _ (by simp [armActs, Task.wantsLock])]
    simp only [armActs, State.runAct, State.goOn, setPending_setTask]

/-- The arming and the end of a DC operation on a block otherwise at rest. -/
theorem settle_arm_finish {n : Nat} {m : Fin 4} {s : State} {op : Instr} {g : Agent} {b : Byte} {c : Nat} (h : Launch s)
    (hb : s.bus = .open) (rt : Option F64) :
    State.settle (n + 1 + (armActs m rt).length) (.dc m) (s.setTask (.dc m) (some ⟨op, g, armActs m rt, b, c⟩)) =
      (s.setPending m rt).log (.done g op (.ok none)) := by
  have hidle : (s.setPending m rt).worker (.dc m) = Worker.idle := by rw [State.worker_setPending, h.worker_idle]
  have halone : Alone (.dc m) (s.setPending m rt) := by
    refine (h.alone (.dc m)).of_eq rfl (fun _ _ => State.worker_setPending _ _ _ _) fun j hj => ?_
    have hne : m ≠ j := fun e => hj (by rw [e])
    rw [State.armed, State.armed, State.setPending, State.motor_setMotor_ne _ _ _ _ hne]
  have hlock : ((s.setPending m rt).log (.done g op (.ok none))).lock = .free := h.lock_free
  rw [settle_arm (h.alone _) (h.pending_none m), settle_finish halone hb, endTask_setTask _ _ _ _ _ hidle]
  simp only [State.unlockFor, State.endSeq, State.okValue, hlock, reduceCtorEq, if_false]
  exact settle_idle (by rw [State.worker_log, hidle]; rfl)

/-- A DC OPERATION ON A BLOCK AT REST whose writes are all Ok: its tick pairs, then the arming. -/
theorem exec_dc {s : State} {m : Fin 4} {i : Instr} {bs : List (List (Byte × Byte))} {rt : Option F64} (h : Launch s)
    (hb : s.bus = .open) (ht : opTarget i = some (.dc m)) (hq : queueable i = true) (hf : opFuel i = 64)
    (hp : plan s.cfg i = .ok (.ofActs (bs.flatMap lockedActs ++ armActs m rt)))
    (hlen : bs.flatten.length ≤ 12) (hcount : bs.length ≤ 3) (hok : AnswersOk s bs.flatten.length) :
    exec i s = .next ((s.setPending m rt).ranOk (.dc m) i bs.flatten none) := by
  have harm : (armActs m rt).length ≤ 1 := by cases rt <;> simp [armActs]
  obtain ⟨n, hn⟩ : ∃ n, opFuel i = (n + 1 + (armActs m rt).length + (bs.flatten.length + 3 * bs.length)) + 1 :=
    ⟨64 - 2 - (armActs m rt).length - (bs.flatten.length + 3 * bs.length), by omega⟩
  rw [exec_submit ht hq, submit_ofActs h (.dc m) i hp hn, List.append_nil,
    settle_blocks bs ((h.alone _).afterRun _ _) hb h.lock_free (AnswersOk.afterRun (m := 0) (by rwa [Nat.zero_add]) _),
    settle_arm_finish ((h.afterRun _ _).afterRun _ _) hb, log_eq_afterRun _ _ (fun _ => rfl), afterRun_setPending,
    afterRun_setPending, afterRun_afterRun, afterRun_afterRun, Nat.zero_add, Nat.add_zero]
  rfl

/-- Settles O29: DCRUN's program is the tick pairs of its command. -/
theorem dcrunResult : Obligations.DcrunResult := by
  unfold Obligations.DcrunResult
  intro s m c h hb hok
  obtain ⟨hcount, hlen⟩ := dcBlocks_length s.cfg.wiringDc[m] c
  rw [← dcBlocks_flatten] at hlen hok ⊢
  have hp := plan_dcrun s.cfg m c
  rw [← List.append_nil (List.flatMap _ _)] at hp
  have hrun := exec_dc (rt := none) h hb (opTarget_dcrun m _) rfl rfl hp (by omega) (by omega) hok
  rwa [setPending_none_self (h.pending_none m)] at hrun

/-- Settles O31: DCSPEED's program is the tick pair of its duty. -/
theorem dcspeedResult : Obligations.DcspeedResult := by
  unfold Obligations.DcspeedResult
  intro s m speed h hb hok
  have hp := plan_dcspeed s.cfg m speed
  rw [← List.flatMap_singleton lockedActs, ← List.append_nil (List.flatMap _ _)] at hp
  have hrun := exec_dc (rt := none) h hb (opTarget_dcspeed m _) rfl rfl hp (by simp [speedBytes, chanBytes, pairBytes])
    (by simp) hok
  rwa [setPending_none_self (h.pending_none m)] at hrun

/-- Settles O32: RUNDC's program is that of DCRUN, that of DCSPEED, and the arming. -/
theorem rundcResult : Obligations.RundcResult := by
  unfold Obligations.RundcResult
  intro s m c speed rt h hb hrt hok
  obtain ⟨hcount, hlen⟩ := dcBlocks_length s.cfg.wiringDc[m] c
  have hflat : (dcBlocks s.cfg.wiringDc[m] c ++ [speedBytes s.cfg.wiringDc[m] speed]).flatten =
      dcBytes s.cfg.wiringDc[m] c ++ speedBytes s.cfg.wiringDc[m] speed := by
    rw [List.flatten_append, dcBlocks_flatten, List.flatten_singleton]
  have hfour : (speedBytes s.cfg.wiringDc[m] speed).length = 4 := rfl
  have hrun := exec_dc h hb (opTarget_rundc m _ _ _) rfl rfl (plan_rundc s.cfg m c speed hrt)
    (by rw [hflat, List.length_append]; omega) (by rw [List.length_append, List.length_singleton]; omega)
    (by rwa [hflat, List.length_append])
  rwa [hflat] at hrun

end Sys2Proof.Machine
end

section
/-! PROOFS. The armed release of a DC motor (spec 41 R180, R181): what cancels it and what arms it; Brake, which only cancels
it (spec 41 R165); and when it may fire. -/

namespace Sys2Proof.Machine

/-! ### Cancelling -/

/-- The issue of a command for a DC motor cancels its armed release before anything else (spec 41 R181). -/
theorem submit_disarmed (s : State) (m : Fin 4) (i : Instr) : s.submit (.dc m) i = (s.setPending m none).submit (.dc m) i := by
  have hissued : (s.log (.issue (.actuator (.dc m)) i)).disarmFor (.dc m) =
      ((s.setPending m none).log (.issue (.actuator (.dc m)) i)).disarmFor (.dc m) := by
    simp [State.disarmFor, State.setPending, State.setMotor, State.log, State.motor]
  simp only [State.submit, hissued]

/-- An operation of a DC motor is one that is queued. -/
theorem queueable_of_dc {i : Instr} {m : Fin 4} (h : opTarget i = some (.dc m)) : queueable i = true := by
  cases i with
  | stspeed k rpm => simp [opTarget] at h
  | _ => rfl

theorem exec_disarmed {m : Fin 4} {i : Instr} (h : opTarget i = some (.dc m)) (s : State) :
    exec i s = exec i (s.setPending m none) := by
  rw [exec_submit h (queueable_of_dc h), exec_submit h (queueable_of_dc h), submit_disarmed]

/-- Settles O30: Brake is DCRUN with no tick pair, issued with the release cancelled. -/
theorem brakeHolds : Obligations.BrakeHolds := by
  unfold Obligations.BrakeHolds
  intro s m h hb
  have hrun := dcrunResult (s.setPending m none) m .brake h hb (fun _ hj => absurd hj (Nat.not_lt_zero _))
  refine ⟨.actuator (.dc m), ?_⟩
  rw [exec_disarmed (opTarget_dcrun m 3), log_eq_afterRun (s.setPending m none) _ (fun _ => rfl),
    afterRun_log _ _ _ _ (fun _ => rfl)]
  exact hrun

/-! ### Arming -/

section pending

variable (s : State) (a : Actuator) (m : Fin 4)

@[simp] theorem State.pending_setTask (t : Option Task) : ((s.setTask a t).motor m).pending = (s.motor m).pending := by
  simp [State.setTask]

@[simp] theorem State.pending_enqueue (i : Instr) : ((s.enqueue a i).motor m).pending = (s.motor m).pending := by
  simp [State.enqueue, State.setQueue]

@[simp] theorem State.pending_endTask (t : Task) (r : Result) : ((s.endTask a t r).motor m).pending = (s.motor m).pending := by
  rw [State.endTask, State.pending_setTask]
  cases a <;> simp [State.endSeq, State.setSeq]

@[simp] theorem State.pending_tryWrite (t : Task) (r v : Byte) (rest : List Act) :
    ((s.tryWrite a t r v rest).motor m).pending = (s.motor m).pending := by
  unfold State.tryWrite
  split <;> simp [State.goOn, State.raiseBusError]

theorem begin_pending (i : Instr) (p : Plan) : ((s.begin a i p).motor m).pending = (s.motor m).pending := by
  unfold State.begin
  split
  · simp
  · simp [State.setSeq]
  · simp [State.setSeq]
  · dsimp only; split <;> simp [State.raiseBusError, State.setSeq, State.setSpeed]

theorem finish_pending (t : Task) : ((s.finish a t).motor m).pending = (s.motor m).pending := by
  unfold State.finish; split <;> simp [State.raiseBusError]

/-- An action of a DC motor's agent leaves the motor's armed release, but for the arming of it. -/
theorem runAct_pending (t : Task) {x : Act} (rest : List Act) (ho : Act.ownedBy (.dc m) x = true) (hown : ArmsOwn (.dc m) x) :
    ((s.runAct (.dc m) t x rest).motor m).pending = (s.motor m).pending ∨
    ∃ d, x = .arm m d ∧ ((s.runAct (.dc m) t x rest).motor m).pending = some d := by
  cases x with
  | arm j d =>
    cases hown j d rfl
    exact .inr ⟨d, rfl, by simp [State.runAct, State.goOn, State.setPending]⟩
  | checkBus | acquire =>
    left
    simp only [State.runAct]
    split <;> simp [State.goOn, State.raiseBusError]
  | readMode1 =>
    left
    simp only [State.runAct, State.tryReadMode1]
    split <;> simp [State.goOn, State.raiseBusError]
  | release | wait q => left; simp [State.runAct, State.goOn]
  | write r v | writeMode1 w => left; simp [State.runAct]
  | oneStep k d y | seqTest k | seqWait k | seqCount k => simp [Act.ownedBy] at ho

end pending

theorem arm_notMem_lockedActs (j : Fin 4) (d : F64) (bs : List (Byte × Byte)) : Act.arm j d ∉ lockedActs bs := by
  simp [lockedActs, writeActs]

theorem arm_notMem_dcRunActs (j : Fin 4) (d : F64) (t : Triple) (c : Command) : Act.arm j d ∉ dcRunActs t c := by
  rw [dcRunActs_eq, List.mem_flatMap]
  exact fun ⟨b, _, hb⟩ => arm_notMem_lockedActs j d b hb

theorem arm_notMem_dcSpeedActs (j : Fin 4) (d : F64) (t : Triple) (v : Int) : Act.arm j d ∉ dcSpeedActs t v := by
  rw [dcSpeedActs_eq_speedBytes]
  exact arm_notMem_lockedActs j d _

theorem mem_armActs {m j : Fin 4} {d : F64} {rt : Option F64} (h : .arm j d ∈ armActs m rt) : rt = some d := by
  cases rt with
  | none => cases h
  | some t => cases List.mem_singleton.mp h; rfl

/-- A runtime that passes its check is the operand. -/
theorem needRuntime_ok {rt t : Option F64} (h : needRuntime rt = .ok t) : t = rt := by
  rcases needRuntime_cases rt with ⟨-, ht⟩ | ⟨-, ht⟩
  · exact Except.ok.inj (h.symm.trans ht)
  · rw [ht] at h; cases h

theorem dcIndex?_eq_some {v : Int} {m : Fin 4} : dcIndex? v = some m ↔ v = m.val := indexOf?_eq_some

/-- Only a RUNDC with a runtime has an arming in its program, of that runtime (spec 41 R176). -/
theorem plan_arm {cfg : Config} {i : Instr} {p : Plan} {m j : Fin 4} {d : F64} (h : plan cfg i = .ok p)
    (ht : opTarget i = some (.dc m)) (hx : .arm j d ∈ p.todo) : ∃ cmd speed, i = .rundc m.val cmd speed (some d) := by
  cases i with
  | dcrun k cmd =>
    obtain ⟨k, c, -, -, rfl⟩ := plan_is h
    exact absurd hx (arm_notMem_dcRunActs _ _ _ _)
  | dcspeed k speed =>
    obtain ⟨k, -, rfl⟩ := plan_is h
    exact absurd hx (arm_notMem_dcSpeedActs _ _ _ _)
  | rundc k cmd speed rt =>
    obtain ⟨acts, hacts, rfl⟩ := map_ofActs_ok h
    obtain ⟨n, -, hacts⟩ := bind_ok hacts
    obtain ⟨c, -, hacts⟩ := bind_ok hacts
    obtain ⟨t, hrt, hacts⟩ := bind_ok hacts
    cases hacts
    obtain rfl := needRuntime_ok hrt
    have hk : dcIndex? k = some m := by simpa [opTarget] using ht
    have hx := (List.mem_append.mp hx).resolve_left (arm_notMem_dcRunActs _ _ _ _)
    have hx := (List.mem_append.mp hx).resolve_left (arm_notMem_dcSpeedActs _ _ _ _)
    exact ⟨cmd, speed, by rw [dcIndex?_eq_some.mp hk, mem_armActs hx]⟩
  | _ => simp [opTarget] at ht

/-- Motor `m` has no armed release, or operation `i` is a RUNDC of it whose runtime is armed. -/
def ArmedBy (i : Instr) (m : Fin 4) (u : State) : Prop :=
  (u.motor m).pending = none ∨ ∃ cmd speed x, i = .rundc m.val cmd speed (some x) ∧ (u.motor m).pending = some x

/-- An action of a program of motor `m` that arms, if it does, the runtime of RUNDC `i`. -/
def ArmsBy (i : Instr) (m : Fin 4) (x : Act) : Prop :=
  Act.ownedBy (.dc m) x = true ∧ ArmsOwn (.dc m) x ∧
    ∀ j d, x = .arm j d → ∃ cmd speed, i = .rundc m.val cmd speed (some d)

theorem plan_armsBy {cfg : Config} {i : Instr} {p : Plan} {m : Fin 4} (h : plan cfg i = .ok p)
    (ht : opTarget i = some (.dc m)) : ∀ x ∈ p.todo, ArmsBy i m x := fun x hx =>
  ⟨((plan_good h ht (queueable_of_dc ht)).1.2 x hx).2.1, plan_armsOwn (plan_shape h) ht x hx,
    fun _ _ e => plan_arm h ht (e ▸ hx)⟩

theorem unfoldsTo_armsBy {i : Instr} {m : Fin 4} {x : Act} (h : ArmsBy i m x) (u : State) : unfoldsTo u x = [] := by
  have ho := h.1
  cases x with
  | oneStep k d y | seqTest k => simp [Act.ownedBy] at ho
  | _ => rfl

theorem ArmedBy.runAct {i : Instr} {m : Fin 4} {u : State} {x : Act} (h : ArmedBy i m u) (hx : ArmsBy i m x) (t : Task)
    (rest : List Act) : ArmedBy i m (u.runAct (.dc m) t x rest) := by
  obtain ⟨howned, harms, hi⟩ := hx
  rcases runAct_pending u m t rest howned harms with hp | ⟨d, hd, hp⟩
  · unfold ArmedBy; rw [hp]; exact h
  · obtain ⟨cmd, speed, rfl⟩ := hi m d hd
    exact .inr ⟨cmd, speed, d, rfl, hp⟩

/-- A release armed after the issue of a command for its motor is the one that the command arms. -/
theorem submit_armedBy (s : State) {m : Fin 4} {i : Instr} (ht : opTarget i = some (.dc m)) :
    ArmedBy i m (s.submit (.dc m) i) := by
  have hnone : ((s.issued (.dc m) i).motor m).pending = none := by simp [State.issued, State.disarmFor, State.setPending]
  rcases submit_cases s (.dc m) i with he | he | ⟨-, hw, he⟩
  · left; rw [he, State.motor_log, hnone]
  · left; rw [he, State.pending_enqueue, hnone]
  · have hrun := settle_program (J := ArmedBy i m) (Q := ArmsBy i m) hw (fun c _ => .inl hnone)
      (fun p hp => ⟨.inl (by rw [begin_pending, hnone]), plan_armsBy hp ht⟩)
      (fun u x hx y hy => by rw [unfoldsTo_armsBy hx] at hy; cases hy)
      (fun u t x rest hJ _ _ hx => hJ.runAct hx t rest)
      (fun u t hJ _ _ => by unfold ArmedBy; rw [finish_pending]; exact hJ) (opFuel i)
    rw [he]
    rcases hrun with hr | hr
    · left; rw [hr, State.pending_enqueue, hnone]
    · exact hr

/-- A command for another agent leaves the motor, with its armed release, as it is. -/
theorem exec_motor {s t : State} {m : Fin 4} {i : Instr} (ht : opTarget i ≠ some (.dc m)) (h : exec i s = .next t) :
    t.motor m = s.motor m := by
  rcases exec_cases h with ⟨a, ha, hq, -⟩ | ⟨j, k, rpm, -, -, rfl⟩ | ⟨c, -, rfl⟩
  · exact (Elsewhere.exec ha hq h).motor m fun e => ht (e ▸ ha)
  · unfold State.speedNow
    dsimp only
    repeat' split
    all_goals rfl
  · rfl

/-- Settles O33: the issue cancels before anything else, only an arming in the command's own program arms, and other
commands leave the motor. -/
theorem releaseCancelledAtIssue : Obligations.ReleaseCancelledAtIssue := by
  unfold Obligations.ReleaseCancelledAtIssue
  refine ⟨fun s m i ht => exec_disarmed ht s, fun s t m i ht h hp => ?_, fun s t m i ht h => by rw [exec_motor ht h]⟩
  obtain rfl := submit_of_exec ht (queueable_of_dc ht) h
  exact (submit_armedBy s ht).resolve_left hp

/-! ### Firing -/

/-- Settles O35: a release that may fire is one of the movers, and a firing is its definition. -/
theorem fireEnabled : Obligations.FireEnabled := by
  unfold Obligations.FireEnabled
  intro s m
  refine ⟨?_, by simp [State.fire, State.setPending], by simp [State.fire], ?_⟩
  · rw [mem_movers, ← armed_iff]
    simp [State.canFire, Worker.isIdle, and_comm]
  · have hw : ((s.fire m).motor m).work = (s.fire m).worker (.dc m) := rfl
    exact ⟨_, by rw [hw, fire_worker, if_pos rfl], rfl, rfl, rfl⟩

end Sys2Proof.Machine
end

section
/-! PROOFS. What the DC operations leave unchanged (spec 41 R164, R170, R176). -/

namespace Sys2Proof.Machine

/-- An operation whose index names no actuator leaves all but the history (spec 41 R161, 42 R201). -/
theorem frame_of_noTarget {i : Instr} (ht : opTarget i = none) : Frame i := by
  intro s t _ h
  rcases exec_cases h with ⟨a, ha, -, -⟩ | ⟨j, k, rpm, rfl, hj, -⟩ | ⟨c, -, rfl⟩
  · rw [ht] at ha; cases ha
  · simp [opTarget, hj] at ht
  · exact ⟨rfl, rfl, rfl, rfl, rfl, fun _ => rfl, fun _ _ => rfl, fun _ _ => rfl, fun _ _ => rfl,
      ⟨_, (List.append_assoc _ _ _).symm⟩⟩

theorem DirectWithin.mono {regs more : List Nat} {acts : List Act} (h : DirectWithin regs acts) (hr : regs ⊆ more) :
    DirectWithin more acts :=
  fun x hx => ⟨(h x hx).1, fun cfg m r v hw b hb => hr ((h x hx).2 cfg m r v hw b hb)⟩

theorem setpinActs_within (c : Chan) (high : Bool) : DirectWithin (channelRegs c) (setpinActs c high) := by
  rw [setpinActs_eq]
  exact .held (.writes (pinBytes_targets c high))

theorem dcSpeedActs_within (t : Triple) (speed : Int) : DirectWithin (channelRegs t.pwm) (dcSpeedActs t speed) := by
  rw [dcSpeedActs_eq]
  exact .held (.writes (chanBytes_targets t.pwm _ _))

/-- A DC command writes its bridge's direction registers; Brake, of code 3, none (spec 41 R164, R165). -/
theorem dcRunActs_within (t : Triple) {cmd : Int} {c : Command} (h : needCommand cmd = .ok c) :
    DirectWithin (directionRegs t cmd) (dcRunActs t c) := by
  have in1 : ∀ high, DirectWithin (channelRegs t.in1 ++ channelRegs t.in2) (setpinActs t.in1 high) := fun high =>
    (setpinActs_within t.in1 high).mono (List.subset_append_left _ _)
  have in2 : ∀ high, DirectWithin (channelRegs t.in1 ++ channelRegs t.in2) (setpinActs t.in2 high) := fun high =>
    (setpinActs_within t.in2 high).mono (List.subset_append_right _ _)
  by_cases hbrake : cmd = 3
  · subst hbrake
    cases h
    exact .nil
  · rw [directionRegs, if_neg hbrake]
    cases c with
    | forward => exact (in2 false).append (in1 true)
    | backward => exact (in1 false).append (in2 true)
    | release => exact (in1 false).append (in2 false)
    | brake => exact .nil

theorem armActs_within (regs : List Nat) (m : Fin 4) (rt : Option F64) : DirectWithin regs (armActs m rt) := by
  cases rt with
  | none => exact .nil
  | some t => exact .silent rfl (fun _ _ => rfl) .nil

theorem frame_dcrun (m cmd : Int) : Frame (.dcrun m cmd) := by
  cases hm : dcIndex? m with
  | none => exact frame_of_noTarget (by simp [opTarget, hm])
  | some k =>
    refine frame_of_direct (a := .dc k) (by simp [opTarget, hm]) rfl fun cfg p hp => ?_
    obtain ⟨j, c, hj, hc, rfl⟩ : ∃ j c, dcIndex? m = some j ∧ needCommand cmd = .ok c ∧ _ := plan_is hp
    rw [storedRegs, hj]
    exact dcRunActs_within _ hc

theorem frame_dcspeed (m speed : Int) : Frame (.dcspeed m speed) := by
  cases hm : dcIndex? m with
  | none => exact frame_of_noTarget (by simp [opTarget, hm])
  | some k =>
    refine frame_of_direct (a := .dc k) (by simp [opTarget, hm]) rfl fun cfg p hp => ?_
    obtain ⟨j, hj, rfl⟩ : ∃ j, dcIndex? m = some j ∧ _ := plan_is hp
    rw [storedRegs, hj]
    exact dcSpeedActs_within _ speed

theorem frame_rundc (m cmd speed : Int) (rt : Option F64) : Frame (.rundc m cmd speed rt) := by
  cases hm : dcIndex? m with
  | none => exact frame_of_noTarget (by simp [opTarget, hm])
  | some k =>
    refine frame_of_direct (a := .dc k) (by simp [opTarget, hm]) rfl fun cfg p hp => ?_
    obtain ⟨j, c, t, hj, hc, rfl⟩ : ∃ j c t, dcIndex? m = some j ∧ needCommand cmd = .ok c ∧ _ := plan_is hp
    rw [storedRegs, hj]
    exact ((dcRunActs_within _ hc).mono (List.subset_append_left _ _)).append
      (((dcSpeedActs_within _ speed).mono (List.subset_append_right _ _)).append (armActs_within _ j t))

/-- Settles O58: a DC operation moves its own motor's agent alone, and its program's writes reach no register but those of
its bridge. -/
theorem frameDc : Obligations.FrameDc := by
  unfold Obligations.FrameDc
  exact ⟨frame_dcrun, frame_dcspeed, frame_rundc⟩

end Sys2Proof.Machine
end

section
/-! PROOFS. The moves of an agent that is the only one that can move, taken one step of the machine at a time (spec 60 R274);
and an armed release that fires on a block otherwise at rest (spec 41 R180). -/

namespace Sys2Proof.Machine

/-! ### A move and the scheduler's choices -/

section takeTurn

variable (s : State) (a : Actuator)

@[simp] theorem takeTurn_log (e : Event) : s.takeTurn.log e = (s.log e).takeTurn := rfl
@[simp] theorem takeTurn_setStepper (k : Fin 2) (x : Stepper) : s.takeTurn.setStepper k x = (s.setStepper k x).takeTurn :=
  rfl
@[simp] theorem takeTurn_setPending (m : Fin 4) (p : Option F64) : s.takeTurn.setPending m p = (s.setPending m p).takeTurn :=
  rfl
@[simp] theorem takeTurn_afterRun (evs : List Event) (n : Nat) : s.takeTurn.afterRun evs n = (s.afterRun evs n).takeTurn := rfl
@[simp] theorem takeTurn_setTask (t : Option Task) : s.takeTurn.setTask a t = (s.setTask a t).takeTurn := by cases a <;> rfl
@[simp] theorem takeTurn_goOn (t : Task) (rest : List Act) : s.takeTurn.goOn a t rest = (s.goOn a t rest).takeTurn := by
  cases a <;> rfl

@[simp] theorem takeTurn_unlockFor : s.takeTurn.unlockFor a = (s.unlockFor a).takeTurn := by
  unfold State.unlockFor
  rw [apply_ite State.takeTurn]; rfl

@[simp] theorem takeTurn_endTask (t : Task) (r : Result) : s.takeTurn.endTask a t r = (s.endTask a t r).takeTurn := by
  unfold State.endTask
  rw [takeTurn_log, takeTurn_unlockFor, ← takeTurn_setTask]
  cases a <;> rfl

@[simp] theorem takeTurn_raiseBusError (t : Task) (x : Option Txn) :
    s.takeTurn.raiseBusError a t x = (s.raiseBusError a t x).takeTurn := by
  unfold State.raiseBusError
  rw [takeTurn_endTask]
  cases a <;> rfl

theorem takeTurn_tryWrite (t : Task) (r v : Byte) (rest : List Act) :
    s.takeTurn.tryWrite a t r v rest = (s.tryWrite a t r v rest).takeTurn := by
  unfold State.tryWrite
  rw [show s.takeTurn.nextAnswer = s.nextAnswer from rfl,
    show s.takeTurn.busWrite a r v = (s.busWrite a r v).takeTurn from rfl]
  cases s.nextAnswer <;> simp

theorem takeTurn_tryReadMode1 (t : Task) (rest : List Act) :
    s.takeTurn.tryReadMode1 a t rest = (s.tryReadMode1 a t rest).takeTurn := by
  unfold State.tryReadMode1
  rw [show s.takeTurn.nextAnswer = s.nextAnswer from rfl,
    show s.takeTurn.busRead a regMode1 = (s.busRead a regMode1).takeTurn from rfl]
  cases s.nextAnswer <;> simp

theorem takeTurn_finish (t : Task) : s.takeTurn.finish a t = (s.finish a t).takeTurn := by
  unfold State.finish
  rw [apply_ite State.takeTurn, ← takeTurn_raiseBusError, ← takeTurn_endTask]
  cases a <;> rfl

theorem takeTurn_begin (i : Instr) (p : Plan) : s.takeTurn.begin a i p = (s.begin a i p).takeTurn := by
  unfold State.begin
  split
  · exact takeTurn_setTask _ _ _
  · rw [← takeTurn_setTask]; rfl
  · rw [← takeTurn_setTask]; rfl
  · rw [apply_ite State.takeTurn, ← takeTurn_raiseBusError, ← takeTurn_setTask]; rfl

theorem takeTurn_startNext : s.takeTurn.startNext a = (s.startNext a).takeTurn := by
  unfold State.startNext
  rw [State.takeTurn_worker]
  cases (s.worker a).queue with
  | nil => rfl
  | cons i rest =>
    dsimp only [State.takeTurn_cfg]
    cases plan s.cfg i with
    | error c => cases a <;> rfl
    | ok p =>
      rw [← takeTurn_begin]
      cases a <;> rfl

theorem takeTurn_seqTest (k : Fin 2) : s.takeTurn.seqTest k = ((s.seqTest k).1.takeTurn, (s.seqTest k).2) := by
  unfold State.seqTest State.seqNext
  rw [State.takeTurn_stepper]
  repeat' split
  all_goals rfl

theorem takeTurn_seqCount (k : Fin 2) : s.takeTurn.seqCount k = (s.seqCount k).takeTurn := by
  unfold State.seqCount
  rw [State.takeTurn_stepper]
  repeat' split
  all_goals rfl

theorem takeTurn_seqWait (k : Fin 2) (t : Task) (rest : List Act) :
    s.takeTurn.seqWait a k t rest = (s.seqWait a k t rest).takeTurn := by
  unfold State.seqWait
  rw [State.takeTurn_stepper, show s.takeTurn.superseded k = s.superseded k from rfl]
  repeat' split
  · simp
  · simp
  · simp [State.setSeq]

theorem takeTurn_runAct (t : Task) (x : Act) (rest : List Act) :
    s.takeTurn.runAct a t x rest = (s.runAct a t x rest).takeTurn := by
  cases x with
  | checkBus =>
    simp only [State.runAct]
    rw [apply_ite State.takeTurn, ← takeTurn_raiseBusError, ← takeTurn_goOn]; rfl
  | acquire =>
    simp only [State.runAct]
    rw [apply_ite State.takeTurn, ← takeTurn_goOn]; rfl
  | write r v => exact takeTurn_tryWrite _ _ _ _ _ _
  | writeMode1 w => exact takeTurn_tryWrite _ _ _ _ _ _
  | readMode1 => exact takeTurn_tryReadMode1 _ _ _ _
  | seqTest k => simp only [State.runAct, takeTurn_seqTest, takeTurn_goOn]
  | seqWait k => exact takeTurn_seqWait _ _ _ _ _
  | seqCount k => simp only [State.runAct, takeTurn_seqCount, takeTurn_goOn]
  | release => simp only [State.runAct, takeTurn_unlockFor, takeTurn_goOn]
  | wait q => simp only [State.runAct, takeTurn_log, takeTurn_goOn]
  | arm m d => simp only [State.runAct, takeTurn_setPending, takeTurn_goOn]
  | oneStep k d y => simp only [State.runAct, ← takeTurn_goOn]; rfl

/-- A move of an agent reads none of the scheduler's choices (spec 60 R269). -/
theorem takeTurn_tick : s.takeTurn.tick a = (s.tick a).takeTurn := by
  unfold State.tick
  rw [State.takeTurn_worker]
  split
  · exact takeTurn_startNext s a
  · split
    · exact takeTurn_finish _ _ _
    · exact takeTurn_runAct _ _ _ _ _

end takeTurn

/-! ### Steps and moves -/

/-- `n` of the scheduler's choices are used up. -/
def State.turned (s : State) (n : Nat) : State := { s with sched := s.sched.drop n, turn := s.turn + n }

theorem takeTurn_turned (s : State) (n : Nat) : s.takeTurn.turned n = s.turned (n + 1) := by
  simp [State.takeTurn, State.turned, Nat.add_assoc, Nat.add_comm 1 n]

theorem settle_takeTurn (a : Actuator) : ∀ (n : Nat) (s : State),
    State.settle n a s.takeTurn = (State.settle n a s).takeTurn
  | 0, _ => rfl
  | n + 1, s => by
    unfold State.settle
    rw [show s.takeTurn.movers = s.movers from rfl, takeTurn_tick, settle_takeTurn a n]
    split <;> rfl

/-- An agent that is the only mover after some of its moves was so before. -/
theorem movers_of_settle {a : Actuator} {n : Nat} {s : State} (h : (State.settle n a s).movers = [.actuator a]) :
    s.movers = [.actuator a] := by
  by_contra hne
  rw [settle_nil hne] at h
  exact hne h

/-- A step of which one agent alone is capable is its move. -/
theorem step_of_movers {s : State} {g : Agent} (h : s.movers = [g]) : step s = move s.takeTurn g := by
  rw [step, machineStep, h]; rfl

theorem run_succ {s t : State} (h : step s = .next t) (n : Nat) : Host.Core.run core (n + 1) s = Host.Core.run core n t := by
  have hs : core.step s = .next t := h
  simp only [Host.Core.run, hs]

theorem settle_succ {a : Actuator} {s : State} (h : s.movers = [.actuator a]) (n : Nat) :
    State.settle (n + 1) a s = State.settle n a (s.tick a) := if_pos h

/-- THE STEPS OF AN AGENT THAT IS THE ONLY MOVER are its moves, each with one of the scheduler's choices used up. -/
theorem run_settle {a : Actuator} (n : Nat) : ∀ s : State, (State.settle n a s).movers = [.actuator a] →
    Host.Core.run core (n + 1) s = .next ((State.settle (n + 1) a s).turned (n + 1)) := by
  induction n with
  | zero =>
    intro s h
    have hm : s.movers = [.actuator a] := h
    have hstep := run_succ (step_of_movers hm) 0
    rw [settle_succ hm, ← takeTurn_turned, ← settle_takeTurn, ← takeTurn_tick]
    exact hstep
  | succ n ih =>
    intro s h
    have hm := movers_of_settle h
    rw [settle_succ hm] at h
    have hrest := ih (s.takeTurn.tick a) (by rw [takeTurn_tick, settle_takeTurn]; exact h)
    rw [takeTurn_tick, settle_takeTurn, takeTurn_turned, ← settle_succ hm, ← takeTurn_tick] at hrest
    exact (run_succ (step_of_movers hm) (n + 1)).trans hrest

/-! ### A firing -/

theorem filter_finRange_eq (m : Fin 4) : (List.finRange 4).filter (fun j => decide (j = m)) = [m] := by
  revert m; decide

/-- With the block otherwise at rest, an armed release is the only agent that has a step (spec 41 R180). -/
theorem movers_armed {s : State} {m : Fin 4} (h : Launch (s.setPending m none)) (ha : s.armed m = true) :
    s.movers = [.release m] := by
  have hidle : ∀ b, (s.worker b).isIdle = true := fun b => by
    rw [← State.worker_setPending s m none b, h.worker_idle b]; rfl
  have hticks : Actuator.all.filter s.canTick = [] := by
    rw [List.filter_eq_nil_iff]; intro b _; simp [canTick_of_idle (hidle b)]
  have hfires : (List.finRange 4).filter s.canFire = [m] := by
    have hfire : ∀ j ∈ List.finRange 4, s.canFire j = decide (j = m) := fun j _ => by
      by_cases hj : j = m
      · subst hj
        have hwork : (s.motor j).work.isIdle = true := hidle (.dc j)
        simp [State.canFire, ha, hwork]
      · have hnone := h.pending_none j
        rw [State.setPending, State.motor_setMotor_ne _ _ _ _ (Ne.symm hj)] at hnone
        simp [State.canFire, State.armed, hnone, hj]
    rw [List.filter_congr hfire]
    exact filter_finRange_eq m
  have hhost : s.hostCan = false := by rw [State.hostCan, show s.inbox = [] from h.2]; rfl
  simp [State.movers, hhost, hticks, hfires]

/-- The task of a firing: on a block otherwise at rest its fourteen actions follow one another (spec 41 R180). -/
theorem settle_firing {s : State} (m : Fin 4) (h : Launch s) (hb : s.bus = .open) (hok : AnswersOk s 8) (n : Nat) :
    State.settle (n + 14) (.dc m)
        (s.setTask (.dc m) (some (Task.fresh (releaseOp m) (.release m) (releaseActs s.cfg m)))) =
      State.settle n (.dc m) ((s.afterRun (okWrites (.dc m) (dcBytes s.cfg.wiringDc[m] .release)) 8).setTask (.dc m)
        (some ⟨releaseOp m, .release m, [], 0, 0⟩)) := by
  have hrun := settle_blocks (n := n) (op := releaseOp m) (g := .release m) (rest := []) (m := 0) (c := 0)
    (dcBlocks s.cfg.wiringDc[m] .release) (h.alone (.dc m)) hb h.lock_free hok
  rwa [← dcRunActs_eq, dcBlocks_flatten, List.append_nil] at hrun

/-- The end of a firing's task is its fifteenth move, which is the task's own. -/
theorem firing_ends {s : State} (m : Fin 4) (h : Launch s) (hb : s.bus = .open) (hok : AnswersOk s 8) {u : State}
    (hu : u = s.setTask (.dc m) (some (Task.fresh (releaseOp m) (.release m) (releaseActs s.cfg m)))) :
    (State.settle 14 (.dc m) u).movers = [.actuator (.dc m)] ∧
    State.settle 15 (.dc m) u = s.afterRun (okWrites (.dc m) (dcBytes s.cfg.wiringDc[m] .release) ++
      [.done (.release m) (releaseOp m) (.ok none)]) 8 := by
  have hlast := h.afterRun (okWrites (.dc m) (dcBytes s.cfg.wiringDc[m] .release)) 8
  subst hu
  constructor
  · rw [settle_firing m h hb hok 0]
    exact movers_alone ((hlast.alone _).setTask _) (by simp [State.settle, State.canTick, Task.wantsLock])
  · rw [settle_firing m h hb hok 1, settle_finish (hlast.alone _) hb, endTask_launch hlast, settle_launch (hlast.afterRun _ _),
      afterRun_afterRun]
    rfl

/-- Settles O34: the first step is the firing, and the fifteen others are the moves of its task, which runs alone. -/
theorem fireResult : Obligations.FireResult := by
  unfold Obligations.FireResult
  intro s m h ha hb hok
  have hfired : Launch ((s.takeTurn.setPending m none).log (.fire m)) := h
  obtain ⟨hmover, hend⟩ := firing_ends m hfired hb (hok.of_eq rfl rfl) (u := s.takeTurn.fire m) rfl
  rw [takeTurn_setPending, takeTurn_log, takeTurn_afterRun, log_eq_afterRun _ _ (fun _ => rfl), afterRun_afterRun] at hend
  have hrun := run_settle 14 (s.takeTurn.fire m) hmover
  rw [hend, takeTurn_turned] at hrun
  exact (run_succ (step_of_movers (movers_armed h ha)) 15).trans hrun

end Sys2Proof.Machine
end

section
/-! PROOFS. Positions, the curve and the coil patterns (spec 42 R200, R211 to R217): the delta of a oneStep, full cycles, the
correction of Microstep (spec 42 R233), the symmetry of the duty curve (spec 42 R250, R251). -/

namespace Sys2Proof.Machine

/-! ### One oneStep -/

/-- The next position is the position plus the delta, around the circle (spec 42 R214). -/
theorem nextPos_val (mode : CorrectionMode) (p : Nat) (y : StepStyle) (d : Direction) :
    ((nextPos mode p y d).val : Int) = ((p : Int) + delta mode p y d) % 32 := by
  simp only [nextPos, wrapPos]
  omega

theorem delta_interleave (mode : CorrectionMode) (p : Nat) (d : Direction) : delta mode p .interleave d = d.sign * 4 := rfl

theorem delta_microstep (mode : CorrectionMode) (p : Nat) (d : Direction) : delta mode p .microstep d = d.sign * 1 := rfl

/-- The size of a Single step: a half step sets an odd half-step index right, with the full step or instead of it. -/
theorem stepSize_single (p : Nat) : stepSize .addBoth p .single = (if p / 4 % 2 = 1 then 4 else 0) + 8 ∧
    stepSize .correctionOnly p .single = if p / 4 % 2 = 1 then 4 else 8 := by
  simp [stepSize, corrected, halfStep, fullStep]

/-- The size of a Double step: the same with an even half-step index. -/
theorem stepSize_double (p : Nat) : stepSize .addBoth p .double = (if p / 4 % 2 = 0 then 4 else 0) + 8 ∧
    stepSize .correctionOnly p .double = if p / 4 % 2 = 0 then 4 else 8 := by
  simp [stepSize, corrected, halfStep, fullStep]

/-- The half step that a Single step needs to set an odd half-step index right, up to full steps. -/
theorem stepSize_single_mod (mode : CorrectionMode) (p : Nat) :
    stepSize mode p .single % 8 = if p / 4 % 2 = 1 then 4 else 0 := by
  obtain ⟨hboth, honly⟩ := stepSize_single p
  cases mode with
  | addBoth => rw [hboth]; split <;> rfl
  | correctionOnly => rw [honly]; split <;> rfl

/-- The half step that a Double step needs, up to full steps. -/
theorem stepSize_double_mod (mode : CorrectionMode) (p : Nat) :
    stepSize mode p .double % 8 = if p / 4 % 2 = 0 then 4 else 0 := by
  obtain ⟨hboth, honly⟩ := stepSize_double p
  cases mode with
  | addBoth => rw [hboth]; split <;> rfl
  | correctionOnly => rw [honly]; split <;> rfl

/-- After a Single step the half-step index is even (spec 42 R213). -/
theorem nextPos_single_even (mode : CorrectionMode) (p : Nat) (d : Direction) : (nextPos mode p .single d).val / 4 % 2 = 0 := by
  have hval := nextPos_val mode p .single d
  have hsize := stepSize_single_mod mode p
  cases d <;> simp only [delta, Direction.sign] at hval <;> split at hsize <;> omega

/-- After a Double step the half-step index is odd (spec 42 R213). -/
theorem nextPos_double_odd (mode : CorrectionMode) (p : Nat) (d : Direction) : (nextPos mode p .double d).val / 4 % 2 = 1 := by
  have hval := nextPos_val mode p .double d
  have hsize := stepSize_double_mod mode p
  cases d <;> simp only [delta, Direction.sign] at hval <;> split at hsize <;> omega

/-- Settles O41: the sizes of the four styles, and the parity they leave. -/
theorem deltaAndParity : Obligations.DeltaAndParity := by
  unfold Obligations.DeltaAndParity
  intro p d
  obtain ⟨hsingle, hsingle'⟩ := stepSize_single p.val
  obtain ⟨hdouble, hdouble'⟩ := stepSize_double p.val
  refine ⟨?_, ?_, ?_, ?_, fun mode => delta_interleave mode _ d, fun mode => delta_microstep mode _ d,
    fun mode => nextPos_single_even mode _ d, fun mode => nextPos_double_odd mode _ d, fun mode y => nextPos_val mode _ y d⟩
  · rw [delta, hsingle]; push_cast; rfl
  · rw [delta, hsingle']; push_cast; rfl
  · rw [delta, hdouble]; push_cast; rfl
  · rw [delta, hdouble']; push_cast; rfl

/-! ### Full cycles -/

/-- Steps that all have the delta `c` add up, around the circle; `P` says where they do. -/
theorem posAfter_emod {mode : CorrectionMode} {y : StepStyle} {d : Direction} {c : Int} {P : Nat → Prop}
    (hc : ∀ q, P q → delta mode q y d = c ∧ P (nextPos mode q y d).val) (n : Nat) : ∀ p, P p →
    (posAfter mode y d n p : Int) % 32 = (p + n * c) % 32 := by
  induction n with
  | zero => intro p _; simp [posAfter]
  | succ n ih =>
    intro p hp
    obtain ⟨hd, hnext⟩ := hc p hp
    rw [posAfter, ih _ hnext, nextPos_val, hd, Int.emod_add_emod]
    congr 1
    push_cast
    ring

theorem posAfter_lt (mode : CorrectionMode) (y : StepStyle) (d : Direction) (n : Nat) : ∀ p, p < 32 → posAfter mode y d n p < 32 := by
  induction n with
  | zero => exact fun _ hp => hp
  | succ n ih => exact fun _ _ => ih _ (Fin.isLt _)

/-- `n` such steps of a whole number of circles return to the start. -/
theorem posAfter_cycle {mode : CorrectionMode} {y : StepStyle} {d : Direction} {c : Int} {P : Nat → Prop}
    (hc : ∀ q, P q → delta mode q y d = c ∧ P (nextPos mode q y d).val) {n p : Nat} (hn : (n : Int) * c % 32 = 0) (hp : p < 32)
    (hP : P p) : posAfter mode y d n p = p := by
  have hmod := posAfter_emod hc n p hP
  have hlt := posAfter_lt mode y d n p hp
  omega

/-- A Single step from an even half-step index is a full step (spec 42 R213). -/
theorem delta_single_of_even (mode : CorrectionMode) {p : Nat} (h : p / 4 % 2 = 0) (d : Direction) :
    delta mode p .single d = d.sign * 8 := by
  obtain ⟨hboth, honly⟩ := stepSize_single p
  cases mode <;> simp [delta, hboth, honly, h]

/-- Settles O42: the wrap keeps the range, and steps of one size around the circle add up. -/
theorem fullCycles : Obligations.FullCycles := by
  unfold Obligations.FullCycles
  refine ⟨fun mode steps => ?_, fun mode d p hp => ⟨?_, ?_, fun heven => ?_⟩⟩
  · induction steps with
    | nil => exact fun _ hp => hp
    | cons yd steps ih => exact fun _ _ => ih _ (Fin.isLt _)
  · exact posAfter_cycle (P := fun _ => True) (fun q _ => ⟨delta_microstep mode q d, trivial⟩) (by cases d <;> rfl) hp trivial
  · exact posAfter_cycle (P := fun _ => True) (fun q _ => ⟨delta_interleave mode q d, trivial⟩) (by cases d <;> rfl) hp trivial
  · exact posAfter_cycle (P := fun q => q / 4 % 2 = 0) (fun q hq => ⟨delta_single_of_even mode hq d, nextPos_single_even mode q d⟩)
      (by cases d <;> rfl) hp heven

/-! ### The correction of Microstep -/

theorem correctionCount_le (y : StepStyle) (d : Direction) (p : Nat) : correctionCount y d p ≤ 7 := by
  cases y <;> cases d <;> simp only [correctionCount] <;> omega

/-- Settles O40: the correction stops at the first boundary (`correction_stops`), and whole steps of eight lead from boundary
to boundary. -/
theorem microstepEndsOnFullStep : Obligations.MicrostepEndsOnFullStep := by
  unfold Obligations.MicrostepEndsOnFullStep
  intro mode n d p _
  have hcount : invocations mode n .microstep d p =
      8 * n + correctionCount .microstep d (posAfter mode .microstep d (8 * n) p) := by
    rw [Nat.mul_comm]; rfl
  have hadd := posAfter_add mode .microstep d (8 * n)
  obtain ⟨hnone, hstop⟩ := correction_stops mode d (posAfter mode .microstep d (8 * n) p)
  have hle := correctionCount_le .microstep d (posAfter mode .microstep d (8 * n) p)
  dsimp only
  rw [hcount]
  refine ⟨by rw [← hadd]; exact hstop, by omega, by omega, fun j hj hlt => ?_, by cases d <;> rfl, fun hp => ?_⟩
  · rw [← Nat.add_sub_cancel' hj, ← hadd]
    exact hnone _ (by omega)
  · have hstart := posAfter_micro mode d (8 * n) p
    cases d <;> simp only [correctionCount] at hstart ⊢ <;> omega

/-! ### The curve and the coils -/

/-- The curve pair of a position holds the entries of its offset and of the complement, in the order of the quadrant's parity
(spec 42 R216). -/
theorem curvePair_entries (p : Fin 32) : ∃ u v, curve[p.val % 8]? = some u ∧ curve[8 - p.val % 8]? = some v ∧
    curvePair p = if p.val / 8 % 2 = 0 then (v, u) else (u, v) :=
  ⟨_, _, Vector.getElem?_eq_getElem (by omega), Vector.getElem?_eq_getElem (by omega), rfl⟩

/-- In quadrant 0 the pair is that of the position itself (spec 42 R251). -/
theorem curvePair_quadrant0 {p : Fin 32} (h : p.val ≤ 8) :
    ∃ u v, curve[8 - p.val]? = some u ∧ curve[p.val]? = some v ∧ curvePair p = (u, v) := by
  by_cases hp : p.val < 8
  · obtain ⟨u, v, hu, hv, he⟩ := curvePair_entries p
    rw [Nat.mod_eq_of_lt hp] at hu hv
    rw [if_pos (by omega)] at he
    exact ⟨v, u, hv, hu, he⟩
  · obtain rfl : p = 8 := Fin.ext (by omega)
    exact ⟨0, 255, rfl, rfl, rfl⟩

/-- Settles O43: the entries of the curve pair, its values at the boundaries and the half steps, and what a oneStep puts out,
style by style. -/
theorem curveSymmetry : Obligations.CurveSymmetry := by
  unfold Obligations.CurveSymmetry
  refine ⟨fun p => ?_, by decide, by decide, fun p => curvePair_quadrant0, rfl, rfl, curvePair_entries, ?_, fun p => ⟨rfl, rfl⟩,
    fun zero p y d hy => ?_, fun cfg p => ⟨?_, fun y hy => ?_⟩, fun w => ⟨rfl, rfl, rfl, rfl⟩⟩
  · obtain ⟨u, v, hu, hv, he⟩ := curvePair_entries p
    refine ⟨u, v, hu, hv, ?_⟩
    rw [he]
    split
    · exact .inr rfl
    · exact .inl rfl
  · intro zero p
    cases zero <;> rfl
  · cases y with
    | microstep => exact absurd rfl hy
    | single | double | interleave => rfl
  · exact Vector.getElem?_eq_getElem (by omega)
  · cases y with
    | microstep => exact absurd rfl hy
    | single | double | interleave => exact Vector.getElem?_eq_getElem (by omega)

end Sys2Proof.Machine
end

section
/-! PROOFS. STSPEED (spec 42 R220), and stepper commands that meet a sequence in flight: Reject, and the cancelling at a wait
under Supersede (spec 42 R240 to R242). -/

namespace Sys2Proof.Machine

/-! ### STSPEED -/

theorem exec_stspeed (k : Fin 2) (rpm : Int) (s : State) :
    exec (.stspeed k.val rpm) s = .next (s.speedNow k (.stspeed k.val rpm) (checkStspeed k.val rpm)) := by
  simp only [exec, execStspeed, stepperIndex?_val]

/-- STSPEED's check on a legal stepper is that of the rpm (spec 42 R220). -/
theorem checkStspeed_val (k : Fin 2) (rpm : Int) : checkStspeed k.val rpm = (needRpm rpm).map fun r => (k, r) := by
  unfold checkStspeed
  rw [stepperIndex?_val]
  cases needRpm rpm <;> rfl

/-- The delay that STSPEED sets, as the spec writes it (spec 42 R220). -/
theorem secondsPerStep_eq (cfg : Config) (k : Fin 2) (rpm : Nat) :
    secondsPerStep cfg k rpm = 60 / ((cfg.stepsPerRev[k] : Rat) * (rpm : Rat)) := by
  rw [secondsPerStep, Nat.cast_mul]

/-- Settles O36: the three answers of STSPEED's check. -/
theorem stspeedResult : Obligations.StspeedResult := by
  unfold Obligations.StspeedResult
  refine ⟨fun s k rpm hrpm hb => ?_, fun s k rpm hrpm => ?_, fun s k rpm hk => ⟨.host, ?_⟩⟩
  · have hcheck : needRpm rpm = .ok rpm := if_neg (by omega)
    have hopen : ¬(s.log (.issue (.actuator (.stepper k)) (.stspeed k.val rpm))).bus = .failed := by
      rw [State.log_bus, hb]; simp
    rw [exec_stspeed, checkStspeed_val, hcheck, ← secondsPerStep_eq]
    simp only [Except.map, State.speedNow, if_neg hopen]
    rfl
  · have hcheck : needRpm rpm = .error .rpm := if_pos hrpm
    rw [exec_stspeed, checkStspeed_val, hcheck]
    rfl
  · have hnone : stepperIndex? k = none := indexOf?_eq_none.mpr (by omega)
    simp only [exec, execStspeed, hnone]
    rfl

/-! ### Reject -/

/-- Settles O52: the issue ends Busy before the command is queued or checked. -/
theorem inflightReject : Obligations.InflightReject := by
  unfold Obligations.InflightReject
  intro s i k ht hq hbusy hreject
  have hin : (s.log (.issue (.actuator (.stepper k)) i)).inFlightFor (.stepper k) = true := by
    simp only [State.inFlightFor, Bool.or_eq_true, Bool.not_eq_true', List.isEmpty_eq_false_iff]
    exact hbusy.imp_left (inFlight_iff s k).mpr
  rw [exec_submit ht hq]
  exact congrArg _ (if_pos ⟨hin, hreject⟩)

/-! ### Cancelling -/

/-- A move at a wait with a command queued under Supersede cancels the sequence (spec 42 R242). -/
theorem tick_superseded {s : State} {k : Fin 2} {t : Task} {rest : List Act} (ht : (s.worker (.stepper k)).task = some t)
    (hto : t.todo = .seqWait k :: rest) (hs : s.superseded k = true) :
    s.tick (.stepper k) = (s.log (.cancel k)).endTask (.stepper k) t (.cancelled t.op) := by
  simp only [State.tick, ht, hto, State.runAct, State.seqWait, if_pos hs]

/-- An idle agent starts the operation at the head of its queue when its checks pass. -/
theorem tick_start {s : State} {a : Actuator} {i : Instr} {q : List Instr} {p : Plan} (hw : s.worker a = ⟨i :: q, none⟩)
    (hp : plan s.cfg i = .ok p) : s.tick a = (s.setQueue a q).begin a i p := by
  simp only [State.tick, State.startNext, hw, hp]

/-- The end of an operation leaves its agent's queue. -/
theorem State.worker_endTask_same (s : State) (a : Actuator) (t : Task) (r : Result) :
    (s.endTask a t r).worker a = { s.worker a with task := none } := by
  simp [State.endTask]

theorem Stepper.style_of_body {x y : Stepper} (h : x.body = y.body) : x.style = y.style :=
  show x.body.style = y.body.style by rw [h]

/-- Settles O53: the move is the end of the operation with Cancelled, which touches neither the stepper's body nor its queue. -/
theorem cancelAtWait : Obligations.CancelAtWait := by
  unfold Obligations.CancelAtWait
  intro s k t rest i q p ht hto hqu hpol hp
  have hqu' : (s.stepper k).work.queue = i :: q := hqu
  have hsup : s.superseded k = true := by simp [State.superseded, hpol, hqu']
  have hwork : ((s.log (.cancel k)).endTask (.stepper k) t (.cancelled t.op)).worker (.stepper k) = ⟨i :: q, none⟩ := by
    simp only [State.worker_endTask_same, State.worker_log, hqu]
  have hbody : (((s.log (.cancel k)).endTask (.stepper k) t (.cancelled t.op)).stepper k).body = (s.stepper k).body := by
    rw [State.body_endTask]; rfl
  dsimp only
  rw [tick_superseded ht hto hsup]
  exact ⟨by simp, State.seq_endTask _ _ _ _, hwork, Stepper.pos_of_body hbody, Stepper.sps_of_body hbody,
    Stepper.style_of_body hbody, by simp, by simp, tick_start hwork (by simpa using hp)⟩

/-! ### What a move records -/

/-- From `s` to `u` operation `op` of agent `a`, whose result is recorded for `g`, has recorded events of kind `P`; it is still in
progress, or has ended and recorded its result after them. -/
def Records (P : Event → Prop) (a : Actuator) (op : Instr) (g : Agent) (s u : State) : Prop :=
  ∃ evs, (∀ e ∈ evs, P e) ∧
    ((∃ t, (u.worker a).task = some t ∧ t.op = op ∧ t.by_ = g ∧ u.hist = s.hist ++ evs) ∨
      ((u.worker a).task = none ∧ ∃ r, u.hist = s.hist ++ (evs ++ [.done g op r])))

namespace Records

variable {P Q : Event → Prop} {a : Actuator} {op : Instr} {g : Agent} {s u v : State} {t : Task}

/-- The operation goes on. -/
theorem running (evs : List Event) (hP : ∀ e ∈ evs, P e) (hh : u.hist = s.hist ++ evs) (hop : t.op = op) (hby : t.by_ = g) :
    Records P a op g s (u.setTask a (some t)) :=
  ⟨evs, hP, .inl ⟨t, by simp, hop, hby, by simpa using hh⟩⟩

/-- The operation ends. -/
theorem ended (evs : List Event) (hP : ∀ e ∈ evs, P e) (hh : u.hist = s.hist ++ evs) (hop : t.op = op) (hby : t.by_ = g) (r : Result) :
    Records P a op g s (u.endTask a t r) :=
  ⟨evs, hP, .inr ⟨State.task_endTask _ _ _ _, r, by rw [State.endTask_hist, hh, hop, hby, List.append_assoc]⟩⟩

theorem mono (h : Records P a op g s u) (hPQ : ∀ e, P e → Q e) : Records Q a op g s u := by
  obtain ⟨evs, hP, h⟩ := h
  exact ⟨evs, fun e he => hPQ e (hP e he), h⟩

/-- What the operation records in one move follows what it has recorded. -/
theorem trans (h : Records P a op g s u) (ht : (u.worker a).task = some t) (hv : Records P a t.op t.by_ u v) :
    Records P a op g s v := by
  obtain ⟨evs, hP, ⟨t', ht', rfl, rfl, hh⟩ | ⟨hn, -⟩⟩ := h
  · rw [ht] at ht'
    cases ht'
    obtain ⟨more, hmore, hv⟩ := hv
    refine ⟨evs ++ more, fun e he => (List.mem_append.mp he).elim (hP e) (hmore e), ?_⟩
    rcases hv with ⟨t', ht', hop, hby, hh'⟩ | ⟨hn, r, hh'⟩
    · exact .inl ⟨t', ht', hop, hby, by rw [hh', hh, List.append_assoc]⟩
    · exact .inr ⟨hn, r, by rw [hh', hh, List.append_assoc, List.append_assoc]⟩
  · rw [ht] at hn
    cases hn

end Records

/-- What an action may record: transactions and waits; and a cancelling, at the end of a wait (spec 42 R242). -/
def Event.OfAct (s : State) (x : Act) : Event → Prop
  | .write _ _ _ _ => True
  | .read _ _ _ => True
  | .wait _ _ => True
  | .cancel k => x = .seqWait k ∧ s.superseded k = true
  | .issue _ _ => False
  | .done _ _ _ => False
  | .fire _ => False

/-- The events of a program's tests and counts: none. -/
theorem State.hist_seqTest (s : State) (k : Fin 2) : (s.seqTest k).1.hist = s.hist := by
  unfold State.seqTest State.seqNext
  repeat' split
  all_goals rfl

theorem State.hist_seqCount (s : State) (k : Fin 2) : (s.seqCount k).hist = s.hist := by
  unfold State.seqCount
  repeat' split
  all_goals rfl

/-- WHAT ONE ACTION RECORDS: events of its kind, and its operation's result if it ends. -/
theorem runAct_records (s : State) (a : Actuator) {t : Task} (x : Act) (rest : List Act) (ht : (s.worker a).task = some t) :
    Records (Event.OfAct s x) a t.op t.by_ s (s.runAct a t x rest) := by
  -- an action that records nothing and goes on
  have silent : ∀ (u : State) (t' : Task), u.hist = s.hist → t'.op = t.op → t'.by_ = t.by_ →
      Records (Event.OfAct s x) a t.op t.by_ s (u.setTask a (some t')) := fun u t' hh hop hby =>
    .running [] (by simp) (by simpa using hh) hop hby
  have write : ∀ r v, (∀ b r v ok, Event.OfAct s x (.write b r v ok)) →
      Records (Event.OfAct s x) a t.op t.by_ s (s.tryWrite a t r v rest) := fun r v hP => by
    unfold State.tryWrite
    split
    · exact .running _ (by simpa using hP _ _ _ _) (State.busWrite_hist s a r v) rfl rfl
    · exact .ended _ (by simpa using hP _ _ _ _) (State.busWrite_hist s a r v) rfl rfl _
  cases x with
  | write r v => exact write r v fun _ _ _ _ => trivial
  | writeMode1 w => exact write _ _ fun _ _ _ _ => trivial
  | readMode1 =>
    simp only [State.runAct, State.tryReadMode1]
    split
    · exact .running [.read a regMode1 s.nextAnswer] (by simp [Event.OfAct]) rfl rfl rfl
    · exact .ended [.read a regMode1 s.nextAnswer] (by simp [Event.OfAct]) rfl rfl rfl _
  | checkBus =>
    simp only [State.runAct]
    split
    · exact .ended [] (by simp) (by simp) rfl rfl _
    · exact silent s _ rfl rfl rfl
  | acquire =>
    simp only [State.runAct]
    split
    · exact silent _ _ rfl rfl rfl
    · exact ⟨[], by simp, .inl ⟨t, ht, rfl, rfl, by simp⟩⟩
  | release => exact silent _ _ (State.unlockFor_hist s a) rfl rfl
  | wait q => exact .running [.wait a q] (by simp [Event.OfAct]) rfl rfl rfl
  | arm m d => exact silent _ _ rfl rfl rfl
  | oneStep k d y => exact silent _ _ rfl rfl rfl
  | seqTest k => exact silent _ _ (State.hist_seqTest s k) rfl rfl
  | seqCount k => exact silent _ _ (State.hist_seqCount s k) rfl rfl
  | seqWait k =>
    simp only [State.runAct, State.seqWait]
    split
    · next hs => exact .ended [.cancel k] (by simpa [Event.OfAct] using hs) rfl rfl rfl _
    · split
      · exact silent s _ rfl rfl rfl
      · next r _ => exact .running [.wait a r.spsEff] (by simp [Event.OfAct]) rfl rfl rfl

/-- The end of a program records its result. -/
theorem finish_records (P : Event → Prop) (s : State) (a : Actuator) (t : Task) : Records P a t.op t.by_ s (s.finish a t) := by
  unfold State.finish
  split
  · exact .ended [] (by simp) (by simp) rfl rfl _
  · exact .ended [] (by simp) (by simp) rfl rfl _

/-- The start of an operation records nothing, or its result when it ends with it. -/
theorem begin_records (P : Event → Prop) (s : State) (a : Actuator) (i : Instr) (p : Plan) :
    Records P a i (.actuator a) s (s.begin a i p) := by
  have silent : ∀ u : State, u.hist = s.hist →
      Records P a i (.actuator a) s (u.setTask a (some (Task.fresh i (.actuator a) p.todo))) := fun u hh =>
    .running [] (by simp) (by simpa using hh) rfl rfl
  unfold State.begin
  split
  · exact silent _ rfl
  · exact silent _ rfl
  · exact silent _ rfl
  · dsimp only
    split
    · exact .ended [] (by simp) (by simp) rfl rfl _
    · exact silent _ rfl

/-- A cancelling among some events of kind `P` and a result is one of them. -/
theorem Records.cancel_mem {P : Event → Prop} {a : Actuator} {op : Instr} {g : Agent} {s u : State} {k : Fin 2} {evs : List Event}
    (h : Records P a op g s u) (hh : u.hist = s.hist ++ evs) (hk : .cancel k ∈ evs) : P (.cancel k) := by
  obtain ⟨evs', hP, ⟨t, -, -, -, hh'⟩ | ⟨-, r, hh'⟩⟩ := h
  · rw [List.append_cancel_left (hh.symm.trans hh')] at hk
    exact hP _ hk
  · rw [List.append_cancel_left (hh.symm.trans hh')] at hk
    exact hP _ (by simpa using hk)

/-- ONLY THE END OF A WAIT CANCELS, under Supersede and with a command queued. -/
theorem tick_cancel {s : State} {a : Actuator} {k : Fin 2} {evs : List Event} (hh : (s.tick a).hist = s.hist ++ evs)
    (hk : .cancel k ∈ evs) : ∃ t rest, (s.worker a).task = some t ∧ t.todo = .seqWait k :: rest ∧ s.superseded k = true := by
  cases ht : (s.worker a).task with
  | none =>
    exfalso
    simp only [State.tick, ht, State.startNext] at hh
    split at hh
    · rw [List.self_eq_append_right.mp hh] at hk
      cases hk
    · next i rest _ =>
      split at hh
      · rw [State.log_hist, State.setQueue_hist] at hh
        rw [← List.append_cancel_left hh] at hk
        simp at hk
      · exact (begin_records (fun _ => False) _ a i _).cancel_mem (by rw [hh, State.setQueue_hist]) hk
  | some t =>
    simp only [State.tick, ht] at hh
    split at hh
    · exact ((finish_records (fun _ => False) s a t).cancel_mem hh hk).elim
    · next x rest hto =>
      obtain ⟨rfl, hs⟩ := (runAct_records s a x rest ht).cancel_mem hh hk
      exact ⟨t, rest, rfl, hto, hs⟩

/-- Settles O54: only the end of a wait cancels, it stands in its stepper's program, and then the sequence is at a wait. -/
theorem cancelOnlyAtWait : Obligations.CancelOnlyAtWait := by
  unfold Obligations.CancelOnlyAtWait
  rintro s a k evs ⟨htok, ⟨hown, -⟩, -, -⟩ hh hk
  obtain ⟨t, rest, ht, hto, hs⟩ := tick_cancel hh hk
  obtain rfl : a = .stepper k := of_decide_eq_true (hown a t ht (.seqWait k) (by simp [hto]))
  simp only [State.superseded, Bool.and_eq_true, decide_eq_true_eq, Bool.not_eq_true', List.isEmpty_eq_false_iff] at hs
  refine ⟨rfl, hs.1, hs.2, ?_⟩
  have htoken := htok k
  unfold TokenOf at htoken
  rw [show (s.stepper k).work.task = some t from ht] at htoken
  cases hr : (s.stepper k).seq with
  | idle => rw [hr] at htoken; exact htoken.elim
  | running r =>
    rw [hr] at htoken
    exact ⟨r, rfl, of_decide_eq_true (by rw [htoken.1, hto]; simp [atWaitAct])⟩

end Sys2Proof.Machine
end

section
/-! PROOFS. The stepper operations on a block at rest (spec 42 R214, R230 to R233, R238): what each records and leaves when no
transaction fails. -/

namespace Sys2Proof.Machine

/-! ### The plans of the stepper operations -/

section plans

variable (cfg : Config) (k : Fin 2) (n : Nat) (d : Direction) (y : StepStyle)

theorem plan_onestep : plan cfg (.onestep k.val (directionCode d) (styleCode y)) = .ok ⟨.one k d y, [.oneStep k d y]⟩ := by
  simp only [plan, planOnestep, stepperIndex?_val, needDirection_code, needStyle_code]
  rfl

theorem plan_step : plan cfg (.step k.val n (directionCode d) (styleCode y)) = .ok ⟨.seq k n d y, [.seqTest k]⟩ := by
  simp only [plan, planStep, stepperIndex?_val, needDirection_code, needStyle_code]
  rfl

theorem plan_runst {speed : Int} (h : 1 ≤ speed) : plan cfg (.runst k.val n (directionCode d) speed (styleCode y)) =
    .ok ⟨.speedSeq k n d y (clampedSpeed speed), [.seqTest k]⟩ := by
  have hs : needStepperSpeed speed = .ok (clampedSpeed speed) := by
    rcases needStepperSpeed_cases speed with ⟨-, hs⟩ | ⟨hbad, -⟩
    · exact hs
    · exact absurd h hbad
  simp only [plan, planRunst, stepperIndex?_val, needDirection_code, needStyle_code, hs]
  rfl

end plans

/-! ### The steppers of a block at rest -/

/-- What a block at rest is, field by field. -/
theorem launch_of {s : State} (hw : ∀ a, s.worker a = Worker.idle) (hs : ∀ k, (s.stepper k).seq = .idle)
    (hp : ∀ m, (s.motor m).pending = none) (hl : s.lock = .free) (hi : s.inbox = []) : Launch s := by
  refine ⟨?_, hi⟩
  simp [State.isFinal, hw, Worker.idle, Worker.isIdle, State.inFlight, hs, State.armed, hp, State.locked, hl]

/-- A block stays at rest when a stepper's position, delay, style or accumulator changes. -/
theorem Launch.setStepper {s : State} (h : Launch s) (k : Fin 2) {x : Stepper} (hseq : x.seq = (s.stepper k).seq)
    (hw : x.work = (s.stepper k).work) : Launch (s.setStepper k x) := by
  refine launch_of (fun a => ?_) (fun j => ?_) h.pending_none h.lock_free h.2
  · rw [State.worker_setStepper_of hw, h.worker_idle]
  · rw [State.stepper_setStepper]
    split
    · rw [hseq, h.seq_idle]
    · exact h.seq_idle j

theorem Launch.stepped {s : State} (h : Launch s) (k : Fin 2) (y : StepStyle) (d : Direction) (n : Nat) :
    Launch (s.stepped k y d n) := h.setStepper k rfl rfl

theorem Launch.setSpeed {s : State} (h : Launch s) (k : Fin 2) (rpm : Nat) : Launch (s.setSpeed k rpm) := h.setStepper k rfl rfl

theorem setSeq_pos (s : State) (k : Fin 2) (q : Seq) : ((s.setSeq k q).stepper k).pos = (s.stepper k).pos := by
  simp [State.setSeq]

/-- STSPEED sets the stepper's delay (spec 42 R220). -/
theorem setSpeed_sps (s : State) (k : Fin 2) (rpm : Nat) : ((s.setSpeed k rpm).stepper k).sps = secondsPerStep s.cfg k rpm := by
  simp [State.setSpeed]

theorem afterRun_setSpeed (s : State) (k : Fin 2) (rpm : Nat) (evs : List Event) (n : Nat) :
    (s.setSpeed k rpm).afterRun evs n = (s.afterRun evs n).setSpeed k rpm := rfl

theorem unlockFor_setSeq (s : State) (a : Actuator) (k : Fin 2) (q : Seq) :
    (s.setSeq k q).unlockFor a = (s.unlockFor a).setSeq k q := by
  by_cases h : s.lock = .held a
  · simp only [State.unlockFor, State.setSeq_lock, h, if_true]
    rfl
  · simp only [State.unlockFor, State.setSeq_lock, h, if_false]

/-- The end of a stepper's operation ends its sequence, whatever the sequence is. -/
theorem endTask_setSeq (s : State) (k : Fin 2) (q : Seq) (t : Option Task) (u : Task) (r : Result) :
    ((s.setSeq k q).setTask (.stepper k) t).endTask (.stepper k) u r = (s.setTask (.stepper k) t).endTask (.stepper k) u r := by
  have hlog : ∀ e, (s.setSeq k q).log e = (s.log e).setSeq k q := fun _ => rfl
  have hend : ∀ b : State, (b.setSeq k q).endSeq (.stepper k) = b.endSeq (.stepper k) := fun b => by
    simp [State.endSeq, State.setSeq]
  simp only [State.endTask, log_setTask, unlockFor_setTask, endSeq_setTask, hlog, unlockFor_setSeq, hend]

/-- A oneStep before its outputs (spec 42 R214). -/
theorem moveStepper_setSeq (s : State) (k : Fin 2) (q : Seq) (d : Direction) (y : StepStyle) :
    (s.setSeq k q).moveStepper k d y = (s.stepped k y d 1).setSeq k q := by
  simp [State.moveStepper, State.setSeq, State.stepped, posAfter]

theorem afterRun_setSeq (s : State) (k : Fin 2) (q : Seq) (evs : List Event) (n : Nat) :
    (s.setSeq k q).afterRun evs n = (s.afterRun evs n).setSeq k q := rfl

theorem afterRun_stepped (s : State) (k : Fin 2) (y : StepStyle) (d : Direction) (n : Nat) (evs : List Event) (c : Nat) :
    (s.stepped k y d n).afterRun evs c = (s.afterRun evs c).stepped k y d n := rfl

/-- The Ok value reads the position alone. -/
theorem okValue_congr {s t : State} {k : Fin 2} (h : (t.stepper k).pos = (s.stepper k).pos) (i : Instr) :
    t.okValue (.stepper k) i = s.okValue (.stepper k) i := by
  cases i with
  | onestep => exact congrArg some h
  | _ => rfl

section runs

variable {n : Nat} {k : Fin 2} {s : State} {op : Instr} {g : Agent} {rest : List Act} {m : Byte} {c : Nat}

/-- The end of a stepper's operation on a block otherwise at rest, the bus Open. -/
theorem settle_seqFinish (h : Launch s) (hb : s.bus = .open) (q : Seq) :
    State.settle (n + 1) (.stepper k) ((s.setSeq k q).setTask (.stepper k) (some ⟨op, g, [], m, c⟩)) =
      s.afterRun [.done g op (.ok (s.okValue (.stepper k) op))] 0 := by
  have hpos : (((s.setSeq k q).setTask (.stepper k) (some ⟨op, g, [], m, c⟩)).stepper k).pos = (s.stepper k).pos :=
    Stepper.pos_of_body (by simp)
  rw [settle_finish ((h.alone _).setSeq q) hb, endTask_setSeq, endTask_launch h, okValue_congr hpos,
    settle_launch (h.afterRun _ _)]

/-- The outputs of a oneStep, every transaction Ok. -/
theorem settle_outputs (h : Launch s) (hb : s.bus = .open) {cfg : Config} (hcfg : s.cfg = cfg) (q : Seq) (p : Fin 32)
    (y : StepStyle) (d : Direction) (hok : AnswersOk s 24) :
    State.settle (n + 42) (.stepper k) ((s.setSeq k q).setTask (.stepper k)
        (some ⟨op, g, outputActs cfg k p y d ++ rest, m, c⟩)) =
      State.settle n (.stepper k) (((s.afterRun (okWrites (.stepper k) (onestepBytes cfg k p y d)) 24).setSeq k q).setTask
        (.stepper k) (some ⟨op, g, rest, m, c⟩)) := by
  subst hcfg
  have hlen : (outputBlocks s.cfg k p y d).flatten.length = 24 := by rw [outputBlocks_flatten, onestepBytes_length]
  have hrun := settle_blocks (n := n) (a := .stepper k) (op := op) (g := g) (rest := rest) (m := m) (c := c)
    (outputBlocks s.cfg k p y d) ((h.alone _).setSeq q) hb h.lock_free (by rw [hlen]; exact hok.of_eq rfl rfl)
  rwa [hlen, outputBlocks_acts, outputBlocks_flatten, afterRun_setSeq] at hrun

end runs

/-! ### ONESTEP -/

section onestep

variable {s : State} (k : Fin 2) (d : Direction) (y : StepStyle)

/-- ONESTEP on a block at rest, up to its outputs. -/
theorem exec_onestep (h : Launch s) : exec (.onestep k.val (directionCode d) (styleCode y)) s =
    .next (State.settle 62 (.stepper k) (((s.stepped k y d 1).afterRun
        [.issue (.actuator (.stepper k)) (.onestep k.val (directionCode d) (styleCode y))] 0).setSeq k
        (.running (seqOne (s.stepper k).sps d y)) |>.setTask (.stepper k)
      (some ⟨.onestep k.val (directionCode d) (styleCode y), .actuator (.stepper k),
        outputActs s.cfg k (nextPos s.cfg.correctionMode (s.stepper k).pos y d) y d ++ [], 0, 0⟩))) := by
  have hl : Launch (s.log (.issue (.actuator (.stepper k)) (.onestep k.val (directionCode d) (styleCode y)))) := h
  rw [exec_submit (a := .stepper k) (by simp [opTarget]) rfl, submit_launch h, opFuel,
    settle_start (hl.alone _) (hl.worker_idle _), State.log_cfg, plan_onestep]
  simp only [State.begin, Task.fresh]
  rw [settle_oneStep ((hl.alone _).setSeq _), moveStepper_setSeq, log_eq_afterRun _ _ (fun _ => rfl)]
  simp only [setSeq_pos, afterRun_stepped, State.setSeq_cfg, afterRun_cfg, afterRun_stepper]

end onestep

/-- Settles O37: the move to the new position, the 24 writes, the end. -/
theorem onestepResult : Obligations.OnestepResult := by
  unfold Obligations.OnestepResult
  intro s k d y h hb hok
  have hmoved : Launch (s.stepped k y d 1) := h.stepped k y d 1
  dsimp only
  rw [exec_onestep k d y h, settle_outputs (n := 20) (cfg := s.cfg) (hmoved.afterRun _ _) hb rfl _ _ _ _ (hok.of_eq rfl rfl),
    settle_seqFinish ((hmoved.afterRun _ _).afterRun _ _) hb, afterRun_afterRun, afterRun_afterRun]
  simp only [State.ranOk, onestepBytes_length, State.okValue, State.stepped, afterRun_stepper, State.stepper_setStepper_same]
  rfl

/-! ### STEP and RUNST -/

theorem invocations_le (mode : CorrectionMode) (n : Nat) (y : StepStyle) (d : Direction) (p : Nat) :
    invocations mode n y d p ≤ 8 * n + 7 := by
  have hcorr := fun q => correctionCount_le y d q
  unfold invocations
  refine Nat.add_le_add ?_ (hcorr _)
  cases y <;> dsimp only <;> omega

section sequences

variable {s : State} (k : Fin 2) (n : Nat) (d : Direction) (y : StepStyle)

/-- STEP on a block at rest, up to its first test. -/
theorem exec_step (h : Launch s) : exec (.step k.val n (directionCode d) (styleCode y)) s =
    .next (State.settle (64 * (8 * n + 9) - 1) (.stepper k)
      ((((s.afterRun [.issue (.actuator (.stepper k)) (.step k.val n (directionCode d) (styleCode y))] 0).setSeq k
        (.running (seqStart (s.stepper k).sps n d y))).setTask (.stepper k)
          (some ⟨.step k.val n (directionCode d) (styleCode y), .actuator (.stepper k), [.seqTest k], 0, 0⟩)))) := by
  have hl : Launch (s.log (.issue (.actuator (.stepper k)) (.step k.val n (directionCode d) (styleCode y)))) := h
  rw [exec_submit (a := .stepper k) (by simp [opTarget]) rfl, submit_launch h, opFuel,
    show 64 * (8 * n + 9) = 64 * (8 * n + 9) - 1 + 1 by omega,
    settle_start (hl.alone _) (hl.worker_idle _), State.log_cfg, plan_step, log_eq_afterRun _ _ (fun _ => rfl)]
  rfl

/-- RUNST on a block at rest, its inner STSPEED done, up to its first test (spec 42 R238). -/
theorem exec_runst {speed : Int} (h : Launch s) (hb : s.bus = .open) (hspeed : 1 ≤ speed) :
    exec (.runst k.val n (directionCode d) speed (styleCode y)) s =
    .next (State.settle (64 * (8 * n + 9) - 1) (.stepper k)
      (((((s.setSpeed k (clampedSpeed speed)).afterRun
          [.issue (.actuator (.stepper k)) (.runst k.val n (directionCode d) speed (styleCode y))] 0).setSeq k
        (.running (seqStart (secondsPerStep s.cfg k (clampedSpeed speed)) n d y))).setTask (.stepper k)
          (some ⟨.runst k.val n (directionCode d) speed (styleCode y), .actuator (.stepper k), [.seqTest k], 0, 0⟩)))) := by
  have hl : Launch (s.log (.issue (.actuator (.stepper k)) (.runst k.val n (directionCode d) speed (styleCode y)))) := h
  have hopen : ¬(s.log (.issue (.actuator (.stepper k)) (.runst k.val n (directionCode d) speed (styleCode y)))).bus = .failed := by
    rw [State.log_bus, hb]; simp
  rw [exec_submit (a := .stepper k) (by simp [opTarget]) rfl, submit_launch h, opFuel,
    show 64 * (8 * n + 9) = 64 * (8 * n + 9) - 1 + 1 by omega,
    settle_start (hl.alone _) (hl.worker_idle _), State.log_cfg, plan_runst _ _ _ _ _ hspeed]
  simp only [State.begin, if_neg hopen]
  rw [log_eq_afterRun _ _ (fun _ => rfl)]
  rw [setSpeed_sps, afterRun_setSpeed, Nat.add_sub_cancel, Task.fresh, afterRun_cfg]

end sequences

/-- A sequence that was started on a block at rest, every transaction Ok: its invocations, and its end. -/
theorem settle_started {s : State} {k : Fin 2} {i : Instr} (h : Launch s) (hb : s.bus = .open) (n : Nat) (d : Direction)
    (y : StepStyle) (sps : Rat) (hv : ∀ t : State, t.okValue (.stepper k) i = none) {count : Nat}
    (hcount : invocations s.cfg.correctionMode n y d (s.stepper k).pos = count) (hok : AnswersOk s (24 * count)) :
    State.settle (64 * (8 * n + 9) - 1) (.stepper k) (((s.afterRun [.issue (.actuator (.stepper k)) i] 0).setSeq k
        (.running (seqStart sps n d y))).setTask (.stepper k) (some ⟨i, .actuator (.stepper k), [.seqTest k], 0, 0⟩)) =
      (s.afterRun (.issue (.actuator (.stepper k)) i :: (seqEvents s.cfg k (sequenceDelay sps y) y d true count (s.stepper k).pos ++
        [.done (.actuator (.stepper k)) i (.ok none)])) (24 * count)).stepped k y d count := by
  subst hcount
  have hle := invocations_le s.cfg.correctionMode n y d (s.stepper k).pos
  rw [settle_sequence (h.afterRun _ _) hb n d y sps hv (hok.of_eq rfl rfl)
    (by simp only [afterRun_cfg, afterRun_stepper]; omega), afterRun_afterRun, Nat.zero_add]
  rfl

/-- Settles O38: a sequence from its first test to its end. -/
theorem stepResult : Obligations.StepResult := by
  unfold Obligations.StepResult
  intro s k n d y h hb
  dsimp only
  intro hok
  rw [exec_step k n d y h, settle_started h hb n d y _ (fun _ => rfl) rfl hok]

/-- Settles O39: STSPEED's effect, then the sequence. -/
theorem runstResult : Obligations.RunstResult := by
  unfold Obligations.RunstResult
  intro s k n d speed y h hb hspeed
  dsimp only
  rw [← secondsPerStep_eq]
  intro hok
  have hcount : invocations (s.setSpeed k (clampedSpeed speed)).cfg.correctionMode n y d
      ((s.setSpeed k (clampedSpeed speed)).stepper k).pos = invocations s.cfg.correctionMode n y d (s.stepper k).pos := by
    rw [setSpeed_pos]; rfl
  rw [exec_runst k n d y h hb hspeed, settle_started (h.setSpeed k _) hb n d y _ (fun _ => rfl) hcount (hok.of_eq rfl rfl),
    setSpeed_pos]
  rfl

end Sys2Proof.Machine
end

section
/-! PROOFS. A failing transaction of ONESTEP, STEP and RUNST (spec 42 R214, R230, R238, 60 R262, R264): the outputs of a oneStep
that fail, the oneStep of a sequence in which the failing transaction is, and the trace up to it. -/

namespace Sys2Proof.Machine

/-! ### The first failing transaction of a trace -/

theorem txns_okWrites (a : Actuator) (ws : List (Byte × Byte)) :
    txns (okWrites a ws) = ws.map (fun w => (⟨w.1, some w.2⟩ : Txn)) := by
  induction ws with
  | nil => rfl
  | cons w ws ih => exact congrArg (List.cons _) ih

theorem txns_append (u v : List Event) : txns (u ++ v) = txns u ++ txns v := List.filterMap_append

/-- A trace that fails in its second part. -/
theorem failAt_append (u v : List Event) (i : Nat) : failAt (u ++ v) ((txns u).length + i) = u ++ failAt v i := by
  induction u with
  | nil => simp [txns]
  | cons e u ih =>
    cases he : txn? e with
    | none =>
      rw [List.cons_append, failAt_silent he, show txns (e :: u) = txns u from List.filterMap_cons_none he, ih]
      rfl
    | some x =>
      rw [show (txns (e :: u)).length = (txns u).length + 1 by simp [txns, he], Nat.add_right_comm, List.cons_append,
        failAt_txn he, ih]
      rfl

/-- A trace that fails in a group of writes. -/
theorem failAt_okWrites (a : Actuator) (ws : List (Byte × Byte)) (v : List Event) : ∀ {j : Nat}, j < ws.length →
    failAt (okWrites a ws ++ v) j = failedWrites a ws j := by
  induction ws with
  | nil => intro j hj; cases hj
  | cons w ws ih =>
    intro j hj
    cases j with
    | zero => rfl
    | succ j => exact congrArg (List.cons _) (ih (by simpa using hj))

/-- The events of one invocation that is not the only one. -/
theorem seqEvents_succ (cfg : Config) (k : Fin 2) (q : Rat) (y : StepStyle) (d : Direction) (f : Bool) (n p : Nat) :
    seqEvents cfg k q y d f (n + 1) p = (if f then [] else [.wait (.stepper k) q]) ++
      (okWrites (.stepper k) (onestepBytes cfg k (nextPos cfg.correctionMode p y d) y d) ++
        seqEvents cfg k q y d false n (nextPos cfg.correctionMode p y d).val) := rfl

theorem txns_wait (f : Bool) (k : Fin 2) (q : Rat) : txns (if f then [] else [.wait (.stepper k) q]) = [] := by cases f <;> rfl

/-- Every invocation makes 24 transactions. -/
theorem txns_seqEvents_length (cfg : Config) (k : Fin 2) (q : Rat) (y : StepStyle) (d : Direction) (n : Nat) :
    ∀ f p, (txns (seqEvents cfg k q y d f n p)).length = 24 * n := by
  induction n with
  | zero => intro f p; rfl
  | succ n ih =>
    intro f p
    rw [seqEvents_succ, txns_append, txns_append, txns_wait, txns_okWrites]
    simp only [List.nil_append, List.length_append, List.length_map, onestepBytes_length, ih]
    omega

/-! ### Steppers of a block at rest, after some oneSteps -/

@[simp] theorem stepped_pos (s : State) (k : Fin 2) (y : StepStyle) (d : Direction) (n : Nat) :
    ((s.stepped k y d n).stepper k).pos = posAfter s.cfg.correctionMode y d n (s.stepper k).pos := by simp [State.stepped]

theorem stepped_stepped (s : State) (k : Fin 2) (y : StepStyle) (d : Direction) (a b : Nat) :
    (s.stepped k y d a).stepped k y d b = s.stepped k y d (a + b) := by
  have hstyle : ∀ z : Option StepStyle, (if b = 0 then (if a = 0 then z else some y) else some y) =
      if a = 0 ∧ b = 0 then z else some y := fun z => by by_cases ha : a = 0 <;> simp [ha]
  simp [State.stepped, posAfter_add, hstyle]

theorem AnswersOk.stepped {s : State} {n : Nat} (h : AnswersOk s n) (k : Fin 2) (y : StepStyle) (d : Direction) (a : Nat) :
    AnswersOk (s.stepped k y d a) n := h.of_eq rfl rfl

theorem answerAt_stepped (s : State) (k : Fin 2) (y : StepStyle) (d : Direction) (a j : Nat) :
    (s.stepped k y d a).answerAt j = s.answerAt j := rfl

@[simp] theorem setSeq_setSeq (s : State) (k : Fin 2) (q r : Seq) : (s.setSeq k q).setSeq k r = s.setSeq k r := by
  simp [State.setSeq]

/-! ### The outputs of a oneStep that fail -/

section runs

variable {n : Nat} {k : Fin 2} {s : State} {op : Instr} {g : Agent} {rest : List Act} {m : Byte} {c : Nat}

/-- The end of a stepper's operation with a BusError, its sequence in progress and the lock held. -/
theorem raiseBusError_setSeq (h : Launch s) (q : Seq) (t : Option Task) (u : Task) (x : Option Txn) :
    (((s.setSeq k q).setLock (.held (.stepper k))).setTask (.stepper k) t).raiseBusError (.stepper k) u x =
      s.afterRun [.done u.by_ u.op (.busError u.op x (some ⟨u.steps, (s.stepper k).pos⟩))] 0 := by
  have hpos : ((((s.setSeq k q).setLock (.held (.stepper k))).setTask (.stepper k) t).stepper k).pos = (s.stepper k).pos := by
    rw [setTask_stepper_pos]
    exact setSeq_pos s k q
  have hlock : (s.setSeq k q).setLock (.held (.stepper k)) = (s.setLock (.held (.stepper k))).setSeq k q := rfl
  simp only [State.raiseBusError, State.progress, hpos]
  rw [hlock, endTask_setSeq, endTask_locked h]

/-- The outputs of a oneStep of which the transaction numbered `j` is the first that fails (spec 60 R262, R264). -/
theorem settle_outputs_fail (h : Launch s) (hb : s.bus = .open) {cfg : Config} (hcfg : s.cfg = cfg) (q : Seq) (p : Fin 32)
    (y : StepStyle) (d : Direction) {j : Nat} (hj : j < (onestepBytes cfg k p y d).length) (hok : AnswersOk s j)
    (hbad : s.answerAt j = .busError) :
    State.settle (n + 42) (.stepper k) ((s.setSeq k q).setTask (.stepper k)
        (some ⟨op, g, outputActs cfg k p y d ++ rest, m, c⟩)) =
      s.afterRun (failedWrites (.stepper k) (onestepBytes cfg k p y d) j ++
        [.done g op (.busError op (some ⟨(onestepBytes cfg k p y d)[j].1, some (onestepBytes cfg k p y d)[j].2⟩)
          (some ⟨c, (s.stepper k).pos⟩))]) (j + 1) := by
  subst hcfg
  have hflat := outputBlocks_flatten s.cfg k p y d
  obtain ⟨_, todo, _, -, rfl, hrun⟩ := settle_blocks_fail (n := n) (a := .stepper k) (op := op) (g := g) (rest := rest) (m := m)
    (c := c) (outputBlocks s.cfg k p y d) (s := s.setSeq k q) j (by rw [hflat]; exact hj) ((h.alone _).setSeq q) hb h.lock_free
    (hok.of_eq rfl rfl) hbad
  simp only [hflat, onestepBytes_length, outputBlocks_acts, afterRun_setSeq] at hrun
  rw [raiseBusError_setSeq (h.afterRun _ _), settle_launch ((h.afterRun _ _).afterRun _ _), afterRun_afterRun] at hrun
  exact hrun

end runs

/-- A ONESTEP of which a transaction fails: the move to the new position, the writes up to the one that fails, the end. -/
theorem onestep_busError {s : State} (k : Fin 2) (d : Direction) (y : StepStyle) {j : Nat} (h : Launch s) (hb : s.bus = .open)
    (hok : AnswersOk s j) (hbad : s.answerAt j = .busError) :
    let i : Instr := .onestep k.val (directionCode d) (styleCode y)
    let p := nextPos s.cfg.correctionMode (s.stepper k).pos y d
    let ws := onestepBytes s.cfg k p y d
    ∀ hj : j < ws.length,
    exec i s = .next ((s.afterRun (.issue (.actuator (.stepper k)) i :: (failedWrites (.stepper k) ws j ++
      [.done (.actuator (.stepper k)) i (.busError i (some ⟨ws[j].1, some ws[j].2⟩) (some ⟨0, p.val⟩))])) (j + 1)).stepped k y d 1) := by
  intro i p ws hj
  have hmoved : Launch (s.stepped k y d 1) := h.stepped k y d 1
  rw [exec_onestep k d y h, settle_outputs_fail (n := 20) (cfg := s.cfg) (hmoved.afterRun _ _) hb rfl _ _ _ _ hj (hok.of_eq rfl rfl)
    (by rw [answerAt_afterRun, Nat.zero_add]; exact hbad), afterRun_afterRun, afterRun_stepper, stepped_pos, Nat.zero_add]
  rfl

/-! ### The rounds of a sequence before the failing one -/

section sequences

variable {k : Fin 2} {s : State} {op : Instr} {g : Agent} {m : Byte} {c F : Nat} {r : Running}

/-- The test of a loop goes on from position `p`: the main loop has invocations left, the correction is not at its end. -/
def Running.GoesOn (r : Running) (p : Nat) : Prop := (r.phase = .main → 0 < r.main) ∧ (r.phase = .correct → p % 8 ≠ 0)

/-- `N` rounds of a sequence on a block otherwise at rest, every transaction Ok. -/
theorem settle_running_rounds (h : Launch s) (hb : s.bus = .open) (N : Nat) (hpl : r.place = .inStep)
    (hm : r.phase = .main → N ≤ r.main)
    (hc : r.phase = .correct → ∀ i, i < N → posAfter s.cfg.correctionMode r.style r.cmd i (s.stepper k).pos % 8 ≠ 0)
    (hok : AnswersOk s (24 * N)) (hF : 46 * N ≤ F) : ∃ F', F ≤ F' + 46 * N ∧
      State.settle F (.stepper k) ((s.setSeq k (.running r)).setTask (.stepper k) (some ⟨op, g, [.seqTest k], m, c⟩)) =
        State.settle F' (.stepper k) ((((s.afterRun (seqEvents s.cfg k r.spsEff r.style r.cmd r.first N (s.stepper k).pos)
            (24 * N)).stepped k r.style r.cmd N).setSeq k (.running { r with
              first := r.first && decide (N = 0), main := if r.phase = .main then r.main - N else r.main })).setTask (.stepper k)
              (some ⟨op, g, [.seqTest k], m, c + N⟩)) := by
  have hseq : ((s.setSeq k (.running r)).stepper k).seq = .running r := by simp [State.setSeq]
  have hpos := setSeq_pos s k (.running r)
  have hqueue : ((s.setSeq k (.running r)).stepper k).work.queue = [] := by
    have hidle : (s.stepper k).work = Worker.idle := h.worker_idle (.stepper k)
    simp [State.setSeq, hidle, Worker.idle]
  obtain ⟨F', hle, hrun⟩ := settle_rounds (op := op) (g := g) (m := m) (c := c) N ((h.alone _).setSeq _) hb h.lock_free hseq hpl hqueue
    hm (by rw [hpos]; exact hc) (hok.of_eq rfl rfl) hF
  refine ⟨F', hle, ?_⟩
  rw [hrun]
  congr 2
  simp [State.setSeq, State.stepped, loopStepper, afterRun_setStepper]

/-- The record of a sequence after `N` invocations of its main loop. -/
def seqMain (sps : Rat) (n : Nat) (d : Direction) (y : StepStyle) (N : Nat) : Running :=
  { seqStart sps n d y with first := decide (N = 0), main := mainCount n y - N }

/-- The record of a Microstep sequence in its correction loop, after `N` invocations in all. -/
def seqCorrect (sps : Rat) (n : Nat) (d : Direction) (N : Nat) : Running :=
  { seqStart sps n d .microstep with first := decide (N = 0), main := 0, phase := .correct }

section phases

variable (n : Nat) (d : Direction) (y : StepStyle) (sps : Rat) {N M : Nat}

theorem settle_main_rounds (h : Launch s) (hb : s.bus = .open) (hN : N ≤ mainCount n y) (hok : AnswersOk s (24 * N))
    (hF : 46 * N ≤ F) : ∃ F', F ≤ F' + 46 * N ∧
      State.settle F (.stepper k) ((s.setSeq k (.running (seqStart sps n d y))).setTask (.stepper k)
        (some ⟨op, g, [.seqTest k], m, c⟩)) =
      State.settle F' (.stepper k) ((((s.afterRun (seqEvents s.cfg k (effectiveDelay sps y) y d true N (s.stepper k).pos)
        (24 * N)).stepped k y d N).setSeq k (.running (seqMain sps n d y N))).setTask (.stepper k)
          (some ⟨op, g, [.seqTest k], m, c + N⟩)) :=
  settle_running_rounds (r := seqStart sps n d y) h hb N rfl (fun _ => hN) (fun hp => absurd hp (by simp [seqStart])) hok hF

/-- The test between the two loops. -/
theorem settle_turn (h : Launch s) : State.settle (F + 1) (.stepper k) ((s.setSeq k (.running
      (seqMain sps n d .microstep (mainCount n .microstep)))).setTask (.stepper k) (some ⟨op, g, [.seqTest k], m, c⟩)) =
    State.settle F (.stepper k) ((s.setSeq k (.running (seqCorrect sps n d (mainCount n .microstep)))).setTask (.stepper k)
      (some ⟨op, g, [.seqTest k], m, c⟩)) := by
  rw [settle_seqTest ((h.alone _).setSeq _) (seqTest_turn (r := seqMain sps n d .microstep (mainCount n .microstep))
    (by simp [State.setSeq]) rfl (Nat.sub_self _) rfl), setSeq_setSeq]
  simp [seqCorrect, seqMain]

theorem settle_correct_rounds (h : Launch s) (hb : s.bus = .open)
    (hc : ∀ i, i < N → posAfter s.cfg.correctionMode .microstep d i (s.stepper k).pos % 8 ≠ 0) (hok : AnswersOk s (24 * N))
    (hF : 46 * N ≤ F) : ∃ F', F ≤ F' + 46 * N ∧
      State.settle F (.stepper k) ((s.setSeq k (.running (seqCorrect sps n d M))).setTask (.stepper k)
        (some ⟨op, g, [.seqTest k], m, c⟩)) =
      State.settle F' (.stepper k) ((((s.afterRun (seqEvents s.cfg k (effectiveDelay sps .microstep) .microstep d
        (decide (M = 0)) N (s.stepper k).pos) (24 * N)).stepped k .microstep d N).setSeq k
          (.running (seqCorrect sps n d (M + N)))).setTask (.stepper k) (some ⟨op, g, [.seqTest k], m, c + N⟩)) := by
  have hfirst : seqCorrect sps n d (M + N) = { seqCorrect sps n d M with first := decide (M = 0) && decide (N = 0) } := by
    simp [seqCorrect]
  rw [hfirst]
  exact settle_running_rounds (r := seqCorrect sps n d M) h hb N rfl (fun hp => absurd hp (by simp [seqCorrect]))
    (fun _ => hc) hok hF

/-- A sequence before its invocation numbered `N`, every transaction before it Ok. -/
theorem settle_before (h : Launch s) (hb : s.bus = .open) (hN : N < invocations s.cfg.correctionMode n y d (s.stepper k).pos)
    (hok : AnswersOk s (24 * N)) (hF : 46 * N + 1 ≤ F) :
    ∃ F' r, F ≤ F' + (46 * N + 1) ∧ r.spsEff = effectiveDelay sps y ∧ r.style = y ∧ r.cmd = d ∧ r.first = decide (N = 0) ∧
      r.GoesOn (posAfter s.cfg.correctionMode y d N (s.stepper k).pos) ∧
      State.settle F (.stepper k) ((s.setSeq k (.running (seqStart sps n d y))).setTask (.stepper k)
        (some ⟨op, g, [.seqTest k], m, c⟩)) =
      State.settle F' (.stepper k) ((((s.afterRun (seqEvents s.cfg k (effectiveDelay sps y) y d true N (s.stepper k).pos)
        (24 * N)).stepped k y d N).setSeq k (.running r)).setTask (.stepper k) (some ⟨op, g, [.seqTest k], m, c + N⟩)) := by
  have hsplit : invocations s.cfg.correctionMode n y d (s.stepper k).pos = mainCount n y +
    correctionCount y d (posAfter s.cfg.correctionMode y d (mainCount n y) (s.stepper k).pos) := rfl
  by_cases hmain : N < mainCount n y
  · obtain ⟨F', hle, hrun⟩ := settle_main_rounds (op := op) (g := g) (m := m) (c := c) (k := k) n d y sps h hb hmain.le hok
      (by omega : 46 * N ≤ F)
    exact ⟨F', _, by omega, rfl, rfl, rfl, rfl, ⟨fun _ => Nat.sub_pos_of_lt hmain, fun hp => absurd hp (by simp [seqMain, seqStart])⟩,
      hrun⟩
  · have hy : y = .microstep := by
      cases y with
      | microstep => rfl
      | single | double | interleave => simp only [correctionCount] at hsplit; omega
    subst hy
    obtain ⟨C, rfl⟩ : ∃ C, N = mainCount n .microstep + C := ⟨N - mainCount n .microstep, by omega⟩
    have hcorr := correction_stops s.cfg.correctionMode d
      (posAfter s.cfg.correctionMode .microstep d (mainCount n .microstep) (s.stepper k).pos)
    obtain ⟨F1, hle1, hrun1⟩ := settle_main_rounds (op := op) (g := g) (m := m) (c := c) (k := k) n d .microstep sps h hb
      (Nat.le_refl _) (hok.mono (by omega)) (by omega : _ ≤ F)
    obtain ⟨F1, rfl⟩ : ∃ F0, F1 = F0 + 1 := ⟨F1 - 1, by omega⟩
    have hmid := (h.afterRun (seqEvents s.cfg k (effectiveDelay sps .microstep) .microstep d true (mainCount n .microstep)
      (s.stepper k).pos) (24 * mainCount n .microstep)).stepped k .microstep d (mainCount n .microstep)
    obtain ⟨F2, hle2, hrun2⟩ := settle_correct_rounds (op := op) (g := g) (m := m) (c := c + mainCount n .microstep) (N := C) (k := k)
      (M := mainCount n .microstep) n d sps hmid hb (by rw [stepped_pos]; exact fun i hi => hcorr.1 i (by omega))
      ((AnswersOk.afterRun (by rw [← Nat.mul_add]; exact hok) _).stepped _ _ _ _) (by omega : _ ≤ F1)
    refine ⟨F2, seqCorrect sps n d (mainCount n .microstep + C), by omega, rfl, rfl, rfl, rfl,
      ⟨fun hp => absurd hp (by simp [seqCorrect]), fun _ => ?_⟩, ?_⟩
    · rw [← posAfter_add]
      exact hcorr.1 _ (by omega)
    · have hev := seqEvents_add s.cfg k (effectiveDelay sps .microstep) .microstep d (mainCount n .microstep) C true (s.stepper k).pos
      rw [hrun1, settle_turn n d sps hmid, hrun2, afterRun_stepped, stepped_stepped, afterRun_afterRun, stepped_pos, ← Nat.mul_add,
        Nat.add_assoc, ← hev]
      rfl

end phases

/-- The next invocation of a sequence, up to its outputs: its test, the wait if it is not the first, its move (spec 42 R232). -/
theorem settle_invocation (h : Launch s) (hgo : r.GoesOn (s.stepper k).pos) (hF : 3 ≤ F) : ∃ F' r', F ≤ F' + 3 ∧
    State.settle F (.stepper k) ((s.setSeq k (.running r)).setTask (.stepper k) (some ⟨op, g, [.seqTest k], m, c⟩)) =
      State.settle F' (.stepper k) ((((s.afterRun (if r.first then [] else [.wait (.stepper k) r.spsEff]) 0).stepped k r.style r.cmd 1).setSeq
        k (.running r')).setTask (.stepper k) (some ⟨op, g, outputActs s.cfg k
          (nextPos s.cfg.correctionMode (s.stepper k).pos r.style r.cmd) r.style r.cmd ++ [.seqCount k, .seqTest k], m, c⟩)) := by
  have hA : ∀ q, Alone (.stepper k) (s.setSeq k q) := fun q => (h.alone _).setSeq q
  have hseq : ∀ q, ((s.setSeq k q).stepper k).seq = q := fun q => by simp [State.setSeq]
  have hpos := setSeq_pos s k
  have hqueue : ∀ q, ((s.setSeq k q).stepper k).work.queue = [] := fun q => by
    have hidle : (s.stepper k).work = Worker.idle := h.worker_idle (.stepper k)
    simp [State.setSeq, hidle, Worker.idle]
  have htest := seqTest_go (hseq (.running r)) hgo.1 (by rw [hpos]; exact hgo.2)
  cases hfirst : r.first with
  | true =>
    obtain ⟨F, rfl⟩ : ∃ F', F = F' + 1 + 1 := ⟨F - 2, by omega⟩
    refine ⟨F, { r with first := false }, by omega, ?_⟩
    rw [settle_seqTest (t := s.setSeq k (.running { r with first := false })) (acts := invocation k r) (hA _)
      (fun u => by rw [htest, State.seqNext, if_pos hfirst, setSeq_setTask_none, setSeq_setSeq])]
    simp only [invocation, List.cons_append, List.nil_append]
    rw [settle_oneStep (hA _), moveStepper_setSeq, hpos, if_pos trivial, afterRun_zero]
    rfl
  | false =>
    obtain ⟨F, rfl⟩ : ∃ F', F = F' + 1 + 1 + 1 := ⟨F - 3, by omega⟩
    refine ⟨F, { r with place := .inStep }, by omega, ?_⟩
    rw [settle_seqTest (t := s.setSeq k (.running { r with place := .atWait })) (acts := .seqWait k :: invocation k r) (hA _)
      (fun u => by rw [htest, State.seqNext, if_neg (by simp [hfirst]), setSeq_setTask_none, setSeq_setSeq])]
    simp only [invocation, List.cons_append, List.nil_append]
    rw [settle_seqWait (hA _) (hseq _) (hqueue _), log_eq_afterRun _ _ (fun _ => rfl), afterRun_setSeq, setSeq_setSeq,
      settle_oneStep (((h.afterRun _ _).alone _).setSeq _), moveStepper_setSeq, setSeq_pos]
    rfl

/-- The invocation in which the `j`-th transaction from its start is the first that fails (spec 42 R230, 60 R262, R264). -/
theorem settle_invocation_fail (h : Launch s) (hb : s.bus = .open) (hgo : r.GoesOn (s.stepper k).pos) (hF : 45 ≤ F)
    {y : StepStyle} {d : Direction} {p : Fin 32} (hy : r.style = y) (hd : r.cmd = d)
    (hp : nextPos s.cfg.correctionMode (s.stepper k).pos y d = p) {j : Nat} (hj : j < (onestepBytes s.cfg k p y d).length)
    (hok : AnswersOk s j) (hbad : s.answerAt j = .busError) :
    State.settle F (.stepper k) ((s.setSeq k (.running r)).setTask (.stepper k) (some ⟨op, g, [.seqTest k], m, c⟩)) =
      (s.afterRun ((if r.first then [] else [.wait (.stepper k) r.spsEff]) ++ (failedWrites (.stepper k)
        (onestepBytes s.cfg k p y d) j ++ [.done g op (.busError op
          (some ⟨(onestepBytes s.cfg k p y d)[j].1, some (onestepBytes s.cfg k p y d)[j].2⟩) (some ⟨c, p.val⟩))]))
        (j + 1)).stepped k y d 1 := by
  subst hy hd hp
  obtain ⟨F', r', hle, hrun⟩ := settle_invocation (op := op) (g := g) (m := m) (c := c) h hgo (by omega : 3 ≤ F)
  obtain ⟨F', rfl⟩ : ∃ F0, F' = F0 + 42 := ⟨F' - 42, by omega⟩
  rw [hrun, settle_outputs_fail (cfg := s.cfg) ((h.afterRun _ _).stepped k _ _ _) hb rfl _ _ _ _ hj (hok.of_eq rfl rfl)
    (by rw [answerAt_stepped, answerAt_afterRun, Nat.zero_add]; exact hbad), afterRun_stepped, afterRun_afterRun, stepped_pos,
    Nat.zero_add]
  rfl

end sequences

/-- The trace of a sequence whose transaction numbered `j` fails: the invocations before, then the one it is in. -/
theorem failAt_seqEvents (cfg : Config) (k : Fin 2) (q : Rat) (y : StepStyle) (d : Direction) {count j : Nat} (hj : j < 24 * count)
    (p : Nat) :
    let N := j / 24
    let p' := nextPos cfg.correctionMode (posAfter cfg.correctionMode y d N p) y d
    failAt (seqEvents cfg k q y d true count p) j = seqEvents cfg k q y d true N p ++
      ((if decide (N = 0) then [] else [.wait (.stepper k) q]) ++ failedWrites (.stepper k) (onestepBytes cfg k p' y d) (j % 24)) ∧
    ∀ hw : j % 24 < (onestepBytes cfg k p' y d).length, (txns (seqEvents cfg k q y d true count p))[j]? =
      some ⟨(onestepBytes cfg k p' y d)[j % 24].1, some (onestepBytes cfg k p' y d)[j % 24].2⟩ := by
  intro N p'
  have hlen := txns_seqEvents_length cfg k q y d N true p
  have hjN : j = (txns (seqEvents cfg k q y d true N p)).length + j % 24 := by rw [hlen]; exact (Nat.div_add_mod j 24).symm
  obtain ⟨rest, rfl⟩ : ∃ rest, count = N + (rest + 1) := ⟨count - N - 1, by omega⟩
  rw [← seqEvents_add, seqEvents_succ]
  have hlt : j % 24 < (onestepBytes cfg k p' y d).length := by rw [onestepBytes_length]; exact Nat.mod_lt _ (by omega)
  have hwait := txns_wait (true && decide (N = 0)) k q
  constructor
  · have hskip := failAt_append (if (true && decide (N = 0)) = true then [] else [.wait (.stepper k) q])
      (okWrites (.stepper k) (onestepBytes cfg k p' y d) ++ seqEvents cfg k q y d false rest p'.val) (j % 24)
    rw [hwait, List.length_nil, Nat.zero_add, failAt_okWrites _ _ _ hlt] at hskip
    conv => lhs; rw [hjN]
    rw [failAt_append, hskip, Bool.true_and]
  · intro hw
    rw [txns_append, txns_append, txns_append, hwait, List.nil_append, txns_okWrites]
    conv => lhs; rw [hjN]
    rw [List.getElem?_append_right (Nat.le_add_right _ _), Nat.add_sub_cancel_left,
      List.getElem?_append_left (by simpa using hw), List.getElem?_map, List.getElem?_eq_getElem hw]
    rfl

/-- A sequence started on a block at rest of which the transaction numbered `j` is the first that fails. -/
theorem settle_started_fail {s : State} {k : Fin 2} {i : Instr} (h : Launch s) (hb : s.bus = .open) (n : Nat) (d : Direction)
    (y : StepStyle) (sps : Rat) {j count : Nat} (hcount : invocations s.cfg.correctionMode n y d (s.stepper k).pos = count)
    (hj : j < 24 * count) (hok : AnswersOk s j) (hbad : s.answerAt j = .busError) :
    let evs := seqEvents s.cfg k (sequenceDelay sps y) y d true count (s.stepper k).pos
    State.settle (64 * (8 * n + 9) - 1) (.stepper k) (((s.afterRun [.issue (.actuator (.stepper k)) i] 0).setSeq k
        (.running (seqStart sps n d y))).setTask (.stepper k) (some ⟨i, .actuator (.stepper k), [.seqTest k], 0, 0⟩)) =
      (s.afterRun (.issue (.actuator (.stepper k)) i :: (failAt evs j ++ [.done (.actuator (.stepper k)) i (.busError i
        (evs.filterMap txn?)[j]? (some ⟨j / 24, posAfter s.cfg.correctionMode y d (j / 24 + 1) (s.stepper k).pos⟩))])) (j + 1)).stepped
          k y d (j / 24 + 1) := by
  intro evs
  have hmany := invocations_le s.cfg.correctionMode n y d (s.stepper k).pos
  have hdiv := Nat.div_add_mod j 24
  have hmod : j % 24 < 24 := Nat.mod_lt _ (by omega)
  obtain ⟨F, r, hle, hdelay, hstyle, hcmd, hfirst, hgo, hrun⟩ := settle_before (op := i) (g := .actuator (.stepper k)) (m := 0) (c := 0)
    (k := k) (F := 64 * (8 * n + 9) - 1) (N := j / 24) n d y sps (h.afterRun [.issue (.actuator (.stepper k)) i] 0) hb
    (by rw [afterRun_cfg, afterRun_stepper]; omega) ((hok.mono (by omega)).of_eq rfl rfl) (by omega)
  simp only [afterRun_cfg, afterRun_stepper, Nat.zero_add] at hgo hrun
  obtain ⟨hfail, htxn⟩ := failAt_seqEvents s.cfg k (sequenceDelay sps y) y d hj (s.stepper k).pos
  have hlt : ∀ p, j % 24 < (onestepBytes s.cfg k p y d).length := fun p => by rw [onestepBytes_length]; exact hmod
  have hsum : 24 * (j / 24) + (j % 24 + 1) = j + 1 := by omega
  rw [hrun, settle_invocation_fail (((h.afterRun _ _).afterRun _ _).stepped k y d _) hb (by rw [stepped_pos]; exact hgo) (by omega)
    hstyle hcmd (by rw [stepped_pos]) (hlt _)
    ((AnswersOk.afterRun (by rw [hdiv]; exact hok.of_eq rfl rfl) _).stepped k y d _)
    (by rw [answerAt_stepped, answerAt_afterRun, hdiv, answerAt_afterRun, Nat.zero_add]; exact hbad)]
  have hpos : posAfter s.cfg.correctionMode y d (j / 24 + 1) (s.stepper k).pos =
      (nextPos s.cfg.correctionMode (posAfter s.cfg.correctionMode y d (j / 24) (s.stepper k).pos) y d).val :=
    (posAfter_add _ _ _ _ 1 _).symm
  have hq : r.spsEff = sequenceDelay sps y := hdelay
  rw [afterRun_stepped, stepped_stepped, afterRun_afterRun, afterRun_afterRun, hsum, Nat.zero_add, hfirst, hq, hfail, htxn (hlt _),
    hpos]
  simp only [List.append_assoc, List.cons_append, List.nil_append]
  rfl

/-- Settles O47: the oneStep and the sequence of which a transaction fails. -/
theorem stepperBusErrors : Obligations.StepperBusErrors := by
  unfold Obligations.StepperBusErrors
  refine ⟨fun s k d y j h hb hok hbad => onestep_busError k d y h hb hok hbad, ?_, ?_⟩
  · intro s k n d y j h hb hok hbad
    dsimp only
    intro hj
    rw [exec_step k n d y h, settle_started_fail h hb n d y _ rfl hj hok hbad]
  · intro s k n d speed y j h hb hspeed hok hbad
    dsimp only
    rw [← secondsPerStep_eq]
    intro hj
    have hcount : invocations (s.setSpeed k (clampedSpeed speed)).cfg.correctionMode n y d
        ((s.setSpeed k (clampedSpeed speed)).stepper k).pos = invocations s.cfg.correctionMode n y d (s.stepper k).pos := by
      rw [setSpeed_pos]; rfl
    rw [exec_runst k n d y h hb hspeed, settle_started_fail (h.setSpeed k _) hb n d y _ hcount hj (hok.of_eq rfl rfl) hbad, setSpeed_pos]
    rfl

end Sys2Proof.Machine
end

section
/-! PROOFS. Every operation issued to a block at rest ends with one result, whatever the bus answers (spec 42 R234, 60 R268,
R275, R276). -/

namespace Sys2Proof.Machine

/-! ### The end of an agent that ran alone -/

section

variable {a : Actuator} {u : State} (h : Solo a u) (hw : u.worker a = Worker.idle)
include h hw

/-- When an agent that ran alone is idle, every agent is. -/
theorem Solo.worker_idle (b : Actuator) : u.worker b = Worker.idle := by
  by_cases hb : b = a
  · rw [hb, hw]
  · have hidle := h.alone.2.1 b hb
    cases hx : u.worker b
    rw [hx] at hidle
    simpa [Worker.isIdle, Worker.idle] using hidle

theorem Solo.lock_free_of_idle : u.lock = .free := by
  rcases h.lock_cases with hl | hl
  · exact hl
  · have hlock := (lockDiscipline_iff u).mp h.lock a
    rw [hw] at hlock
    exact absurd hl hlock

theorem Solo.seq_idle (k : Fin 2) : (u.stepper k).seq = .idle := by
  have htoken := (((sequencerInv_iff u).mp h.seq).2 k).token
  rw [show (u.stepper k).work = Worker.idle from h.worker_idle hw (.stepper k)] at htoken
  cases hs : (u.stepper k).seq with
  | idle => rfl
  | running r => rw [hs] at htoken; exact htoken.elim

end

/-- With no release armed, none is after an operation that is no RUNDC with a runtime (spec 41 R176). -/
theorem exec_pending_none {i : Instr} {s t : State} (h : exec i s = .next t) (hs : ∀ m, (s.motor m).pending = none)
    (hi : ∀ m cmd speed x, i ≠ .rundc m cmd speed (some x)) (m : Fin 4) : (t.motor m).pending = none := by
  by_cases ht : opTarget i = some (.dc m)
  · obtain rfl := submit_of_exec ht (queueable_of_dc ht) h
    rcases submit_armedBy s ht with hp | ⟨cmd, speed, x, he, -⟩
    · exact hp
    · exact absurd he (hi _ _ _ _)
  · rw [exec_motor ht h, hs m]

/-! ### What an operation records on a block at rest -/

/-- An event that stands between the issue of an operation and its result. -/
def Event.IsInner (e : Event) : Prop := ∀ g i r, e ≠ .issue g i ∧ e ≠ .done g i r

theorem Event.OfAct.isInner {s : State} {x : Act} {e : Event} (h : Event.OfAct s x e) : e.IsInner := by
  cases e with
  | issue g i => exact h.elim
  | done g i r => exact h.elim
  | write _ _ _ _ | read _ _ _ | wait _ _ | cancel _ | fire _ => exact fun g i r => ⟨nofun, nofun⟩

/-- A queued operation on a block at rest records its issue, inner events, and its result. -/
theorem Launch.submit_records {s : State} (h : Launch s) {a : Actuator} {i : Instr} (ht : opTarget i = some a)
    (hq : queueable i = true) :
    Records Event.IsInner a i (.actuator a) (s.log (.issue (.actuator a) i)) (s.submit a i) := by
  have hl : Launch (s.log (.issue (.actuator a) i)) := h
  refine h.submit_run ht hq (J := Records Event.IsInner a i (.actuator a) (s.log (.issue (.actuator a) i)))
    (fun c _ => ?_) (fun p _ => begin_records _ _ a i p)
    (fun u t x rest hJ htask _ => hJ.trans htask ((runAct_records u a x rest htask).mono fun _ he => he.isInner))
    (fun u t hJ htask _ => hJ.trans htask (finish_records _ u a t))
  exact ⟨[], by simp, .inr ⟨by rw [State.worker_log, hl.worker_idle]; rfl, _, State.log_hist _ _⟩⟩

theorem Launch.log {s : State} (h : Launch s) (e : Event) : Launch (s.log e) := h

/-- An STSPEED performed at once records its issue and its result, and leaves the block at rest. -/
theorem Launch.speedNow {s : State} (h : Launch s) (j : Fin 2) (i : Instr) (check : Except Cause (Fin 2 × Nat)) :
    Launch (s.speedNow j i check) ∧
      ∃ g r, (s.speedNow j i check).hist = s.hist ++ [.issue g i, .done g i r] := by
  simp only [State.speedNow]
  split
  · exact ⟨(h.log _).log _, _, _, List.append_assoc _ _ _⟩
  · split
    · exact ⟨(h.log _).log _, _, _, List.append_assoc _ _ _⟩
    · exact ⟨((h.log _).setSpeed _ _).log _, _, _, List.append_assoc _ _ _⟩

/-- Settles O50: a queued operation runs alone, records inner events and its result, and ends within its issue; the others
record an issue and a result and leave the block at rest. -/
theorem everyOperationEnds : Obligations.EveryOperationEnds := by
  unfold Obligations.EveryOperationEnds
  intro s i h
  obtain ⟨t, ht⟩ := exec_next i s
  refine ⟨t, ?_⟩
  have hnone : ∀ e ∈ ([] : List Event), e.IsInner := by simp
  rcases exec_cases ht with ⟨a, ha, hq, rfl⟩ | ⟨j, k, rpm, -, -, rfl⟩ | ⟨c, -, rfl⟩
  · obtain ⟨hsolo, hidle⟩ := h.submit_ends ha hq
    obtain ⟨evs, hinner, ⟨u, hu, -⟩ | ⟨-, r, hh⟩⟩ := h.submit_records ha hq
    · rw [hidle] at hu
      cases hu
    · rw [State.log_hist, List.append_assoc] at hh
      have hseq := hsolo.seq_idle hidle
      have hlock := hsolo.lock_free_of_idle hidle
      exact ⟨_, evs, r, ht, hh, hinner, hsolo.worker_idle hidle, hlock, hseq, fun hi =>
        launch_of (hsolo.worker_idle hidle) hseq (exec_pending_none ht h.pending_none hi) hlock hsolo.alone.1⟩
  · obtain ⟨hl, g, r, hh⟩ := h.speedNow j i (checkStspeed k rpm)
    exact ⟨g, [], r, ht, hh, hnone, hl.worker_idle, hl.lock_free, hl.seq_idle, fun _ => hl⟩
  · have hl : Launch (s.refuseIndex i c) := (h.log _).log _
    exact ⟨_, [], _, ht, List.append_assoc _ _ _, hnone, hl.worker_idle, hl.lock_free, hl.seq_idle, fun _ => hl⟩

end Sys2Proof.Machine
end

section
/-! PROOFS. What the stepper operations leave unchanged (spec 42 R214, R220, R230, R231, R238, 70 R291). -/

namespace Sys2Proof.Machine

/-! ### The registers of a stepper's program -/

/-- The six channels of a stepper: the two PWM channels and the four pins (spec 42 R200). -/
theorem channelRegs_subset_stepperRegs (w : StepperWiring) :
    channelRegs w.a.pwm ⊆ stepperRegs w ∧ channelRegs w.b.pwm ⊆ stepperRegs w ∧
      ∀ pin, channelRegs (pinChannel w pin) ⊆ stepperRegs w := by
  refine ⟨fun b hb => ?_, fun b hb => ?_, fun pin b hb => ?_⟩
  · simp [stepperRegs, hb]
  · simp [stepperRegs, hb]
  · cases pin with
    | ain1 | ain2 | bin1 | bin2 => simp only [pinChannel] at hb; simp [stepperRegs, hb]

theorem setchActs_within (c : Chan) (on off : Nat) : DirectWithin (channelRegs c) (setchActs c on off) := by
  rw [setchActs_eq]
  exact .held (.writes (chanBytes_targets c _ _))

/-- The outputs of a oneStep reach the stepper's registers alone. -/
theorem outputActs_within (cfg : Config) (k : Fin 2) (p : Fin 32) (y : StepStyle) (d : Direction) :
    DirectWithin (stepperRegs cfg.wiringSt[k]) (outputActs cfg k p y d) := by
  obtain ⟨hA, hB, hpin⟩ := channelRegs_subset_stepperRegs cfg.wiringSt[k]
  have coil : ∀ c i, DirectWithin (stepperRegs cfg.wiringSt[k]) (coilActs cfg k c i) := fun c i =>
    (setpinActs_within _ _).mono (hpin _)
  exact ((setchActs_within _ _ _).mono hA).append (((setchActs_within _ _ _).mono hB).append
    ((coil _ 0).append ((coil _ 1).append ((coil _ 2).append (coil _ 3)))))

/-- An action of stepper `k` that writes, if it does, in the stepper's registers. -/
def StepperAct (cfg : Config) (k : Fin 2) (x : Act) : Prop :=
  Act.ownedBy (.stepper k) x = true ∧ x.Within (stepperRegs cfg.wiringSt[k])

theorem unfoldsTo_stepperAct {u : State} {k : Fin 2} {x : Act} (h : StepperAct u.cfg k x) :
    ∀ z ∈ unfoldsTo u x, StepperAct u.cfg k z := by
  intro z hz
  refine ⟨((unfolds_good u (.stepper k) x h.1).2.1 z hz).2, ?_⟩
  cases x with
  | oneStep j d y =>
    obtain rfl : k = j := by simpa [Act.ownedBy] using h.1
    exact (outputActs_within _ _ _ _ _ z hz).2
  | seqTest j =>
    refine within_silent fun _ _ => ?_
    rcases seqTest_acts u j hz with ⟨d, y, rfl⟩ | rfl | rfl | rfl <;> rfl
  | _ => cases hz

/-- The program of a queued stepper operation starts with an action that writes nothing. -/
theorem plan_stepperAct {cfg : Config} {i : Instr} {k : Fin 2} {p : Plan} (hp : plan cfg i = .ok p)
    (ht : opTarget i = some (.stepper k)) (hq : queueable i = true) : ∀ x ∈ p.todo, StepperAct cfg k x := by
  intro x hx
  refine ⟨((plan_good hp ht hq).1.2 x hx).2.1, within_silent fun _ _ => ?_⟩
  have hi := plan_is hp
  cases i with
  | onestep =>
    obtain ⟨j, d, y, -, rfl⟩ := hi
    obtain rfl := List.mem_singleton.mp hx
    rfl
  | step =>
    obtain ⟨j, d, y, -, rfl⟩ := hi
    obtain rfl := List.mem_singleton.mp hx
    rfl
  | runst =>
    obtain ⟨j, d, y, rpm, -, -, rfl⟩ := hi
    obtain rfl := List.mem_singleton.mp hx
    rfl
  | stspeed => cases hq
  | _ => simp [opTarget] at ht

/-! ### The frame of a stepper operation -/

theorem After.finish (s : State) (a : Actuator) (t : Task) : After s (s.finish a t) := by
  unfold State.finish
  split
  · exact .raiseBusError _ _ _ _
  · exact .endTask _ _ _ _

/-- A queued stepper operation leaves the image outside its stepper's registers. -/
theorem exec_stepper_entry {i : Instr} {k : Fin 2} {s t : State} {b : Nat} (ht : opTarget i = some (.stepper k))
    (hq : queueable i = true) (hb : b ∉ stepperRegs s.cfg.wiringSt[k]) (hwf : imgWf s.img = true) (h : exec i s = .next t) :
    imgGet t.img b = imgGet s.img b := by
  obtain rfl := submit_of_exec ht hq h
  have himg : (s.issued (.stepper k) i).img = s.img := rfl
  have hcfg : (s.issued (.stepper k) i).cfg = s.cfg := rfl
  rcases submit_cases s (.stepper k) i with he | he | ⟨-, hw, he⟩
  · rw [he, State.log_img, himg]
  · rw [he, State.enqueue_img, himg]
  · have hrun := settle_run (i := i) hw (J := fun u => u.cfg = s.cfg ∧ imgWf u.img = true ∧ imgGet u.img b = imgGet s.img b ∧
        ProgramIs (StepperAct s.cfg k) (.stepper k) u)
      (fun c _ => ⟨rfl, hwf, rfl, .of_none (by simp [hw, Worker.idle])⟩)
      (fun p hp => ⟨by rw [(After.begin _ _ _ _).1, hcfg], by rw [begin_img, himg]; exact hwf, by rw [begin_img, himg],
        .begin _ i (plan_stepperAct (hcfg ▸ hp) ht hq)⟩)
      (fun u v x rest hJ htask hto => by
        obtain ⟨hc, hwf, hget, hprog⟩ := hJ
        have hx := hprog v htask x (by simp [hto])
        exact ⟨by rw [(After.runAct u _ v x rest).1, hc], (After.runAct u _ v x rest).wf hwf,
          (runAct_entry rest hwf hx.2 hb).trans hget,
          hprog.runAct (fun x hx => by rw [← hc] at hx ⊢; exact unfoldsTo_stepperAct hx) htask hto⟩)
      (fun u v hJ _ _ => by
        obtain ⟨hc, hwf, hget, -⟩ := hJ
        exact ⟨by rw [(After.finish u _ v).1, hc], by rw [finish_img]; exact hwf, by rw [finish_img]; exact hget, .finish u v⟩) (opFuel i)
    rw [he]
    rcases hrun with hr | ⟨-, -, hr, -⟩
    · rw [hr, State.enqueue_img, himg]
    · exact hr

/-- A queued stepper operation moves its own stepper's agent alone. -/
theorem frame_of_stepper {i : Instr} {k : Fin 2} (ht : opTarget i = some (.stepper k)) (hq : queueable i = true)
    (hregs : ∀ cfg, storedRegs cfg i = stepperRegs cfg.wiringSt[k]) : Frame i := by
  intro s t hwf h
  obtain ⟨hcfg, hbus, evs, hhist, -⟩ := After.exec h
  have hE := Elsewhere.exec ht hq h
  rw [ht, hregs]
  exact ⟨hcfg, hbus, exec_inbox h, hE.sched, hE.turn, fun _ => hE.ctrl (by simp),
    fun m _ => hE.motor m (by simp), fun j hn => hE.stepper j (by simpa using hn),
    fun b hb => exec_stepper_entry ht hq hb hwf h, ⟨evs, hhist.symm⟩⟩

theorem frame_onestep (k cmd style : Int) : Frame (.onestep k cmd style) := by
  cases hk : stepperIndex? k with
  | none => exact frame_of_noTarget (by simp [opTarget, hk])
  | some j => exact frame_of_stepper (k := j) (by simp [opTarget, hk]) rfl fun cfg => by simp [storedRegs, hk]

theorem frame_step (k : Int) (n : Nat) (cmd style : Int) : Frame (.step k n cmd style) := by
  cases hk : stepperIndex? k with
  | none => exact frame_of_noTarget (by simp [opTarget, hk])
  | some j => exact frame_of_stepper (k := j) (by simp [opTarget, hk]) rfl fun cfg => by simp [storedRegs, hk]

theorem frame_runst (k : Int) (n : Nat) (cmd speed style : Int) : Frame (.runst k n cmd speed style) := by
  cases hk : stepperIndex? k with
  | none => exact frame_of_noTarget (by simp [opTarget, hk])
  | some j => exact frame_of_stepper (k := j) (by simp [opTarget, hk]) rfl fun cfg => by simp [storedRegs, hk]

/-- STSPEED records its issue and its result; between them it sets at most the delay and the accumulator of the stepper that its
index names (spec 42 R220). -/
theorem exec_stspeed_cases {k rpm : Int} {s t : State} (h : exec (.stspeed k rpm) s = .next t) :
    ∃ e r, t = (s.log e).log r ∨ ∃ j v, stepperIndex? k = some j ∧ t = ((s.log e).setSpeed j v).log r := by
  rcases exec_cases h with ⟨a, -, hq, -⟩ | ⟨j, k', rpm', hi, hj, rfl⟩ | ⟨c, -, rfl⟩
  · cases hq
  · cases hi
    simp only [State.speedNow]
    split
    · exact ⟨_, _, .inl rfl⟩
    · next v hv =>
      split
      · exact ⟨_, _, .inl rfl⟩
      · obtain ⟨j', hj', hv⟩ := bind_ok hv
        obtain ⟨r, -, hv⟩ := bind_ok hv
        cases hv
        exact ⟨_, _, .inr ⟨j', r, need_ok hj', rfl⟩⟩
  · exact ⟨_, _, .inl rfl⟩

theorem frame_stspeed (k rpm : Int) : Frame (.stspeed k rpm) := by
  intro s t _ h
  obtain ⟨hcfg, hbus, evs, hhist, -⟩ := After.exec h
  obtain ⟨e, r, rfl | ⟨j, v, hj, rfl⟩⟩ := exec_stspeed_cases h
  · exact ⟨hcfg, hbus, exec_inbox h, rfl, rfl, fun _ => rfl, fun _ _ => rfl, fun _ _ => rfl, fun _ _ => rfl, ⟨evs, hhist.symm⟩⟩
  · refine ⟨hcfg, hbus, exec_inbox h, rfl, rfl, fun _ => rfl, fun _ _ => rfl, fun i hi => ?_, fun _ _ => rfl, ⟨evs, hhist.symm⟩⟩
    have hne : j ≠ i := fun e => hi (by simp [opTarget, hj, e])
    exact State.stepper_setSpeed_ne _ _ _ _ hne

/-- STSPEED leaves a stepper's position, style, sequence and agent (spec 42 R220). -/
theorem exec_stspeed_stepper {k rpm : Int} {s t : State} (h : exec (.stspeed k rpm) s = .next t) (j : Fin 2) :
    (t.stepper j).pos = (s.stepper j).pos ∧ (t.stepper j).style = (s.stepper j).style ∧ (t.stepper j).seq = (s.stepper j).seq ∧
      (t.stepper j).work = (s.stepper j).work := by
  obtain ⟨e, r, rfl | ⟨i, v, -, rfl⟩⟩ := exec_stspeed_cases h
  · exact ⟨rfl, rfl, rfl, rfl⟩
  · rw [State.stepper_log, State.setSpeed, State.stepper_setStepper]
    split
    · next hi => rw [hi]; exact ⟨rfl, rfl, rfl, rfl⟩
    · exact ⟨rfl, rfl, rfl, rfl⟩

/-! ### The delay and the accumulator -/

/-- What STSPEED writes of a stepper: the delay and the accumulator (spec 42 R220). -/
def Stepper.tempo (x : Stepper) : Rat × Nat := (x.sps, x.acc)

theorem Stepper.tempo_of_body {x y : Stepper} (h : x.body = y.body) : x.tempo = y.tempo :=
  show x.body.tempo = y.body.tempo by rw [h]

theorem Stepper.tempo_eq {x y : Stepper} : x.tempo = y.tempo ↔ x.sps = y.sps ∧ x.acc = y.acc := Prod.ext_iff

/-- No action changes a delay or an accumulator (spec 42 R231). -/
theorem runAct_tempo (s : State) (a : Actuator) (t : Task) (x : Act) (rest : List Act) (j : Fin 2) :
    ((s.runAct a t x rest).stepper j).tempo = (s.stepper j).tempo := by
  by_cases hx : ∃ d y, x = .oneStep j d y
  · obtain ⟨d, y, rfl⟩ := hx
    refine (Stepper.tempo_of_body (State.body_setTask _ _ _ _)).trans ?_
    simp [State.moveStepper, Stepper.tempo]
  · exact Stepper.tempo_of_body (runAct_body s a j t x rest fun d y e => hx ⟨d, y, e⟩)

theorem finish_tempo (s : State) (a : Actuator) (t : Task) (j : Fin 2) :
    ((s.finish a t).stepper j).tempo = (s.stepper j).tempo := by
  unfold State.finish
  split
  · exact Stepper.tempo_of_body (State.body_endTask _ _ _ _ _)
  · exact Stepper.tempo_of_body (State.body_endTask _ _ _ _ _)

/-- Operation `i` is a RUNST of stepper `j` whose checked speed sets delay and accumulator to `tempo` (spec 42 R220, R238). -/
def SetsTempo (cfg : Config) (i : Instr) (j : Fin 2) (tempo : Rat × Nat) : Prop :=
  ∃ n cmd speed style, i = .runst j.val n cmd speed style ∧ 1 ≤ speed ∧ tempo = (secondsPerStep cfg j (clampedSpeed speed), 0)

/-- Only RUNST's plan sets a delay, that of its stepper from its clamped speed (spec 42 R238). -/
theorem plan_speed {cfg : Config} {i : Instr} {p : Plan} {j : Fin 2} {n : Nat} {d : Direction} {y : StepStyle} {rpm : Nat}
    (h : plan cfg i = .ok p) (hp : p.setup = .speedSeq j n d y rpm) :
    SetsTempo cfg i j (secondsPerStep cfg j rpm, 0) := by
  have hi := plan_is h
  cases i with
  | runst k n' cmd speed style =>
    obtain ⟨j', hj, h⟩ := bind_ok (show planRunst k n' cmd speed style = _ from h)
    obtain ⟨d', -, h⟩ := bind_ok h
    obtain ⟨y', -, h⟩ := bind_ok h
    obtain ⟨r, hr, h⟩ := bind_ok h
    cases h
    cases hp
    rw [indexOf?_eq_some.mp (need_ok hj)]
    rcases needStepperSpeed_cases speed with ⟨hspeed, hs⟩ | ⟨-, hs⟩
    · rw [hs] at hr
      cases hr
      exact ⟨n, cmd, speed, style, rfl, hspeed, rfl⟩
    · rw [hs] at hr
      cases hr
  | onestep =>
    obtain ⟨_, _, _, -, rfl⟩ := hi
    cases hp
  | step =>
    obtain ⟨_, _, _, -, rfl⟩ := hi
    cases hp
  | init | setall | setfreq => rw [hi.2] at hp; cases hp
  | setch =>
    obtain ⟨_, -, rfl⟩ := hi
    cases hp
  | setpin =>
    obtain ⟨_, _, -, rfl⟩ := hi
    cases hp
  | dcrun =>
    obtain ⟨_, _, -, -, rfl⟩ := hi
    cases hp
  | dcspeed =>
    obtain ⟨_, -, rfl⟩ := hi
    cases hp
  | rundc =>
    obtain ⟨_, _, _, -, -, rfl⟩ := hi
    cases hp
  | stspeed =>
    obtain rfl := hi
    cases hp

/-- The start of an operation changes a delay or an accumulator only by RUNST's inner STSPEED. -/
theorem begin_tempo {s : State} {i : Instr} {p : Plan} (a : Actuator) (hp : plan s.cfg i = .ok p) (j : Fin 2) :
    ((s.begin a i p).stepper j).tempo = (s.stepper j).tempo ∨ SetsTempo s.cfg i j ((s.begin a i p).stepper j).tempo := by
  rcases begin_body s a j i p with hb | ⟨n, d, y, rpm, hsetup, hb⟩
  · exact .inl (Stepper.tempo_of_body hb)
  · right
    have htempo : ((s.setSpeed j rpm).stepper j).tempo = (secondsPerStep s.cfg j rpm, 0) := by simp [State.setSpeed, Stepper.tempo]
    rw [Stepper.tempo_of_body hb, htempo]
    exact plan_speed hp hsetup

/-- An operation changes a delay or an accumulator only as RUNST (spec 42 R231, R238, 70 R291). -/
theorem submit_tempo (s : State) (a : Actuator) (i : Instr) (j : Fin 2) :
    ((s.submit a i).stepper j).tempo = (s.stepper j).tempo ∨ SetsTempo s.cfg i j ((s.submit a i).stepper j).tempo := by
  have hissued : (s.issued a i).stepper j = s.stepper j ∧ (s.issued a i).cfg = s.cfg := by cases a <;> exact ⟨rfl, rfl⟩
  obtain ⟨hstepper, hcfg⟩ := hissued
  have henqueue : (((s.issued a i).enqueue a i).stepper j).tempo = (s.stepper j).tempo := by
    rw [Stepper.tempo_of_body (State.body_enqueue _ _ _ _), hstepper]
  rcases submit_cases s a i with he | he | ⟨-, hw, he⟩
  · rw [he, State.stepper_log, hstepper]; exact .inl rfl
  · rw [he]; exact .inl henqueue
  · rw [he]
    refine (settle_run (i := i) hw (J := fun u => (u.stepper j).tempo = (s.stepper j).tempo ∨ SetsTempo s.cfg i j (u.stepper j).tempo)
      (fun c _ => ?_) (fun p hp => ?_) (fun u t x rest hJ _ _ => by rw [runAct_tempo]; exact hJ)
      (fun u t hJ _ _ => by rw [finish_tempo]; exact hJ) (opFuel i)).elim (fun hr => ?_) id
    · rw [State.stepper_log, hstepper]; exact .inl rfl
    · rw [← hstepper, ← hcfg]; exact begin_tempo a hp j
    · rw [hr]; exact .inl henqueue

theorem exec_tempo {s t : State} {i : Instr} (hq : queueable i = true) (h : exec i s = .next t) (j : Fin 2) :
    (t.stepper j).tempo = (s.stepper j).tempo ∨ SetsTempo s.cfg i j (t.stepper j).tempo := by
  rcases exec_cases h with ⟨a, -, -, rfl⟩ | ⟨_, _, _, rfl, -, -⟩ | ⟨c, -, rfl⟩
  · exact submit_tempo s a i j
  · cases hq
  · exact .inl rfl

/-- A move of an agent changes a delay or an accumulator only where it starts a RUNST. -/
theorem tick_tempo {s : State} {a : Actuator} {j : Fin 2} (h : ((s.tick a).stepper j).tempo ≠ (s.stepper j).tempo) :
    ∃ i rest, s.worker a = ⟨i :: rest, none⟩ ∧ SetsTempo s.cfg i j ((s.tick a).stepper j).tempo := by
  revert h
  cases ht : (s.worker a).task with
  | some t =>
    simp only [State.tick, ht]
    split
    · exact fun h => absurd (finish_tempo s a t j) h
    · next x rest _ => exact fun h => absurd (runAct_tempo s a t x rest j) h
  | none =>
    simp only [State.tick, ht, State.startNext]
    split
    · exact fun h => absurd rfl h
    · next i rest hqueue =>
      have hw : s.worker a = ⟨i :: rest, none⟩ := by
        cases hx : s.worker a
        simp_all
      have hset : ((s.setQueue a rest).stepper j).tempo = (s.stepper j).tempo :=
        Stepper.tempo_of_body (State.body_setQueue _ _ _ _)
      split
      · rw [State.stepper_log]
        exact fun h => absurd hset h
      · next p hp =>
        have hcfg : (s.setQueue a rest).cfg = s.cfg := State.setQueue_cfg _ _ _
        have hbegin := begin_tempo a (hcfg ▸ hp : plan (s.setQueue a rest).cfg i = .ok p) j
        rw [hset, hcfg] at hbegin
        exact fun h => ⟨i, rest, hw, hbegin.resolve_left h⟩

/-- Settles O59: the program of a stepper operation is its stepper's, its writes reach no other register, and only the start of
RUNST writes a delay. -/
theorem frameStepper : Obligations.FrameStepper := by
  unfold Obligations.FrameStepper
  refine ⟨frame_onestep, frame_step, frame_runst, frame_stspeed, fun s t k rpm j h => exec_stspeed_stepper h j, ?_, ?_, ?_, ?_⟩
  · intro s t k cmd style j h
    refine Stepper.tempo_eq.mp ((exec_tempo rfl h j).resolve_right ?_)
    rintro ⟨_, _, _, _, hi, -⟩
    cases hi
  · intro s t k n cmd style j h
    refine Stepper.tempo_eq.mp ((exec_tempo rfl h j).resolve_right ?_)
    rintro ⟨_, _, _, _, hi, -⟩
    cases hi
  · intro s t k n cmd speed style j h
    rcases exec_tempo rfl h j with he | ⟨_, _, _, _, hi, hspeed, he⟩
    · exact .inl (Stepper.tempo_eq.mp he)
    · cases hi
      obtain ⟨hsps, hacc⟩ := Prod.mk.inj he
      exact .inr ⟨rfl, hspeed, hacc, by rw [hsps, secondsPerStep_eq]⟩
  · intro s a j hown hne
    have hchanged : ((s.tick a).stepper j).tempo ≠ (s.stepper j).tempo := fun he => by
      obtain ⟨hsps, hacc⟩ := Stepper.tempo_eq.mp he
      exact hne.elim (absurd hsps) (absurd hacc)
    obtain ⟨i, rest, hw, n, cmd, speed, style, rfl, -⟩ := tick_tempo hchanged
    have htarget := (hown.2 a _ (by rw [hw]; exact .head _)).1
    simp only [opTarget, stepperIndex?_val, Option.map_some, Option.some.injEq] at htarget
    exact ⟨htarget.symm, by rw [hw], _, _, _, _, _, rest, by rw [hw]⟩

end Sys2Proof.Machine
end

section
/-! PROOFS. The step by the agent chosen (spec 60 R269, R271, R274, R275, 41 R180, 70 R290), and the issue to a busy block. -/

namespace Sys2Proof.Machine

/-! ### The scheduler's choice -/

/-- The scheduler chooses some agent when one can move. -/
theorem pick_exists (s : State) {able : List Agent} (h : able ≠ []) : ∃ g, s.pick able = some g := by
  match able, h with
  | [g], _ => exact ⟨g, rfl⟩
  | g :: g' :: more, _ =>
    have hlt : Config.freeTurn s.turn % (more.length + 2) < (g :: g' :: more).length := Nat.mod_lt _ (Nat.succ_pos _)
    simp only [State.pick]
    repeat' split
    · exact ⟨_, rfl⟩
    · exact ⟨_, List.getElem?_eq_getElem hlt⟩
    · exact ⟨_, List.getElem?_eq_getElem hlt⟩

/-- The agent that the schedule names next is chosen when it can move. -/
theorem pick_scheduled {s : State} {able : List Agent} {g : Agent} {rest : List Agent} (hs : s.sched = g :: rest)
    (hg : g ∈ able) : s.pick able = some g := by
  match able, hg with
  | [g'], hg => rw [List.mem_singleton.mp hg]; rfl
  | g' :: g'' :: more, hg => simp only [State.pick, hs, if_pos hg]

/-- Settles O6: the agent at the head of the schedule is chosen, `pick` chooses from its list, and some agent is chosen. -/
theorem everyMoverMayGo : Obligations.EveryMoverMayGo := by
  unfold Obligations.EveryMoverMayGo
  exact ⟨fun s g rest hg => pick_scheduled rfl hg, fun s g h => pick_mem h, fun s h => pick_exists s h⟩

/-! ### The step -/

/-- A step is the move of the agent chosen. -/
theorem step_of_pick {s : State} {g : Agent} (h : s.pick s.movers = some g) : step s = move s.takeTurn g := by
  simp only [step, machineStep, h]

/-- When the host is chosen, the step is the operation that its next record spells. -/
theorem step_host {s : State} {r : Record} {rest : List Record} {i : Instr} (hi : s.inbox = r :: rest)
    (hd : decode r = .ok i) (h : s.pick s.movers = some .host) : step s = exec i { s.takeTurn with inbox := rest } := by
  rw [step_of_pick h]
  simp only [move, hostMove, State.takeTurn_inbox, hi, hd]

/-- A placed record makes the host the agent chosen. -/
theorem pick_placeRecord (s : State) (r : Record) : (placeRecord s r).pick (placeRecord s r).movers = some .host :=
  pick_scheduled rfl ((mem_movers _ .host).mpr rfl)

theorem decode_of_decodeTableWord {nbits w : Nat} {i : Instr} (h : decodeTableWord nbits w = some i) :
    decode (tableRecord (w % 2 ^ nbits)) = .ok i := by
  unfold decodeTableWord at h
  split at h
  · next hd => rw [hd, Option.some.inj h]
  · cases h

/-- Settles O4: the host's move by `step_host`, and a placed record has the host chosen. -/
theorem stepRunsDecoded : Obligations.StepRunsDecoded := by
  unfold Obligations.StepRunsDecoded
  exact ⟨fun s r rest i hi hd h => step_host hi hd h,
    fun s nbits w i h => step_host (s := s.withFetchWord nbits w) rfl (decode_of_decodeTableWord h) (pick_placeRecord s _)⟩

/-- Settles O5: a step is the move of the agent chosen, and with no agent able nobody is. -/
theorem stepMovesChosenAgent : Obligations.StepMovesChosenAgent := by
  unfold Obligations.StepMovesChosenAgent
  refine ⟨fun s a h => step_of_pick h, fun s m h => step_of_pick h, fun s h => ?_⟩
  have hnone : s.pick s.movers = none := by rw [h]; rfl
  simp only [step, machineStep, hnone]

/-- Settles O7: no arm of `exec` faults or refuses. -/
theorem operationsAlwaysAvailable : Obligations.OperationsAlwaysAvailable := by
  unfold Obligations.OperationsAlwaysAvailable
  exact exec_next

/-! ### A busy block -/

/-- Recording an issue changes neither who can move nor what is in flight. -/
theorem movers_issued (s : State) (a : Actuator) (i : Instr) : (s.issued a i).movers = (s.disarmFor a).movers := by
  cases a <;> rfl

theorem inFlightFor_issued (s : State) (a : Actuator) (i : Instr) : (s.issued a i).inFlightFor a = s.inFlightFor a := by
  cases a <;> rfl

/-- Settles O51: the in-flight rule does not reject the operation, and with another move open it is only queued. -/
theorem busyBlockQueues : Obligations.BusyBlockQueues := by
  unfold Obligations.BusyBlockQueues
  intro s i a ht hq hbusy hpolicy
  have hreject : ¬((s.issued a i).inFlightFor a = true ∧ (s.issued a i).cfg.inflightPolicy = .reject) := by
    rintro ⟨hin, hr⟩
    rw [inFlightFor_issued] at hin
    rw [(Quiet.issued s a i).cfg, hpolicy hin] at hr
    cases hr
  have hopen : (s.issued a i).movers ≠ [] := by rwa [movers_issued]
  rw [exec_submit ht hq]
  exact congrArg _ ((if_neg hreject).trans (if_neg hopen))

end Sys2Proof.Machine
end

section
/-! PROOFS. The errors of operands (spec 40 R119, 60 R260, R266): the first failing check ends an operation on a block at rest,
from its agent's queue, and at its issue when no actuator is named. -/

namespace Sys2Proof.Machine

/-! ### The first failing check -/

/-- An operation has no failing check exactly when its operands are legal (spec 60 R260, R266): each test of `firstCause` is a
conjunct of `wellFormed`, and a legal operation passes the checks of its plan, which a failing one would end. -/
theorem firstCause_eq_none (i : Instr) : firstCause i = none ↔ i.wellFormed = true := by
  constructor
  · intro h
    cases i with
    | init | setall => rfl
    | _ =>
      simp only [firstCause] at h
      repeat' split at h
      all_goals simp_all [Instr.wellFormed]
  · intro h
    obtain ⟨p, hp⟩ := plan_of_wellFormed defaultConfig h
    cases hc : firstCause i with
    | none => rfl
    | some c => rw [plan_firstCause defaultConfig i c hc] at hp; cases hp

/-- STSPEED's check at its issue is the one of its plan. -/
theorem checkStspeed_of_firstCause {k rpm : Int} {c : Cause} (h : firstCause (.stspeed k rpm) = some c) :
    checkStspeed k rpm = .error c := by
  have hp : (checkStspeed k rpm).map (fun _ => Plan.ofActs []) = .error c := plan_firstCause defaultConfig _ _ h
  cases hx : checkStspeed k rpm with
  | error e => rw [hx] at hp; cases hp; rfl
  | ok v => rw [hx] at hp; cases hp

/-! ### An index that names no actuator -/

/-- A DC operation whose index names no motor is refused at its issue. -/
theorem submitDc_noTarget {m : Int} (h : (dcIndex? m).map Actuator.dc = none) :
    inRange 0 3 m = false ∧ ∀ (s : State) i, s.submitDc m i = s.refuseIndex i .dcIndex := by
  rw [Option.map_eq_none_iff] at h
  refine ⟨?_, fun s i => by simp only [State.submitDc, h]⟩
  rcases index_cases (n := 3) m with ⟨-, k, hk⟩ | ⟨hr, -⟩
  · rw [dcIndex?, hk] at h; cases h
  · exact hr

/-- A stepper operation whose index names no stepper is refused at its issue. -/
theorem submitStepper_noTarget {k : Int} (h : (stepperIndex? k).map Actuator.stepper = none) :
    inRange 0 1 k = false ∧ ∀ (s : State) i, s.submitStepper k i = s.refuseIndex i .stepperIndex := by
  rw [Option.map_eq_none_iff] at h
  refine ⟨?_, fun s i => by simp only [State.submitStepper, h]⟩
  rcases index_cases (n := 1) k with ⟨-, j, hj⟩ | ⟨hr, -⟩
  · rw [stepperIndex?, hj] at h; cases h
  · exact hr

/-- An operation whose index names no actuator ends at its issue, with the cause of its index (log entry 10). -/
theorem exec_noTarget {i : Instr} (h : opTarget i = none) (s : State) :
    ∃ c, firstCause i = some c ∧ exec i s = .next (s.refuseIndex i c) := by
  cases i with
  | init | setch | setall | setfreq | setpin => cases h
  | dcrun m cmd | dcspeed m speed | rundc m cmd speed rt =>
    obtain ⟨hr, hs⟩ := submitDc_noTarget h
    exact ⟨.dcIndex, by simp [firstCause, hr], congrArg _ (hs s _)⟩
  | onestep k cmd y | step k n cmd y | runst k n cmd speed y =>
    obtain ⟨hr, hs⟩ := submitStepper_noTarget h
    exact ⟨.stepperIndex, by simp [firstCause, hr], congrArg _ (hs s _)⟩
  | stspeed k rpm =>
    obtain ⟨hr, -⟩ := submitStepper_noTarget h
    exact ⟨.stepperIndex, by simp [firstCause, hr], by simp only [exec, execStspeed, Option.map_eq_none_iff.mp h]⟩

/-! ### Where the error ends an operation -/

/-- On a block at rest an operation with an illegal operand records its issue and its ConfigurationError, and nothing else. -/
theorem Launch.exec_firstCause {s : State} (h : Launch s) {i : Instr} {c : Cause} (hc : firstCause i = some c) :
    ∃ g, exec i s = .next ((s.log (.issue g i)).log (.done g i (.configurationError i c))) := by
  obtain ⟨t, ht⟩ := exec_next i s
  rcases exec_cases ht with ⟨a, ha, hq, -⟩ | ⟨j, k, rpm, rfl, -, rfl⟩ | ⟨-, hn, -⟩
  · refine ⟨.actuator a, ?_⟩
    rw [exec_submit ha hq, submit_error h a i (plan_firstCause s.cfg i c hc), log_eq_afterRun s _ (fun _ => rfl),
      afterRun_log _ _ _ _ (fun _ => rfl)]
    rfl
  · rw [checkStspeed_of_firstCause hc] at ht
    exact ⟨_, ht⟩
  · obtain ⟨c', hc', he⟩ := exec_noTarget hn s
    rw [hc] at hc'
    cases hc'
    exact ⟨.host, he⟩

/-- An agent that starts an operation with an illegal operand ends it at once. -/
theorem tick_firstCause {s : State} {a : Actuator} {i : Instr} {rest : List Instr} {c : Cause}
    (ht : (s.worker a).task = none) (hqu : (s.worker a).queue = i :: rest) (hc : firstCause i = some c) :
    s.tick a = (s.setQueue a rest).log (.done (.actuator a) i (.configurationError i c)) := by
  simp only [State.tick, State.startNext, ht, hqu, plan_firstCause s.cfg i c hc]

/-- Settles O44: the plan of an illegal operation is the error of its first failing check, and an index out of range is refused
at the issue. -/
theorem configurationErrors : Obligations.ConfigurationErrors := by
  unfold Obligations.ConfigurationErrors
  exact ⟨fun s i c h hc => h.exec_firstCause hc, fun s a i rest c ht hqu _ _ hc => tick_firstCause ht hqu hc,
    fun s i h => exec_noTarget h s, firstCause_eq_none⟩

end Sys2Proof.Machine
end

section
/-! PROOFS. The first failing write of an operation made of channel writes alone (spec 60 R261, R262, R264). -/

namespace Sys2Proof.Machine

/-! ### Tick pairs under the lock, the first failing write among them -/

/-- An operation whose program begins with some writes in groups under the lock, when its write numbered `j` fails: what stands
after the groups, such as an arming, is not reached. -/
theorem submit_blocks_rest_fail {s : State} {a : Actuator} {i : Instr} {bs : List (List (Byte × Byte))} {rest : List Act}
    {j : Nat} (h : Launch s) (hb : s.bus = .open) (ha : ∀ k, a ≠ .stepper k)
    (hp : plan s.cfg i = .ok (.ofActs (bs.flatMap lockedActs ++ rest)))
    (hf : bs.flatten.length + 3 * bs.length + 1 ≤ opFuel i) (hj : j < bs.flatten.length) (hok : AnswersOk s j)
    (hbad : s.answerAt j = .busError) :
    s.submit a i = s.afterRun (.issue (.actuator a) i :: (failedWrites a bs.flatten j ++
      [.done (.actuator a) i (.busError i (some ⟨bs.flatten[j].1, some bs.flatten[j].2⟩) none)])) (j + 1) := by
  obtain ⟨n, hn⟩ : ∃ n, opFuel i = n + (bs.flatten.length + 3 * bs.length) + 1 :=
    ⟨opFuel i - 1 - (bs.flatten.length + 3 * bs.length), by omega⟩
  have hprogress : ∀ (u : State) (t : Task), u.progress a t = none := fun u t => by
    cases a with
    | controller | dc m => rfl
    | stepper k => exact absurd rfl (ha k)
  obtain ⟨_, todo, _, -, rfl, hset⟩ := settle_blocks_fail (n := n) (op := i) (g := .actuator a) (rest := rest) (m := 0) (c := 0)
    bs j hj ((h.alone a).afterRun [.issue (.actuator a) i] 0) hb h.lock_free
    (AnswersOk.afterRun (m := 0) (by rwa [Nat.zero_add]) _) (by rwa [answerAt_afterRun, Nat.zero_add])
  rw [submit_ofActs h a i hp hn, List.append_nil, hset, State.raiseBusError, endTask_locked ((h.afterRun _ _).afterRun _ _),
    settle_launch (((h.afterRun _ _).afterRun _ _).afterRun _ _), afterRun_afterRun, afterRun_afterRun, hprogress]
  simp

/-! ### The programs of the operations made of channel writes -/

/-- Operation `i` of agent `a` is queued and its program is the writes `ws`, in at most three groups under the lock, and behind
them at most an arming. -/
structure WritesOf (cfg : Config) (i : Instr) (a : Actuator) (ws : List (Byte × Byte)) : Prop where
  target : opTarget i = some a
  queued : queueable i = true
  fuel : opFuel i = 64
  notStepper : ∀ k, a ≠ .stepper k
  length : ws.length ≤ 12
  groups : ∃ (bs : List (List (Byte × Byte))) (rest : List Act), ws = bs.flatten ∧ bs.length ≤ 3 ∧
    plan cfg i = .ok (.ofActs (bs.flatMap lockedActs ++ rest))

/-- A program of one group. -/
theorem WritesOf.single {cfg : Config} {i : Instr} {a : Actuator} {ws : List (Byte × Byte)} (target : opTarget i = some a)
    (queued : queueable i = true) (fuel : opFuel i = 64) (notStepper : ∀ k, a ≠ .stepper k) (length : ws.length ≤ 12)
    (hp : plan cfg i = .ok (.ofActs (lockedActs ws))) : WritesOf cfg i a ws :=
  ⟨target, queued, fuel, notStepper, length, [ws], [], by simp, by simp, by simpa using hp⟩

theorem commandCode_of_command? {cmd : Int} {c : Command} (h : command? cmd = some c) : commandCode c = cmd := by
  have hc : needCommand cmd = .ok c := by rw [needCommand, h]; rfl
  rcases needCommand_cases cmd with ⟨-, x, hx, hcode⟩ | ⟨-, hx⟩
  · rw [hc] at hx
    cases hx
    exact hcode
  · rw [hc] at hx
    cases hx

/-- A legal pin value is the code of whether it is 1 (spec 40 R150). -/
theorem pinValue_eq {val : Int} (h : inRange 0 1 val = true) : val = if decide (val = 1) then 1 else 0 := by
  simp only [inRange, Bool.and_eq_true, decide_eq_true_eq] at h
  simp only [decide_eq_true_eq]
  split <;> omega

/-- A LEGAL OPERATION MADE OF CHANNEL WRITES has a program of its writes. -/
theorem writesOf_plainWrites {cfg : Config} {i : Instr} {a : Actuator} {ws : List (Byte × Byte)} (hwf : i.wellFormed = true)
    (h : plainWrites cfg i = some (a, ws)) : WritesOf cfg i a ws := by
  cases i with
  | init | setfreq | stspeed | onestep | step | runst => cases h
  | setall on off =>
    cases h
    exact .single rfl rfl rfl (by simp) (by simp [pairBytes]) (plan_setall cfg on off)
  | setch ch on off =>
    obtain ⟨c, hc, h⟩ := Option.map_eq_some_iff.mp h
    cases h
    obtain rfl := indexOf?_eq_some.mp hc
    exact .single rfl rfl rfl (by simp) (by simp [chanBytes, pairBytes]) (plan_setch cfg c on off)
  | setpin pin val =>
    obtain ⟨c, hc, h⟩ := Option.map_eq_some_iff.mp h
    cases h
    obtain rfl := indexOf?_eq_some.mp hc
    simp only [Instr.wellFormed, Bool.and_eq_true] at hwf
    have hp := plan_setpin cfg c (decide (val = 1))
    rw [← pinValue_eq hwf.2] at hp
    exact .single rfl rfl rfl (by simp) (by rw [pinBytes_eq]; simp [pairBytes]) hp
  | dcspeed m speed =>
    obtain ⟨k, hk, h⟩ := Option.map_eq_some_iff.mp h
    cases h
    obtain rfl := dcIndex?_eq_some.mp hk
    exact .single (opTarget_dcspeed k _) rfl rfl (by simp) (by simp [chanBytes, pairBytes]) (plan_dcspeed cfg k speed)
  | dcrun m cmd =>
    obtain ⟨k, hk, h⟩ := Option.bind_eq_some_iff.mp h
    obtain ⟨c, hc, h⟩ := Option.map_eq_some_iff.mp h
    cases h
    obtain rfl := dcIndex?_eq_some.mp hk
    obtain rfl := commandCode_of_command? hc
    obtain ⟨hcount, hlen⟩ := dcBlocks_length cfg.wiringDc[k] c
    exact ⟨opTarget_dcrun k _, rfl, rfl, by simp, by omega, dcBlocks cfg.wiringDc[k] c, [], (dcBlocks_flatten _ _).symm,
      by omega, by rw [List.append_nil]; exact plan_dcrun cfg k c⟩
  | rundc m cmd speed rt =>
    obtain ⟨k, hk, h⟩ := Option.bind_eq_some_iff.mp h
    obtain ⟨c, hc, h⟩ := Option.map_eq_some_iff.mp h
    cases h
    obtain rfl := dcIndex?_eq_some.mp hk
    obtain rfl := commandCode_of_command? hc
    simp only [Instr.wellFormed, Bool.and_eq_true] at hwf
    obtain ⟨hcount, hlen⟩ := dcBlocks_length cfg.wiringDc[k] c
    have hfour : (chanBytes cfg.wiringDc[k].pwm 0 (clampedSpeed speed * 16)).length = 4 := rfl
    exact ⟨opTarget_rundc k _ _ _, rfl, rfl, by simp, by rw [List.length_append, hfour]; omega,
      dcBlocks cfg.wiringDc[k] c ++ [speedBytes cfg.wiringDc[k] speed], armActs k rt,
      by rw [List.flatten_append, dcBlocks_flatten, List.flatten_singleton]; rfl,
      by rw [List.length_append, List.length_singleton]; omega, plan_rundc cfg k c speed hwf.2⟩

/-- Settles O46: the program of such an operation is its writes in groups under the lock, and the failing one ends it. -/
theorem writeBusError : Obligations.WriteBusError := by
  unfold Obligations.WriteBusError
  intro s i a ws j hj h hb hwf hws hok hbad
  obtain ⟨ht, hq, hfuel, ha, hlen, bs, rest, rfl, hcount, hp⟩ := writesOf_plainWrites hwf hws
  rw [exec_submit ht hq, submit_blocks_rest_fail h hb ha hp (by omega) hj hok hbad]

end Sys2Proof.Machine
end

section
/-! PROOFS. Errors are precise (spec 60 R261, R264): the first transaction that fails ends its operation, whose BusError reports
it, and no other BusError reports a transaction. -/

namespace Sys2Proof.Machine

/-- No transaction among the events failed. -/
def NoneFailed (evs : List Event) : Prop := ∀ e ∈ evs, failedTxn? e = none

theorem NoneFailed.nil : NoneFailed [] := fun _ he => absurd he List.not_mem_nil

theorem NoneFailed.append {u v : List Event} (hu : NoneFailed u) (hv : NoneFailed v) : NoneFailed (u ++ v) :=
  fun e he => (List.mem_append.mp he).elim (hu e) (hv e)

/-- The result `r` of operation `i` accounts for the events recorded before it: no transaction failed and `r` reports none; or the
last event is the one that failed, and `r` is the BusError that reports it. -/
inductive Accounts (i : Instr) : List Event → Result → Prop
  | clean {evs : List Event} {r : Result} : NoneFailed evs → (∀ x p, r ≠ .busError i (some x) p) → Accounts i evs r
  | failed {pre : List Event} {e : Event} {x : Txn} (p : Option Progress) : NoneFailed pre → failedTxn? e = some x →
      Accounts i (pre ++ [e]) (.busError i (some x) p)

/-- An event that failed is the last of those accounted for, and the one reported. -/
theorem Accounts.last {i : Instr} {pre post : List Event} {e : Event} {x : Txn} {r : Result}
    (h : Accounts i (pre ++ e :: post) r) (he : failedTxn? e = some x) : post = [] ∧ ∃ p, r = .busError i (some x) p := by
  generalize hevs : pre ++ e :: post = evs at h
  cases h with
  | clean hnone _ =>
    rw [hnone e (by simp [← hevs])] at he
    cases he
  | @failed pre' e' x' p hnone he' =>
    rcases List.eq_nil_or_concat post with rfl | ⟨post', z, rfl⟩
    · obtain ⟨-, h1⟩ := List.append_inj' hevs rfl
      cases h1
      rw [he] at he'
      cases he'
      exact ⟨rfl, p, rfl⟩
    · have hinit : pre ++ e :: post' = pre' := by
        rw [List.concat_eq_append, ← List.cons_append, ← List.append_assoc] at hevs
        exact (List.append_inj' hevs rfl).1
      rw [hnone e (by simp [← hinit])] at he
      cases he

/-- A transaction that is reported is one that failed. -/
theorem Accounts.reported {i : Instr} {evs : List Event} {x : Txn} {p : Option Progress}
    (h : Accounts i evs (.busError i (some x) p)) : ∃ e ∈ evs, failedTxn? e = some x := by
  cases h with
  | clean _ hr => exact absurd rfl (hr x p)
  | failed _ _ he => exact ⟨_, by simp, he⟩

/-- Operation `i` of agent `a`, issued in `s` and in progress as task `t`, has recorded `evs`, and no transaction failed. -/
structure Unfailed (s : State) (a : Actuator) (i : Instr) (evs : List Event) (u : State) (t : Task) : Prop where
  noneFailed : NoneFailed evs
  hist : u.hist = s.hist ++ .issue (.actuator a) i :: evs
  op : t.op = i
  by_ : t.by_ = .actuator a

/-- The run of operation `i` on agent `a`, issued in `s`: in progress with no transaction failed, or ended with a result that
accounts for its events. -/
def PreciseRun (s : State) (a : Actuator) (i : Instr) (u : State) : Prop :=
  ∃ evs, (∃ t, (u.worker a).task = some t ∧ Unfailed s a i evs u t) ∨
    ((u.worker a).task = none ∧
      ∃ r, u.hist = s.hist ++ .issue (.actuator a) i :: (evs ++ [.done (.actuator a) i r]) ∧ Accounts i evs r)

section preciseRun

variable {s u v : State} {a : Actuator} {i : Instr} {t : Task} {evs : List Event}

/-- One event more that is no failed transaction. -/
theorem Unfailed.add (h : Unfailed s a i evs u t) {e : Event} (he : failedTxn? e = none) (hv : v.hist = u.hist ++ [e]) :
    Unfailed s a i (evs ++ [e]) v t :=
  ⟨h.noneFailed.append (by simpa [NoneFailed] using he), by rw [hv, h.hist]; simp, h.op, h.by_⟩

/-- The operation goes on. -/
theorem Unfailed.running (h : Unfailed s a i evs u t) {t' : Task} (hv : v.hist = u.hist) (hop : t'.op = t.op)
    (hby : t'.by_ = t.by_) : PreciseRun s a i (v.setTask a (some t')) :=
  ⟨evs, .inl ⟨t', by simp, h.noneFailed, by rw [State.setTask_hist, hv, h.hist], hop.trans h.op, hby.trans h.by_⟩⟩

/-- The operation ends with a result that reports no transaction. -/
theorem Unfailed.ended (h : Unfailed s a i evs u t) {r : Result} (hr : ∀ x p, r ≠ .busError i (some x) p) :
    PreciseRun s a i (u.endTask a t r) :=
  ⟨evs, .inr ⟨State.task_endTask _ _ _ _, r, by rw [State.endTask_hist, h.hist, h.op, h.by_]; simp, .clean h.noneFailed hr⟩⟩

/-- The operation ends with the transaction that failed, which its BusError reports. -/
theorem Unfailed.fails (h : Unfailed s a i evs u t) {e : Event} {x : Txn} (he : failedTxn? e = some x)
    (hv : v.hist = u.hist ++ [e]) : PreciseRun s a i (v.raiseBusError a t (some x)) := by
  refine ⟨evs ++ [e], .inr ⟨State.task_endTask _ _ _ _, _, ?_, .failed (v.progress a t) h.noneFailed he⟩⟩
  rw [State.raiseBusError_hist, hv, h.hist, h.op, h.by_]
  simp

theorem Unfailed.tryWrite (h : Unfailed s a i evs u t) (r w : Byte) (rest : List Act) :
    PreciseRun s a i (u.tryWrite a t r w rest) := by
  have hhist := State.busWrite_hist u a r w
  unfold State.tryWrite
  split
  · next b hb => exact (h.add (by rw [hb]; rfl) hhist).running rfl rfl rfl
  · next hb => exact h.fails (by rw [hb]; rfl) hhist

theorem Unfailed.tryReadMode1 (h : Unfailed s a i evs u t) (rest : List Act) :
    PreciseRun s a i (u.tryReadMode1 a t rest) := by
  have hhist := State.busRead_hist u a regMode1
  unfold State.tryReadMode1
  split
  · next b hb => exact (h.add (by rw [hb]; rfl) hhist).running rfl rfl rfl
  · next hb => exact h.fails (by rw [hb]; rfl) hhist

/-- The end of a wait: it is recorded, or its operation is cancelled. -/
theorem Unfailed.seqWait (h : Unfailed s a i evs u t) (k : Fin 2) (rest : List Act) :
    PreciseRun s a i (u.seqWait a k t rest) := by
  unfold State.seqWait
  split
  · exact (h.add (e := .cancel k) rfl (State.log_hist _ _)).ended nofun
  · split
    · exact h.running rfl rfl rfl
    · exact (h.add (e := .wait a _) rfl rfl).running rfl rfl rfl

/-- An action keeps the operation precise. -/
theorem PreciseRun.act (hrun : PreciseRun s a i u) (x : Act) (rest : List Act) (ht : (u.worker a).task = some t) :
    PreciseRun s a i (u.runAct a t x rest) := by
  obtain ⟨evs, ⟨t', ht', h⟩ | ⟨hn, -⟩⟩ := hrun
  · rw [ht] at ht'
    cases ht'
    cases x with
    | write r w => exact h.tryWrite _ _ _
    | writeMode1 w => exact h.tryWrite _ _ _
    | readMode1 => exact h.tryReadMode1 _
    | seqWait k => exact h.seqWait _ _
    | wait q => exact (h.add (e := .wait a q) rfl (State.log_hist _ _)).running rfl rfl rfl
    | checkBus =>
      simp only [State.runAct]
      split
      · exact h.ended nofun
      · exact h.running rfl rfl rfl
    | acquire =>
      simp only [State.runAct]
      split
      · exact h.running rfl rfl rfl
      · exact ⟨evs, .inl ⟨t, ht, h⟩⟩
    | release => exact h.running (State.unlockFor_hist _ _) rfl rfl
    | arm m d => exact h.running rfl rfl rfl
    | oneStep k d y => exact h.running rfl rfl rfl
    | seqTest k => exact h.running (State.hist_seqTest _ _) rfl rfl
    | seqCount k => exact h.running (State.hist_seqCount _ _) rfl rfl
  · rw [ht] at hn
    cases hn

/-- The end of a program keeps the operation precise. -/
theorem PreciseRun.finish (hrun : PreciseRun s a i u) (ht : (u.worker a).task = some t) :
    PreciseRun s a i (u.finish a t) := by
  obtain ⟨evs, ⟨t', ht', h⟩ | ⟨hn, -⟩⟩ := hrun
  · rw [ht] at ht'
    cases ht'
    unfold State.finish
    split
    · exact h.ended nofun
    · exact h.ended nofun
  · rw [ht] at hn
    cases hn

end preciseRun

/-- The start of an operation records nothing, or its BusError on a Failed handle. -/
theorem PreciseRun.begin (s : State) (a : Actuator) (i : Instr) (p : Plan) :
    PreciseRun s a i ((s.log (.issue (.actuator a) i)).begin a i p) := by
  have h : Unfailed s a i [] (s.log (.issue (.actuator a) i)) (Task.fresh i (.actuator a) p.todo) := ⟨.nil, rfl, rfl, rfl⟩
  unfold State.begin
  dsimp only
  split
  · exact h.running rfl rfl rfl
  · exact h.running rfl rfl rfl
  · exact h.running rfl rfl rfl
  · split
    · exact h.ended nofun
    · exact h.running rfl rfl rfl

/-- A queued operation on a block at rest ends with a result that accounts for what it recorded. -/
theorem Launch.submit_accounts {s : State} (h : Launch s) {a : Actuator} {i : Instr} (ht : opTarget i = some a)
    (hq : queueable i = true) :
    ∃ evs r, (s.submit a i).hist = s.hist ++ .issue (.actuator a) i :: (evs ++ [.done (.actuator a) i r]) ∧
      Accounts i evs r := by
  have hrun : PreciseRun s a i (s.submit a i) := by
    refine h.submit_run ht hq (fun c _ => ?_) (fun p _ => .begin s a i p)
      (fun u t x rest hJ htask _ => hJ.act x rest htask) (fun u t hJ htask _ => hJ.finish htask)
    exact ⟨[], .inr ⟨by rw [State.worker_log, State.worker_log, h.worker_idle]; rfl, .configurationError i c,
      List.append_assoc _ _ _, .clean .nil nofun⟩⟩
  obtain ⟨evs, ⟨t, htask, -⟩ | ⟨-, r, hh, hr⟩⟩ := hrun
  · rw [(h.submit_ends ht hq).2] at htask
    cases htask
  · exact ⟨evs, r, hh, hr⟩

/-- STSPEED, performed at once, makes no transaction and reports none. -/
theorem speedNow_accounts (s : State) (j : Fin 2) (i : Instr) (check : Except Cause (Fin 2 × Nat)) :
    ∃ g r, (s.speedNow j i check).hist = s.hist ++ .issue g i :: ([] ++ [.done g i r]) ∧ Accounts i [] r := by
  simp only [State.speedNow]
  repeat' split
  · exact ⟨_, _, List.append_assoc _ _ _, .clean .nil nofun⟩
  · exact ⟨_, _, List.append_assoc _ _ _, .clean .nil nofun⟩
  · exact ⟨_, _, List.append_assoc _ _ _, .clean .nil nofun⟩

/-- EVERY OPERATION ISSUED TO A BLOCK AT REST ends with a result that accounts for what it recorded. -/
theorem Launch.exec_accounts {s t : State} {i : Instr} (h : Launch s) (he : exec i s = .next t) :
    ∃ g evs r, t.hist = s.hist ++ .issue g i :: (evs ++ [.done g i r]) ∧ Accounts i evs r := by
  rcases exec_cases he with ⟨a, ha, hq, rfl⟩ | ⟨j, k, rpm, -, -, rfl⟩ | ⟨c, -, rfl⟩
  · exact ⟨_, h.submit_accounts ha hq⟩
  · obtain ⟨g, r, hr⟩ := speedNow_accounts s j i (checkStspeed k rpm)
    exact ⟨g, [], r, hr⟩
  · exact ⟨.host, [], .configurationError i c, List.append_assoc _ _ _, .clean .nil nofun⟩

/-- Settles O48: the result accounts for the events, and the history fixes both. -/
theorem errorsArePrecise : Obligations.ErrorsArePrecise := by
  unfold Obligations.ErrorsArePrecise
  intro s t i g evs r h he hh
  obtain ⟨g', evs', r', hh', hr⟩ := h.exec_accounts he
  obtain ⟨-, htail⟩ := List.cons.inj (List.append_cancel_left (hh.symm.trans hh'))
  obtain ⟨rfl, hdone⟩ := List.append_inj' htail rfl
  cases hdone
  exact ⟨fun pre post e x hevs hx => (hevs ▸ hr).last hx, fun x p hx => (hx ▸ hr).reported⟩

end Sys2Proof.Machine
end

section
/-! PROOFS. Runs (spec 70 R305): the invariants along a run, what a fair schedule gives (20 R72, R75, 70 R303), and the end of
every run to which finitely many records come (60 R276, 42 R234). -/

namespace Sys2Proof.Machine

/-! ### The invariants along a run -/

theorem TasksOwned.fed {s : State} (h : TasksOwned s) (x : Feed) : TasksOwned (s.fed x) := h.of_worker (State.fed_worker s x)

theorem LockDiscipline.fed {s : State} (h : LockDiscipline s) (x : Feed) : LockDiscipline (s.fed x) := by
  rw [lockDiscipline_iff] at h ⊢
  intro a
  rw [State.fed_lock, State.fed_worker]
  exact h a

theorem SequencerInv.fed {s : State} (h : SequencerInv s) (x : Feed) : SequencerInv (s.fed x) := by
  rw [sequencerInv_iff] at h ⊢
  exact ⟨h.1.fed x, h.2⟩

section runs

variable {f : Nat → Feed} {r : Nat → State}

theorem IsRun.sequencerInv (hr : IsRun f r) (h : SequencerInv (r 0)) (n : Nat) : SequencerInv (r n) :=
  hr.induct (fun _ x hs => hs.fed x) (fun _ _ => SequencerInv.closed.of_step) h n

theorem IsRun.tasksOwned_lockDiscipline (hr : IsRun f r) (ho : TasksOwned (r 0)) (h : LockDiscipline (r 0)) (n : Nat) :
    TasksOwned (r n) ∧ LockDiscipline (r n) :=
  hr.induct (fun _ x hs => ⟨hs.1.fed x, hs.2.fed x⟩) (fun _ _ => LockDiscipline.closed.of_step) ⟨ho, h⟩ n

/-! ### The work of a run -/

/-- A feed without records adds no work. -/
theorem State.fed_work (s : State) {x : Feed} (hx : x.records = []) : (s.fed x).work = s.work := by
  have hcost : ∀ a, (s.fed x).workerCost a = s.workerCost a := fun a =>
    workerCost_of_eq (State.fed_worker s x a) rfl (State.keyOf_congr rfl a) (State.posOf_congr rfl a)
  have harmed : (s.fed x).armedCost = s.armedCost := rfl
  simp only [State.work, funext hcost, harmed, State.fed_inbox, State.fed_cfg, hx, List.append_nil]

theorem launch_of_fed_idle {s : State} (hl : LockDiscipline s) (h : SequencerInv s) {x : Feed} (hm : (s.fed x).movers = []) :
    Launch s := by
  obtain ⟨hfinal, hinbox⟩ := launch_of_idle (hl.fed x) (h.fed x) hm
  exact ⟨hfinal, (List.append_eq_nil_iff.mp hinbox).1⟩

/-- The work falls until nobody can move. -/
theorem IsRun.reaches_idle (hr : IsRun f r) (h : SequencerInv (r 0)) {n : Nat} (hf : ∀ m, n ≤ m → (f m).records = []) :
    ∃ m, n ≤ m ∧ ((r m).fed (f m)).movers = [] := by
  induction hw : (r n).work using Nat.strongRecOn generalizing n with
  | ind w ih =>
    by_cases hm : ((r n).fed (f n)).movers = []
    · exact ⟨n, le_refl n, hm⟩
    · have hfall := step_work SequencerInv.closed ((hr.sequencerInv h n).fed (f n)) (hr n) hm
      rw [State.fed_work _ (hf n (le_refl n)), hw] at hfall
      obtain ⟨m, hnm, hidle⟩ := ih _ hfall (fun m hnm => hf m (Nat.le_of_succ_le hnm)) rfl
      exact ⟨m, Nat.le_of_succ_le hnm, hidle⟩

/-! ### An agent that stays able to move -/

/-- An agent that has something to do and does not wait for the lock has a move. -/
theorem canTick_of_not_wantsLock {s : State} {a : Actuator} (hne : s.worker a ≠ Worker.idle) (hw : s.wantsLock a = false) :
    s.canTick a = true := by
  unfold State.wantsLock at hw
  unfold State.canTick
  cases hwork : s.worker a with
  | mk queue task =>
    rw [hwork] at hne hw
    cases task with
    | some t => simp only [show t.wantsLock = false from hw, Bool.not_false, Bool.true_or]
    | none =>
      cases queue with
      | nil => exact absurd rfl hne
      | cons i rest => rfl

/-- Under a fair schedule an agent is chosen if, until it is, a property stays that lets it move. -/
theorem AgentsFair.chosen (hf : AgentsFair f r) {g : Agent} {P : State → Prop}
    (enabled : ∀ n, P (r n) → EnabledAt f r n g) (keep : ∀ n, P (r n) → chosenAt f r n ≠ some g → P (r (n + 1)))
    {n : Nat} (hn : P (r n)) : ∃ m, n ≤ m ∧ chosenAt f r m = some g ∧ P (r m) := by
  by_contra hno
  have hP : ∀ m, n ≤ m → P (r m) := fun m hm =>
    Nat.le_induction hn (fun m hm ih => keep m ih fun hc => hno ⟨m, hm, hc, ih⟩) m hm
  obtain ⟨m, hm, hc | he⟩ := hf n g (enabled n hn)
  · exact hno ⟨m, hm, hc, hP m hm⟩
  · exact he (enabled m (hP m hm))

theorem enabledAt_actuator {n : Nat} {a : Actuator} : EnabledAt f r n (.actuator a) ↔ (r n).canTick a = true := by
  rw [← State.fed_canTick (r n) (f n) a]
  exact mem_movers _ (.actuator a)

/-- The host is chosen while it has a record to issue: only its own step takes one. -/
theorem AgentsFair.host_chosen (hf : AgentsFair f r) (hr : IsRun f r) {n : Nat} (hn : (r n).inbox ≠ []) :
    ∃ m, n ≤ m ∧ chosenAt f r m = some .host := by
  have enabled : ∀ n, (r n).inbox ≠ [] → EnabledAt f r n .host := fun n h =>
    (mem_movers _ .host).mpr (by simp [State.hostCan, h])
  have keep : ∀ n, (r n).inbox ≠ [] → chosenAt f r n ≠ some .host → (r (n + 1)).inbox ≠ [] := fun n h hch => by
    rcases step_inbox (hr n) with ⟨hhost, -⟩ | ⟨-, hi⟩
    · exact absurd hhost hch
    · rw [hi, State.fed_inbox]
      exact List.append_ne_nil_of_left_ne_nil h _
  obtain ⟨m, hm, hch, -⟩ := hf.chosen (P := fun s => s.inbox ≠ []) enabled keep hn
  exact ⟨m, hm, hch⟩

/-- An agent that has a move and does not wait for the lock is chosen. -/
theorem AgentsFair.mover_chosen (hf : AgentsFair f r) (hr : IsRun f r) (ho : ∀ n, TasksOwned (r n)) {n : Nat} {a : Actuator}
    (hc : (r n).canTick a = true) (hw : (r n).wantsLock a = false) :
    ∃ m, n ≤ m ∧ chosenAt f r m = some (.actuator a) := by
  have keep : ∀ n, (r n).canTick a = true ∧ (r n).wantsLock a = false → chosenAt f r n ≠ some (.actuator a) →
      (r (n + 1)).canTick a = true ∧ (r (n + 1)).wantsLock a = false := fun n ⟨hc, hw⟩ hch => by
    obtain ⟨hc', hw', -⟩ := step_keeps_move ((ho n).fed (f n)) (hr n) ((State.fed_canTick _ _ a).trans hc)
      ((State.fed_wantsLock _ _ a).trans hw) hch
    exact ⟨hc', hw'⟩
  obtain ⟨m, hm, hch, -⟩ := hf.chosen (P := fun s => s.canTick a = true ∧ s.wantsLock a = false)
    (fun n h => enabledAt_actuator.mpr h.1) keep ⟨hc, hw⟩
  exact ⟨m, hm, hch⟩

/-! ### The lock becomes free -/

/-- A program is bracketed from one side only. -/
theorem bracketed_inj {i j : Bool} {l : List Act} (hi : bracketed i l = true) (hj : bracketed j l = true) : i = j := by
  cases l with
  | nil => exact Bool.not_inj (hi.trans hj.symm)
  | cons act rest =>
    cases act with
    | release | write | readMode1 | writeMode1 | wait =>
      exact (Bool.and_eq_true_iff.mp hi).1.trans (Bool.and_eq_true_iff.mp hj).1.symm
    | _ => exact Bool.not_inj ((Bool.and_eq_true_iff.mp hi).1.trans (Bool.and_eq_true_iff.mp hj).1.symm)

/-- Inside the lock the next action takes one from the program, and does not take the lock. -/
theorem bracketed_inside {l : List Act} (h : bracketed true l = true) :
    ∃ act rest, l = act :: rest ∧ act ≠ .acquire ∧ (∀ s, unfoldsTo s act = []) := by
  cases l with
  | nil => cases h
  | cons act rest =>
    refine ⟨act, rest, rfl, ?_, fun s => ?_⟩
    · rintro rfl; cases h
    · cases act with
      | oneStep | seqTest => cases h
      | _ => rfl

/-- The holder of the lock is inside a PwmController operation. -/
theorem LockDiscipline.holder {s : State} (h : LockDiscipline s) {b : Actuator} (hb : s.lock = .held b) :
    ∃ t, (s.worker b).task = some t ∧ bracketed true t.todo = true := by
  have hat := (lockDiscipline_iff s).mp h b
  cases ht : (s.worker b).task with
  | none => rw [ht, lockAt_none] at hat; exact absurd hb hat
  | some t => rw [ht, lockAt_some, decide_eq_true hb] at hat; exact ⟨t, rfl, hat⟩

/-- The holder of the lock can move. -/
theorem LockDiscipline.holder_canTick {s : State} (h : LockDiscipline s) {b : Actuator} (hb : s.lock = .held b) :
    s.canTick b = true := by
  obtain ⟨t, ht, hbr⟩ := h.holder hb
  obtain ⟨act, rest, hto, hact, -⟩ := bracketed_inside hbr
  have hw : t.wantsLock = false := by
    unfold Task.wantsLock
    rw [hto]
    cases act with
    | acquire => exact absurd rfl hact
    | _ => rfl
  simp [State.canTick, ht, hw]

/-- A step that chooses another agent leaves the holder its lock and its operation. -/
theorem step_keeps_holder {s t : State} {b : Actuator} (ho : TasksOwned s) (hl : LockDiscipline s) (h : step s = .next t)
    (hb : s.lock = .held b) (hn : s.pick s.movers ≠ some (.actuator b)) :
    t.lock = .held b ∧ (t.worker b).task = (s.worker b).task := by
  obtain ⟨htask, -⟩ := step_keeps ho h (hl.holder_canTick hb) hn
  obtain ⟨u, hu, hbr⟩ := hl.holder hb
  have hat := (lockDiscipline_iff t).mp (LockDiscipline.closed.of_step ⟨ho, hl⟩ h).2 b
  rw [htask, hu, lockAt_some] at hat
  exact ⟨of_decide_eq_true (bracketed_inj hat hbr), htask⟩

/-- A move of the holder frees the lock, or leaves it a shorter program. -/
theorem tick_holder {s : State} {b : Actuator} {t : Task} (ho : TasksOwned s) (hl : LockDiscipline s) (hb : s.lock = .held b)
    (ht : (s.worker b).task = some t) : (s.tick b).lock = .free ∨
      (s.tick b).lock = .held b ∧ ∃ u, ((s.tick b).worker b).task = some u ∧ u.todo.length < t.todo.length := by
  obtain ⟨t', ht', hbr⟩ := hl.holder hb
  cases ht.symm.trans ht'
  obtain ⟨act, rest, hto, hact, hunfold⟩ := bracketed_inside hbr
  obtain ⟨-, -, hcases⟩ := tick_workers s b ho
  rcases hcases with ⟨-, hlock | ⟨-, hnone⟩⟩ | ⟨hnone, -⟩ | ⟨t₁, act₁, rest₁, ht₁, hto₁, hacq, -⟩ |
    ⟨t₁, act₁, rest₁, u, ht₁, hto₁, hu, hut, hlock, -⟩
  · exact .inl (by rw [hlock, if_pos hb])
  · rw [ht] at hnone; cases hnone
  · rw [ht] at hnone; cases hnone
  · cases ht.symm.trans ht₁
    obtain ⟨rfl, -⟩ := List.cons.inj (hto.symm.trans hto₁)
    exact absurd hacq hact
  · cases ht.symm.trans ht₁
    obtain ⟨rfl, rfl⟩ := List.cons.inj (hto.symm.trans hto₁)
    have hshort : u.todo.length < t.todo.length := by rw [hut, hunfold, hto]; exact Nat.lt_succ_self _
    rw [hlock, hb]
    cases act with
    | release => exact .inl (if_pos rfl)
    | _ => exact .inr ⟨rfl, u, hu, hshort⟩

/-- The step that chooses an agent is its move. -/
theorem IsRun.next_of_chosen (hr : IsRun f r) {n : Nat} {a : Actuator} (h : chosenAt f r n = some (.actuator a)) :
    r (n + 1) = ((r n).fed (f n)).takeTurn.tick a :=
  (Host_next_inj _ _).mp ((hr n).symm.trans (step_of_pick h))

/-- THE LOCK DOES NOT STAY HELD: its holder is chosen again and again, and each of its moves shortens its program. -/
theorem AgentsFair.lock_freed (hf : AgentsFair f r) (hr : IsRun f r)
    (hinv : ∀ n, TasksOwned (r n) ∧ LockDiscipline (r n)) {n : Nat} {b : Actuator} {t : Task} (hb : (r n).lock = .held b)
    (ht : ((r n).worker b).task = some t) : ∃ m, n ≤ m ∧ (r m).lock = .free := by
  induction hlen : t.todo.length using Nat.strongRecOn generalizing n t with
  | ind len ih =>
    have keep : ∀ n, (r n).lock = .held b ∧ ((r n).worker b).task = some t → chosenAt f r n ≠ some (.actuator b) →
        (r (n + 1)).lock = .held b ∧ ((r (n + 1)).worker b).task = some t := fun n ⟨hb, ht⟩ hch => by
      obtain ⟨ho, hl⟩ := hinv n
      obtain ⟨hb', htask⟩ := step_keeps_holder (ho.fed (f n)) (hl.fed (f n)) (hr n) hb hch
      exact ⟨hb', by rw [htask, State.fed_worker, ht]⟩
    obtain ⟨m, hm, hch, hbm, htm⟩ := hf.chosen (P := fun s => s.lock = .held b ∧ (s.worker b).task = some t)
      (fun n h => enabledAt_actuator.mpr ((hinv n).2.holder_canTick h.1)) keep ⟨hb, ht⟩
    obtain ⟨ho, hl⟩ := LockDiscipline.closed.turn _ ⟨(hinv m).1.fed (f m), (hinv m).2.fed (f m)⟩
    have hmove := tick_holder ho hl hbm (by rw [State.takeTurn_worker, State.fed_worker, htm])
    rw [← hr.next_of_chosen hch] at hmove
    obtain hfree | ⟨hb', u, hu, hshort⟩ := hmove
    · exact ⟨m + 1, Nat.le_succ_of_le hm, hfree⟩
    · obtain ⟨k, hk, hfree⟩ := ih _ (hlen ▸ hshort) hb' hu rfl
      exact ⟨k, by omega, hfree⟩

/-- Under a fair schedule the lock is free infinitely often. -/
theorem AgentsFair.lock_free_infinitely_often (hf : AgentsFair f r) (hr : IsRun f r)
    (hinv : ∀ n, TasksOwned (r n) ∧ LockDiscipline (r n)) (n : Nat) : ∃ m, n ≤ m ∧ (r m).lock = .free := by
  cases hlock : (r n).lock with
  | free => exact ⟨n, le_refl n, hlock⟩
  | held b =>
    obtain ⟨t, ht, -⟩ := (hinv n).2.holder hlock
    exact hf.lock_freed hr hinv hlock ht

end runs

/-! ### Fair runs, and the end of a run -/

/-- Settles O56: the work, which no record adds to from `N` on, falls until nobody can move, and then the block is at rest. -/
theorem runsEnd : Obligations.RunsEnd := by
  unfold Obligations.RunsEnd
  intro f r N hr hl hs hf
  obtain ⟨n, hn, hidle⟩ := hr.reaches_idle hs hf
  exact ⟨n, hn, launch_of_fed_idle (hr.tasksOwned_lockDiscipline hs.2.1 hl n).2 (hr.sequencerInv hs n) hidle⟩

/-- Settles O55: an agent with something to do waits for the lock, which is free infinitely often, or keeps its move. -/
theorem fairRuns : Obligations.FairRuns := by
  unfold Obligations.FairRuns
  rintro f r hr ho hl ⟨hagents, -, hlockFair⟩
  have hinv := hr.tasksOwned_lockDiscipline ho hl
  refine ⟨fun n a hne => ?_, fun n hn => hagents.host_chosen hr hn⟩
  cases hw : (r n).wantsLock a with
  | true => exact hlockFair n a hw (hagents.lock_free_infinitely_often hr hinv)
  | false => exact hagents.mover_chosen hr (fun n => (hinv n).1) (canTick_of_not_wantsLock hne hw) hw

end Sys2Proof.Machine
end
